-- ==== Sys2Proof/Word.lean ====
section
/-!
DEFINITION. The words, beats and addresses of the Imlyn (R5, R32, R200), and the plainest slices of them.
-/
namespace Sys2Proof

/-- The value of a word token: 32 bits (R32). -/
abbrev Word := BitVec 32
/-- A 64-bit instruction, literal or configuration word (R52, R56). -/
abbrev DWord := BitVec 64
/-- The value of a beat token: 1,024 bits (R32). -/
abbrev Beat := BitVec 1024
/-- One byte of memory. -/
abbrev Byte := BitVec 8
/-- A record tag: 24 bits (R32, R33). -/
abbrev RTag := BitVec 24
/-- A fault or refusal cause: 9 bits used of the record's field (R340, R420). -/
abbrev Cause := BitVec 12

/-- Field of `n` bits at bit `lo` of a literal or configuration word. -/
def DWord.field (l : DWord) (lo n : Nat) : BitVec n := l.extractLsb' lo n

/-- A field of `n` bits put at bit `lo` of a 64-bit word. -/
def pos {n : Nat} (x : BitVec n) (lo : Nat) : DWord := x.setWidth 64 <<< lo

end Sys2Proof
end

