-- ==== Sys2Proof/Syntax.lean ====
section
/-!
DEFINITION. The syntax: every row of the table of operations and events, a constructor of `Instr`. A node
instruction holds its operands (`Ops`, R56-R63) and the typed fields of its modifier and literal; an event of
the device holds the places and words it acts on; a firmware command acts on the command words that stand in the
mailbox (State), so its constructor holds none.
-/
namespace Sys2Proof

/-- The constants of source selectors 20-27 (R60). -/
inductive Konst where
  | one | m1 | two | half | pinf | ninf | sign | fone
  deriving DecidableEq, Repr

/-- A source selector (R60); `link` is the matrix node's selector 8 (R147). -/
inductive Sel where
  | pop (q : BitVec 2)
  | peek (q : BitVec 2)
  | x (k : BitVec 3)
  | litLo
  | litHi
  | zero
  | tag
  | konst (c : Konst)
  | link
  deriving DecidableEq, Repr

/-- The guard field (R58). -/
inductive Guard where
  | none | popT | popF | peekT | peekF
  deriving DecidableEq, Repr

/-- The sequencer action (R59); `branch` holds BRT. -/
inductive Nxt where
  | next
  | stay
  | branch (brt : BitVec 2)
  | mark
  deriving DecidableEq, Repr

/-- A consumer slot (R61): `lane` holds the distance minus one and the LANE field. -/
inductive Slot where
  | none
  | queue (node : BitVec 6) (q : BitVec 2) (last : Bool)
  | lane (dist : BitVec 2) (last : Bool) (l : BitVec 5)
  | reg (node : BitVec 6) (k : BitVec 3)
  | ctl (node : BitVec 6)
  deriving DecidableEq, Repr

/-- What every node instruction word holds besides its opcode, modifier and literal fields (R56).
`lit` is the literal when only selectors 16 and 17 use it (R57). -/
structure Ops where
  grd : Guard := .none
  nxt : Nxt := .next
  a   : Sel := .zero
  b   : Sel := .zero
  d0  : Slot := .none
  d1  : Slot := .none
  lit : Option DWord := Option.none
  deriving DecidableEq, Repr

/-- Lane width of an integer type (R106). -/
inductive Wid where
  | w32 | w16 | w8
  deriving DecidableEq, Repr

/-- An integer type of MOD (R106). -/
structure IntTy where
  sat : Bool
  uns : Bool
  w   : Wid
  deriving DecidableEq, Repr

/-- Rounding codes (R79). -/
inductive Rnd where
  | rne | rtz | rup | rdn
  deriving DecidableEq, Repr

/-- CMP conditions (R109). -/
inductive CmpCond where
  | eq | ne | ltI | leI | gtI | geI | ltN | leN | gtN | geN
  deriving DecidableEq, Repr

/-- FCMP and VCMP conditions (R113, R131). -/
inductive FCond where
  | eq | ne | lt | le | gt | ge | un | or
  deriving DecidableEq, Repr

/-- OCMP conditions (R121). -/
inductive OCond where
  | eq | ne | lt | le | gt | ge
  deriving DecidableEq, Repr

/-- The kinds of ACC (R112). -/
inductive AccKind where
  | wrap
  | sat
  | f32 (r : Rnd)
  deriving DecidableEq, Repr

/-- Format codes 0-14 (R72). -/
inductive Fmt where
  | f32 | f16 | bf16 | e4m3 | e5m2 | mx4 | i8 | i16 | i32 | n8 | n16 | n32 | sd4 | sd8 | sd16
  deriving DecidableEq, Repr

/-- The conversion literal of CVT and VCVT (R114, R135). -/
structure Cvt where
  sat  : Bool
  rnd  : Rnd
  dst  : Fmt
  src  : Fmt
  deriving DecidableEq, Repr

/-- Digits of an SDCVT number (R118). -/
inductive SdLen where
  | sd4 | sd8 | sd16
  deriving DecidableEq, Repr

/-- Digits in each token of SDCVT (R118). -/
inductive SdChunk where
  | c8 | c4 | c2 | c1
  deriving DecidableEq, Repr

/-- Key kinds of MERGE2 (R176). -/
inductive MKey where
  | i32 | n32 | f32 | x
  deriving DecidableEq, Repr

/-- Element types of the lane node (R126). -/
inductive LaneTy where
  | f32 | f16 | bf16 | i32
  deriving DecidableEq, Repr

/-- The group literal of the reductions (R138). -/
structure Group where
  base : BitVec 32
  span : BitVec 16
  deriving DecidableEq, Repr

/-- A tile range: first beat, beats minus one, tile slot (R144, R254). -/
structure Tile where
  count : BitVec 6
  start : BitVec 6
  tile  : BitVec 6
  deriving DecidableEq, Repr

/-- Formats of the matrix node (R151). -/
inductive MFmt where
  | bf16 | e4m3 | e5m2 | mx4
  deriving DecidableEq, Repr

/-- The scope codes of R238: the header's default, or one of five scopes; `bad` stands for 6 and 7. -/
inductive ScopeSel where
  | dflt | row | cluster | die | package | system | bad6 | bad7
  deriving DecidableEq, Repr

/-- The stream literal of SDEF and SRUN (R238). -/
structure StreamLit where
  widx  : BitVec 2
  wbank : BitVec 5
  qbank : BitVec 5
  scope : ScopeSel
  cls   : BitVec 4
  owned : Bool
  pgsz  : BitVec 2
  esz   : BitVec 3
  dims  : BitVec 2
  qseg  : BitVec 4
  deriving DecidableEq, Repr

/-- ATOM operations (R246); `bad` stands for 11-15. -/
inductive AtomOp where
  | add | minI | maxI | minN | maxN | and | or | xor | swap | cas | fadd | bad (c : BitVec 4)
  deriving DecidableEq, Repr

/-- CPY operations (R252). -/
inductive CpyOp where
  | cpy | addF32 | addBf16 | maxF32
  deriving DecidableEq, Repr

/-- The literal of BMODE (R250). -/
structure BankModeLit where
  basehi : BitVec 23
  scope  : ScopeSel
  ento   : BitVec 2
  ente   : BitVec 2
  nseg   : BitVec 4
  pcode  : BitVec 2
  mode   : BitVec 2
  deriving DecidableEq, Repr

/-- The controller configuration (R354). -/
structure CtlCfg where
  k      : BitVec 3
  nch1   : BitVec 3
  pos    : BitVec 3
  parent : BitVec 6
  id     : BitVec 6
  deriving DecidableEq, Repr

/-- A row of the device: compute die 0-3, cluster 0-11, row 0-27 (R13). -/
structure RowId where
  die : Nat
  cl  : Nat
  row : Nat
  deriving DecidableEq, Repr, Inhabited

/-- A node of a row: node index 0-37 (R13). -/
structure NodeId where
  row  : RowId
  node : Nat
  deriving DecidableEq, Repr, Inhabited

/-- A slot of a node's instruction store (R53). -/
structure Loc where
  nd   : NodeId
  slot : Nat
  deriving DecidableEq, Repr

/-- Who writes a launch window or asks for context memory: a fabric node, the firmware monitor for an
application core, or the firmware itself (R43, R388, R391). -/
inductive Agent where
  | node (n : BitVec 16)
  | core (h : Nat)
  | firmware
  deriving DecidableEq, Repr

/-- A place where banks are evacuated: a cluster's SRAM, or one row's register file (R311, R314). -/
structure BankPlace where
  die : Nat
  cl  : Nat
  row : Option Nat
  deriving DecidableEq, Repr

/-- A physical bank: an SRAM bank of a cluster or a register bank of a row (R16, R308). -/
structure BankId where
  place : BankPlace
  phys  : Nat
  deriving DecidableEq, Repr

/-- A fabric request for context memory (R388). -/
structure HostReq where
  node  : BitVec 16
  owner : BitVec 12
  addr  : DWord
  len   : Nat
  deriving DecidableEq, Repr

/-- A merge contribution on its way to the root hub (R392, R393): `void` for a frozen member (R394). -/
structure MergePkt where
  mid    : Nat
  member : Nat
  k      : BitVec 32
  gen    : BitVec 16
  void   : Bool
  data   : List Byte
  deriving DecidableEq, Repr, Inhabited

/-- The steps of the device: one constructor for each row of the table of operations and events. -/
inductive Instr where
  | launchWordWrite (die : Nat) (graph : Bool) (w : BitVec 3) (v : DWord) (who : Agent)
  | launchSubmit (die : Nat) (v : DWord) (who : Agent)
  | graphSubmit (die : Nat) (v : DWord) (who : Agent)
  | replayStart (die g : Nat)
  | placement (die : Nat)
  | blockFetch (die f : Nat)
  | firingCompletion (n : NodeId) (id : Nat)
  | firingStep (n : NodeId) (id : Nat)
  | waveClose (n : NodeId)
  | groupDelivery (l : Loc)
  | markerForward (n : NodeId)
  | doneEvent (n : NodeId)
  | ingressForward (r : RowId) (lane : Nat)
  | rmergeTake (l : Loc) (arm : Bool)
  | killArrival (l : Loc) (k : Nat)
  | memoryReply (n : NodeId) (id : Nat)
  | windowFill (die cl bank w : Nat)
  | tlbLookup (n : NodeId) (id : Nat)
  | pageWalkComplete (die slice k : Nat)
  | translationFreeze (die reg : Nat)
  | bmodeSwitch (die cl bank : Nat)
  | engineRequestAccept (die cl bank seg : Nat)
  | engineResponse (die cl bank seg : Nat)
  | randtTicket (slot : Nat)
  | ringRefill (slot : Nat)
  | retirementRequest (b : BankId)
  | retirementThreshold (b : BankId)
  | retirement (p : BankPlace)
  | gavotteLineCopy (p : BankPlace)
  | evacuationComplete (p : BankPlace)
  | overCapacityPoint (die reg : Nat)
  | permitWindow (die : Nat)
  | controllerDecision (die cl c : Nat)
  | enableArrival (die cl k : Nat)
  | doneArrival (die cl k : Nat)
  | finalWord (die cl k : Nat)
  | watchdogExpiry (die reg : Nat)
  | freezeComplete (die reg : Nat)
  | faultRecordDelivery (owner : BitVec 12)
  | yieldPoint (die reg : Nat)
  | treeGrant (n : NodeId)
  | nodeSwitch (n : NodeId)
  | shadowLoad (r : RowId)
  | triggerInject (die band : Nat)
  | wrapDeparture (die band lane : Nat)
  | feedbackDelivery (die band ch : Nat)
  | bandReform (die band : Nat)
  | rowFree (r : RowId)
  | stageChoice (r : RowId)
  | launchComplete (die band : Nat)
  | flitReceive (link : Nat) (bytes : List Byte)
  | linkDown (link : Nat)
  | hostMemoryRead (rq : HostReq)
  | hostMemoryWrite (rq : HostReq) (data : List Byte)
  | mergeContributionSend (mid mem : Nat)
  | mergeContribution (p : MergePkt)
  | parityDelta (gid : Nat) (blk : Nat) (delta : List Byte)
  | parityRebuild (gid : Nat) (blk : Nat) (others : List (List Byte)) (chk : List (BitVec 32))
  | notifyWindowWrite (core : Nat) (off : Nat) (v : Word)
  | appClusterRequest (core : Nat) (pa : Nat) (wr : Option (List Byte)) (len : Nat)
  | launchCall (core die : Nat) (rec : List DWord)
  | add (o : Ops) (ty : IntTy)
  | sub (o : Ops) (ty : IntTy)
  | mul (o : Ops) (ty : IntTy)
  | mulh (o : Ops) (ty : IntTy)
  | mad (o : Ops) (ty : IntTy) (c : Sel)
  | neg (o : Ops) (ty : IntTy)
  | abs (o : Ops) (ty : IntTy)
  | min (o : Ops) (ty : IntTy)
  | max (o : Ops) (ty : IntTy)
  | band (o : Ops)
  | bor (o : Ops)
  | bxor (o : Ops)
  | bandn (o : Ops)
  | bnot (o : Ops)
  | shl (o : Ops)
  | shr (o : Ops)
  | sar (o : Ops)
  | rol (o : Ops)
  | clz (o : Ops)
  | popc (o : Ops)
  | bfx (o : Ops) (uns : Bool)
  | bfi (o : Ops) (c : Sel)
  | cmp (o : Ops) (cc : CmpCond)
  | sel (o : Ops)
  | mov (o : Ops)
  | ldi (o : Ops) (v : BitVec 64)
  | acc (o : Ops) (k : AccKind)
  | fadd (o : Ops) (r : Rnd)
  | fsub (o : Ops) (r : Rnd)
  | fmul (o : Ops) (r : Rnd)
  | ffma (o : Ops) (r : Rnd) (c : Sel)
  | fmin (o : Ops)
  | fmax (o : Ops)
  | fcmp (o : Ops) (cc : FCond)
  | cvt (o : Ops) (v : Cvt)
  | mctl (o : Ops) (v : BitVec 64)
  | rep (o : Ops) (stride : BitVec 3)
  | sdcvt (o : Ops) (n : SdLen) (ch : SdChunk)
  | sdval (o : Ops) (uns : Bool)
  | oadd (o : Ops)
  | ocmp (o : Ops) (cc : OCond)
  | ocut (o : Ops) (k : BitVec 4)
  | omax (o : Ops)
  | steer (o : Ops) (num : Bool) (g : BitVec 2)
  | merge (o : Ops) (g : BitVec 2)
  | merge2 (o : Ops) (key : MKey) (desc : Bool) (g : Option (BitVec 2))
  | rmerge (o : Ops) (size : BitVec 12) (g : BitVec 2)
  | gate (o : Ops) (n : BitVec 16)
  | sink (o : Ops)
  | mark (o : Ops)
  | endrun (o : Ops)
  | loopin (o : Ops) (k : BitVec 3)
  | loopout (o : Ops) (k : BitVec 3)
  | kill (o : Ops) (sh : BitVec 5)
  | kchk (o : Ops)
  | vadd (o : Ops) (ty : LaneTy) (r : Rnd)
  | vsub (o : Ops) (ty : LaneTy) (r : Rnd)
  | vmul (o : Ops) (ty : LaneTy) (r : Rnd)
  | vfma (o : Ops) (ty : LaneTy) (r : Rnd) (c : Sel)
  | vmax (o : Ops) (ty : LaneTy)
  | vmin (o : Ops) (ty : LaneTy)
  | vexp2 (o : Ops) (r : Rnd)
  | vlog2 (o : Ops) (r : Rnd)
  | vrcp (o : Ops) (r : Rnd)
  | vrsq (o : Ops) (r : Rnd)
  | vcmp (o : Ops) (ty : LaneTy) (cc : FCond)
  | vsel (o : Ops) (ty : LaneTy) (c : Sel)
  | vcvt (o : Ops) (v : Cvt) (part : BitVec 2)
  | vqmx (o : Ops) (c : Sel) (part : BitVec 3)
  | vdqmx (o : Ops) (ty : LaneTy) (r : Rnd) (part : BitVec 3)
  | vredadd (o : Ops) (ty : LaneTy) (r : Rnd) (g : Option Group)
  | vredmax (o : Ops) (ty : LaneTy) (g : Option Group)
  | vargmax (o : Ops) (ty : LaneTy) (g : Option Group)
  | vlse (o : Ops) (ty : LaneTy) (g : Option Group)
  | vbcast (o : Ops) (ty : LaneTy) (e : Option (BitVec 6))
  | vshuf (o : Ops) (ty : LaneTy)
  | vdot (o : Ops) (ty : LaneTy) (r : Rnd) (g : Option Group)
  | vnorm2 (o : Ops) (ty : LaneTy) (r : Rnd) (g : Option Group)
  | vgumbel (o : Ops)
  | vscan (o : Ops) (ty : LaneTy) (r : Rnd) (g : Option Group)
  | vtld (o : Ops) (t : Tile)
  | vtst (o : Ops) (t : Tile)
  | mma (o : Ops) (fa : MFmt) (fb : MFmt)
  | mstat (o : Ops) (f : MFmt)
  | mswap (o : Ops)
  | mdrain (o : Ops) (t : Option (BitVec 6))
  | mzero (o : Ops)
  | mrec (o : Ops) (fa : MFmt) (fb : MFmt) (gam : BitVec 32)
  | mpair (o : Ops)
  | mscale (o : Ops)
  | sdef (o : Ops) (sm : BitVec 2) (sl : StreamLit)
  | srun (o : Ops) (sm : BitVec 2) (sl : StreamLit)
  | ld (o : Ops) (sm : BitVec 2) (sx : Bool)
  | st (o : Ops) (sm : BitVec 2) (spec : Bool)
  | ldt (o : Ops) (sm : BitVec 2) (n : BitVec 6)
  | stt (o : Ops) (sm : BitVec 2) (spec : Bool) (n : BitVec 6)
  | gath (o : Ops) (sm : BitVec 2)
  | scat (o : Ops) (sm : BitVec 2) (spec : Bool)
  | atom (o : Ops) (sm : BitVec 2) (op : AtomOp) (c : Sel)
  | fence (o : Ops) (msk : BitVec 16) (sc : ScopeSel)
  | ownRel (o : Ops) (sm : BitVec 2) (sc : ScopeSel)
  | ownAcq (o : Ops)
  | win (o : Ops) (sm : BitVec 2) (sc : ScopeSel)
  | pref (o : Ops) (sm : BitVec 2)
  | cpy (o : Ops) (sa : BitVec 2) (op : CpyOp) (sb : BitVec 2) (sc : ScopeSel)
  | rsp (o : Ops) (sm : BitVec 2)
  | notifyAdd (o : Ops)
  | notifySet (o : Ops)
  | waitn (o : Ops)
  | ringPut (o : Ops) (c : Sel)
  | ringPub (o : Ops)
  | bmode (o : Ops) (bm : BankModeLit)
  | spill (o : Ops) (q : Bool) (off : BitVec 17) (t : Tile)
  | fill (o : Ops) (q : Bool) (off : BitVec 17) (t : Tile)
  | tlbinvVa (o : Ops)
  | tlbinvCtx (o : Ops)
  | rngset (o : Ops)
  | rngsetClr (o : Ops)
  | randt (o : Ops) (beat : Bool)
  | tapp (o : Ops) (sm : BitVec 2)
  | tseal (o : Ops) (sm : BitVec 2)
  | tsealLift (o : Ops) (sm : BitVec 2)
  | tlift (o : Ops) (sm : BitVec 2)
  | troot (o : Ops) (sm : BitVec 2) (tau : BitVec 32) (bud : BitVec 12)
  | tscore (o : Ops)
  | tselOne (o : Ops)
  | tselAll (o : Ops)
  | topen (o : Ops)
  | tacc (o : Ops)
  | tend (o : Ops)
  | tfork (o : Ops) (sm : BitVec 2)
  | tevict (o : Ops) (sm : BitVec 2)
  | tprune (o : Ops) (sm : BitVec 2)
  | tmask (o : Ops) (sm : BitVec 2) (e : BitVec 2) (len : BitVec 32)
  | tmaskNone (o : Ops)
  | seq (o : Ops) (cfg : CtlCfg)
  | pipe (o : Ops) (opn : Bool) (cfg : CtlCfg)
  | strm (o : Ops) (cfg : CtlCfg)
  | cntSet (o : Ops) (k : BitVec 2)
  | cntAdd (o : Ops) (k : BitVec 2)
  | cntStep (o : Ops) (k : BitVec 2)
  | cntRead (o : Ops) (k : BitVec 2)
  | lutGet (o : Ops)
  | lutSet (o : Ops)
  | wincSet (o : Ops) (ctl : BitVec 6) (p : BitVec 3)
  | wincAdd (o : Ops) (ctl : BitVec 6) (p : BitVec 3)
  | ena (o : Ops) (ctl : BitVec 6) (p : BitVec 3)
  | done (o : Ops) (x : Bool) (ctl : BitVec 6) (p : BitVec 3)
  | bar (o : Ops) (bi : BitVec 3) (n : BitVec 8)
  | permt (o : Ops)
  | permg (o : Ops)
  | cyc (o : Ops)
  | cycPmc (o : Ops)
  | bandRead (o : Ops)
  | bandExit (o : Ops)
  | stageCur (o : Ops)
  | stageSh (o : Ops)
  | scrollRead (o : Ops)
  | scrollClr (o : Ops)
  | schedRead (o : Ops)
  | schedBoost (o : Ops)
  | cfgreq (o : Ops) (arg : Bool)
  | yield_ (o : Ops)
  | frz (o : Ops)
  | resume (o : Ops)
  | trap (o : Ops) (code : BitVec 4)
  | faultackAck (o : Ops)
  | faultackKill (o : Ops)
  | gatecfgSet (o : Ops)
  | gatecfgRead (o : Ops)
  | capq (o : Ops)
  | bret (o : Ops)
  | varsel (o : Ops)
  | srd (o : Ops)
  | swr (o : Ops)
  | firmwareFreeze (die reg : Nat)
  | reset
  | firmwareReady
  | modeChangeStart
  | permitWithdrawalEnd
  | powerWindow
  | setPowerMode
  | readBankmapEntry
  | readBandEntry
  | writeBankmapEntry
  | retireBank
  | writeOwnerEntry
  | writeSequenceSlot
  | writeNotifyGrant
  | createRegion
  | removeRegion
  | decrementReaders
  | clearHeld
  | fwResume
  | fwFaultackAck
  | fwFaultackKill
  | clearGatewayCounts
  | writeMergeEntry
  | memberRejoin
  | writeParityGroup
  | loadNonce
  | produceReport
  | readReport
  | submitCoreLaunch
  | beginFirmwareImage
  | writeFirmwareImage
  | commitFirmwareImage
  deriving DecidableEq, Repr

end Sys2Proof
end

