-- ==== Sys2Proof/Machine/Encoding.lean ====
section
/-!
DEFINITION. The encoding tables: the bits of every operand, modifier and literal field (R56-R61 and the
instruction entries), the form each opcode and modifier allows (R64-R67), and the instruction they name. The
decoder, the encoder and the well-formedness check all read these tables.
-/
namespace Sys2Proof

/-- Selector codes 20-27 (R60). -/
def Konst.bits : Konst → BitVec 6
  | .one => 20 | .m1 => 21 | .two => 22 | .half => 23 | .pinf => 24 | .ninf => 25 | .sign => 26 | .fone => 27

/-- The code of a selector (R60, R147). -/
def Sel.code : Sel → BitVec 6
  | .pop q => 0#4 ++ q
  | .peek q => 1#4 ++ q
  | .x k => 1#3 ++ k
  | .litLo => 16
  | .litHi => 17
  | .zero => 18
  | .tag => 19
  | .konst c => c.bits
  | .link => 8

/-- The selector a code names (R60); codes 28-63 name none. -/
def Sel.ofCode (c : BitVec 6) : Option Sel :=
  match c.toNat with
  | 16 => some .litLo
  | 17 => some .litHi
  | 18 => some .zero
  | 19 => some .tag
  | 20 => some (.konst .one)
  | 21 => some (.konst .m1)
  | 22 => some (.konst .two)
  | 23 => some (.konst .half)
  | 24 => some (.konst .pinf)
  | 25 => some (.konst .ninf)
  | 26 => some (.konst .sign)
  | 27 => some (.konst .fone)
  | n => if n < 4 then some (.pop (c.setWidth 2)) else if n < 8 then some (.peek (c.setWidth 2))
         else if n < 16 then some (.x (c.setWidth 3)) else none

/-- The queue a selector pops or peeks. -/
def Sel.queue? : Sel → Option (BitVec 2)
  | .pop q => some q
  | .peek q => some q
  | _ => none

/-- Whether a selector reads a literal half (R57). -/
def Sel.isLit : Sel → Bool
  | .litLo => true
  | .litHi => true
  | _ => false

/-- GRD (R58). -/
def Guard.bits : Guard → BitVec 3
  | .none => 0 | .popT => 1 | .popF => 2 | .peekT => 3 | .peekF => 4

/-- The guard a GRD value names; 101-111 name none (R58). -/
def Guard.ofBits (b : BitVec 3) : Option Guard :=
  match b.toNat with
  | 0 => some .none
  | 1 => some .popT
  | 2 => some .popF
  | 3 => some .peekT
  | 4 => some .peekF
  | _ => Option.none

/-- NXT (R59). -/
def Nxt.bits : Nxt → BitVec 2
  | .next => 0 | .stay => 1 | .branch _ => 2 | .mark => 3

/-- BRT (R59). -/
def Nxt.brt : Nxt → BitVec 2
  | .branch b => b
  | _ => 0

/-- The action of NXT and BRT (R59). -/
def Nxt.ofBits (n brt : BitVec 2) : Nxt :=
  match n.toNat with
  | 0 => .next
  | 1 => .stay
  | 2 => .branch brt
  | _ => .mark

/-- The 16 bits of a consumer slot (R61). -/
def Slot.bits : Slot → BitVec 16
  | .none => 0
  | .queue n q last => 1#2 ++ n ++ q ++ BitVec.ofBool last ++ 0#5
  | .lane d last l => 2#2 ++ 39#6 ++ d ++ BitVec.ofBool last ++ l
  | .reg n k => 3#2 ++ n ++ 0#2 ++ 0#1 ++ 0#2 ++ k
  | .ctl n => 3#2 ++ n ++ 0#2 ++ 0#1 ++ 16#5

/-- The consumer slot that 16 bits name by their shape alone (R61). -/
def Slot.ofBits (b : BitVec 16) : Option Slot :=
  let node := b.extractLsb' 8 6
  let q := b.extractLsb' 6 2
  let lane := b.extractLsb' 0 5
  match (b.extractLsb' 14 2).toNat with
  | 0 => if b = 0 then some .none else Option.none
  | 1 => if lane = 0 then some (.queue node q (b.getLsbD 5)) else Option.none
  | 2 => if node = 39 then some (.lane q (b.getLsbD 5) lane) else Option.none
  | _ => if b.extractLsb' 5 3 ≠ 0 then Option.none
         else if lane = 16 then some (.ctl node)
         else if lane.ult 8 then some (.reg node (b.extractLsb' 0 3)) else Option.none

/-- W of MOD[1:0] (R106). -/
def Wid.bits : Wid → BitVec 2
  | .w32 => 0 | .w16 => 1 | .w8 => 2

def Wid.ofBits (b : BitVec 2) : Wid :=
  match b.toNat with
  | 0 => .w32
  | 1 => .w16
  | _ => .w8

/-- MOD of an integer type (R106). -/
def IntTy.bits (t : IntTy) : BitVec 4 := BitVec.ofBool t.sat ++ BitVec.ofBool t.uns ++ t.w.bits

def IntTy.ofBits (m : BitVec 4) : IntTy := ⟨m.getLsbD 3, m.getLsbD 2, Wid.ofBits (m.extractLsb' 0 2)⟩

/-- Rounding code (R79). -/
def Rnd.bits : Rnd → BitVec 2
  | .rne => 0 | .rtz => 1 | .rup => 2 | .rdn => 3

def Rnd.ofBits (b : BitVec 2) : Rnd :=
  match b.toNat with
  | 0 => .rne
  | 1 => .rtz
  | 2 => .rup
  | _ => .rdn

/-- CMP condition codes (R109). -/
def CmpCond.bits : CmpCond → BitVec 4
  | .eq => 0 | .ne => 1 | .ltI => 2 | .leI => 3 | .gtI => 4 | .geI => 5 | .ltN => 6 | .leN => 7 | .gtN => 8 | .geN => 9

def CmpCond.ofBits (b : BitVec 4) : CmpCond :=
  match b.toNat with
  | 0 => .eq
  | 1 => .ne
  | 2 => .ltI
  | 3 => .leI
  | 4 => .gtI
  | 5 => .geI
  | 6 => .ltN
  | 7 => .leN
  | 8 => .gtN
  | _ => .geN

/-- FCMP condition codes (R113). -/
def FCond.bits : FCond → BitVec 3
  | .eq => 0 | .ne => 1 | .lt => 2 | .le => 3 | .gt => 4 | .ge => 5 | .un => 6 | .or => 7

def FCond.ofBits (b : BitVec 3) : FCond :=
  match b.toNat with
  | 0 => .eq
  | 1 => .ne
  | 2 => .lt
  | 3 => .le
  | 4 => .gt
  | 5 => .ge
  | 6 => .un
  | _ => .or

/-- OCMP condition codes (R121). -/
def OCond.bits : OCond → BitVec 4
  | .eq => 0 | .ne => 1 | .lt => 2 | .le => 3 | .gt => 4 | .ge => 5

def OCond.ofBits (b : BitVec 4) : OCond :=
  match b.toNat with
  | 0 => .eq
  | 1 => .ne
  | 2 => .lt
  | 3 => .le
  | 4 => .gt
  | _ => .ge

/-- MOD of ACC (R112). -/
def AccKind.bits : AccKind → BitVec 4
  | .wrap => 0
  | .sat => 4
  | .f32 r => 2#2 ++ r.bits

def AccKind.ofBits (m : BitVec 4) : AccKind :=
  if m.getLsbD 3 then .f32 (Rnd.ofBits (m.extractLsb' 0 2)) else if m.getLsbD 2 then .sat else .wrap

/-- The MOD values ACC allows (R112). -/
def AccKind.bitsOk (m : BitVec 4) : Bool := m == 0 || m == 4 || m.extractLsb' 2 2 == 2#2

/-- Format codes (R72). -/
def Fmt.bits : Fmt → BitVec 4
  | .f32 => 0 | .f16 => 1 | .bf16 => 2 | .e4m3 => 3 | .e5m2 => 4 | .mx4 => 5 | .i8 => 6 | .i16 => 7 | .i32 => 8
  | .n8 => 9 | .n16 => 10 | .n32 => 11 | .sd4 => 12 | .sd8 => 13 | .sd16 => 14

def Fmt.ofBits (b : BitVec 4) : Fmt :=
  match b.toNat with
  | 0 => .f32
  | 1 => .f16
  | 2 => .bf16
  | 3 => .e4m3
  | 4 => .e5m2
  | 5 => .mx4
  | 6 => .i8
  | 7 => .i16
  | 8 => .i32
  | 9 => .n8
  | 10 => .n16
  | 11 => .n32
  | 12 => .sd4
  | 13 => .sd8
  | _ => .sd16

/-- Conversion literal bits [10:0] (R114). -/
def Cvt.bits (c : Cvt) : DWord :=
  pos (BitVec.ofBool c.sat) 10 ||| pos c.rnd.bits 8 ||| pos c.dst.bits 4 ||| pos c.src.bits 0

def Cvt.ofBits (l : DWord) : Cvt :=
  ⟨l.getLsbD 10, Rnd.ofBits (l.extractLsb' 8 2), Fmt.ofBits (l.extractLsb' 4 4), Fmt.ofBits (l.extractLsb' 0 4)⟩

/-- A format code that CVT and VCVT take: 0-4 or 6-11 (R114, R135). -/
def Fmt.cvtOk : Fmt → Bool
  | .mx4 => false
  | .sd4 => false
  | .sd8 => false
  | .sd16 => false
  | _ => true

/-- Width in bits of a format's element (R72). -/
def Fmt.width : Fmt → Nat
  | .f32 => 32 | .f16 => 16 | .bf16 => 16 | .e4m3 => 8 | .e5m2 => 8 | .mx4 => 4 | .i8 => 8 | .i16 => 16 | .i32 => 32
  | .n8 => 8 | .n16 => 16 | .n32 => 32 | .sd4 => 12 | .sd8 => 24 | .sd16 => 48

def SdLen.bits : SdLen → BitVec 2
  | .sd4 => 0 | .sd8 => 1 | .sd16 => 2

def SdLen.ofBits (b : BitVec 2) : SdLen :=
  match b.toNat with
  | 0 => .sd4
  | 1 => .sd8
  | _ => .sd16

def SdChunk.bits : SdChunk → BitVec 2
  | .c8 => 0 | .c4 => 1 | .c2 => 2 | .c1 => 3

def SdChunk.ofBits (b : BitVec 2) : SdChunk :=
  match b.toNat with
  | 0 => .c8
  | 1 => .c4
  | 2 => .c2
  | _ => .c1

def MKey.bits : MKey → BitVec 2
  | .i32 => 0 | .n32 => 1 | .f32 => 2 | .x => 3

def MKey.ofBits (b : BitVec 2) : MKey :=
  match b.toNat with
  | 0 => .i32
  | 1 => .n32
  | 2 => .f32
  | _ => .x

def LaneTy.bits : LaneTy → BitVec 2
  | .f32 => 0 | .f16 => 1 | .bf16 => 2 | .i32 => 3

def LaneTy.ofBits (b : BitVec 2) : LaneTy :=
  match b.toNat with
  | 0 => .f32
  | 1 => .f16
  | 2 => .bf16
  | _ => .i32

/-- The group literal (R138). -/
def Group.bits (g : Group) : DWord := pos g.base 32 ||| pos g.span 0

def Group.ofBits (l : DWord) : Group := ⟨l.extractLsb' 32 32, l.extractLsb' 0 16⟩

/-- The tile-range literal bits [17:0] (R144, R254). -/
def Tile.bits (t : Tile) : DWord := pos t.count 12 ||| pos t.start 6 ||| pos t.tile 0

def Tile.ofBits (l : DWord) : Tile := ⟨l.extractLsb' 12 6, l.extractLsb' 6 6, l.extractLsb' 0 6⟩

def MFmt.bits : MFmt → BitVec 2
  | .bf16 => 0 | .e4m3 => 1 | .e5m2 => 2 | .mx4 => 3

def MFmt.ofBits (b : BitVec 2) : MFmt :=
  match b.toNat with
  | 0 => .bf16
  | 1 => .e4m3
  | 2 => .e5m2
  | _ => .mx4

/-- The format pairs of MMA and MREC (R151). -/
def MFmt.pairOk (m : BitVec 4) : Bool :=
  m == 0 || m == 15 || m == 5 || m == 6 || m == 9 || m == 10

def ScopeSel.bits : ScopeSel → BitVec 3
  | .dflt => 0 | .row => 1 | .cluster => 2 | .die => 3 | .package => 4 | .system => 5 | .bad6 => 6 | .bad7 => 7

def ScopeSel.ofBits (b : BitVec 3) : ScopeSel :=
  match b.toNat with
  | 0 => .dflt
  | 1 => .row
  | 2 => .cluster
  | 3 => .die
  | 4 => .package
  | 5 => .system
  | 6 => .bad6
  | _ => .bad7

/-- Scope codes 6 and 7 are refused (R238). -/
def ScopeSel.ok (s : ScopeSel) : Bool := s != .bad6 && s != .bad7

/-- The stream literal (R238). -/
def StreamLit.bits (s : StreamLit) : DWord :=
  pos s.widx 29 ||| pos s.wbank 24 ||| pos s.qbank 19 ||| pos s.scope.bits 16 ||| pos s.cls 12 |||
  pos (BitVec.ofBool s.owned) 11 ||| pos s.pgsz 9 ||| pos s.esz 6 ||| pos s.dims 4 ||| pos s.qseg 0

def StreamLit.ofBits (l : DWord) : StreamLit :=
  ⟨l.extractLsb' 29 2, l.extractLsb' 24 5, l.extractLsb' 19 5, ScopeSel.ofBits (l.extractLsb' 16 3),
   l.extractLsb' 12 4, l.getLsbD 11, l.extractLsb' 9 2, l.extractLsb' 6 3, l.extractLsb' 4 2, l.extractLsb' 0 4⟩

/-- The limits of the stream literal's cells (R238). -/
def StreamLit.ok (s : StreamLit) (run : Bool) : Bool :=
  (s.wbank.ult 24 || s.wbank == 31) && (s.qbank.ult 24 || s.qbank == 31) && s.scope.ok &&
  !(s.wbank != 31 && s.qbank != 31) && !(s.pgsz == 3 && s.wbank != 31) && s.qseg != 15 &&
  (s.qbank != 31 || s.qseg == 0) && (!run || s.dims == 0)

def AtomOp.bits : AtomOp → BitVec 4
  | .add => 0 | .minI => 1 | .maxI => 2 | .minN => 3 | .maxN => 4 | .and => 5 | .or => 6 | .xor => 7 | .swap => 8
  | .cas => 9 | .fadd => 10 | .bad c => c

def AtomOp.ofBits (b : BitVec 4) : AtomOp :=
  match b.toNat with
  | 0 => .add
  | 1 => .minI
  | 2 => .maxI
  | 3 => .minN
  | 4 => .maxN
  | 5 => .and
  | 6 => .or
  | 7 => .xor
  | 8 => .swap
  | 9 => .cas
  | 10 => .fadd
  | _ => .bad b

/-- OP codes 11-15 are refused (R246). -/
def AtomOp.ok : AtomOp → Bool
  | .bad _ => false
  | _ => true

def CpyOp.bits : CpyOp → BitVec 2
  | .cpy => 0 | .addF32 => 1 | .addBf16 => 2 | .maxF32 => 3

def CpyOp.ofBits (b : BitVec 2) : CpyOp :=
  match b.toNat with
  | 0 => .cpy
  | 1 => .addF32
  | 2 => .addBf16
  | _ => .maxF32

/-- The literal of BMODE (R250). -/
def BankModeLit.bits (b : BankModeLit) : DWord :=
  pos b.basehi 32 ||| pos b.scope.bits 16 ||| pos b.ento 10 ||| pos b.ente 8 ||| pos b.nseg 4 ||| pos b.pcode 2 ||| pos b.mode 0

def BankModeLit.ofBits (l : DWord) : BankModeLit :=
  ⟨l.extractLsb' 32 23, ScopeSel.ofBits (l.extractLsb' 16 3), l.extractLsb' 10 2, l.extractLsb' 8 2, l.extractLsb' 4 4,
   l.extractLsb' 2 2, l.extractLsb' 0 2⟩

/-- The values R250 allows. -/
def BankModeLit.ok (b : BankModeLit) : Bool :=
  b.scope.ok && b.mode != 3 && (b.mode == 1 || (b.basehi == 0 && b.pcode == 0)) && b.pcode != 3 &&
  (b.mode == 2 || (b.ento == 0 && b.ente == 0 && b.nseg == 0)) && b.ento != 3 && b.ente != 3 &&
  (b.nseg == 0 || b.nseg == 1 || b.nseg == 3 || b.nseg == 7 || b.nseg == 15)

/-- The controller configuration (R354). -/
def CtlCfg.bits (c : CtlCfg) : BitVec 32 := 0#11 ++ c.k ++ c.nch1 ++ c.pos ++ c.parent ++ c.id

def CtlCfg.ofBits (l : BitVec 32) : CtlCfg :=
  ⟨l.extractLsb' 18 3, l.extractLsb' 15 3, l.extractLsb' 12 3, l.extractLsb' 6 6, l.extractLsb' 0 6⟩

/-- The values R354 allows; `kOk` says whether K may be other than 0. -/
def CtlCfg.ok (c : CtlCfg) (kOk : Bool) : Bool :=
  c.id.ult 56 && (c.parent.ult 56 || c.parent == 63) && c.parent != c.id && (c.parent != 63 || c.pos == 0) &&
  (kOk || c.k == 0)

/-- The low half of an immediate literal, 0 without one. -/
def immLo (o : Ops) : BitVec 32 := (o.lit.getD 0).extractLsb' 0 32

/-- Node kinds (R13, R65). -/
inductive NodeKind where
  | scalar | lane | matrix | port | cell | descent
  deriving DecidableEq, Repr

/-- The kind of a node index (R13). -/
def NodeKind.of (n : Nat) : Option NodeKind :=
  if n < 32 then some .scalar else if n = 32 then some .lane else if n = 33 then some .matrix
  else if n < 36 then some .port else if n = 36 then some .cell else if n = 37 then some .descent else none

/-- What a source field may name. -/
inductive SrcCls where
  | any        -- a scalar node's selector (R60)
  | anyNoImm   -- the same without 16 and 17 (R105)
  | third      -- SRCC (R105)
  | zero       -- 18 only
  | pop        -- 0-3
  | queue      -- 0-7
  | reg        -- 8-15
  | lane (int imm : Bool)   -- the lane node's (R127, R128)
  | mx         -- 0-2 (R164)
  | mxTrail    -- 0-2, or the pair link in a trailing half (R164)
  | pw         -- a port or descent word (R234, R282)
  | pwNoImm
  | pwThird    -- a port's third source
  | pwIdx      -- a port index other than 18 (R243)
  | popW       -- a port's word pop selector 0-1
  | beat       -- beat pop selectors 2-3
  | pwb        -- a port word or beat
  | word       -- a control cell's selector (R346)
  | barq       -- 18, or 0-3 (R354)
  deriving DecidableEq, Repr

/-- What a consumer slot may name. -/
inductive DstCls where
  | none       -- kind 00
  | none7      -- kind 00, refused with 0x007 (R252)
  | word       -- a word result, kind 00 allowed
  | wordS      -- the same in the steering table (R176)
  | out        -- a word result, kind 00 excluded (R176)
  | beat       -- a beat result, kind 00 allowed
  | arc        -- kind 01 or 10 (MARK)
  | arcOrNone
  | hand       -- Q0 or Q1 of a port node, or a word lane (R248)
  deriving DecidableEq, Repr

/-- Which NXT values an entry allows. -/
inductive NxtRule where
  | any | nextMark | nextOnly
  deriving DecidableEq, Repr

/-- How an entry uses the literal (R57). -/
inductive LitRule where
  | imm      -- selectors 16 and 17 only
  | strict   -- the same, and a half no selector reads is zero (R354)
  | no       -- LIT = 0
  | req      -- LIT = 1, with configuration fields
  | opt      -- LIT = 0 or 1, with configuration fields
  | ctl      -- LIT = 1: configuration in the high half, an immediate in the low half (R354)
  | bcast    -- VBCAST (R132)
  deriving DecidableEq, Repr

/-- The form an opcode and modifier give the other fields. -/
structure Form where
  kind : NodeKind
  grd  : Bool := true
  nxt  : NxtRule := .any
  a    : SrcCls := .any
  b    : SrcCls := .any
  c    : Option (SrcCls × Nat) := none
  d0   : DstCls := .word
  d1   : DstCls := .word
  lit  : LitRule := .imm
  mask : DWord := 0
  deriving DecidableEq, Repr

/-- The parts of an instruction word. -/
structure Parts where
  opc : BitVec 8
  mod : BitVec 4
  ops : Ops
  c   : Option Sel
  lit : Option DWord
  deriving DecidableEq, Repr

/-- The form of an opcode and modifier, or the cause that refuses them (R64-R67 and the instruction entries). -/
def formOf (opc : BitVec 8) (m : BitVec 4) : Except Cause Form :=
  match opc.toNat with
  | 0x00 => .error 0x000
  | 0x01 =>
    if m.extractLsb' 0 2 != 3#2 then .ok { kind := .scalar }
    else .error 0x002
  | 0x02 =>
    if m.extractLsb' 0 2 != 3#2 then .ok { kind := .scalar }
    else .error 0x002
  | 0x03 =>
    if m.extractLsb' 0 2 == 0#2 then .ok { kind := .scalar }
    else .error 0x002
  | 0x04 =>
    if m.extractLsb' 0 2 == 0#2 && !m.getLsbD 3 then .ok { kind := .scalar }
    else .error 0x002
  | 0x05 =>
    if m.extractLsb' 0 2 == 0#2 then .ok { kind := .scalar, a := .anyNoImm, b := .anyNoImm, lit := .req, mask := 0x000000000000003F#64, c := some (.third, 0) }
    else .error 0x002
  | 0x06 =>
    if m.extractLsb' 0 2 != 3#2 then .ok { kind := .scalar, b := .zero }
    else .error 0x002
  | 0x07 =>
    if m.extractLsb' 0 2 != 3#2 then .ok { kind := .scalar, b := .zero }
    else .error 0x002
  | 0x08 =>
    if m.extractLsb' 0 2 != 3#2 && !m.getLsbD 3 then .ok { kind := .scalar }
    else .error 0x002
  | 0x09 =>
    if m.extractLsb' 0 2 != 3#2 && !m.getLsbD 3 then .ok { kind := .scalar }
    else .error 0x002
  | 0x0A =>
    if m == 0#4 then .ok { kind := .scalar }
    else .error 0x002
  | 0x0B =>
    if m == 0#4 then .ok { kind := .scalar }
    else .error 0x002
  | 0x0C =>
    if m == 0#4 then .ok { kind := .scalar }
    else .error 0x002
  | 0x0D =>
    if m == 0#4 then .ok { kind := .scalar }
    else .error 0x002
  | 0x0E =>
    if m == 0#4 then .ok { kind := .scalar, b := .zero }
    else .error 0x002
  | 0x0F =>
    if m == 0#4 then .ok { kind := .scalar }
    else .error 0x002
  | 0x10 =>
    if m == 0#4 then .ok { kind := .scalar }
    else .error 0x002
  | 0x11 =>
    if m == 0#4 then .ok { kind := .scalar }
    else .error 0x002
  | 0x12 =>
    if m == 0#4 then .ok { kind := .scalar }
    else .error 0x002
  | 0x13 =>
    if m == 0#4 then .ok { kind := .scalar, b := .zero }
    else .error 0x002
  | 0x14 =>
    if m == 0#4 then .ok { kind := .scalar, b := .zero }
    else .error 0x002
  | 0x15 =>
    if m == 0#4 || m == 4#4 then .ok { kind := .scalar }
    else .error 0x002
  | 0x16 =>
    if m == 0#4 then .ok { kind := .scalar, a := .anyNoImm, b := .anyNoImm, lit := .req, mask := 0x000000000000003F#64, c := some (.third, 0) }
    else .error 0x002
  | 0x17 =>
    if m.ult 10#4 then .ok { kind := .scalar }
    else .error 0x002
  | 0x18 =>
    if m == 0#4 then .ok { kind := .scalar, grd := false, nxt := .nextMark }
    else .error 0x002
  | 0x19 =>
    if m == 0#4 then .ok { kind := .scalar, b := .zero }
    else .error 0x002
  | 0x1A =>
    if m == 0#4 then .ok { kind := .scalar, a := .zero, b := .zero, lit := .req, mask := (-1#64) }
    else .error 0x002
  | 0x1B =>
    if AccKind.bitsOk m then .ok { kind := .scalar, b := .reg }
    else .error 0x002
  | 0x1C =>
    if m.extractLsb' 2 2 == 0#2 then .ok { kind := .scalar }
    else .error 0x002
  | 0x1D =>
    if m.extractLsb' 2 2 == 0#2 then .ok { kind := .scalar }
    else .error 0x002
  | 0x1E =>
    if m.extractLsb' 2 2 == 0#2 then .ok { kind := .scalar }
    else .error 0x002
  | 0x1F =>
    if m.extractLsb' 2 2 == 0#2 then .ok { kind := .scalar, a := .anyNoImm, b := .anyNoImm, lit := .req, mask := 0x000000000000003F#64, c := some (.third, 0) }
    else .error 0x002
  | 0x20 =>
    if m == 0#4 then .ok { kind := .scalar }
    else .error 0x002
  | 0x21 =>
    if m == 0#4 then .ok { kind := .scalar }
    else .error 0x002
  | 0x22 =>
    if !m.getLsbD 3 then .ok { kind := .scalar }
    else .error 0x002
  | 0x23 =>
    if m == 0#4 then .ok { kind := .scalar, b := .zero, lit := .req, mask := 0x00000000000007FF#64 }
    else .error 0x002
  | 0x24 =>
    if m == 0#4 then .ok { kind := .scalar, b := .zero, lit := .req, mask := (-1#64) }
    else .error 0x003
  | 0x25 =>
    if !m.getLsbD 3 then .ok { kind := .scalar, nxt := .nextOnly, b := .zero, d0 := .none, d1 := .none }
    else .error 0x002
  | 0x40 =>
    if !m.getLsbD 3 then .ok { kind := .scalar, grd := false, nxt := .nextMark, a := (if m.extractLsb' 0 2 == 0#2 then .queue else .pop), b := .zero, d0 := .out, d1 := .out, lit := .no }
    else .error 0x002
  | 0x41 =>
    if m.extractLsb' 2 2 == 0#2 then .ok { kind := .scalar, grd := false, nxt := .nextMark, a := .pop, b := .pop, d0 := .out, d1 := .wordS, lit := .no }
    else .error 0x002
  | 0x42 =>
    if !m.getLsbD 3 then .ok { kind := .scalar, grd := false, nxt := .nextMark, a := .pop, b := .pop, d0 := .out, d1 := .wordS, lit := .opt, mask := 0x0000000000000003#64 }
    else .error 0x002
  | 0x43 =>
    if m == 0#4 then .ok { kind := .scalar, grd := false, nxt := .nextMark, a := .pop, b := .pop, d0 := .out, d1 := .wordS, lit := .req, mask := 0x0000000000003FFF#64 }
    else .error 0x002
  | 0x44 =>
    if m == 0#4 then .ok { kind := .scalar, grd := false, nxt := .nextMark, a := .pop, b := .zero, d0 := .out, d1 := .wordS, lit := .req, mask := 0x000000000000FFFF#64 }
    else .error 0x002
  | 0x45 =>
    if m == 0#4 then .ok { kind := .scalar, a := .queue, b := .zero, d0 := .wordS, d1 := .wordS, lit := .no }
    else .error 0x002
  | 0x46 =>
    if m == 0#4 then .ok { kind := .scalar, b := .zero, d0 := .arc, d1 := .arcOrNone }
    else .error 0x002
  | 0x47 =>
    if m == 0#4 then .ok { kind := .scalar, b := .zero, d0 := .out, d1 := .wordS }
    else .error 0x002
  | 0x48 =>
    if !m.getLsbD 3 then .ok { kind := .scalar, grd := false, nxt := .nextMark, a := .pop, b := .pop, d0 := .out, d1 := .wordS, lit := .no }
    else .error 0x002
  | 0x49 =>
    if !m.getLsbD 3 then .ok { kind := .scalar, grd := false, nxt := .nextMark, a := .pop, b := .zero, d0 := .out, d1 := .out, lit := .no }
    else .error 0x002
  | 0x4A =>
    if m == 0#4 then .ok { kind := .scalar, b := .zero, d0 := .wordS, d1 := .wordS, lit := .req, mask := 0x000000000000001F#64 }
    else .error 0x002
  | 0x4B =>
    if m == 0#4 then .ok { kind := .scalar, a := .pop, b := .zero, d0 := .out, d1 := .wordS, lit := .no }
    else .error 0x002
  | 0x50 =>
    if m.extractLsb' 0 2 != 3#2 then .ok { kind := .scalar, b := .zero }
    else .error 0x002
  | 0x51 =>
    if m == 0#4 || m == 4#4 then .ok { kind := .scalar, b := .zero }
    else .error 0x002
  | 0x52 =>
    if m == 0#4 then .ok { kind := .scalar }
    else .error 0x002
  | 0x53 =>
    if m.ult 6#4 then .ok { kind := .scalar }
    else .error 0x002
  | 0x54 =>
    .ok { kind := .scalar, b := .zero }
  | 0x55 =>
    if m == 0#4 then .ok { kind := .scalar }
    else .error 0x002
  | 0x60 =>
    if (m.extractLsb' 0 2 == 0#2 || !(m.extractLsb' 2 2 == 3#2)) then .ok { kind := .lane, a := (.lane (m.extractLsb' 2 2 == 3#2) true), b := (.lane (m.extractLsb' 2 2 == 3#2) true), d0 := .beat, d1 := .beat }
    else .error 0x002
  | 0x61 =>
    if (m.extractLsb' 0 2 == 0#2 || !(m.extractLsb' 2 2 == 3#2)) then .ok { kind := .lane, a := (.lane (m.extractLsb' 2 2 == 3#2) true), b := (.lane (m.extractLsb' 2 2 == 3#2) true), d0 := .beat, d1 := .beat }
    else .error 0x002
  | 0x62 =>
    if (m.extractLsb' 0 2 == 0#2 || !(m.extractLsb' 2 2 == 3#2)) then .ok { kind := .lane, a := (.lane (m.extractLsb' 2 2 == 3#2) true), b := (.lane (m.extractLsb' 2 2 == 3#2) true), d0 := .beat, d1 := .beat }
    else .error 0x002
  | 0x63 =>
    if !(m.extractLsb' 2 2 == 3#2) then .ok { kind := .lane, a := (.lane (m.extractLsb' 2 2 == 3#2) false), b := (.lane (m.extractLsb' 2 2 == 3#2) false), d0 := .beat, d1 := .beat, lit := .req, mask := 0x000000000000003F#64, c := some ((.lane (m.extractLsb' 2 2 == 3#2) false), 0) }
    else .error 0x002
  | 0x64 =>
    if m.extractLsb' 0 2 == 0#2 then .ok { kind := .lane, a := (.lane (m.extractLsb' 2 2 == 3#2) true), b := (.lane (m.extractLsb' 2 2 == 3#2) true), d0 := .beat, d1 := .beat }
    else .error 0x002
  | 0x65 =>
    if m.extractLsb' 0 2 == 0#2 then .ok { kind := .lane, a := (.lane (m.extractLsb' 2 2 == 3#2) true), b := (.lane (m.extractLsb' 2 2 == 3#2) true), d0 := .beat, d1 := .beat }
    else .error 0x002
  | 0x66 =>
    if m.extractLsb' 2 2 == 0#2 then .ok { kind := .lane, a := (.lane (m.extractLsb' 2 2 == 3#2) true), b := .zero, d0 := .beat, d1 := .beat }
    else .error 0x002
  | 0x67 =>
    if m.extractLsb' 2 2 == 0#2 then .ok { kind := .lane, a := (.lane (m.extractLsb' 2 2 == 3#2) true), b := .zero, d0 := .beat, d1 := .beat }
    else .error 0x002
  | 0x68 =>
    if m.extractLsb' 2 2 == 0#2 then .ok { kind := .lane, a := (.lane (m.extractLsb' 2 2 == 3#2) true), b := .zero, d0 := .beat, d1 := .beat }
    else .error 0x002
  | 0x69 =>
    if m.extractLsb' 2 2 == 0#2 then .ok { kind := .lane, a := (.lane (m.extractLsb' 2 2 == 3#2) true), b := .zero, d0 := .beat, d1 := .beat }
    else .error 0x002
  | 0x6A =>
    if m.extractLsb' 0 2 == 0#2 then .ok { kind := .lane, a := (.lane (m.extractLsb' 2 2 == 3#2) false), b := (.lane (m.extractLsb' 2 2 == 3#2) false), d0 := .beat, d1 := .beat, lit := .req, mask := 0x0000000000000007#64 }
    else .error 0x002
  | 0x6B =>
    if m.extractLsb' 0 2 == 0#2 then .ok { kind := .lane, a := (.lane (m.extractLsb' 2 2 == 3#2) false), b := (.lane (m.extractLsb' 2 2 == 3#2) false), d0 := .beat, d1 := .beat, lit := .req, mask := 0x000000000000003F#64, c := some ((.lane (m.extractLsb' 2 2 == 3#2) false), 0) }
    else .error 0x002
  | 0x6C =>
    if m == 0#4 then .ok { kind := .lane, a := (.lane (m.extractLsb' 2 2 == 3#2) false), b := .zero, d0 := .beat, d1 := .beat, lit := .req, mask := 0x0000000000001FFF#64 }
    else .error 0x002
  | 0x6D =>
    if m == 0#4 then .ok { kind := .lane, a := (.lane (m.extractLsb' 2 2 == 3#2) false), b := (.lane (m.extractLsb' 2 2 == 3#2) false), d0 := .beat, d1 := .beat, lit := .req, mask := 0x00000000000001FF#64, c := some ((.lane (m.extractLsb' 2 2 == 3#2) false), 0) }
    else .error 0x002
  | 0x6E =>
    if !(m.extractLsb' 2 2 == 3#2) then .ok { kind := .lane, a := (.lane (m.extractLsb' 2 2 == 3#2) false), b := (.lane (m.extractLsb' 2 2 == 3#2) false), d0 := .beat, d1 := .beat, lit := .req, mask := 0x0000000000000007#64 }
    else .error 0x002
  | 0x6F =>
    if (m.extractLsb' 0 2 == 0#2 || !(m.extractLsb' 2 2 == 3#2)) then .ok { kind := .lane, a := (.lane (m.extractLsb' 2 2 == 3#2) false), b := .zero, lit := .opt, mask := 0x000000000000FFFF#64 }
    else .error 0x002
  | 0x70 =>
    if m.extractLsb' 0 2 == 0#2 then .ok { kind := .lane, a := (.lane (m.extractLsb' 2 2 == 3#2) false), b := .zero, lit := .opt, mask := 0x000000000000FFFF#64 }
    else .error 0x002
  | 0x71 =>
    if m.extractLsb' 0 2 == 0#2 then .ok { kind := .lane, a := (.lane (m.extractLsb' 2 2 == 3#2) false), b := .zero, lit := .opt, mask := 0xFFFFFFFF0000FFFF#64 }
    else .error 0x002
  | 0x72 =>
    if m.extractLsb' 0 2 == 0#2 && !(m.extractLsb' 2 2 == 3#2) then .ok { kind := .lane, a := (.lane (m.extractLsb' 2 2 == 3#2) false), b := .zero, lit := .opt, mask := 0x000000000000FFFF#64 }
    else .error 0x002
  | 0x73 =>
    if m.extractLsb' 0 2 == 0#2 then .ok { kind := .lane, a := (.lane (m.extractLsb' 2 2 == 3#2) true), b := .zero, d0 := .beat, d1 := .beat, lit := .bcast, mask := 0x000000000000003F#64 }
    else .error 0x002
  | 0x74 =>
    if m.extractLsb' 0 2 == 0#2 then .ok { kind := .lane, a := (.lane (m.extractLsb' 2 2 == 3#2) true), b := (.lane (m.extractLsb' 2 2 == 3#2) true), d0 := .beat, d1 := .beat }
    else .error 0x002
  | 0x75 =>
    if !(m.extractLsb' 2 2 == 3#2) then .ok { kind := .lane, a := (.lane (m.extractLsb' 2 2 == 3#2) false), b := (.lane (m.extractLsb' 2 2 == 3#2) false), lit := .opt, mask := 0x000000000000FFFF#64 }
    else .error 0x002
  | 0x76 =>
    if !(m.extractLsb' 2 2 == 3#2) then .ok { kind := .lane, a := (.lane (m.extractLsb' 2 2 == 3#2) false), b := .zero, lit := .opt, mask := 0x000000000000FFFF#64 }
    else .error 0x002
  | 0x77 =>
    if m == 0#4 then .ok { kind := .lane, a := (.lane (m.extractLsb' 2 2 == 3#2) true), b := (.lane (m.extractLsb' 2 2 == 3#2) true), d0 := .beat, d1 := .beat }
    else .error 0x002
  | 0x78 =>
    if (m.extractLsb' 0 2 == 0#2 || !(m.extractLsb' 2 2 == 3#2)) then .ok { kind := .lane, a := (.lane (m.extractLsb' 2 2 == 3#2) false), b := .zero, d0 := .beat, d1 := .beat, lit := .opt, mask := 0x000000000000FFFF#64 }
    else .error 0x002
  | 0x79 =>
    if m == 0#4 then .ok { kind := .lane, a := .pop, b := .zero, d0 := .beat, d1 := .beat, lit := .req, mask := 0x000000000003FFFF#64 }
    else .error 0x002
  | 0x7A =>
    if m == 0#4 then .ok { kind := .lane, a := .pop, b := .zero, d0 := .beat, d1 := .beat, lit := .req, mask := 0x000000000003FFFF#64 }
    else .error 0x002
  | 0x80 =>
    if MFmt.pairOk m then .ok { kind := .matrix, a := .mxTrail, b := (if m == 15#4 then .mxTrail else .zero), lit := .no }
    else .error 0x002
  | 0x81 =>
    if m.extractLsb' 2 2 == 0#2 then .ok { kind := .matrix, a := .mx, b := .zero, lit := .no }
    else .error 0x002
  | 0x82 =>
    if m == 0#4 then .ok { kind := .matrix, a := .zero, b := .zero, lit := .no }
    else .error 0x002
  | 0x83 =>
    if m == 0#4 then .ok { kind := .matrix, a := .zero, b := .zero, d0 := .beat, d1 := .wordS, lit := .opt, mask := 0x000000000000003F#64 }
    else .error 0x002
  | 0x84 =>
    if m == 0#4 then .ok { kind := .matrix, a := .zero, b := .zero, lit := .no }
    else .error 0x002
  | 0x85 =>
    if MFmt.pairOk m then .ok { kind := .matrix, a := .mxTrail, b := (if m == 15#4 then .mxTrail else .zero), lit := .req, mask := 0x00000000FFFFFFFF#64 }
    else .error 0x002
  | 0x86 =>
    if m == 0#4 then .ok { kind := .matrix, grd := false, a := .zero, b := .zero, lit := .no }
    else .error 0x002
  | 0x87 =>
    if m == 0#4 then .ok { kind := .matrix, a := .mx, b := .zero, lit := .no }
    else .error 0x002
  | 0x90 =>
    if m.extractLsb' 2 2 == 0#2 then .ok { kind := .port, grd := false, a := .popW, b := .zero, d0 := .none, d1 := .none, lit := .req, mask := 0x000000007FFFFFFF#64 }
    else .error 0x002
  | 0x91 =>
    if m.extractLsb' 2 2 == 0#2 then .ok { kind := .port, grd := false, a := .popW, b := .zero, d0 := .none, d1 := .none, lit := .req, mask := 0x000000007FFFFFFF#64 }
    else .error 0x002
  | 0x92 =>
    if !m.getLsbD 3 then .ok { kind := .port, a := .pw, b := .zero, lit := .no }
    else .error 0x002
  | 0x93 =>
    if !m.getLsbD 2 then .ok { kind := .port, a := .pw, b := .pw, lit := .no }
    else .error 0x002
  | 0x94 =>
    if m.extractLsb' 2 2 == 0#2 then .ok { kind := .port, a := .pw, b := .zero, d0 := .beat, lit := .req, mask := 0x000000000000003F#64 }
    else .error 0x002
  | 0x95 =>
    if !m.getLsbD 2 then .ok { kind := .port, a := .pw, b := .beat, lit := .req, mask := 0x000000000000003F#64 }
    else .error 0x002
  | 0x96 =>
    if m.extractLsb' 2 2 == 0#2 then .ok { kind := .port, a := .pwIdx, b := .zero, d0 := .none, d1 := .none, lit := .no }
    else .error 0x002
  | 0x97 =>
    if !m.getLsbD 2 then .ok { kind := .port, a := .pwIdx, b := .pwb, lit := .no }
    else .error 0x002
  | 0x98 =>
    if m.extractLsb' 2 2 == 0#2 then .ok { kind := .port, a := .pw, b := .pw, lit := .req, mask := 0x00000000000003FF#64, c := some (.pwThird, 4) }
    else .error 0x002
  | 0x99 =>
    if m == 0#4 then .ok { kind := .port, a := .zero, b := .zero, lit := .req, mask := 0x000000000007FFFF#64 }
    else .error 0x002
  | 0x9A =>
    if m.extractLsb' 2 2 == 0#2 then .ok { kind := .port, a := .zero, b := .zero, d0 := .hand, lit := .req, mask := 0x0000000000070000#64 }
    else if m == 4#4 then .ok { kind := .port, a := .popW, b := .zero, lit := .no }
    else .error 0x002
  | 0x9B =>
    if m.extractLsb' 2 2 == 0#2 then .ok { kind := .port, a := .pw, b := .zero, lit := .req, mask := 0x0000000000070000#64 }
    else .error 0x002
  | 0x9C =>
    if m.extractLsb' 2 2 == 0#2 then .ok { kind := .port, a := .pw, b := .zero, lit := .no }
    else .error 0x002
  | 0x9D =>
    .ok { kind := .port, a := .pw, b := .zero, d0 := .none7, d1 := .none7, lit := .req, mask := 0x0000000000070003#64 }
  | 0x9E =>
    if m.extractLsb' 2 2 == 0#2 then .ok { kind := .port, a := .zero, b := .zero, d0 := .beat, lit := .no }
    else .error 0x002
  | 0x9F =>
    if m == 0#4 then .ok { kind := .port, a := .pw, b := .pw }
    else if m == 1#4 then .ok { kind := .port, a := .pw, b := .pw }
    else .error 0x002
  | 0xA0 =>
    if m == 0#4 then .ok { kind := .port, a := .pw, b := .pw }
    else .error 0x002
  | 0xA1 =>
    if m == 0#4 then .ok { kind := .port, a := .pwNoImm, b := .pwNoImm, lit := .req, mask := 0x000000000000003F#64, c := some (.pwThird, 0) }
    else if m == 1#4 then .ok { kind := .port, a := .pw, b := .zero }
    else .error 0x002
  | 0xA2 =>
    if m == 0#4 then .ok { kind := .port, a := .pw, b := .pw, lit := .req, mask := 0x007FFFFF00070FFF#64 }
    else .error 0x002
  | 0xA3 =>
    if m == 0#4 || m == 4#4 then .ok { kind := .port, a := (if m == 4#4 then .beat else .zero), b := .zero, d1 := .none, lit := .req, mask := 0x0001FFFF0003FFFF#64 }
    else .error 0x002
  | 0xA4 =>
    if m == 0#4 || m == 4#4 then .ok { kind := .port, a := .zero, b := .zero, d0 := if m == 4#4 then .beat else .word, d1 := if m == 4#4 then .word else .none, lit := .req, mask := 0x0001FFFF0003FFFF#64 }
    else .error 0x002
  | 0xB0 =>
    if m.extractLsb' 2 2 == 0#2 then .ok { kind := .descent, grd := false, a := .pw, b := .beat, lit := .no }
    else .error 0x002
  | 0xB1 =>
    if m.extractLsb' 2 2 == 0#2 then .ok { kind := .descent, a := .pw, b := .zero, lit := .no }
    else if m.extractLsb' 2 2 == 1#2 then .ok { kind := .descent, a := .pw, b := .zero, lit := .no }
    else .error 0x002
  | 0xB2 =>
    if m.extractLsb' 2 2 == 0#2 then .ok { kind := .descent, a := .pw, b := .pw, lit := .no }
    else .error 0x002
  | 0xB3 =>
    if m.extractLsb' 2 2 == 0#2 then .ok { kind := .descent, grd := false, a := .pwNoImm, b := .beat, lit := .req, mask := 0x00000FFFFFFFFFFF#64 }
    else .error 0x002
  | 0xB4 =>
    if m == 0#4 then .ok { kind := .descent, a := .pw, b := .zero, lit := .no }
    else .error 0x002
  | 0xB5 =>
    if m == 0#4 then .ok { kind := .descent, a := .zero, b := .zero, lit := .no }
    else if m == 4#4 then .ok { kind := .descent, a := .zero, b := .zero, lit := .no }
    else .error 0x002
  | 0xB6 =>
    if m == 0#4 then .ok { kind := .descent, a := .pw, b := .zero, lit := .no }
    else .error 0x002
  | 0xB7 =>
    if m == 0#4 then .ok { kind := .descent, grd := false, a := .beat, b := .beat, lit := .no }
    else .error 0x002
  | 0xB8 =>
    if m == 0#4 then .ok { kind := .descent, a := .zero, b := .zero, d1 := .beat, lit := .no }
    else .error 0x002
  | 0xB9 =>
    if m.extractLsb' 2 2 == 0#2 then .ok { kind := .descent, a := .pw, b := .zero, lit := .no }
    else .error 0x002
  | 0xBA =>
    if m.extractLsb' 2 2 == 0#2 then .ok { kind := .descent, a := .pw, b := .zero, lit := .no }
    else .error 0x002
  | 0xBB =>
    if m.extractLsb' 2 2 == 0#2 then .ok { kind := .descent, a := .pw, b := .pw, lit := .no }
    else .error 0x002
  | 0xBC =>
    if m.extractLsb' 2 2 == 0#2 then .ok { kind := .descent, a := .zero, b := .zero, d1 := .none, lit := .req, mask := 0xFFFFFFFF00000003#64 }
    else if m == 4#4 then .ok { kind := .descent, a := .zero, b := .zero, d1 := .none, lit := .no }
    else .error 0x002
  | 0xC0 =>
    if m == 0#4 then .ok { kind := .cell, a := .word, b := .zero, lit := .ctl, mask := 0x001FFFFFFFFFFFFF#64 }
    else .error 0x002
  | 0xC1 =>
    if m == 0#4 || m == 1#4 then .ok { kind := .cell, a := (if m == 1#4 then .zero else .word), b := .zero, lit := .ctl, mask := 0x001FFFFFFFFFFFFF#64 }
    else .error 0x002
  | 0xC2 =>
    if m == 0#4 then .ok { kind := .cell, a := .word, b := .zero, lit := .ctl, mask := 0x001FFFFFFFFFFFFF#64 }
    else .error 0x002
  | 0xC3 =>
    if m.extractLsb' 2 2 == 0#2 then .ok { kind := .cell, a := .word, b := .zero, lit := .strict }
    else if m.extractLsb' 2 2 == 1#2 then .ok { kind := .cell, a := .word, b := .zero, lit := .strict }
    else if m.extractLsb' 2 2 == 2#2 then .ok { kind := .cell, a := .word, b := .zero, lit := .strict }
    else if m.extractLsb' 2 2 == 3#2 then .ok { kind := .cell, a := .zero, b := .zero, lit := .strict }
    else .error 0x002
  | 0xC4 =>
    if m == 0#4 then .ok { kind := .cell, a := .word, b := .zero, lit := .strict }
    else if m == 1#4 then .ok { kind := .cell, a := .word, b := .word, lit := .strict }
    else .error 0x002
  | 0xC5 =>
    if m == 0#4 then .ok { kind := .cell, a := .word, b := .zero, lit := .ctl, mask := 0x000001FFFFFFFFFF#64 }
    else if m == 1#4 then .ok { kind := .cell, a := .word, b := .zero, lit := .ctl, mask := 0x000001FFFFFFFFFF#64 }
    else .error 0x002
  | 0xC6 =>
    if m == 0#4 then .ok { kind := .cell, a := .zero, b := .zero, lit := .ctl, mask := 0x000001FFFFFFFFFF#64 }
    else .error 0x002
  | 0xC7 =>
    if m == 0#4 || m == 1#4 then .ok { kind := .cell, a := .word, b := .zero, lit := .ctl, mask := 0x000001FFFFFFFFFF#64 }
    else .error 0x002
  | 0xC8 =>
    if m == 0#4 then .ok { kind := .cell, a := .barq, b := .zero, lit := .ctl, mask := 0x000007FFFFFFFFFF#64 }
    else .error 0x002
  | 0xC9 =>
    if m == 0#4 then .ok { kind := .cell, a := .word, b := .word, lit := .strict }
    else .error 0x002
  | 0xCA =>
    if m == 0#4 then .ok { kind := .cell, a := .word, b := .word, lit := .strict }
    else .error 0x002
  | 0xCB =>
    if m == 0#4 then .ok { kind := .cell, a := .zero, b := .zero, lit := .strict }
    else if m == 1#4 then .ok { kind := .cell, a := .word, b := .zero, lit := .strict }
    else .error 0x002
  | 0xCC =>
    if m == 0#4 then .ok { kind := .cell, a := .zero, b := .zero, lit := .no }
    else if m == 1#4 then .ok { kind := .cell, a := .zero, b := .zero, lit := .no }
    else .error 0x002
  | 0xCD =>
    if m == 0#4 then .ok { kind := .cell, a := .zero, b := .zero, lit := .no }
    else if m == 1#4 then .ok { kind := .cell, a := .zero, b := .zero, lit := .no }
    else .error 0x002
  | 0xCE =>
    if m == 0#4 then .ok { kind := .cell, a := .zero, b := .zero, lit := .no }
    else if m == 1#4 then .ok { kind := .cell, a := .zero, b := .zero, lit := .no }
    else .error 0x002
  | 0xCF =>
    if m == 0#4 then .ok { kind := .cell, a := .word, b := .zero, lit := .no }
    else if m == 1#4 then .ok { kind := .cell, a := .word, b := .zero, lit := .no }
    else .error 0x002
  | 0xE0 =>
    if m == 0#4 || m == 1#4 then .ok { kind := .scalar, b := (if m == 1#4 then .any else .zero) }
    else .error 0x002
  | 0xE1 =>
    if m == 0#4 then .ok { kind := .scalar, a := .zero, b := .zero, d0 := .none, d1 := .none, lit := .no }
    else .error 0x002
  | 0xE2 =>
    if m == 0#4 then .ok { kind := .scalar, b := .zero }
    else .error 0x002
  | 0xE3 =>
    if m == 0#4 then .ok { kind := .scalar }
    else .error 0x002
  | 0xE4 =>
    .ok { kind := .scalar }
  | 0xE5 =>
    if m == 0#4 then .ok { kind := .scalar, b := .zero }
    else if m == 1#4 then .ok { kind := .scalar, b := .zero }
    else .error 0x002
  | 0xE6 =>
    if m == 0#4 then .ok { kind := .scalar }
    else if m == 1#4 then .ok { kind := .scalar, b := .zero }
    else .error 0x002
  | 0xE7 =>
    if m == 0#4 then .ok { kind := .port, a := .pw, b := .pw }
    else if m == 1#4 then .ok { kind := .port, a := .zero, b := .zero, lit := .no }
    else .error 0x002
  | 0xE8 =>
    if m == 0#4 then .ok { kind := .scalar, a := .zero, b := .zero, lit := .no }
    else .error 0x002
  | 0xE9 =>
    if m == 0#4 then .ok { kind := .scalar, b := .zero }
    else .error 0x002
  | 0xEA =>
    if m == 0#4 then .ok { kind := .scalar, b := .zero }
    else .error 0x002
  | 0xEB =>
    if m == 0#4 then .ok { kind := .port, a := .pw, b := .pw }
    else if m == 1#4 then .ok { kind := .port, a := .pw, b := .zero }
    else .error 0x002
  | 0xEC =>
    if m == 0#4 || m == 1#4 then .ok { kind := .port, a := .pw, b := .zero, d0 := if m == 1#4 then .beat else .word, d1 := if m == 1#4 then .beat else .word, lit := .no }
    else .error 0x002
  | 0xED =>
    if m == 0#4 then .ok { kind := .scalar, b := .zero }
    else .error 0x002
  | 0xEE =>
    if m == 0#4 then .ok { kind := .scalar }
    else .error 0x002
  | _ => .error 0x001

/-- The instruction that an opcode, modifier, operands, third source and literal name, once every field has passed
its check (`ol` is the literal as a configuration, `l` its bits). -/
def build (opc : BitVec 8) (m : BitVec 4) (o : Ops) (c : Sel) (ol : Option DWord) : Option Instr :=
  let l := ol.getD 0
  match opc.toNat with
  | 0x01 => some (.add o (IntTy.ofBits m))
  | 0x02 => some (.sub o (IntTy.ofBits m))
  | 0x03 => some (.mul o (IntTy.ofBits m))
  | 0x04 => some (.mulh o (IntTy.ofBits m))
  | 0x05 => some (.mad o (IntTy.ofBits m) c)
  | 0x06 => some (.neg o (IntTy.ofBits m))
  | 0x07 => some (.abs o (IntTy.ofBits m))
  | 0x08 => some (.min o (IntTy.ofBits m))
  | 0x09 => some (.max o (IntTy.ofBits m))
  | 0x0A => some (.band o)
  | 0x0B => some (.bor o)
  | 0x0C => some (.bxor o)
  | 0x0D => some (.bandn o)
  | 0x0E => some (.bnot o)
  | 0x0F => some (.shl o)
  | 0x10 => some (.shr o)
  | 0x11 => some (.sar o)
  | 0x12 => some (.rol o)
  | 0x13 => some (.clz o)
  | 0x14 => some (.popc o)
  | 0x15 => some (.bfx o (m.getLsbD 2))
  | 0x16 => some (.bfi o c)
  | 0x17 => some (.cmp o (CmpCond.ofBits m))
  | 0x18 => some (.sel o)
  | 0x19 => some (.mov o)
  | 0x1A => some (.ldi o l)
  | 0x1B => some (.acc o (AccKind.ofBits m))
  | 0x1C => some (.fadd o (Rnd.ofBits (m.extractLsb' 0 2)))
  | 0x1D => some (.fsub o (Rnd.ofBits (m.extractLsb' 0 2)))
  | 0x1E => some (.fmul o (Rnd.ofBits (m.extractLsb' 0 2)))
  | 0x1F => some (.ffma o (Rnd.ofBits (m.extractLsb' 0 2)) c)
  | 0x20 => some (.fmin o)
  | 0x21 => some (.fmax o)
  | 0x22 => some (.fcmp o (FCond.ofBits (m.extractLsb' 0 3)))
  | 0x23 => some (.cvt o (Cvt.ofBits l))
  | 0x24 => some (.mctl o l)
  | 0x25 => some (.rep o (m.extractLsb' 0 3))
  | 0x40 => some (.steer o (m.getLsbD 2) (m.extractLsb' 0 2))
  | 0x41 => some (.merge o (m.extractLsb' 0 2))
  | 0x42 => some (.merge2 o (MKey.ofBits (m.extractLsb' 0 2)) (m.getLsbD 2) (ol.map fun l => l.extractLsb' 0 2))
  | 0x43 => some (.rmerge o ((l.extractLsb' 0 12)) ((l.extractLsb' 12 2)))
  | 0x44 => some (.gate o ((l.extractLsb' 0 16)))
  | 0x45 => some (.sink o)
  | 0x46 => some (.mark o)
  | 0x47 => some (.endrun o)
  | 0x48 => some (.loopin o (m.extractLsb' 0 3))
  | 0x49 => some (.loopout o (m.extractLsb' 0 3))
  | 0x4A => some (.kill o ((l.extractLsb' 0 5)))
  | 0x4B => some (.kchk o)
  | 0x50 => some (.sdcvt o (SdLen.ofBits (m.extractLsb' 0 2)) (SdChunk.ofBits (m.extractLsb' 2 2)))
  | 0x51 => some (.sdval o (m.getLsbD 2))
  | 0x52 => some (.oadd o)
  | 0x53 => some (.ocmp o (OCond.ofBits m))
  | 0x54 => some (.ocut o m)
  | 0x55 => some (.omax o)
  | 0x60 => some (.vadd o (LaneTy.ofBits (m.extractLsb' 2 2)) (Rnd.ofBits (m.extractLsb' 0 2)))
  | 0x61 => some (.vsub o (LaneTy.ofBits (m.extractLsb' 2 2)) (Rnd.ofBits (m.extractLsb' 0 2)))
  | 0x62 => some (.vmul o (LaneTy.ofBits (m.extractLsb' 2 2)) (Rnd.ofBits (m.extractLsb' 0 2)))
  | 0x63 => some (.vfma o (LaneTy.ofBits (m.extractLsb' 2 2)) (Rnd.ofBits (m.extractLsb' 0 2)) c)
  | 0x64 => some (.vmax o (LaneTy.ofBits (m.extractLsb' 2 2)))
  | 0x65 => some (.vmin o (LaneTy.ofBits (m.extractLsb' 2 2)))
  | 0x66 => some (.vexp2 o (Rnd.ofBits (m.extractLsb' 0 2)))
  | 0x67 => some (.vlog2 o (Rnd.ofBits (m.extractLsb' 0 2)))
  | 0x68 => some (.vrcp o (Rnd.ofBits (m.extractLsb' 0 2)))
  | 0x69 => some (.vrsq o (Rnd.ofBits (m.extractLsb' 0 2)))
  | 0x6A => some (.vcmp o (LaneTy.ofBits (m.extractLsb' 2 2)) (FCond.ofBits (l.extractLsb' 0 3)))
  | 0x6B => some (.vsel o (LaneTy.ofBits (m.extractLsb' 2 2)) c)
  | 0x6C => some (.vcvt o (Cvt.ofBits l) ((l.extractLsb' 11 2)))
  | 0x6D => some (.vqmx o c ((l.extractLsb' 6 3)))
  | 0x6E => some (.vdqmx o (LaneTy.ofBits (m.extractLsb' 2 2)) (Rnd.ofBits (m.extractLsb' 0 2)) ((l.extractLsb' 0 3)))
  | 0x6F => some (.vredadd o (LaneTy.ofBits (m.extractLsb' 2 2)) (Rnd.ofBits (m.extractLsb' 0 2)) (ol.map Group.ofBits))
  | 0x70 => some (.vredmax o (LaneTy.ofBits (m.extractLsb' 2 2)) (ol.map Group.ofBits))
  | 0x71 => some (.vargmax o (LaneTy.ofBits (m.extractLsb' 2 2)) (ol.map Group.ofBits))
  | 0x72 => some (.vlse o (LaneTy.ofBits (m.extractLsb' 2 2)) (ol.map Group.ofBits))
  | 0x73 => some (.vbcast o (LaneTy.ofBits (m.extractLsb' 2 2)) (if o.a.queue?.isSome then ol.map fun l => l.extractLsb' 0 6 else none))
  | 0x74 => some (.vshuf o (LaneTy.ofBits (m.extractLsb' 2 2)))
  | 0x75 => some (.vdot o (LaneTy.ofBits (m.extractLsb' 2 2)) (Rnd.ofBits (m.extractLsb' 0 2)) (ol.map Group.ofBits))
  | 0x76 => some (.vnorm2 o (LaneTy.ofBits (m.extractLsb' 2 2)) (Rnd.ofBits (m.extractLsb' 0 2)) (ol.map Group.ofBits))
  | 0x77 => some (.vgumbel o)
  | 0x78 => some (.vscan o (LaneTy.ofBits (m.extractLsb' 2 2)) (Rnd.ofBits (m.extractLsb' 0 2)) (ol.map Group.ofBits))
  | 0x79 => some (.vtld o (Tile.ofBits l))
  | 0x7A => some (.vtst o (Tile.ofBits l))
  | 0x80 => some (.mma o (MFmt.ofBits (m.extractLsb' 2 2)) (MFmt.ofBits (m.extractLsb' 0 2)))
  | 0x81 => some (.mstat o (MFmt.ofBits (m.extractLsb' 0 2)))
  | 0x82 => some (.mswap o)
  | 0x83 => some (.mdrain o (ol.map fun l => l.extractLsb' 0 6))
  | 0x84 => some (.mzero o)
  | 0x85 => some (.mrec o (MFmt.ofBits (m.extractLsb' 2 2)) (MFmt.ofBits (m.extractLsb' 0 2)) ((l.extractLsb' 0 32)))
  | 0x86 => some (.mpair o)
  | 0x87 => some (.mscale o)
  | 0x90 => some (.sdef o (m.extractLsb' 0 2) (StreamLit.ofBits l))
  | 0x91 => some (.srun o (m.extractLsb' 0 2) (StreamLit.ofBits l))
  | 0x92 => some (.ld o (m.extractLsb' 0 2) (m.getLsbD 2))
  | 0x93 => some (.st o (m.extractLsb' 0 2) (m.getLsbD 3))
  | 0x94 => some (.ldt o (m.extractLsb' 0 2) ((l.extractLsb' 0 6)))
  | 0x95 => some (.stt o (m.extractLsb' 0 2) (m.getLsbD 3) ((l.extractLsb' 0 6)))
  | 0x96 => some (.gath o (m.extractLsb' 0 2))
  | 0x97 => some (.scat o (m.extractLsb' 0 2) (m.getLsbD 3))
  | 0x98 => some (.atom o (m.extractLsb' 0 2) (AtomOp.ofBits (l.extractLsb' 0 4)) c)
  | 0x99 => some (.fence o ((l.extractLsb' 0 16)) (ScopeSel.ofBits (l.extractLsb' 16 3)))
  | 0x9A => if m.extractLsb' 2 2 == 0#2 then some (.ownRel o (m.extractLsb' 0 2) (ScopeSel.ofBits (l.extractLsb' 16 3))) else some (.ownAcq o)
  | 0x9B => some (.win o (m.extractLsb' 0 2) (ScopeSel.ofBits (l.extractLsb' 16 3)))
  | 0x9C => some (.pref o (m.extractLsb' 0 2))
  | 0x9D => some (.cpy o (m.extractLsb' 0 2) (CpyOp.ofBits (m.extractLsb' 2 2)) ((l.extractLsb' 0 2)) (ScopeSel.ofBits (l.extractLsb' 16 3)))
  | 0x9E => some (.rsp o (m.extractLsb' 0 2))
  | 0x9F => if m == 0#4 then some (.notifyAdd o) else some (.notifySet o)
  | 0xA0 => some (.waitn o)
  | 0xA1 => if m == 0#4 then some (.ringPut o c) else some (.ringPub o)
  | 0xA2 => some (.bmode o (BankModeLit.ofBits l))
  | 0xA3 => some (.spill o (m.getLsbD 2) ((l.extractLsb' 32 17)) (Tile.ofBits l))
  | 0xA4 => some (.fill o (m.getLsbD 2) ((l.extractLsb' 32 17)) (Tile.ofBits l))
  | 0xB0 => some (.tapp o (m.extractLsb' 0 2))
  | 0xB1 => if m.extractLsb' 2 2 == 0#2 then some (.tseal o (m.extractLsb' 0 2)) else some (.tsealLift o (m.extractLsb' 0 2))
  | 0xB2 => some (.tlift o (m.extractLsb' 0 2))
  | 0xB3 => some (.troot o (m.extractLsb' 0 2) ((l.extractLsb' 0 32)) ((l.extractLsb' 32 12)))
  | 0xB4 => some (.tscore o)
  | 0xB5 => if m == 0#4 then some (.tselOne o) else some (.tselAll o)
  | 0xB6 => some (.topen o)
  | 0xB7 => some (.tacc o)
  | 0xB8 => some (.tend o)
  | 0xB9 => some (.tfork o (m.extractLsb' 0 2))
  | 0xBA => some (.tevict o (m.extractLsb' 0 2))
  | 0xBB => some (.tprune o (m.extractLsb' 0 2))
  | 0xBC => if m.extractLsb' 2 2 == 0#2 then some (.tmask o (m.extractLsb' 0 2) ((l.extractLsb' 0 2)) ((l.extractLsb' 32 32))) else some (.tmaskNone o)
  | 0xC0 => some (.seq o (CtlCfg.ofBits (l.extractLsb' 32 32)))
  | 0xC1 => some (.pipe o (m.getLsbD 0) (CtlCfg.ofBits (l.extractLsb' 32 32)))
  | 0xC2 => some (.strm o (CtlCfg.ofBits (l.extractLsb' 32 32)))
  | 0xC3 => if m.extractLsb' 2 2 == 0#2 then some (.cntSet o (m.extractLsb' 0 2)) else if m.extractLsb' 2 2 == 1#2 then some (.cntAdd o (m.extractLsb' 0 2)) else if m.extractLsb' 2 2 == 2#2 then some (.cntStep o (m.extractLsb' 0 2)) else some (.cntRead o (m.extractLsb' 0 2))
  | 0xC4 => if m == 0#4 then some (.lutGet o) else some (.lutSet o)
  | 0xC5 => if m == 0#4 then some (.wincSet o ((l.extractLsb' 32 6)) ((l.extractLsb' 38 3))) else some (.wincAdd o ((l.extractLsb' 32 6)) ((l.extractLsb' 38 3)))
  | 0xC6 => some (.ena o ((l.extractLsb' 32 6)) ((l.extractLsb' 38 3)))
  | 0xC7 => some (.done o (m.getLsbD 0) ((l.extractLsb' 32 6)) ((l.extractLsb' 38 3)))
  | 0xC8 => some (.bar o ((l.extractLsb' 32 3)) ((l.extractLsb' 35 8)))
  | 0xC9 => some (.permt o)
  | 0xCA => some (.permg o)
  | 0xCB => if m == 0#4 then some (.cyc o) else some (.cycPmc o)
  | 0xCC => if m == 0#4 then some (.bandRead o) else some (.bandExit o)
  | 0xCD => if m == 0#4 then some (.stageCur o) else some (.stageSh o)
  | 0xCE => if m == 0#4 then some (.scrollRead o) else some (.scrollClr o)
  | 0xCF => if m == 0#4 then some (.schedRead o) else some (.schedBoost o)
  | 0xE0 => some (.cfgreq o (m.getLsbD 0))
  | 0xE1 => some (.yield_ o)
  | 0xE2 => some (.frz o)
  | 0xE3 => some (.resume o)
  | 0xE4 => some (.trap o m)
  | 0xE5 => if m == 0#4 then some (.faultackAck o) else some (.faultackKill o)
  | 0xE6 => if m == 0#4 then some (.gatecfgSet o) else some (.gatecfgRead o)
  | 0xE7 => if m == 0#4 then some (.tlbinvVa o) else some (.tlbinvCtx o)
  | 0xE8 => some (.capq o)
  | 0xE9 => some (.bret o)
  | 0xEA => some (.varsel o)
  | 0xEB => if m == 0#4 then some (.rngset o) else some (.rngsetClr o)
  | 0xEC => some (.randt o (m.getLsbD 0))
  | 0xED => some (.srd o)
  | 0xEE => some (.swr o)
  | _ => none

/-- The parts an instruction's word is built from: opcode, modifier, operands, third source, literal. -/
def partsOf (i : Instr) : Option Parts :=
  match i with
  | .reset => none
  | .firmwareReady => none
  | .launchWordWrite _ _ _ _ _ => none
  | .launchSubmit _ _ _ => none
  | .graphSubmit _ _ _ => none
  | .replayStart _ _ => none
  | .placement _ => none
  | .blockFetch _ _ => none
  | .firingCompletion _ _ => none
  | .firingStep _ _ => none
  | .waveClose _ => none
  | .groupDelivery _ => none
  | .markerForward _ => none
  | .doneEvent _ => none
  | .ingressForward _ _ => none
  | .rmergeTake _ _ => none
  | .killArrival _ _ => none
  | .memoryReply _ _ => none
  | .windowFill _ _ _ _ => none
  | .tlbLookup _ _ => none
  | .pageWalkComplete _ _ _ => none
  | .translationFreeze _ _ => none
  | .bmodeSwitch _ _ _ => none
  | .engineRequestAccept _ _ _ _ => none
  | .engineResponse _ _ _ _ => none
  | .randtTicket _ => none
  | .ringRefill _ => none
  | .retirementRequest _ => none
  | .retirementThreshold _ => none
  | .retirement _ => none
  | .gavotteLineCopy _ => none
  | .evacuationComplete _ => none
  | .overCapacityPoint _ _ => none
  | .modeChangeStart => none
  | .permitWithdrawalEnd => none
  | .powerWindow => none
  | .permitWindow _ => none
  | .controllerDecision _ _ _ => none
  | .enableArrival _ _ _ => none
  | .doneArrival _ _ _ => none
  | .finalWord _ _ _ => none
  | .watchdogExpiry _ _ => none
  | .freezeComplete _ _ => none
  | .faultRecordDelivery _ => none
  | .yieldPoint _ _ => none
  | .treeGrant _ => none
  | .nodeSwitch _ => none
  | .shadowLoad _ => none
  | .triggerInject _ _ => none
  | .wrapDeparture _ _ _ => none
  | .feedbackDelivery _ _ _ => none
  | .bandReform _ _ => none
  | .rowFree _ => none
  | .stageChoice _ => none
  | .launchComplete _ _ => none
  | .flitReceive _ _ => none
  | .linkDown _ => none
  | .hostMemoryRead _ => none
  | .hostMemoryWrite _ _ => none
  | .mergeContributionSend _ _ => none
  | .mergeContribution _ => none
  | .parityDelta _ _ _ => none
  | .parityRebuild _ _ _ _ => none
  | .notifyWindowWrite _ _ _ => none
  | .appClusterRequest _ _ _ _ => none
  | .launchCall _ _ _ => none
  | .setPowerMode => none
  | .readBankmapEntry => none
  | .readBandEntry => none
  | .writeBankmapEntry => none
  | .retireBank => none
  | .writeOwnerEntry => none
  | .writeSequenceSlot => none
  | .writeNotifyGrant => none
  | .createRegion => none
  | .removeRegion => none
  | .decrementReaders => none
  | .clearHeld => none
  | .fwResume => none
  | .fwFaultackAck => none
  | .fwFaultackKill => none
  | .clearGatewayCounts => none
  | .writeMergeEntry => none
  | .memberRejoin => none
  | .writeParityGroup => none
  | .loadNonce => none
  | .produceReport => none
  | .readReport => none
  | .submitCoreLaunch => none
  | .beginFirmwareImage => none
  | .writeFirmwareImage => none
  | .commitFirmwareImage => none
  | .add o ty => some ⟨0x01#8, ty.bits, o, none, o.lit⟩
  | .sub o ty => some ⟨0x02#8, ty.bits, o, none, o.lit⟩
  | .mul o ty => some ⟨0x03#8, ty.bits, o, none, o.lit⟩
  | .mulh o ty => some ⟨0x04#8, ty.bits, o, none, o.lit⟩
  | .mad o ty c => some ⟨0x05#8, ty.bits, o, some c, some (pos (c.code) 0)⟩
  | .neg o ty => some ⟨0x06#8, ty.bits, o, none, o.lit⟩
  | .abs o ty => some ⟨0x07#8, ty.bits, o, none, o.lit⟩
  | .min o ty => some ⟨0x08#8, ty.bits, o, none, o.lit⟩
  | .max o ty => some ⟨0x09#8, ty.bits, o, none, o.lit⟩
  | .band o => some ⟨0x0A#8, 0#4, o, none, o.lit⟩
  | .bor o => some ⟨0x0B#8, 0#4, o, none, o.lit⟩
  | .bxor o => some ⟨0x0C#8, 0#4, o, none, o.lit⟩
  | .bandn o => some ⟨0x0D#8, 0#4, o, none, o.lit⟩
  | .bnot o => some ⟨0x0E#8, 0#4, o, none, o.lit⟩
  | .shl o => some ⟨0x0F#8, 0#4, o, none, o.lit⟩
  | .shr o => some ⟨0x10#8, 0#4, o, none, o.lit⟩
  | .sar o => some ⟨0x11#8, 0#4, o, none, o.lit⟩
  | .rol o => some ⟨0x12#8, 0#4, o, none, o.lit⟩
  | .clz o => some ⟨0x13#8, 0#4, o, none, o.lit⟩
  | .popc o => some ⟨0x14#8, 0#4, o, none, o.lit⟩
  | .bfx o uns => some ⟨0x15#8, (if uns then 4#4 else 0#4), o, none, o.lit⟩
  | .bfi o c => some ⟨0x16#8, 0#4, o, some c, some (pos (c.code) 0)⟩
  | .cmp o cc => some ⟨0x17#8, cc.bits, o, none, o.lit⟩
  | .sel o => some ⟨0x18#8, 0#4, o, none, o.lit⟩
  | .mov o => some ⟨0x19#8, 0#4, o, none, o.lit⟩
  | .ldi o v => some ⟨0x1A#8, 0#4, o, none, some v⟩
  | .acc o k => some ⟨0x1B#8, k.bits, o, none, o.lit⟩
  | .fadd o r => some ⟨0x1C#8, (0#2 ++ r.bits), o, none, o.lit⟩
  | .fsub o r => some ⟨0x1D#8, (0#2 ++ r.bits), o, none, o.lit⟩
  | .fmul o r => some ⟨0x1E#8, (0#2 ++ r.bits), o, none, o.lit⟩
  | .ffma o r c => some ⟨0x1F#8, (0#2 ++ r.bits), o, some c, some (pos (c.code) 0)⟩
  | .fmin o => some ⟨0x20#8, 0#4, o, none, o.lit⟩
  | .fmax o => some ⟨0x21#8, 0#4, o, none, o.lit⟩
  | .fcmp o cc => some ⟨0x22#8, (0#1 ++ cc.bits), o, none, o.lit⟩
  | .cvt o v => some ⟨0x23#8, 0#4, o, none, some v.bits⟩
  | .mctl o v => some ⟨0x24#8, 0#4, o, none, some v⟩
  | .rep o stride => some ⟨0x25#8, (0#1 ++ stride), o, none, o.lit⟩
  | .sdcvt o n ch => some ⟨0x50#8, (ch.bits ++ n.bits), o, none, o.lit⟩
  | .sdval o uns => some ⟨0x51#8, (if uns then 4#4 else 0#4), o, none, o.lit⟩
  | .oadd o => some ⟨0x52#8, 0#4, o, none, o.lit⟩
  | .ocmp o cc => some ⟨0x53#8, cc.bits, o, none, o.lit⟩
  | .ocut o k => some ⟨0x54#8, k, o, none, o.lit⟩
  | .omax o => some ⟨0x55#8, 0#4, o, none, o.lit⟩
  | .steer o num g => some ⟨0x40#8, (0#1 ++ BitVec.ofBool num ++ g), o, none, o.lit⟩
  | .merge o g => some ⟨0x41#8, (0#2 ++ g), o, none, o.lit⟩
  | .merge2 o key desc g => some ⟨0x42#8, (0#1 ++ BitVec.ofBool desc ++ key.bits), o, none, g.map fun g => pos g 0⟩
  | .rmerge o size g => some ⟨0x43#8, 0#4, o, none, some (pos (size) 0 ||| pos (g) 12)⟩
  | .gate o n => some ⟨0x44#8, 0#4, o, none, some (pos (n) 0)⟩
  | .sink o => some ⟨0x45#8, 0#4, o, none, o.lit⟩
  | .mark o => some ⟨0x46#8, 0#4, o, none, o.lit⟩
  | .endrun o => some ⟨0x47#8, 0#4, o, none, o.lit⟩
  | .loopin o k => some ⟨0x48#8, (0#1 ++ k), o, none, o.lit⟩
  | .loopout o k => some ⟨0x49#8, (0#1 ++ k), o, none, o.lit⟩
  | .kill o sh => some ⟨0x4A#8, 0#4, o, none, some (pos (sh) 0)⟩
  | .kchk o => some ⟨0x4B#8, 0#4, o, none, o.lit⟩
  | .vadd o ty r => some ⟨0x60#8, (ty.bits ++ r.bits), o, none, o.lit⟩
  | .vsub o ty r => some ⟨0x61#8, (ty.bits ++ r.bits), o, none, o.lit⟩
  | .vmul o ty r => some ⟨0x62#8, (ty.bits ++ r.bits), o, none, o.lit⟩
  | .vfma o ty r c => some ⟨0x63#8, (ty.bits ++ r.bits), o, some c, some (pos (c.code) 0)⟩
  | .vmax o ty => some ⟨0x64#8, (ty.bits ++ 0#2), o, none, o.lit⟩
  | .vmin o ty => some ⟨0x65#8, (ty.bits ++ 0#2), o, none, o.lit⟩
  | .vexp2 o r => some ⟨0x66#8, (0#2 ++ r.bits), o, none, o.lit⟩
  | .vlog2 o r => some ⟨0x67#8, (0#2 ++ r.bits), o, none, o.lit⟩
  | .vrcp o r => some ⟨0x68#8, (0#2 ++ r.bits), o, none, o.lit⟩
  | .vrsq o r => some ⟨0x69#8, (0#2 ++ r.bits), o, none, o.lit⟩
  | .vcmp o ty cc => some ⟨0x6A#8, (ty.bits ++ 0#2), o, none, some (pos (cc.bits) 0)⟩
  | .vsel o ty c => some ⟨0x6B#8, (ty.bits ++ 0#2), o, some c, some (pos (c.code) 0)⟩
  | .vcvt o v part => some ⟨0x6C#8, 0#4, o, none, some (v.bits ||| pos part 11)⟩
  | .vqmx o c part => some ⟨0x6D#8, 0#4, o, some c, some (pos (c.code) 0 ||| pos (part) 6)⟩
  | .vdqmx o ty r part => some ⟨0x6E#8, (ty.bits ++ r.bits), o, none, some (pos (part) 0)⟩
  | .vredadd o ty r g => some ⟨0x6F#8, (ty.bits ++ r.bits), o, none, g.map Group.bits⟩
  | .vredmax o ty g => some ⟨0x70#8, (ty.bits ++ 0#2), o, none, g.map Group.bits⟩
  | .vargmax o ty g => some ⟨0x71#8, (ty.bits ++ 0#2), o, none, g.map Group.bits⟩
  | .vlse o ty g => some ⟨0x72#8, (ty.bits ++ 0#2), o, none, g.map Group.bits⟩
  | .vbcast o ty e => some ⟨0x73#8, (ty.bits ++ 0#2), o, none, (if o.a.queue?.isSome then e.map fun e => pos e 0 else o.lit)⟩
  | .vshuf o ty => some ⟨0x74#8, (ty.bits ++ 0#2), o, none, o.lit⟩
  | .vdot o ty r g => some ⟨0x75#8, (ty.bits ++ r.bits), o, none, g.map Group.bits⟩
  | .vnorm2 o ty r g => some ⟨0x76#8, (ty.bits ++ r.bits), o, none, g.map Group.bits⟩
  | .vgumbel o => some ⟨0x77#8, 0#4, o, none, o.lit⟩
  | .vscan o ty r g => some ⟨0x78#8, (ty.bits ++ r.bits), o, none, g.map Group.bits⟩
  | .vtld o t => some ⟨0x79#8, 0#4, o, none, some t.bits⟩
  | .vtst o t => some ⟨0x7A#8, 0#4, o, none, some t.bits⟩
  | .mma o fa fb => some ⟨0x80#8, (fa.bits ++ fb.bits), o, none, o.lit⟩
  | .mstat o f => some ⟨0x81#8, (0#2 ++ f.bits), o, none, o.lit⟩
  | .mswap o => some ⟨0x82#8, 0#4, o, none, o.lit⟩
  | .mdrain o t => some ⟨0x83#8, 0#4, o, none, t.map fun t => pos t 0⟩
  | .mzero o => some ⟨0x84#8, 0#4, o, none, o.lit⟩
  | .mrec o fa fb gam => some ⟨0x85#8, (fa.bits ++ fb.bits), o, none, some (pos (gam) 0)⟩
  | .mpair o => some ⟨0x86#8, 0#4, o, none, o.lit⟩
  | .mscale o => some ⟨0x87#8, 0#4, o, none, o.lit⟩
  | .sdef o sm sl => some ⟨0x90#8, (0#2 ++ sm), o, none, some sl.bits⟩
  | .srun o sm sl => some ⟨0x91#8, (0#2 ++ sm), o, none, some sl.bits⟩
  | .ld o sm sx => some ⟨0x92#8, (0#1 ++ BitVec.ofBool sx ++ sm), o, none, o.lit⟩
  | .st o sm spec => some ⟨0x93#8, (BitVec.ofBool spec ++ 0#1 ++ sm), o, none, o.lit⟩
  | .ldt o sm n => some ⟨0x94#8, (0#2 ++ sm), o, none, some (pos (n) 0)⟩
  | .stt o sm spec n => some ⟨0x95#8, (BitVec.ofBool spec ++ 0#1 ++ sm), o, none, some (pos (n) 0)⟩
  | .gath o sm => some ⟨0x96#8, (0#2 ++ sm), o, none, o.lit⟩
  | .scat o sm spec => some ⟨0x97#8, (BitVec.ofBool spec ++ 0#1 ++ sm), o, none, o.lit⟩
  | .atom o sm op c => some ⟨0x98#8, (0#2 ++ sm), o, some c, some (pos (op.bits) 0 ||| pos (c.code) 4)⟩
  | .fence o msk sc => some ⟨0x99#8, 0#4, o, none, some (pos (msk) 0 ||| pos (sc.bits) 16)⟩
  | .ownRel o sm sc => some ⟨0x9A#8, (0#2 ++ sm), o, none, some (pos (sc.bits) 16)⟩
  | .ownAcq o => some ⟨0x9A#8, 4#4, o, none, o.lit⟩
  | .win o sm sc => some ⟨0x9B#8, (0#2 ++ sm), o, none, some (pos (sc.bits) 16)⟩
  | .pref o sm => some ⟨0x9C#8, (0#2 ++ sm), o, none, o.lit⟩
  | .cpy o sa op sb sc => some ⟨0x9D#8, (op.bits ++ sa), o, none, some (pos (sb) 0 ||| pos (sc.bits) 16)⟩
  | .rsp o sm => some ⟨0x9E#8, (0#2 ++ sm), o, none, o.lit⟩
  | .notifyAdd o => some ⟨0x9F#8, 0#4, o, none, o.lit⟩
  | .notifySet o => some ⟨0x9F#8, 1#4, o, none, o.lit⟩
  | .waitn o => some ⟨0xA0#8, 0#4, o, none, o.lit⟩
  | .ringPut o c => some ⟨0xA1#8, 0#4, o, some c, some (pos (c.code) 0)⟩
  | .ringPub o => some ⟨0xA1#8, 1#4, o, none, o.lit⟩
  | .bmode o bm => some ⟨0xA2#8, 0#4, o, none, some bm.bits⟩
  | .spill o q off t => some ⟨0xA3#8, (0#1 ++ BitVec.ofBool q ++ 0#2), o, none, some (t.bits ||| pos off 32)⟩
  | .fill o q off t => some ⟨0xA4#8, (0#1 ++ BitVec.ofBool q ++ 0#2), o, none, some (t.bits ||| pos off 32)⟩
  | .tlbinvVa o => some ⟨0xE7#8, 0#4, o, none, o.lit⟩
  | .tlbinvCtx o => some ⟨0xE7#8, 1#4, o, none, o.lit⟩
  | .rngset o => some ⟨0xEB#8, 0#4, o, none, o.lit⟩
  | .rngsetClr o => some ⟨0xEB#8, 1#4, o, none, o.lit⟩
  | .randt o beat => some ⟨0xEC#8, (0#3 ++ BitVec.ofBool beat), o, none, o.lit⟩
  | .tapp o sm => some ⟨0xB0#8, (0#2 ++ sm), o, none, o.lit⟩
  | .tseal o sm => some ⟨0xB1#8, (0#2 ++ sm), o, none, o.lit⟩
  | .tsealLift o sm => some ⟨0xB1#8, (1#2 ++ sm), o, none, o.lit⟩
  | .tlift o sm => some ⟨0xB2#8, (0#2 ++ sm), o, none, o.lit⟩
  | .troot o sm tau bud => some ⟨0xB3#8, (0#2 ++ sm), o, none, some (pos (tau) 0 ||| pos (bud) 32)⟩
  | .tscore o => some ⟨0xB4#8, 0#4, o, none, o.lit⟩
  | .tselOne o => some ⟨0xB5#8, 0#4, o, none, o.lit⟩
  | .tselAll o => some ⟨0xB5#8, 4#4, o, none, o.lit⟩
  | .topen o => some ⟨0xB6#8, 0#4, o, none, o.lit⟩
  | .tacc o => some ⟨0xB7#8, 0#4, o, none, o.lit⟩
  | .tend o => some ⟨0xB8#8, 0#4, o, none, o.lit⟩
  | .tfork o sm => some ⟨0xB9#8, (0#2 ++ sm), o, none, o.lit⟩
  | .tevict o sm => some ⟨0xBA#8, (0#2 ++ sm), o, none, o.lit⟩
  | .tprune o sm => some ⟨0xBB#8, (0#2 ++ sm), o, none, o.lit⟩
  | .tmask o sm e len => some ⟨0xBC#8, (0#2 ++ sm), o, none, some (pos (e) 0 ||| pos (len) 32)⟩
  | .tmaskNone o => some ⟨0xBC#8, 4#4, o, none, o.lit⟩
  | .seq o cfg => some ⟨0xC0#8, 0#4, o, none, some (cfg.bits ++ immLo o)⟩
  | .pipe o opn cfg => some ⟨0xC1#8, (0#3 ++ BitVec.ofBool opn), o, none, some (cfg.bits ++ immLo o)⟩
  | .strm o cfg => some ⟨0xC2#8, 0#4, o, none, some (cfg.bits ++ immLo o)⟩
  | .cntSet o k => some ⟨0xC3#8, (0#2 ++ k), o, none, o.lit⟩
  | .cntAdd o k => some ⟨0xC3#8, (1#2 ++ k), o, none, o.lit⟩
  | .cntStep o k => some ⟨0xC3#8, (2#2 ++ k), o, none, o.lit⟩
  | .cntRead o k => some ⟨0xC3#8, (3#2 ++ k), o, none, o.lit⟩
  | .lutGet o => some ⟨0xC4#8, 0#4, o, none, o.lit⟩
  | .lutSet o => some ⟨0xC4#8, 1#4, o, none, o.lit⟩
  | .wincSet o ctl p => some ⟨0xC5#8, 0#4, o, none, some (pos ctl 32 ||| pos p 38 ||| (0#32 ++ immLo o))⟩
  | .wincAdd o ctl p => some ⟨0xC5#8, 1#4, o, none, some (pos ctl 32 ||| pos p 38 ||| (0#32 ++ immLo o))⟩
  | .ena o ctl p => some ⟨0xC6#8, 0#4, o, none, some (pos ctl 32 ||| pos p 38 ||| (0#32 ++ immLo o))⟩
  | .done o x ctl p => some ⟨0xC7#8, (0#3 ++ BitVec.ofBool x), o, none, some (pos ctl 32 ||| pos p 38 ||| (0#32 ++ immLo o))⟩
  | .bar o bi n => some ⟨0xC8#8, 0#4, o, none, some (pos bi 32 ||| pos n 35 ||| (0#32 ++ immLo o))⟩
  | .permt o => some ⟨0xC9#8, 0#4, o, none, o.lit⟩
  | .permg o => some ⟨0xCA#8, 0#4, o, none, o.lit⟩
  | .cyc o => some ⟨0xCB#8, 0#4, o, none, o.lit⟩
  | .cycPmc o => some ⟨0xCB#8, 1#4, o, none, o.lit⟩
  | .bandRead o => some ⟨0xCC#8, 0#4, o, none, o.lit⟩
  | .bandExit o => some ⟨0xCC#8, 1#4, o, none, o.lit⟩
  | .stageCur o => some ⟨0xCD#8, 0#4, o, none, o.lit⟩
  | .stageSh o => some ⟨0xCD#8, 1#4, o, none, o.lit⟩
  | .scrollRead o => some ⟨0xCE#8, 0#4, o, none, o.lit⟩
  | .scrollClr o => some ⟨0xCE#8, 1#4, o, none, o.lit⟩
  | .schedRead o => some ⟨0xCF#8, 0#4, o, none, o.lit⟩
  | .schedBoost o => some ⟨0xCF#8, 1#4, o, none, o.lit⟩
  | .cfgreq o arg => some ⟨0xE0#8, (0#3 ++ BitVec.ofBool arg), o, none, o.lit⟩
  | .yield_ o => some ⟨0xE1#8, 0#4, o, none, o.lit⟩
  | .frz o => some ⟨0xE2#8, 0#4, o, none, o.lit⟩
  | .resume o => some ⟨0xE3#8, 0#4, o, none, o.lit⟩
  | .trap o code => some ⟨0xE4#8, code, o, none, o.lit⟩
  | .faultackAck o => some ⟨0xE5#8, 0#4, o, none, o.lit⟩
  | .faultackKill o => some ⟨0xE5#8, 1#4, o, none, o.lit⟩
  | .gatecfgSet o => some ⟨0xE6#8, 0#4, o, none, o.lit⟩
  | .gatecfgRead o => some ⟨0xE6#8, 1#4, o, none, o.lit⟩
  | .capq o => some ⟨0xE8#8, 0#4, o, none, o.lit⟩
  | .bret o => some ⟨0xE9#8, 0#4, o, none, o.lit⟩
  | .varsel o => some ⟨0xEA#8, 0#4, o, none, o.lit⟩
  | .srd o => some ⟨0xED#8, 0#4, o, none, o.lit⟩
  | .swr o => some ⟨0xEE#8, 0#4, o, none, o.lit⟩
  | .firmwareFreeze _ _ => none

/-- The firmware command that a CODE and SUB name (R389). -/
def fwOfCode (code sub : Nat) : Option Instr :=
  match code, sub with
  | 0x01, 0 => some .setPowerMode
  | 0x02, 0 => some .readBankmapEntry
  | 0x02, 1 => some .readBandEntry
  | 0x03, 0 => some .writeBankmapEntry
  | 0x03, 1 => some .retireBank
  | 0x04, 0 => some .writeOwnerEntry
  | 0x04, 1 => some .writeSequenceSlot
  | 0x04, 2 => some .writeNotifyGrant
  | 0x05, 0 => some .createRegion
  | 0x06, 0 => some .removeRegion
  | 0x07, 0 => some .decrementReaders
  | 0x07, 1 => some .clearHeld
  | 0x08, 0 => some .fwResume
  | 0x08, 1 => some .fwFaultackAck
  | 0x08, 2 => some .fwFaultackKill
  | 0x09, 0 => some .clearGatewayCounts
  | 0x0A, 0 => some .writeMergeEntry
  | 0x0A, 1 => some .memberRejoin
  | 0x0B, 0 => some .writeParityGroup
  | 0x0C, 0 => some .loadNonce
  | 0x0C, 1 => some .produceReport
  | 0x0C, 2 => some .readReport
  | 0x0D, 0 => some .submitCoreLaunch
  | 0x0E, 0 => some .beginFirmwareImage
  | 0x0E, 1 => some .writeFirmwareImage
  | 0x0E, 2 => some .commitFirmwareImage
  | _, _ => none

/-- CODE and SUB of a firmware command (R389). -/
def fwParts (i : Instr) : Option (BitVec 8 × BitVec 8) :=
  match i with
  | .setPowerMode => some (0x01#8, 0#8)
  | .readBankmapEntry => some (0x02#8, 0#8)
  | .readBandEntry => some (0x02#8, 1#8)
  | .writeBankmapEntry => some (0x03#8, 0#8)
  | .retireBank => some (0x03#8, 1#8)
  | .writeOwnerEntry => some (0x04#8, 0#8)
  | .writeSequenceSlot => some (0x04#8, 1#8)
  | .writeNotifyGrant => some (0x04#8, 2#8)
  | .createRegion => some (0x05#8, 0#8)
  | .removeRegion => some (0x06#8, 0#8)
  | .decrementReaders => some (0x07#8, 0#8)
  | .clearHeld => some (0x07#8, 1#8)
  | .fwResume => some (0x08#8, 0#8)
  | .fwFaultackAck => some (0x08#8, 1#8)
  | .fwFaultackKill => some (0x08#8, 2#8)
  | .clearGatewayCounts => some (0x09#8, 0#8)
  | .writeMergeEntry => some (0x0A#8, 0#8)
  | .memberRejoin => some (0x0A#8, 1#8)
  | .writeParityGroup => some (0x0B#8, 0#8)
  | .loadNonce => some (0x0C#8, 0#8)
  | .produceReport => some (0x0C#8, 1#8)
  | .readReport => some (0x0C#8, 2#8)
  | .submitCoreLaunch => some (0x0D#8, 0#8)
  | .beginFirmwareImage => some (0x0E#8, 0#8)
  | .writeFirmwareImage => some (0x0E#8, 1#8)
  | .commitFirmwareImage => some (0x0E#8, 2#8)
  | _ => none

/-- Width of a node queue's tokens (R165): true for beats; none where the node has no such queue. -/
def queueIsBeat (node : Nat) (q : Nat) : Bool :=
  (node = 32) || (node = 33 && q < 3) || ((node = 34 || node = 35 || node = 37) && q ≥ 2)

/-- Selectors that every node kind refuses with 0x006: 28-63, 16 or 17 without a literal, 8-15 without local
registers (R60, R67). The pair link is the matrix node's own (R147). -/
def selBasic (c : BitVec 6) (kind : NodeKind) (lit : Bool) : Bool :=
  (Sel.ofCode c).isSome && (lit || (c != 16 && c != 17)) && (kind == .scalar || c.ult 8 || !c.ult 16)

/-- Selectors that R67 or the rule of the node kind refuses with 0x006 also in a field that allows few values: those without
a meaning on the matrix node (R147), a lane, port or descent node (R127, R234, R282); on a control cell the local registers
alone (R346, R354, R384); none on a scalar node, whose entries give 0x003 to every other value (R107, R112, R176). -/
def selIll (kind : NodeKind) (lit trail : Bool) (c : BitVec 6) : Bool :=
  match kind with
  | .scalar => false
  | .cell => !c.ult 8 && c.ult 16
  | .matrix => !(c.ult 3 || c == 18 || (trail && c == 8))
  | .lane => !selBasic c kind lit || c == 19
  | _ => !selBasic c kind lit

/-- Whether selectors 16 and 17 have a literal to read: a lane or descent instruction whose entry gives its literal a use
refuses them (R128, R282). -/
def Form.immLit (f : Form) (lit : Bool) : Bool :=
  lit && !((f.kind == .lane || f.kind == .descent) && (f.lit == .req || f.lit == .opt))

/-- The cause that refuses selector `c` in a field of class `cls`, if any. A code in a word field of a descent node that
names a beat queue, or in a beat field one that names none, has 0x006 (DESIGN CHOICE, log entry 93). -/
def selCheck (cls : SrcCls) (kind : NodeKind) (lit trail : Bool) (c : BitVec 6) : Option Cause :=
  let basic (p : Bool) : Option Cause := if selBasic c kind lit && p then none else some 0x006
  let cell (p : Bool) : Option Cause := if p then none else if selIll kind lit trail c then some 0x006 else some 0x003
  match cls with
  | .any => basic true
  | .anyNoImm => basic (c != 16 && c != 17)
  | .third => basic (c != 16 && c != 17)
  | .zero => cell (c == 18)
  | .pop => if c.ult 4 then none else some 0x003
  | .queue => cell (c.ult 8)
  | .reg => cell (!c.ult 8 && c.ult 16)
  | .lane int imm => basic (c != 19 && (imm || (c != 16 && c != 17)) && !(int && (c == 23 || c == 24 || c == 25 || c == 27)))
  | .mx => cell (c.ult 3)
  | .mxTrail => cell (c.ult 3 || (trail && c == 8))
  | .pw => basic (c.ult 2 || c == 4 || c == 5 || !c.ult 16)
  | .pwNoImm => basic (c.ult 2 || c == 4 || c == 5 || !c.ult 18)
  | .pwThird => basic (c.ult 2 || c == 4 || c == 5 || !c.ult 18)
  | .pwIdx => if c == 18 then some 0x003 else basic (c.ult 2 || c == 4 || c == 5 || !c.ult 16)
  | .popW => if c.ult 2 then none else if c == 2 || c == 3 || !selBasic c kind lit then some 0x006 else some 0x003
  | .beat => if c == 2 || c == 3 then none else some 0x006
  | .pwb => basic true
  | .word => basic true
  | .barq => cell (c == 18 || c.ult 4)

/-- Whether a slot names an existing target of the row for a token of the width (R61, R14). `own` is the node
that holds the instruction, when it is known; `desc` whether the row has a descent node. -/
def slotTarget (own : Option Nat) (desc : Bool) (kind : NodeKind) (beat any : Bool) (s : Slot) : Option Cause :=
  match s with
  | .none => Option.none
  | .queue n q _ =>
    if !n.ult 38 then some 0x007
    else if n = 37 && !desc then some 0x008
    else if any || queueIsBeat n.toNat q.toNat == beat then Option.none else some 0x007
  | .lane d _ l =>
    let isBeat := l.getLsbD 4
    let ok := if isBeat then l = 16 || (l = 17 && d = 0) else if d = 0 then l.ult 8 else l.ult 4
    if ok && (any || isBeat == beat) then Option.none else some 0x007
  | .reg n _ =>
    if kind != .scalar || beat || any then some 0x007
    else match own with
      | Option.none => if n.ult 32 then Option.none else some 0x007
      | some o => if n.toNat = o then Option.none else some 0x007
  | .ctl n =>
    if any || beat || !n.ult 38 then some 0x007
    else if n = 37 && !desc then some 0x008 else Option.none

/-- The cause that refuses a consumer slot of class `cls` (R61, R176, R183, R248, R252). -/
def slotCheck (cls : DstCls) (own : Option Nat) (desc : Bool) (kind : NodeKind) (s : Slot) : Option Cause :=
  match cls with
  | .none => if s = .none then Option.none else some 0x003
  | .none7 => if s = .none then Option.none else some 0x007
  | .word => slotTarget own desc kind false false s
  | .wordS => slotTarget own desc kind false false s
  | .out => if s = .none then some 0x003 else slotTarget own desc kind false false s
  | .beat => slotTarget own desc kind true false s
  | .arc =>
    match s with
    | .none => some 0x003
    | .reg _ _ => some 0x003
    | .ctl _ => some 0x003
    | _ => slotTarget own desc kind false true s
  | .arcOrNone =>
    match s with
    | .reg _ _ => some 0x003
    | .ctl _ => some 0x003
    | _ => slotTarget own desc kind false true s
  | .hand =>
    match s with
    | .queue n q _ => if (n = 34 || n = 35) && q.ult 2 then slotTarget own desc kind false false s else some 0x003
    | .lane _ _ _ => slotTarget own desc kind false false s
    | _ => some 0x003

/-- NXT against the entry's rule (R110, R116, R176). -/
def nxtOk (r : NxtRule) (n : Nxt) : Bool :=
  match r, n with
  | .any, _ => true
  | .nextMark, .next => true
  | .nextMark, .mark => true
  | .nextMark, _ => false
  | .nextOnly, .next => true
  | .nextOnly, _ => false

/-- The literal step for the rules that depend on the selectors (R57, R132, R354): the cause that refuses it. -/
def litCheck (f : Form) (a b : Sel) (c : Option (BitVec 6)) (lit : Option DWord) : Option Cause :=
  let lo := a = .litLo || b = .litLo
  let hi := a = .litHi || b = .litHi
  match f.lit, lit with
  | .imm, none => none
  | .imm, some _ => if lo || hi then none else some 0x003
  | .strict, none => none
  | .strict, some l =>
    if (lo || hi) && (lo || l.extractLsb' 0 32 = 0) && (hi || l.extractLsb' 32 32 = 0) then none else some 0x003
  | .no, none => none
  | .no, some _ => some 0x003
  | .req, none => some 0x003
  | .opt, none => none
  | .ctl, none => some 0x003
  | .ctl, some l => if l &&& ~~~f.mask = 0 && (lo || l.extractLsb' 0 32 = 0) then none else some 0x003
  | .bcast, none => if a.queue?.isSome then some 0x003 else none
  | .bcast, some l =>
    if a.queue?.isSome then (if l &&& ~~~f.mask = 0 then none else some 0x003)
    else if a.isLit then none else some 0x003
  | _, some l =>
    if l &&& ~~~f.mask ≠ 0 then some 0x003
    else match f.c, c with
      | some (cls, _), some c => selCheck cls f.kind false false c
      | _, _ => none

/-- Selector 17 is refused where the high half holds a configuration, and 16 and 17 on the lane and descent
nodes where the entry uses the literal (R128, R282, R354). -/
def litSelOk (f : Form) (s : Sel) : Bool := !(f.lit == .ctl && s = .litHi)

/-- Opcodes whose entry has SRCA and SRCB pop two queues (R176, R285): MERGE, MERGE2, RMERGE, TACC. -/
def popsTwo (opc : BitVec 8) : Bool := opc = 0x41 || opc = 0x42 || opc = 0x43 || opc = 0xB7

/-- Elements of a lane beat (R126). -/
def LaneTy.count : LaneTy → Nat
  | .f32 => 32 | .f16 => 64 | .bf16 => 64 | .i32 => 32

/-- The tile slot that an instruction names (R144, R158, R254). -/
def tileOf (i : Instr) : Option Nat :=
  match i with
  | .vtld _ t => some t.tile.toNat
  | .vtst _ t => some t.tile.toNat
  | .mdrain _ (some t) => some t.toNat
  | .spill _ false _ t => some t.tile.toNat
  | .fill _ false _ t => some t.tile.toNat
  | _ => none

/-- A tile slot is one of T0-T35; the loader refuses another with the bank count (R66 step 6). -/
def tileOk (i : Instr) : Bool := match tileOf i with | none => true | some t => t < 36

/-- The rules of an instruction's own entry that its words alone decide, checked last (R66 step 5): the cause
that refuses it. -/
def entryCheck (i : Instr) : Option Cause :=
  let need (p : Bool) : Option Cause := if p then none else some 0x003
  match i with
  | .rmerge _ n _ => need (!n.ult 3)
  | .gate _ n => need (n != 0)
  | .kill _ sh => need (sh.ule 24)
  | .cvt _ v => need (v.dst.cvtOk && v.src.cvtOk)
  | .vcvt _ v part =>
    need (v.dst.cvtOk && v.src.cvtOk &&
      part.toNat < max v.src.width v.dst.width / min v.src.width v.dst.width)
  | .vcmp _ ty cc => need (!(ty = .i32 && (cc = .un || cc = .or)))
  | .vdqmx _ ty _ part => need (ty = .f32 || part.ult 4)
  | .vbcast _ ty e => need (match e with | none => true | some e => decide (e.toNat < ty.count))
  | .sdef _ _ sl => need (sl.ok false)
  | .srun _ _ sl => need (sl.ok true)
  | .atom _ _ op c => if op.ok then need (op = .cas || c = .zero) else some 0x002
  | .fence _ m sc => need (m != 0 && sc.ok)
  | .ownRel _ _ sc => need sc.ok
  | .win _ _ sc => need sc.ok
  | .cpy _ _ _ _ sc => need sc.ok
  | .bmode o bm => need (bm.ok && (bm.mode = 1 || o.b = .zero))
  | .spill _ q _ t =>
    if q then need (t.start == 0 && t.tile == 0)
    else need (t.start.toNat + t.count.toNat + 1 ≤ 64)
  | .fill _ q _ t =>
    if q then need (t.start == 0 && t.tile == 0)
    else need (t.start.toNat + t.count.toNat + 1 ≤ 64)
  | .troot _ _ tau _ => need (tau == 0x80000000#32 || (!tau.getLsbD 31 && tau.ult 0x7F800000#32))
  | .seq o cfg => need (cfg.ok false && (cfg.parent = 63 || o.d0 = .none))
  | .pipe o opn cfg => need (cfg.ok opn && (cfg.parent = 63 || o.d0 = .none))
  | .strm o cfg => need (cfg.ok false && (cfg.parent = 63 || o.d0 = .none))
  | _ => none

end Sys2Proof
end

