-- ==== Sys2Proof/WellFormed.lean ====
section
/-!
DEFINITION. The check that an instruction term is one the device can hold: every field inside the limits of its
form and of its entry, and every place of an event inside the device (R13).
-/
namespace Sys2Proof

/-- A row of the device (R13). -/
def RowId.ok (r : RowId) : Bool := r.die < 4 && r.cl < 12 && r.row < 28

/-- A node of a row; node 37 stands in every fourth row only (R13, R14). -/
def NodeId.ok (n : NodeId) : Bool := n.row.ok && n.node < 38 && (n.node != 37 || n.row.row % 4 == 0)

/-- A slot of a node's store (R53). -/
def Loc.ok (l : Loc) : Bool := l.nd.ok && l.slot < 4

/-- A place of banks (R308). -/
def BankPlace.ok (p : BankPlace) : Bool := p.die < 4 && p.cl < 12 && (match p.row with | none => true | some r => r < 28)

/-- A physical bank: 26 of a cluster, 9 of a row (R308, R309). -/
def BankId.ok (b : BankId) : Bool :=
  b.place.ok && (match b.place.row with | none => decide (b.phys < 26) | some _ => decide (b.phys < 9))

/-- The literal that the operands keep for selectors 16 and 17: none where configuration fields hold it and no selector reads a
half of it (R57, R60, R354). -/
def immOf (f : Form) (a b : Sel) (lit : Option DWord) : Option DWord :=
  match f.lit with
  | .imm => lit
  | .strict => lit
  | .ctl => if a = .litLo || b = .litLo then lit.map fun l => (l.extractLsb' 0 32).setWidth 64 else none
  | .bcast => if a.queue?.isSome then none else lit
  | .req => if a.isLit || b.isLit then lit else none
  | _ => none

/-- The pair link stands on the matrix node, the X registers elsewhere, though both have codes from 8 (R147). -/
def Sel.fits (s : Sel) (k : NodeKind) : Bool :=
  match s with
  | .link => k == .matrix
  | .x _ => k != .matrix
  | _ => true

/-- The operands of an instruction word against its form. -/
def Parts.ok (p : Parts) (f : Form) : Bool :=
  (f.grd || p.ops.grd = .none) && nxtOk f.nxt p.ops.nxt &&
  p.ops.a.fits f.kind && p.ops.b.fits f.kind &&
  (match p.c with | none => true | some c => c.fits f.kind) &&
  (selCheck f.a f.kind (f.immLit p.lit.isSome) true p.ops.a.code).isNone &&
  (selCheck f.b f.kind (f.immLit p.lit.isSome && f.lit != .bcast) true p.ops.b.code).isNone &&
  litSelOk f p.ops.a && litSelOk f p.ops.b &&
  (slotCheck f.d0 none true f.kind p.ops.d0).isNone && (slotCheck f.d1 none true f.kind p.ops.d1).isNone &&
  (litCheck f p.ops.a p.ops.b (p.c.map Sel.code) p.lit).isNone &&
  (p.ops.lit = immOf f p.ops.a p.ops.b p.lit) && !(popsTwo p.opc && p.ops.a = p.ops.b)

/-- The places of an event. -/
def eventOk (i : Instr) : Bool :=
  match i with
  | .launchWordWrite d _ w _ _ => d < 4 && w != 7
  | .launchSubmit d _ _ => d < 4
  | .graphSubmit d _ _ => d < 4
  | .replayStart d _ => d < 4
  | .placement d => d < 4
  | .blockFetch d _ => d < 4
  | .firingCompletion n _ => n.ok
  | .firingStep n _ => n.ok
  | .waveClose n => n.ok
  | .groupDelivery l => l.ok
  | .markerForward n => n.ok
  | .doneEvent n => n.ok
  | .ingressForward r l => r.ok && l < 19
  | .rmergeTake l _ => l.ok
  | .killArrival l _ => l.ok
  | .memoryReply n _ => n.ok
  | .tlbLookup n _ => n.ok
  | .pageWalkComplete d s _ => d < 4 && s < 48
  | .retirementRequest b => b.ok
  | .retirementThreshold b => b.ok
  | .retirement p => p.ok
  | .gavotteLineCopy p => p.ok
  | .evacuationComplete p => p.ok
  | .controllerDecision d c k => d < 4 && c < 12 && k < 64
  | .treeGrant n => n.ok
  | .nodeSwitch n => n.ok
  | .shadowLoad r => r.ok
  | .rowFree r => r.ok
  | .stageChoice r => r.ok
  | .flitReceive l bs => l < 18 && bs.length == 256
  | .linkDown l => l < 18
  | .randtTicket s => s < 4096
  | .ringRefill s => s < 4096
  | .windowFill d c b w => d < 4 && c < 12 && b < 24 && w < 4
  | .translationFreeze d g => d < 4 && g < 336
  | .bmodeSwitch d c b => d < 4 && c < 12 && b < 24
  | .engineRequestAccept d c b q => d < 4 && c < 12 && b < 24 && q < 16
  | .engineResponse d c b q => d < 4 && c < 12 && b < 24 && q < 16
  | .overCapacityPoint d g => d < 4 && g < 336
  | .permitWindow d => d < 4
  | .enableArrival d c _ => d < 4 && c < 12
  | .doneArrival d c _ => d < 4 && c < 12
  | .finalWord d c _ => d < 4 && c < 12
  | .watchdogExpiry d g => d < 4 && g < 336
  | .freezeComplete d g => d < 4 && g < 336
  | .yieldPoint d g => d < 4 && g < 336
  | .firmwareFreeze d g => d < 4 && g < 336
  | .triggerInject d b => d < 4 && b < 168
  | .wrapDeparture d b l => d < 4 && b < 168 && l < 19
  | .feedbackDelivery d b c => d < 4 && b < 168 && c < 4
  | .bandReform d b => d < 4 && b < 168
  | .launchComplete d b => d < 4 && b < 168
  | .hostMemoryRead rq => rq.len ≤ 224
  | .hostMemoryWrite _ bs => bs.length ≤ 208
  | .mergeContributionSend m k => m < 256 && k < 16
  | .mergeContribution p => p.mid < 256
  | .parityDelta g _ x => g < 16 && x.length == 64
  | .parityRebuild g _ xs cs => g < 16 && xs.length == 8 && xs.all (fun x => x.length == 64) && cs.length == 9
  | .notifyWindowWrite c _ _ => c < 16
  | .appClusterRequest c _ _ _ => c < 16
  | .launchCall c d ws => c < 16 && d < 4 && ws.length == 8
  | _ => true

/-- Whether an instruction or event is one the device can hold. -/
def Instr.WellFormed (i : Instr) : Bool :=
  match partsOf i with
  | none => eventOk i
  | some p =>
    match formOf p.opc p.mod with
    | .error _ => false
    | .ok f => p.ok f && (entryCheck i).isNone && tileOk i

end Sys2Proof
end

