-- ==== Sys2Proof/Decode.lean ====
section
/-!
DEFINITION. The decoder of instruction words, in the order of the loader's field checks (R66 step 5), total on any
bytes and rejecting by the load-check cause of R67; the encoder written from the same tables; and the
firmware-command words (R390).
-/
namespace Sys2Proof

/-- What the loader knows of the place an instruction word stands in: its node, whether its row has a descent
node (R14), whether its block is a trailing half (R160), the node's occupied slots (R59), and the longest bypass that stays
inside the band, as the QUEUE field of a lane slot counts it (R61, R378). -/
structure DecodeCtx where
  own   : Option Nat := none
  desc  : Bool := true
  trail : Bool := true
  occ   : Option (BitVec 4) := none
  reach : Option Nat := none
  deriving DecidableEq, Repr

/-- The node kind an opcode executes on (R65). -/
def opcKind (n : Nat) : Option NodeKind :=
  if 0x01 ≤ n && n ≤ 0x25 || 0x40 ≤ n && n ≤ 0x4B || 0x50 ≤ n && n ≤ 0x55 then some .scalar
  else if 0x60 ≤ n && n ≤ 0x7A then some .lane
  else if 0x80 ≤ n && n ≤ 0x87 then some .matrix
  else if 0x90 ≤ n && n ≤ 0xA4 || n = 0xE7 || n = 0xEB || n = 0xEC then some .port
  else if 0xB0 ≤ n && n ≤ 0xBC then some .descent
  else if 0xC0 ≤ n && n ≤ 0xCF then some .cell
  else if 0xE0 ≤ n && n ≤ 0xEE then some .scalar
  else none

/-- The opcode and its node: 0x000, 0x001, 0x004, 0x008 (R67); 0x004 before 0x008 (DESIGN CHOICE, log entry 94). -/
def opcCheck (x : DecodeCtx) (opc : BitVec 8) : Option Cause :=
  if opc = 0 then some 0x000
  else match opcKind opc.toNat with
    | none => some 0x001
    | some k =>
      match x.own with
      | none => none
      | some n => if NodeKind.of n ≠ some k then some 0x004 else if n = 37 && !x.desc then some 0x008 else none

/-- BRT: zero unless NXT = 10, and an occupied slot (R59, R67); on a REP too, though R116 names only 0x003 and 0x002 (DEDUCED,
log entry 78). -/
def brtCheck (x : DecodeCtx) (nxt brt : BitVec 2) : Option Cause :=
  if nxt ≠ 2 then (if brt = 0 then none else some 0x00A)
  else match x.occ with
    | none => none
    | some o => if o.getLsbD brt.toNat then none else some 0x00A

/-- A selector field of class `cls`. -/
def readSel (f : Form) (cls : SrcCls) (lit trail : Bool) (c : BitVec 6) : Except Cause Sel :=
  match if f.lit == .ctl && c == 17 then some 0x006 else selCheck cls f.kind lit trail c with
  | some e => .error e
  | none =>
    if f.kind = .matrix && c = 8 then .ok .link
    else match Sel.ofCode c with
      | none => .error 0x006
      | some s => if litSelOk f s then .ok s else .error 0x006

/-- A bypass that leaves the band or passes a row with ENDBAND (R61, R378). -/
def bypassBad (reach : Option Nat) (s : Slot) : Bool :=
  match reach, s with
  | some k, .lane d _ _ => d ≠ 0 && k < d.toNat
  | _, _ => false

/-- A consumer slot field of class `cls`. -/
def readSlot (f : Form) (x : DecodeCtx) (cls : DstCls) (b : BitVec 16) : Except Cause Slot :=
  match Slot.ofBits b with
  | none => .error 0x007
  | some s =>
    match slotCheck cls x.own x.desc f.kind s with
    | some e => .error e
    | none => if bypassBad x.reach s then .error 0x007 else .ok s

/-- Raise a cause unless there is none. -/
def orCause (c : Option Cause) : Except Cause Unit :=
  match c with
  | none => .ok ()
  | some e => .error e

/-- The third source of the literal (R105, R128, R246). -/
def readThird (f : Form) (lit : Option DWord) : Sel :=
  match f.c, lit with
  | some (_, p), some l => (Sel.ofCode (l.extractLsb' p 6)).getD .zero
  | _, _ => .zero

/-- The third source's code, where the form has one. -/
def thirdCode (f : Form) (lit : Option DWord) : Option (BitVec 6) :=
  match f.c, lit with
  | some (_, p), some l => some (l.extractLsb' p 6)
  | _, _ => none

/-- Whether a form requires a literal. -/
def LitRule.needs : LitRule → Bool
  | .req => true
  | .ctl => true
  | _ => false

/-- Decode one instruction word with the literal word that follows it when its LIT bit is 1 (R56, R66). -/
def decodeWord (x : DecodeCtx) (w : DWord) (literal : DWord) : Except Cause Instr := do
  let opc := w.extractLsb' 56 8
  let m := w.extractLsb' 52 4
  let lit : Option DWord := if w.getLsbD 51 then some literal else none
  orCause (opcCheck x opc)
  let f ← formOf opc m
  orCause (if f.lit.needs && lit.isNone then some 0x003 else none)
  orCause (if f.grd || w.extractLsb' 48 3 = 0 then none else some 0x003)
  let grd ← match Guard.ofBits (w.extractLsb' 48 3) with
    | none => .error 0x005
    | some g => .ok g
  let nxt := Nxt.ofBits (w.extractLsb' 46 2) (w.extractLsb' 44 2)
  orCause (if nxtOk f.nxt nxt then none else some 0x003)
  orCause (brtCheck x (w.extractLsb' 46 2) (w.extractLsb' 44 2))
  let a ← readSel f f.a (f.immLit lit.isSome) x.trail (w.extractLsb' 38 6)
  orCause (if f.lit == .bcast && lit.isNone && a.queue?.isSome then some 0x003 else none)
  let b ← readSel f f.b (f.immLit lit.isSome && f.lit != .bcast) x.trail (w.extractLsb' 32 6)
  orCause (if popsTwo opc && a = b then some 0x003 else none)
  let d0 ← readSlot f x f.d0 (w.extractLsb' 16 16)
  let d1 ← readSlot f x f.d1 (w.extractLsb' 0 16)
  orCause (litCheck f a b (thirdCode f lit) lit)
  match build opc m ⟨grd, nxt, a, b, d0, d1, immOf f a b lit⟩ (readThird f lit) lit with
  | none => .error 0x001
  | some i =>
    match entryCheck i with
    | some e => .error e
    | none => .ok i

/-- The instruction word of the parts (R56). -/
def Parts.word (p : Parts) : DWord :=
  p.opc ++ p.mod ++ BitVec.ofBool p.lit.isSome ++ p.ops.grd.bits ++ p.ops.nxt.bits ++ p.ops.nxt.brt ++
    p.ops.a.code ++ p.ops.b.code ++ p.ops.d0.bits ++ p.ops.d1.bits

/-- Word 0 of a firmware command without its TAG (R390). -/
def fwWord (code sub : BitVec 8) : DWord := pos sub 8 ||| pos code 0

/-- The words of an instruction: its word and its literal; word 0 of a firmware command; none for an event that no
word names. -/
def encode (i : Instr) : List DWord :=
  match partsOf i with
  | some p =>
    match p.lit with
    | none => [p.word]
    | some l => [p.word, l]
  | none =>
    match fwParts i with
    | some (c, s) => [fwWord c s]
    | none => []

/-- Decode the words that `encode` writes, anywhere in a row (no place known). -/
def decodeWords (ws : List DWord) : Except Cause Instr :=
  match ws with
  | [w] => decodeWord {} w 0
  | [w, l] => decodeWord {} w l
  | _ => .error 0x001

/-- Eight bytes as a little-endian word (R5), with the bytes that follow. -/
def takeWord (bs : List Byte) : Option (DWord × List Byte) :=
  match bs with
  | a :: b :: c :: d :: e :: f :: g :: h :: r => some (h ++ g ++ f ++ e ++ d ++ c ++ b ++ a, r)
  | _ => none

/-- Why bytes name no instruction: too few of them, or a load-check cause. -/
inductive DecodeError where
  | short
  | refused (c : Cause)
  deriving DecidableEq, Repr

/-- Decode the instruction at the head of a list of bytes (R52, R56): total, and rejecting by name. -/
def decodeBytes (x : DecodeCtx) (bs : List Byte) : Except DecodeError (Instr × List Byte) :=
  match takeWord bs with
  | none => .error .short
  | some (w, r) =>
    if w.getLsbD 51 then
      match takeWord r with
      | none => .error .short
      | some (l, r2) =>
        match decodeWord x w l with
        | .error c => .error (.refused c)
        | .ok i => .ok (i, r2)
    else
      match decodeWord x w 0 with
      | .error c => .error (.refused c)
      | .ok i => .ok (i, r)

/-- The firmware command of word 0 (R390); the reserved bits [31:16] are judged when it is carried out. -/
def decodeFw (w : DWord) : Option Instr := fwOfCode (w.extractLsb' 0 8).toNat (w.extractLsb' 8 8).toNat

/-- `n` little-endian bytes of a number. -/
def natBytes (n w : Nat) : List Byte :=
  match n with
  | 0 => []
  | n + 1 => BitVec.ofNat 8 w :: natBytes n (w / 256)

/-- The instruction the decoder reads from an instruction whose bits are `w`, the bits above `nbits` zero. An
instruction of up to 128 bits is an instruction word with its literal; a firmware command has 512 bits (R390). -/
def decodeTableWord (nbits w : Nat) : Option Instr :=
  if nbits ≤ 128 then
    match decodeBytes {} (natBytes 16 (w % 2 ^ nbits)) with
    | .ok (i, _) => some i
    | .error _ => none
  else decodeFw (BitVec.ofNat 64 w)

end Sys2Proof
end

