-- ==== Sys2Proof/Machine/State.lean ====
section
/-!
DEFINITION. The state of the device, as plain data: every register, queue, memory, table and counter the spec
names, the faults and refusals of a step, and the state right after reset. A table is a list of (key, value)
pairs; a key it does not list holds the value that the field's docstring names (the reset value).
-/
namespace Sys2Proof.Machine

/-- Entries by key, keys rising. -/
abbrev Tbl (α : Type) := List (Nat × α)

/-- Bytes by address (Host.Cell), addresses rising, none equal to the reset byte 0 (R199). -/
abbrev Memory := List Host.Cell

/-- The four kinds of token (R32). A word's check field and a beat's check value are held as the exclusive-or
with the right value (R213): 0 means valid. -/
inductive Tok where
  | word (v : Word) (tag : RTag) (chk : Byte)
  | beat (v : Beat) (chk : BitVec 32)
  | ctl (b : Bool)
  | mark (wave : BitVec 16) (fin : Bool)
  deriving DecidableEq, Repr

/-- A token in a queue: its last-read mark (R62), the firing that claims it (0: none; R166), the stage it
belongs to (R369), the cycle of its arrival, and the firings that peeked it and remove it when they complete (R62). -/
structure QTok where
  tok   : Tok
  last  : Bool := false
  claim : Nat := 0
  stage : Nat := 0
  at_   : Nat := 0
  peek  : List Nat := []
  deriving DecidableEq, Repr

/-- A queue: its tokens, oldest first, and the slots reserved in it (R166). -/
structure Queue where
  toks : List QTok := []
  resv : Nat := 0
  deriving DecidableEq, Repr

/-- Where a delivery goes: a node queue, a control input queue, an X register, a lane arriving at a row (numbered
as R369 numbers incoming lanes) over some segments, the gateway at the border of another owner's row, the wrap buffer, the pipeline's exit, a feedback channel, a stage entry queue. -/
inductive Dest where
  | none
  | queue (n : NodeId) (q : Nat)
  | ctl (n : NodeId)
  | reg (n : NodeId) (k : Nat)
  | lane (r : RowId) (l segs : Nat)
  | foreign (r : RowId)
  | wrap (die band l : Nat)
  | exit (die band : Nat)
  | fb (die band ch : Nat)
  | stageQ (die band s l : Nat)
  deriving DecidableEq, Repr

/-- A consumer slot resolved to the place it names at a firing's start: destination, last-read mark (R62), and the
stage that lane tokens belong to (R369). -/
structure Target where
  dst   : Dest := .none
  last  : Bool := false
  stage : Nat := 0
  deriving DecidableEq, Repr

/-- The partial state of a reduction or scan group (R138, R142): beats folded, running value, second value
(Z of VLSE), index of VARGMAX, and whether a value is held. -/
structure GroupSt where
  n    : Nat := 0
  v    : Word := 0
  z    : Word := 0
  ix   : Word := 0
  has  : Bool := false
  at_  : Nat := 0                                   -- cycle of the last beat's firing
  deriving DecidableEq, Repr

/-- A value held by LOOPOUT with its iteration number (R187). -/
structure Held where
  iter : Nat
  v    : Word
  tag  : RTag
  deriving DecidableEq, Repr

/-- LOOPOUT's state (R187): held values, oldest first; the oldest unresolved iteration; iterations issued into the
body; whether the exit has squashed the rest; values and control tokens left to discard. -/
structure LoopSt where
  held   : List Held := []
  oldest : Nat := 0
  next   : Nat := 1
  out    : Bool := false
  dv     : Nat := 0
  dc     : Nat := 0
  last   : Option Nat := Option.none                -- the iteration at which the record before left the loop
  deriving DecidableEq, Repr

/-- The progress state of one slot (R345): what the slot's instruction keeps from one firing to the next. -/
inductive Prog where
  | idle
  | conv (done : Nat)                                         -- SDCVT: digits emitted
  | words (ws : List Word)                                    -- SDEF, SRUN: words popped
  | sdval (v : Int) (n : Nat)
  | oadd (t : List Int) (sent : Nat)
  | ocmp (n : Nat) (d : Int) (dec : Bool)
  | ocut (n : Nat) (cut : Bool)
  | omax (n : Nat) (d : Int) (win : Option Bool) (ha hb : List Int)
  | acc (tag : RTag)                                          -- ACC: last tag
  | group (g : GroupSt)
  | cursor (k : BitVec 6)
  | credit (c : BitVec 16)
  | steer (r : BitVec 24)
  | rmerge (e : BitVec 24) (store : List (BitVec 24 × List QTok))
  | loopin (infl : Nat) (squash : Option Loc) (since : Nat)   -- the LOOPOUT whose squash is in force; the step of the last admission
  | loopout (l : LoopSt)
  | keys (ks : List (BitVec 24 × BitVec 5))
  | count (n : Nat)
  | arrived (tag : RTag)                                      -- BAR: an arrival that waits for its round
  | released (tag : RTag)                                     -- and one whose round is complete, but not its firing
  deriving DecidableEq, Repr

/-- What a group that closed still has to deliver (R170). -/
structure GroupOut where
  slot    : Nat
  o0      : List Tok := []
  o1      : List Tok := []
  readyAt : Nat := 0
  deriving DecidableEq, Repr

/-- REP's remaining count and repetition index, with the stride in force (R116); `past` says that the index has gone past
7, where no X register of a repetition that moves fits. -/
structure Rep where
  rem    : BitVec 32 := 0
  ix     : BitVec 3 := 0
  stride : BitVec 3 := 0
  past   : Bool := false
  deriving DecidableEq, Repr

/-- Scopes of done tokens, narrow to wide (R218). -/
inductive Scope where
  | row | cluster | die | package | system
  deriving DecidableEq, Repr

/-- Where bytes live: HBM by physical address, or a cluster's logical SRAM bank (R200, R201). -/
inductive Home where
  | hbm (pa : Nat)
  | sram (die cl bank off : Nat)
  deriving DecidableEq, Repr

/-- The phase of a port access: it awaits its translation, a walk in progress, its home, or nothing more; or its
translation faulted (R242, R303, R304). -/
inductive AccPhase where
  | translate
  | walking
  | home (h : Home)
  | finished
  | faulted (c : Cause) (level : Nat) (entry : Nat)
  deriving DecidableEq, Repr

/-- What a port access does at its home; `other` stands for WIN and PREF, which name a window alone. -/
inductive AccOp where
  | other
  | load
  | store (bytes : List Byte) (spec : Option Nat)
  | atom (op : AtomOp) (a b : Word)
  deriving DecidableEq, Repr

/-- One access of a port firing (R235). `addr` is a virtual address, or a bank address when `bank`. -/
structure Access where
  id    : Nat
  op    : AccOp
  addr  : Nat
  size  : Nat
  bank  : Bool
  sm    : Nat := 0
  psz   : Nat                       -- page size bound, 2^psz bytes; 0 for any size
  cls   : Nat := 0
  scope : Scope := .cluster
  win   : Option (Nat × Nat) := Option.none   -- window bank and index
  phase : AccPhase := .translate
  data  : List Byte := []
  gen   : BitVec 16 := 0
  deriving DecidableEq, Repr

/-- A cancelled firing of a port that starts again although later ones have completed (R167, R256): its slot, and
whether the sequencer waits for its completion. -/
structure Redo where
  slot : Nat
  late : Bool
  deriving DecidableEq, Repr

/-- What a cancelled firing restores (R167): the node's sequencer and repetition, its slot's progress, and the firings to
repeat. -/
structure Undo where
  seq   : Nat
  wait  : Option Nat
  rep   : Rep
  prog  : Prog
  redo  : List Redo := []
  curs  : List (Nat × Nat) := []    -- streams whose cursor the firing moved, with the cursor before (R240)
  deriving DecidableEq, Repr

/-- What a firing still waits for besides its least completion time. -/
inductive Await where
  | nothing                         -- completes when its turn comes
  | steps                           -- runs in steps (FIRING_STEP)
  | access                          -- its accesses (MEMORY_REPLY)
  | hub (k : Nat)                   -- a hub reply: tickets, notify waits, kills, permits, windows, engines
  | tree                            -- a descriptor's grant (TREE_GRANT)
  | fifo                            -- room in a retirement FIFO or placement queue
  | region (die reg : Nat)          -- a region's state (FRZ, RESUME)
  deriving DecidableEq, Repr

/-- A write of a tree operation (R276, R279, R284): bytes of a record, records taken from the free list, a reference
counted or released, a descriptor freed, HELD cleared, a reader gone. -/
inductive TreeOp where
  | alloc (k : Nat)
  | put (j off : Nat) (bs : List Byte)
  | inc (j : Nat)
  | dec (j : Nat)
  | free (j : Nat)
  | unhold (j : Nat)
  | leave (j : Nat)
  deriving DecidableEq, Repr

/-- A firing that has started and not completed (R166). -/
structure Firing where
  id     : Nat
  slot   : Nat
  ins    : Instr
  off    : Bool := false            -- guarded off (R104)
  t0     : Target := {}
  t1     : Target := {}
  n0     : Nat := 0                 -- slots reserved for each
  n1     : Nat := 0
  o0     : List Tok := []           -- deliveries made at completion
  o1     : List Tok := []
  xw     : Option (Nat × Word) := Option.none   -- an X register ACC writes
  undo   : Undo
  start  : Nat := 0
  born   : Nat := 0                 -- the step of its start: an order over all dies
  doneAt : Nat := 0
  await  : Await := .nothing
  acted  : Bool := false            -- its effect has taken place, and its parity deltas are not all acknowledged (R395)
  step   : Nat := 0
  el     : Nat := 0                 -- LDT, STT: the first element (R243)
  acc    : List Access := []
  tag    : RTag := 0
  otag   : RTag := 0                -- the tag of what it delivers later, where an entry gives it one of its own (R246, R282)
  a      : Word := 0
  b      : Word := 0
  ra     : Word := 0                -- words of its first two sources, for a fault's record (R422)
  rb     : Word := 0
  data   : List Beat := []
  ctlAt  : Bool := false            -- NXT pops a control token at completion (R101)
  at_    : Nat := 0                 -- when its request reached the tree's descriptor (R279)
  held   : Bool := false            -- the tree is granted to it (R279)
  tree   : List TreeOp := []        -- the writes of its write phase still to be done (R284)
  heads  : Option (List (Nat × Nat)) := Option.none   -- records whose headers it has read, with KIND and GEN (R279)
  deriving DecidableEq, Repr

/-- A node of a row. Missing registers hold 0, missing queues are empty (R89, R165). -/
structure Node where
  store  : Tbl (DWord × Option DWord) := []
  shadow : Tbl (DWord × Option DWord) := []
  seq    : Nat := 0
  wait   : Option Nat := Option.none
  qs     : Tbl Queue := []
  ctl    : Queue := {}
  xs     : Tbl Word := []
  sxs    : Tbl Word := []
  progs  : Tbl Prog := []
  rep    : Rep := {}
  marks  : BitVec 16 := 0
  fly    : List Firing := []
  nid    : Nat := 1
  redo   : List Redo := []
  closed : Bool := false
  outs   : List GroupOut := []
  fwd    : Option (BitVec 16) := Option.none
  stage  : Nat := 0
  prev   : Option (Nat × BitVec 16) := Option.none   -- the stage from which it last switched, and that stage's wave (R171, R372)
  dry    : Bool := false                             -- a node without pops that has stopped for a switch (R372)
  deriving DecidableEq, Repr

/-- A stationary register: 64 beats and 512 scale bytes, missing ones 0 (R152). -/
structure StatReg where
  rows : Tbl Beat := []
  sc   : Tbl Byte := []
  deriving DecidableEq, Repr

/-- The matrix node's registers: SA, SL, and CA, CL by 64·row + column, missing elements +0 (R89); the pair link's
row steps with the leading firing's m and k (R160). -/
structure Mat where
  sa   : StatReg := {}
  sl   : StatReg := {}
  ca   : Tbl Word := []
  cl   : Tbl Word := []
  link : List (Beat × Option Beat × Nat × Nat) := []
  deriving DecidableEq, Repr

/-- A stream of a port (R238-R241): affine dimensions as (count, stride), or a run list. -/
structure Stream where
  lit    : StreamLit
  run    : Bool := false
  base   : Nat := 0
  dims   : List (Nat × Int) := []
  runs   : List (Nat × Nat × Nat) := []   -- base, first index, length
  stride : Int := 0
  cursor : Nat := 0
  own    : Option Nat := Option.none      -- entry of the ownership table
  look   : List (Nat × Nat × Bool) := []  -- look-ahead translations: VPN, page PA, WR
  deriving DecidableEq, Repr

/-- A block of the coalescing buffer (R244): its home, the bytes held by offset, the classes that stored into it, the
held-speculative iteration (R245), and of a block held for a window the bank, the window and the block's VA. -/
structure CBlock where
  home  : Home
  bytes : Tbl Byte := []
  cls   : List Nat := []
  spec  : Option Nat := Option.none
  win   : Option (Nat × Nat × Nat) := Option.none
  va    : Nat := 0                                  -- the address by which it was first stored to
  born  : Nat := 0                                  -- the earliest start among the firings that stored into it
  deriving DecidableEq, Repr

/-- A port node's stream and buffer state (R234). -/
structure Port where
  streams : Tbl Stream := []
  buf     : List CBlock := []
  stopped : Bool := false                 -- the generator has stopped (R242)
  deriving DecidableEq, Repr

/-- A mask binding (R294). -/
structure MaskBind where
  c   : Nat
  e   : Nat
  len : Nat
  deriving DecidableEq, Repr

/-- A candidate of the frontier (R270, R271): node index, FIRST, N, the scores s and ŝ, ρ, and whether the mask forces
it. A_j and M_j are computed under the m in force where they are used. -/
structure Cand where
  ix    : Nat
  first : Nat
  n     : Nat
  s     : Word := 0
  sh    : Word := 0
  rho   : Word := 0
  frc   : Bool := false
  deriving DecidableEq, Repr

/-- The descent state of a descent node (R268, R281). -/
structure Desc where
  live  : Bool := false
  sm    : Nat := 0
  desc  : Nat := 0
  q     : List Word := []
  qn    : Word := 0
  tau   : Word := 0
  bud   : Nat := 0
  nopen : Nat := 0
  m     : Word := 0xFF800000
  z     : Word := 0
  eret  : Word := 0
  o     : List Word := []
  front : List Cand := []
  mask  : Option MaskBind := Option.none
  deriving DecidableEq, Repr

/-- The control cell's counters and LUT (R345), missing entries 0. -/
structure Cell where
  c   : Tbl Word := []
  lut : Tbl Word := []
  deriving DecidableEq, Repr

/-- A bank-map entry (R308): SRAM and register entries alike; `dark` says that a pending retirement is one of a power
mode (R313). -/
structure MapEnt where
  pres  : Bool
  evac  : Bool := false
  pend  : Bool := false
  dark  : Bool := false
  wmark : Nat := 0
  tgt   : Nat := 0
  phys  : Nat
  deriving DecidableEq, Repr

/-- Status of a physical bank (R308). -/
inductive BankStatus where
  | service | spare | retired | dark
  deriving DecidableEq, Repr

/-- Who asked for a retirement and waits for the answer (R311, R312). -/
inductive RetSource where
  | firing (n : NodeId) (id : Nat)
  | command
  | device
  deriving DecidableEq, Repr

/-- A retirement in a FIFO or waiting for one. -/
structure RetReq where
  bank : BankId
  src  : RetSource
  dark : Bool := false                              -- one of a power mode: the bank goes dark (R313)
  off  : Option Nat := Option.none                  -- of a power mode: the logical bank that becomes absent (R22)
  deriving DecidableEq, Repr

/-- The header fields of the block a row hosts (R54). -/
structure Hdr where
  banks   : Nat := 0
  detect  : Bool := false
  scope   : Scope := .row
  stage   : Nat := 0
  shadow  : Bool := false
  state   : Bool := false
  paired  : Bool := false
  trail   : Bool := false                           -- the upper half of its pair (R55)
  endband : Bool := false
  homesz  : Nat := 0
  deriving DecidableEq, Repr

/-- A fetched and checked block: header, instructions with their node and slot, addresses (R52-R54). -/
structure Block where
  hdr  : Hdr
  code : List (Nat × Nat × DWord × Option DWord)   -- node, slot, word, literal
  va   : Nat
  deriving DecidableEq, Repr

/-- Shadow states of a slot (R366). -/
inductive ShadowSt where
  | empty | loading | ready
  deriving DecidableEq, Repr

/-- The Reel's state of a row (R366): whether it hosts, its hosted and next stage, its shadow state, the block whose
shadow is loaded, its block buffers, ingress maps, and relay or leaving. -/
structure Reel where
  hosts   : Bool := false
  hosted  : Nat := 0
  nxt     : Nat := 0
  drain   : Nat := 0                               -- cycle until which the hosted stage's wave had not drained from the row (R384)
  sh      : ShadowSt := .empty
  block   : Option Block := Option.none
  shadow  : Option Block := Option.none
  buf     : Option Block := Option.none
  buf2    : Option Block := Option.none
  half    : Bool := false                          -- which of the slot's two block buffers `buf` lies in (R368)
  leaving : Bool := false
  relay   : Bool := false
  freed   : Bool := false                          -- CHOICE: the row hosts nothing
  marked  : Bool := false                          -- CHOICE: the wave's marker has been passed on to the row (R381)
  idle16  : Nat := 0                               -- CHOICE: cycle since which no node holds a token
  deriving DecidableEq, Repr

/-- A row of the device. -/
structure Row where
  nodes  : Tbl Node := []
  lanes  : Tbl Queue := []
  mat    : Mat := {}
  ports  : Tbl Port := []
  cell   : Cell := {}
  desc   : Desc := {}
  pmc    : Tbl (BitVec 48) := []
  regmap : Tbl MapEnt := []                         -- missing: logical L on physical L, present (R307)
  rstat  : Tbl BankStatus := []                     -- missing: in service
  reel   : Reel := {}
  owner  : BitVec 12 := 0                           -- the context whose values the row holds (R90)
  deriving DecidableEq, Repr

/-- A window of a WINDOW-mode bank (R206): tail, head, dirty lines. -/
structure Win where
  t     : Nat
  h     : Nat
  dirty : List Nat := []
  deriving DecidableEq, Repr

/-- Why an engine's request stopped: cause, walk level, the address it names and the entry's (R301, R304). -/
structure JobErr where
  cause : Cause
  level : Nat := 0
  addr1 : Nat := 0
  addr2 : Nat := 0
  deriving DecidableEq, Repr

/-- A copy, reduction or gather request of an engine stream, and once performed its response (R226, R251, R252). -/
structure EngineJob where
  n     : NodeId
  fid   : Nat                                       -- the firing that asked, and its streams' alias classes
  cls   : List Nat
  gen   : BitVec 16
  owner : BitVec 12
  gath  : Bool
  op    : CpyOp
  src   : Nat                                       -- VA or bank address
  sbank : Bool
  dst   : Nat := 0
  dbank : Bool := false
  len   : Nat
  scope : Scope
  out   : List Byte := []
  syns  : List (BitVec 32) := []                    -- the check-value differences of the response beat's blocks (R213)
  err   : Option JobErr := Option.none
  again : Bool := false                             -- a gather that a freeze cancelled: it is performed again (R334)
  deriving DecidableEq, Repr

/-- A segment of a QUEUE-mode bank (R207): entry size, whether placement made it (R250), its depth; an engine
stream's requests or responses. What placement's segments hold stands in the band and in RMERGE's order store. -/
structure Seg where
  esz    : Nat
  placed : Bool := false
  depth  : Nat := 0
  jobs   : List EngineJob := []
  pushed : Nat := 0                                 -- entries pushed since the segment was made
  deriving DecidableEq, Repr

/-- Bank modes (R204). -/
inductive BankMode where
  | scratch | window | queue
  deriving DecidableEq, Repr

/-- A BMODE request that waits to take effect (R208). -/
structure ModeReq where
  n   : NodeId
  fid : Nat
  lit : BankModeLit
  base : Nat
  deriving DecidableEq, Repr

/-- A logical SRAM bank: mode, windows, segments, pending switch (R199, R208). -/
structure Bank where
  mode : BankMode := .scratch
  wins : List Win := []
  segs : List Seg := []
  pend : Option ModeReq := Option.none
  deriving DecidableEq, Repr

/-- Controller modes (R39, R348). -/
inductive CtlMode where
  | seq | pipe | openPipe | strm
  deriving DecidableEq, Repr

/-- A controller of the control column (R345, R348-R351). -/
structure Ctl where
  mode   : CtlMode
  n      : Nat := 0
  parent : Nat := 63
  pos    : Nat := 0
  nch    : Nat := 1
  k      : Nat := 0
  run    : Bool := false
  e      : List Nat := []
  d      : List Nat := []
  w      : List Nat := []
  x      : Nat := 0
  stop   : Option Nat := Option.none
  arm    : Loc                                      -- the slot that armed it
  dst    : Target := {}                             -- where its final word goes (R349)
  tag    : RTag := 0                                -- the tag of that word (R354)
  latch  : Tbl Nat := []                            -- enables held at leaf positions (R351)
  used   : List Nat := []                           -- positions claimed by ENA or DONE slots
  deriving DecidableEq, Repr

/-- An enable, done or final word in transit (R351): a final word has its target, its tag, and whether it has a slot reserved. -/
inductive Transit where
  | enable (c pos iter : Nat) (at_ : Nat)
  | done (c pos : Nat) (flag : Bool) (at_ : Nat)
  | final (c : Nat) (dst : Target) (tag : RTag) (resv : Bool) (at_ : Nat)
  deriving DecidableEq, Repr

/-- A cluster: bank map, spares, statuses, error counts, retirement FIFO and waiting requests, control column, banks,
jobs that an engine has performed, by 16·bank + segment. Missing entries are as at reset (R307, R345). -/
structure Cluster where
  map    : Tbl MapEnt := []                         -- missing: logical L on physical L, present
  spares : Tbl (Bool × Nat) := []                   -- missing: entry i valid on physical 24 + i
  status : Tbl BankStatus := []                     -- missing: 0-23 in service, 24-25 spare
  errs   : Tbl (Nat × Nat) := []                    -- corrected errors by physical bank, start of window
  rerrs  : Tbl (Nat × Nat) := []                    -- the same by 16·row + physical register bank
  fifo   : List RetReq := []
  waitq  : List RetReq := []
  ctls   : Tbl Ctl := []
  banks  : Tbl Bank := []
  jobs   : Tbl (List EngineJob) := []
  transit : List Transit := []
  deriving DecidableEq, Repr

/-- A fault record without its record number (R340). -/
structure FaultRec where
  cause  : Cause
  die    : Nat := 0
  cl     : Nat := 0
  row    : Nat := 0
  node   : Nat := 0
  slot   : Nat := 255
  owner  : BitVec 12 := 0
  region : Nat := 0
  res    : Bool := true
  img    : Bool := true
  tag    : RTag := 0
  gen    : BitVec 16 := 0
  a      : Word := 0
  b      : Word := 0
  addr1  : Nat := 0
  addr2  : Nat := 0
  cookie : DWord := 0
  cyc    : Nat := 0
  aux    : Word := 0
  held   : Option Nat := Option.none                -- number of the placement that it holds (R69)
  acked  : Bool := false                            -- RESUME has acknowledged it before its delivery (R339)
  point  : Bool := false                            -- an over-capacity point that could not be passed made it (R423)
  deriving DecidableEq, Repr

/-- Region states (R326). -/
inductive RegSt where
  | idle | running | frozen | releasing
  deriving DecidableEq, Repr

/-- An owned range (R328). -/
structure OwnEnt where
  lo    : Nat
  hi    : Nat
  bank  : Bool
  row   : Nat
  port  : Nat
  hand  : Bool := false
  deriving DecidableEq, Repr

/-- A gateway entry (R329). -/
structure Gw where
  dropf : Nat := 0
  drops : Nat := 0
  maxsh : BitVec 8 := 0
  minsh : BitVec 8 := 0
  deriving DecidableEq, Repr

/-- A barrier round: the slots that have arrived and the count of the first (R359). -/
structure Barrier where
  n    : Nat
  arr  : List (NodeId × Nat) := []
  deriving DecidableEq, Repr

/-- Why a freeze runs (R334, R338, R318). -/
inductive FrzWhy where
  | record | yield | overCap
  deriving DecidableEq, Repr

/-- A freeze in progress: its start cycle and row, and its record (R334). -/
structure Frz where
  t0  : Nat
  row : Nat
  fr  : Option FaultRec
  why : FrzWhy := .record
  deriving DecidableEq, Repr

/-- A token of a wrap buffer (R376) or stage entry queue: its lane, the token, and the entries ahead of it when it came. -/
structure WrapEnt where
  l     : Nat
  tok   : QTok
  ahead : Nat := 0
  deriving DecidableEq, Repr

/-- A stage of a pipeline descriptor (R368). -/
structure StageEnt where
  block : Nat
  imap  : List Byte
  hoff  : Nat
  fb    : List (Bool × Nat × Nat)                   -- USED, DELTA, LANE
  exit  : List Nat
  deriving DecidableEq, Repr

/-- A pipeline descriptor in force (R368). -/
structure PlDesc where
  d      : Nat
  b      : Nat
  choice : Bool
  wrapN  : Nat
  nfb    : Nat
  fbN    : Nat
  homeb  : Nat
  stages : List StageEnt
  deriving DecidableEq, Repr

/-- A band (R366, R367) with its descriptor, wrap buffer, feedback channels, stage entry queues, home banks, the waves
it still has to start and end, and its launch: record, variant, variant table copy, relaunch count, the variant that
VARSEL asked for, and the banks granted to it (R42, R316-R321). -/
structure Band where
  mode   : Bool := false                            -- CHOICE
  b      : Nat
  be     : Nat
  region : Nat
  base   : Nat
  live   : List Nat                                 -- live rows, relative to BASE
  exit   : BitVec 64 := 0
  smax   : BitVec 32 := 0
  wmax   : BitVec 32 := 0
  desc   : PlDesc
  wrap   : List WrapEnt := []
  wresv  : List (Nat × Nat) := []                   -- tokens with a reservation in the wrap: lane, cycle of leaving (0: not known)
  fresv  : Tbl Nat := []
  sresv  : Tbl Nat := []
  fbq    : Tbl (List QTok) := []
  stageq : Tbl (List WrapEnt) := []
  boost  : List Nat := []
  homes  : List Nat := []                           -- logical banks of the home area
  hsz    : List Nat := []                           -- sizes of the stages' homes
  qbank  : List Nat := []                           -- banks of the segments that placement made
  ords   : List (Nat × Nat × Nat) := []             -- order stores in their packing order: stage, node, slot
  waves  : Nat                                      -- waves of the launch still to inject
  wave   : Nat := 0                                 -- index of the next wave
  gone   : Nat := 0                                 -- waves whose marker has left slot 0 for good
  ended  : Nat := 0                                 -- waves whose last marker has left
  rbanks : Nat := 0                                 -- register banks per row of the variant in force
  fin    : Bool := false                            -- the final marker has left the last stage
  launch : List DWord := []
  varn   : Nat := 0
  vtab   : List DWord := []
  reln   : BitVec 8 := 0
  reqVar : Option Nat := Option.none
  banks  : List Nat := []
  deriving DecidableEq, Repr

/-- What moves with a region's work (R336, R339): its rows and tile slots, banks, controllers, barriers, scratch
registers, bands with their indices, and its owned ranges and generation (R328, R339). -/
structure Image where
  gen    : BitVec 16
  own    : Tbl OwnEnt
  rows   : List Row
  tiles  : List (Nat × Nat × Memory)                -- row, logical bank, bytes
  banks  : List (Nat × Bank × Memory)               -- SRAM banks that a YIELD's release took away
  syns   : List (Nat × Tbl (BitVec 32))             -- their blocks' check values and words' errors, by logical bank
  errs   : List (Nat × Tbl Bool)
  jobs   : Tbl (List EngineJob)                     -- with the jobs of their segments
  ctls   : List (Nat × Ctl)
  transit : List Transit
  bars   : Tbl Barrier
  regscr : Tbl Word
  wdog   : BitVec 32
  wdlim  : BitVec 32
  bands  : List (Nat × Band)
  nrows  : Nat
  first  : Nat
  cl     : Nat
  imgptr : Nat                                      -- where its chunks lie (R336)
  deriving DecidableEq, Repr

/-- The bodies of an image's chunks to which R336 gives no layout: a node's state, the matrix registers with the step of each
started firing, a port with its firings' recorded accesses, descent state, a control cell with its row's controllers. -/
inductive Part where
  | node (n : Node)
  | mat (m : Mat) (steps : List (Nat × Nat))
  | port (p : Port) (recs : List Firing)
  | desc (d : Desc)
  | cell (c : Cell) (ctls : List (Nat × Ctl))
  deriving DecidableEq, Repr

/-- A region table entry (R326) and what is held beside it. -/
structure Region where
  valid  : Bool := false
  st     : RegSt := .idle
  yld    : Bool := false
  owner  : BitVec 12 := 0
  gen    : BitVec 16 := 0
  cl     : Nat := 0
  first  : Nat := 0
  nrows  : Nat := 0
  sbanks : BitVec 24 := 0
  imgptr : Nat := 0
  launch : List DWord := []
  pkill  : List (BitVec 24 × BitVec 5) := []
  regscr : Tbl Word := []
  ovc    : Bool := false
  own    : Tbl OwnEnt := []
  gw     : Tbl Gw := []
  bars   : Tbl Barrier := []
  wdog   : BitVec 32 := 0
  wdlim  : BitVec 32 := 0x10000000
  wdue   : Bool := false                            -- WDOG has reached WDLIM and the record is still to come (R364)
  fired  : Bool := false                            -- a firing started since the clock last moved
  frz    : Option Frz := Option.none
  ovst   : Nat := 0                                 -- over-capacity point: 1 X registers spilled, 2 homes written back
  varn   : Nat := 0                                 -- variant of the launch that found the region idle (R307)
  reln   : BitVec 8 := 0                            -- and its relaunch count (R307)
  deriving DecidableEq, Repr

/-- How a placement request came (R44). -/
inductive ReqKind where
  | launch
  | cfgreq (n : NodeId) (gen : BitVec 16) (idx : Nat) (entry : List DWord) (arg : Option Word)
  | relaunch (region : Nat)
  | resume (region : Nat)
  | graph (g k : Nat)
  deriving DecidableEq, Repr

/-- A placement request (R44, R46). -/
structure PReq where
  kind   : ReqKind
  words  : List DWord
  entered : Nat
  waves0 : Nat := 0                                 -- first wave index of a relaunch
  var    : Option Nat := Option.none
  vtab   : List DWord := []                         -- the variant table copy that a relaunch keeps (R316)
  regscr : Tbl Word := []
  reln   : BitVec 8 := 0
  image  : Option Image := Option.none              -- what a YIELD's resume request resumes (R338)
  deriving DecidableEq, Repr

/-- What a block fetch is for: a placement, by its number, or a row's block buffer, from which its shadow loads (R69, R373). -/
inductive FetchFor where
  | place (p : Nat)
  | buffer (r : RowId)
  deriving DecidableEq, Repr

/-- A block fetch: what for, its address, its stage, and the block once checked. -/
structure Fetch where
  what  : FetchFor
  va    : Nat
  stage : Nat
  blk   : Option Block := Option.none
  deriving DecidableEq, Repr

/-- A request being placed: its region, base row, descriptor, variant, variant table copy, banks of the home area
and of queues, and the homes' sizes by stage (R45, R68). Its fetches stand in the die's fetch table. -/
structure Placing where
  req    : PReq
  region : Nat
  base   : Nat
  desc   : PlDesc
  varn   : Nat := 0
  vtab   : List DWord := []
  banks  : BitVec 24 := 0
  segs   : List (List Seg) := []                    -- the segments of its queue banks, bank by bank
  ords   : List (Nat × Nat × Nat) := []
  rb     : Nat := 1                                 -- register banks per row of its variant (R316)
  hsz    : List Nat := []
  planned : Bool := true                            -- the descriptor and tables have been read
  held   : Bool := false                            -- a fetch fault holds it (R69)
  deriving DecidableEq, Repr

/-- A task graph (R333): its record, the nodes left to dispatch of the replay in progress. -/
structure Graph where
  words   : List DWord
  replays : Nat
  nodes   : List (List DWord) := []
  busy    : Bool := false
  deriving DecidableEq, Repr

/-- A launch window (R42, R388): words written, graph words, status of the last submission. -/
structure LWin where
  words  : Tbl DWord := []
  gwords : Tbl DWord := []
  acc    : Bool := false
  cause  : Cause := 0
  deriving DecidableEq, Repr

/-- A TLB slice entry (R298). A slice lists its entries from the least to the most recently used. -/
structure TlbEnt where
  owner : BitVec 12
  psz   : Nat
  vpn   : Nat
  pa    : Nat
  wr    : Bool
  deriving DecidableEq, Repr

/-- A walk in progress (R303): owner, VA, page size bound (0: any), writing access, and where it has got to. -/
structure Walk where
  owner : BitVec 12
  va    : Nat
  psz   : Nat
  wr    : Bool
  deriving DecidableEq, Repr

/-- A kill on its way to a KCHK slot (R188). -/
structure KillMsg where
  key  : BitVec 24
  sh   : BitVec 5
  src  : NodeId
  fid  : Nat
  dst  : List Loc                                   -- KCHK slots not yet reached
  regs : List Nat := []                             -- frozen regions not yet reached
  deriving DecidableEq, Repr

/-- A permit request of the current window (R360). -/
structure PermReq where
  n    : NodeId
  fid  : Nat
  slot : Nat
  cnt  : Nat
  at_  : Nat                                        -- cycle of the request
  deriving DecidableEq, Repr

/-- A compute die. -/
structure Die where
  cyc     : BitVec 64 := 0
  win     : LWin := {}
  pq      : List PReq := []
  placing : Tbl Placing := []                       -- by number
  nplace  : Nat := 0
  fetches : Tbl Fetch := []
  nfetch  : Nat := 0
  graphs  : Tbl Graph := []
  regions : Tbl Region := []
  rowgen  : Tbl (BitVec 16) := []                   -- generation the rows last carried, by 28·cluster + row
  bands   : Tbl Band := []
  past    : Tbl Band := []                          -- entries of bands whose launch has completed, still VALID (R367)
  tlb     : Tbl (List TlbEnt) := []
  walks   : Tbl (List Walk) := []
  grant   : Nat := 1024
  heldsum : Nat := 0
  held    : Tbl Nat := []
  preqs   : List PermReq := []
  kills   : Tbl KillMsg := []
  nkill   : Nat := 0
  stale   : List (NodeId × BitVec 16) := []         -- replies of cancelled accesses still to come, with their generation
  deriving DecidableEq, Repr

/-- An owner table entry (R324). -/
structure Owner where
  valid    : Bool := false
  sandbox  : Bool := false
  maint    : Bool := false
  hosth    : Bool := false
  root     : Nat := 0
  fqbase   : Nat := 0
  hostnode : BitVec 16 := 0
  harts    : BitVec 16 := 0
  fqlog    : Nat := 0
  deriving DecidableEq, Repr

/-- Who waits for a ticket of a sequence slot (R191). -/
structure Ticket where
  n    : NodeId
  fid  : Nat
  cnt  : Nat
  at_  : Nat                                        -- cycle of the request's arrival
  pins : List Word := []                            -- the pinned words that it has been granted (R191, R192)
  deriving DecidableEq, Repr

/-- A sequence slot (R325, R190-R194): the ring holds words drawn ahead, `n` counts the keystream words drawn. -/
structure SeqSlot where
  bound   : Bool := false
  owner   : BitVec 12 := 0
  slack   : BitVec 32 := 0
  e1      : BitVec 16 := 0
  seed    : List DWord := []
  rbase   : Nat := 0
  cursor  : Nat := 0
  n       : Nat := 0
  ring    : List Word := []
  pins    : List Word := []
  tickets : List Ticket := []
  deriving DecidableEq, Repr

/-- A parked WAITN (R196). -/
structure Waiter where
  n   : NodeId
  fid : Nat
  b   : Word
  deriving DecidableEq, Repr

/-- Fault records of one owner (R340, R341): next record number, records delivered and not acknowledged, records
waiting for room. -/
structure FaultQ where
  seq  : BitVec 16 := 0
  outs : List (BitVec 16 × FaultRec) := []
  pend : List FaultRec := []
  deriving DecidableEq, Repr

/-- A merge member (R386, R394). -/
structure Member where
  last : Nat := 0
  gen  : BitVec 16 := 0
  voids : Nat := 0
  begun : Nat := 0
  due   : List Nat := []                            -- rounds begun here whose record is still to be sent
  deriving DecidableEq, Repr

/-- A merge entry (R394): its 16 words as written, members' state, the round being folded, drops. -/
structure Merge where
  words : Tbl DWord := []
  mems  : Tbl Member := []
  round : Nat := 0                                  -- highest completed round
  got   : List (Nat × Nat × Bool × List Byte) := []  -- round, member, void, record, in arrival order
  drops : Nat := 0
  deriving DecidableEq, Repr

/-- A parity group entry (R397) and the blocks rebuilt of a lost member's area. -/
structure Parity where
  words   : Tbl DWord := []
  rebuilt : List Nat := []
  bad     : List Nat := []                          -- rebuilt blocks whose check values disagreed (R396)
  deriving DecidableEq, Repr

/-- A link (R387): up, retry counter, sequence number expected, replays of the flit awaited. -/
structure Link where
  up    : Bool := true
  retry : BitVec 32 := 0
  seq   : BitVec 16 := 0
  tries : Nat := 0
  deriving DecidableEq, Repr

/-- What the device has sent to the outside: fault messages and interrupts (R341), responses (R388, R390), replay
requests (R387), merge contributions and parity deltas (R392, R395). -/
inductive OutMsg where
  | interrupt (hart : Nat) (owner : BitVec 12)
  | faultMsg (node : BitVec 16) (owner : BitVec 12)
  | fwResp (node : BitVec 16) (words : List DWord)
  | data (node : BitVec 16) (cause : Cause) (bytes : List Byte)
  | replay (link : Nat) (seq : BitVec 16)
  | contribution (p : MergePkt)
  | delta (gid blk : Nat) (bytes : List Byte)
  | accessFault (core : Nat) (cause : Option Cause)
  | launchStatus (core : Nat) (word : DWord)
  | linkDown (link : Nat)
  | ack (gid blk : Nat)
  | coreData (core : Nat) (bytes : List Byte)
  deriving DecidableEq, Repr

/-- Power modes (R21). -/
inductive PMode where
  | full | balanced | economy
  deriving DecidableEq, Repr

/-- The power controller (R21-R24, R95): mode and clocks in force, a change in progress with its step, excursion. -/
structure Power where
  mode  : PMode := .full
  clk   : Nat := 30
  apclk : Nat := 24
  chg   : Option PMode := Option.none
  step  : Nat := 0
  want  : List (PMode × BitVec 16 × BitVec 32) := []   -- requests waiting: mode, node, TAG
  who   : Option (BitVec 16 × BitVec 32) := Option.none
  wstart : Nat := 0                                   -- start of the withdrawal (R361)
  shed  : Nat := 0                                    -- excursion steps taken (R24)
  wnd   : Nat := 0                                    -- end of the last power window, in cycles of die 0
  deriving DecidableEq, Repr

/-- A firmware command in the mailbox (R390): who wrote it, its eight words, and whether it has been carried out and
its answer is still to come. -/
structure Mailbox where
  node : BitVec 16 := 0
  w    : List DWord := []
  sent : Bool := false
  deriving DecidableEq, Repr

/-- Privilege modes of an application core (R20, R391). -/
inductive PrivMode where
  | machine | supervisor | user
  deriving DecidableEq, Repr

/-- An application core (R20, R391): the owner bound to it, its privilege mode, its pc, registers and the root of its Sv48 tables.
Its instructions are those of RVA23, which the spec does not describe: what it does between its requests is free (log entry 99). -/
structure Core where
  owner : BitVec 12 := 0
  mode  : PrivMode := .machine
  pc    : DWord := 0
  xs    : Tbl DWord := []
  satp  : DWord := 0
  deriving DecidableEq, Repr

/-- What the firmware and the cores do to the hub at a step without a command (R312, R386, R391): the retirement threshold and its
window, a link whose retry counter is cleared, a core as it now stands. -/
structure HubMove where
  thresh : Option (Nat × Nat) := Option.none
  clear  : Option Nat := Option.none
  core   : Option (Nat × Core) := Option.none
  deriving DecidableEq, Repr, Inhabited

/-- The hub die. -/
structure Hub where
  ready    : Bool := false
  recovery : Bool := false
  boot     : Nat := 0                               -- 0 not booted, 1 primary running, 2 secondary running
  running  : List Byte := []                        -- the firmware image that runs; none in recovery (R28)
  owners   : Tbl Owner := []                        -- missing: VALID = 0, but owner 0 is VALID (R324)
  slots    : Tbl SeqSlot := []
  grants   : Tbl (BitVec 12) := []                  -- granted registers
  notify   : Tbl Word := []
  waits    : Tbl (List Waiter) := []
  faults   : Tbl FaultQ := []
  merges   : Tbl Merge := []
  parity   : Tbl Parity := []
  links    : Tbl Link := []
  nonce    : List Byte := []
  report   : List Byte := []
  fwLen    : Nat := 0
  fwSlot   : Nat := 0
  fwImage  : Tbl Byte := []
  fwSlots  : Tbl (List Byte) := []                  -- stored images, primary 0 and secondary 1
  fwBusy   : Bool := false
  pwr      : Power := {}
  thresh   : Nat := 16
  retWin   : Nat := 2 ^ 30
  retired  : List BankId := []                      -- retirements recorded across reset (R307)
  cores    : Tbl Core := []
  mgmt     : BitVec 16 := 0
  sbase    : Nat := 0
  ssize    : Nat := 0
  mbox     : List Mailbox := []                     -- oldest first
  stkErr   : Tbl Nat := []                          -- corrected errors of an HBM stack (R212)
  deltas   : List (Nat × Nat × Option (NodeId × Nat)) := []  -- parity deltas sent and not acknowledged: group, block, firing that waits
  outbox   : List OutMsg := []
  parked   : List Instr := []                       -- requests that wait for a rebuild (R396)
  kdrops   : Nat := 0                               -- flits of other kinds dropped (R387)
  srefused : Nat := 0                               -- sandbox cores' requests refused (R210)
  deriving DecidableEq, Repr

/-- Who moves next: a node of the fabric starts what its sequencer offers, or an event takes place. -/
inductive Turn where
  | node (n : NodeId)
  | event (i : Instr)
  deriving DecidableEq, Repr, Inhabited

/-- The state of the machine. `turn` lists who moves next, `tick` counts steps for the free values of Config, `moved` is
the rank of the last move of the present cycle (0: none; log entry 1), and `locus` is the place of the node instruction that
moves (log entry 2). `llc` lists the 256-byte lines that the last-level cache slices of the base dies hold (R17, R199). -/
structure State where
  turn  : List Turn
  tick  : Nat
  moved : Nat
  locus : Loc
  hbm   : Memory
  sram  : Memory
  regf  : Memory
  hsyn  : Tbl (BitVec 32)
  ssyn  : Tbl (BitVec 32)
  ecc   : Tbl Bool
  llc   : List Nat
  rows  : Tbl Row
  clusters : Tbl Cluster
  dies  : Tbl Die
  hub   : Hub
  deriving DecidableEq, Repr

/-- Why the machine stops. -/
inductive Fault where
  /-- An event names a die, cluster, row, node, bank, slice or link that the device does not have (R13). Raised by
  the events that carry a place; safe: the device takes no such step. -/
  | noSuchPlace
  deriving DecidableEq, Repr

/-- Why an instruction has no meaning here. -/
inductive Refusal where
  /-- The instruction's arm is not written yet. Raised by `exec` alone; safe. -/
  | notModelled (mnemonic : String)
  deriving DecidableEq, Repr

/-- Owner 0x000 is VALID and belongs to the firmware (R324). -/
def Owner.firmware : Owner := { valid := true }

/-- The machine right after reset (R26, R27, R89, R165, R199, R307, R323, R345). -/
def State.reset : State :=
  { turn := [], tick := 0, moved := 0, locus := ⟨⟨⟨0, 0, 0⟩, 0⟩, 0⟩,
    hbm := [], sram := [], regf := [], hsyn := [], ssyn := [], ecc := [], llc := [],
    rows := [], clusters := [], dies := [], hub := { owners := [(0, Owner.firmware)] } }

end Sys2Proof.Machine
end

