-- ==== Sys2Proof/Config.lean ====
section
/-!
DEFINITION. What the spec leaves to the implementation, or does not say, as constants with no body: free values.
Nothing can be proved of them but what holds whatever they are. Each is named in the assumption log.
-/
namespace Sys2Proof

/-- One member of a merge (R394): its node, its contribution record's address, its trigger register. -/
structure MergeMember where
  node : BitVec 16
  cpa  : Nat
  trig : Nat
  deriving DecidableEq, Repr, Inhabited

/-- The fields of a merge entry (R394). -/
structure MergeCfg where
  argmax : Bool
  d      : Nat
  mask   : BitVec 16
  mems   : List MergeMember
  root   : BitVec 16
  rpa    : Nat
  rntfy  : Nat
  deriving DecidableEq, Repr, Inhabited

/-- The fields of a parity group entry (R397): nine member nodes, the area on this device, the lost member. -/
structure ParityCfg where
  mems : List (BitVec 16)
  base : Nat
  size : Nat
  lost : Nat
  deriving DecidableEq, Repr, Inhabited

/-- The fields that the words of a merge entry hold: the spec names them and gives no places (R394, log entry 13). -/
opaque Config.mergeCfg : List DWord → MergeCfg

/-- The fields that the words of a parity group entry hold (R397, log entry 13). -/
opaque Config.parityCfg : List DWord → ParityCfg

/-- The node identifier that the firmware gave this device when it trained the links (log entry 13). -/
opaque Config.node : BitVec 16

/-- The link by which a node is reached (log entry 13). -/
opaque Config.route : BitVec 16 → Nat

/-- The bytes that a read or write flit asks for: the spec gives its payload length in units of 16 bytes, and no field
for the length of a read (R387, log entry 13). -/
opaque Config.flitLen : List Byte → Nat

/-- The contribution, and the group and block of a parity delta, that a flit carries (R387, log entry 13). -/
opaque Config.mergePkt : List Byte → MergePkt
opaque Config.deltaPkt : List Byte → Nat × Nat

/-- What the firmware sets at its own choice: the management node, the owner bound to each application core, the sandbox
partition in units of 64 MiB, the guaranteed share of a region's gateway (R388, R391, R210, R329, log entry 9). -/
opaque Config.mgmt : BitVec 16
opaque Config.coreOwner : Nat → BitVec 12
opaque Config.sandbox : Nat × Nat
opaque Config.minsh : Nat → BitVec 8

/-- Who moves at a step when State names nobody: the order in which independent nodes and agents move (log entry 2). -/
opaque Config.arbiter : Nat → Machine.Turn

/-- Core cycles of a die that pass at a step (log entry 1). -/
opaque Config.elapse (tick die : Nat) : Nat

/-- Cycles of port accesses of a row that Gavotte stalls at a step (R314, R363, log entry 4). -/
opaque Config.stall (tick row : Nat) : Nat

/-- The 256-byte line of HBM that a slice of the last-level cache fills or writes back at a step, if one does (R199, R203, log
entry 6). -/
opaque Config.cacheLine : Nat → Option Nat

/-- An upset of a stored 64-bit word at a step, if there is one: its place in the error table, and whether SECDED cannot correct
it (R25, R212, log entry 6). -/
opaque Config.upset : Nat → Option (Nat × Bool)

/-- What the firmware sets a region's WDLIM to at a step, if it does: the spec names no command for it (R345, log entry 83). -/
opaque Config.wdlim (tick die region : Nat) : Option (BitVec 32)

/-- What the firmware and the application cores do to the hub at a step (R312, R386, R391, log entries 83 and 99). -/
opaque Config.hubMove : Nat → Machine.HubMove

/-- The highest round that any member of a merge has contributed, as the hub of a member knows it whose root is another device (R394,
log entry 53). -/
opaque Config.mergeTop (tick mid : Nat) : Nat

/-- Average package power in watts of the window that ends at a step (R24, log entry 8). -/
opaque Config.power : Nat → Nat

/-- RSA-4096 verification of a firmware image, whose SHA-512 comes first, against the fused key (R26, log entry 9). -/
opaque Config.verify (hash image : List Byte) : Bool

/-- The device identity key's RSA-4096 signature (R28, log entry 9). -/
opaque Config.sign : List Byte → List Byte

/-- The boot ROM's bytes and the fused serial number (R28, log entry 9). -/
opaque Config.bootRom : List Byte
opaque Config.serial : List Byte

/-- The images that the firmware slots hold when the device first starts (R26, log entry 9). -/
opaque Config.firmware : Nat → List Byte

/-- The body of a freeze image's chunk to which R336 gives no layout, and the part that such a body's bytes hold, by the chunk's type
(log entry 10). -/
opaque Config.partBytes : Machine.Part → List Byte
opaque Config.partOf (typ : Nat) : List Byte → Option Machine.Part

/-- The flags that follow a token in an image: marker, last-read, final, wave number; and what such flags say (R336, log entry 10). -/
opaque Config.tokenFlags (mark last final : Bool) (wave : BitVec 16) : BitVec 64
opaque Config.flagsOf : BitVec 64 → Bool × Bool × Bool × BitVec 16

/-- The bytes of an entry of a QUEUE-mode bank, by step: the spec gives entries a size and no layout (R207, log entry 91). -/
opaque Config.entryBytes : Nat → List Byte

/-- What the registers of a band read at a step in a row that stands in none (R93, R384), by the place of the word. -/
opaque Config.noBand (tick i : Nat) : Word

/-- A result the spec calls for without giving its value, by step (log entry 11). -/
opaque Config.freeWord : Nat → Word

end Sys2Proof
end

