-- ==== Sys2Proof/Machine/Table.lean ====
section
/-!
DEFINITION. Tables by key, memories in their canonical form, and the byte, field and list helpers the meanings use.
-/
namespace Sys2Proof.Machine

/-- The value at a key, if listed. -/
def tget {α : Type} : Tbl α → Nat → Option α
  | [], _ => none
  | (k, v) :: t, n => if k = n then some v else tget t n

/-- The value at a key, or the reset value. -/
def tgetD {α : Type} (t : Tbl α) (n : Nat) (d : α) : α := (tget t n).getD d

/-- Put a value at a key, keys rising. -/
def tset {α : Type} : Tbl α → Nat → α → Tbl α
  | [], n, a => [(n, a)]
  | (k, v) :: t, n, a => if n < k then (n, a) :: (k, v) :: t else if n = k then (n, a) :: t else (k, v) :: tset t n a

/-- Remove a key. -/
def tdel {α : Type} : Tbl α → Nat → Tbl α
  | [], _ => []
  | (k, v) :: t, n => if k = n then t else (k, v) :: tdel t n

/-- Byte `a` of a memory; a byte not listed reads as 0 (R199). -/
def Memory.read : Memory → Nat → Byte
  | [], _ => 0
  | (k, v) :: t, a => if k = a then v else if a < k then 0 else Memory.read t a

/-- Put an entry in front unless it is the reset byte. -/
def Memory.cons (a : Nat) (b : Byte) (m : Memory) : Memory := if b = 0 then m else (a, b) :: m

/-- Write one byte, keeping the canonical form. -/
def Memory.write : Memory → Nat → Byte → Memory
  | [], a, b => Memory.cons a b []
  | (k, v) :: t, a, b =>
    if a < k then Memory.cons a b ((k, v) :: t)
    else if a = k then Memory.cons a b t
    else (k, v) :: Memory.write t a b

/-- Addresses above `lo` and rising, no reset byte listed. -/
def Memory.above : Nat → Memory → Bool
  | _, [] => true
  | lo, (k, v) :: t => decide (lo ≤ k) && v != 0 && Memory.above (k + 1) t

/-- The canonical form of a memory. -/
def Memory.wf (m : Memory) : Bool := Memory.above 0 m

/-- `n` bytes from address `a`. -/
def Memory.readN (m : Memory) (a : Nat) : Nat → List Byte
  | 0 => []
  | n + 1 => Memory.read m a :: Memory.readN m (a + 1) n

/-- Write bytes from address `a` upward. -/
def Memory.writeN (m : Memory) (a : Nat) : List Byte → Memory
  | [] => m
  | b :: bs => Memory.writeN (Memory.write m a b) (a + 1) bs

/-- The memory without the bytes of [lo, hi). -/
def Memory.clear : Memory → Nat → Nat → Memory
  | [], _, _ => []
  | (k, v) :: t, lo, hi => if lo ≤ k && k < hi then Memory.clear t lo hi else (k, v) :: Memory.clear t lo hi

/-- The bytes of [lo, hi), at addresses from 0. -/
def Memory.slice : Memory → Nat → Nat → Memory
  | [], _, _ => []
  | (k, v) :: t, lo, hi => if lo ≤ k && k < hi then (k - lo, v) :: Memory.slice t lo hi else Memory.slice t lo hi

/-- Write every byte of a slice from `lo` upward. -/
def Memory.paste (m : Memory) (lo : Nat) : Memory → Memory
  | [] => m
  | (k, v) :: t => Memory.paste (Memory.write m (lo + k) v) lo t

/-- Little-endian bytes as a number (R5). -/
def bytesNat : List Byte → Nat
  | [] => 0
  | b :: bs => b.toNat + 256 * bytesNat bs

/-- `n` little-endian bytes of a number (R5). -/
def natBytes' : Nat → Nat → List Byte
  | 0, _ => []
  | n + 1, w => BitVec.ofNat 8 w :: natBytes' n (w / 256)

/-- A word of `w` bits from little-endian bytes. -/
def bytesBits (w : Nat) (bs : List Byte) : BitVec w := BitVec.ofNat w (bytesNat bs)

/-- Element `i` of width `w` of a packed value (R5, R76). -/
def elem {n : Nat} (x : BitVec n) (w i : Nat) : Nat := (x.toNat / 2 ^ (w * i)) % 2 ^ w

/-- Pack elements of width `w` into a value of `n` bits (R76). -/
def packNat (w : Nat) : List Nat → Nat
  | [] => 0
  | x :: xs => x % 2 ^ w + 2 ^ w * packNat w xs

/-- Pack elements of width `w` into a beat. -/
def packBeat (w : Nat) (xs : List Nat) : Beat := BitVec.ofNat 1024 (packNat w xs)

/-- The elements of width `w` of a beat, `k` of them. -/
def elems (w : Nat) : Nat → Nat → List Nat
  | 0, _ => []
  | k + 1, x => x % 2 ^ w :: elems w k (x / 2 ^ w)

/-- The elements of width `w` of a beat. -/
def beatElems (w : Nat) (b : Beat) : List Nat := elems w (1024 / w) b.toNat

/-- Replace element `i` of a list. -/
def lset {α : Type} : List α → Nat → α → List α
  | [], _, _ => []
  | _ :: t, 0, a => a :: t
  | x :: t, n + 1, a => x :: lset t n a

/-- Insert before the first element that comes after `a` in the order `lt`: equal elements keep their order. -/
def insertBy {α : Type} (lt : α → α → Bool) (a : α) : List α → List α
  | [] => [a]
  | x :: t => if lt a x then a :: x :: t else x :: insertBy lt a t

/-- Stable insertion sort. -/
def sortBy {α : Type} (lt : α → α → Bool) : List α → List α
  | [] => []
  | x :: t => insertBy (fun a y => !lt y a) x (sortBy lt t)

/-- The numbers lo, lo + 1, …, n of them. -/
def upFrom (lo : Nat) : Nat → List Nat
  | 0 => []
  | n + 1 => lo :: upFrom (lo + 1) n

/-- A signed value of a `w`-bit number. -/
def sgn (w x : Nat) : Int := if x % 2 ^ w < 2 ^ (w - 1) then (x % 2 ^ w : Nat) else (x % 2 ^ w : Nat) - (2 ^ w : Nat)

/-- An integer modulo 2^w. -/
def wrapInt (w : Nat) (x : Int) : Nat := (x % (2 ^ w : Nat)).toNat

/-- An integer clamped to [lo, hi]. -/
def clampInt (lo hi x : Int) : Int := if x < lo then lo else if hi < x then hi else x

/-- CRC-32C (Castagnoli), bit by bit, reflected polynomial 0x82F63B78 (R213). -/
def crcBit (c : Nat) : Nat := if c % 2 = 1 then (c / 2) ^^^ 0x82F63B78 else c / 2

def crcByte (c : Nat) (b : Byte) : Nat :=
  crcBit (crcBit (crcBit (crcBit (crcBit (crcBit (crcBit (crcBit (c ^^^ b.toNat))))))))

def crcAll : Nat → List Byte → Nat
  | c, [] => c
  | c, b :: bs => crcAll (crcByte c b) bs

/-- CRC-32C of bytes. -/
def crc32c (bs : List Byte) : BitVec 32 := BitVec.ofNat 32 (crcAll 0xFFFFFFFF bs ^^^ 0xFFFFFFFF)

/-- What 64 bytes more make of a difference of two CRCs (R214). -/
def crcShift64 (d : BitVec 32) : BitVec 32 := if d = 0 then 0 else BitVec.ofNat 32 (crcAll d.toNat (List.replicate 64 0))

/-- The scopes' order (R218). -/
def Scope.rank : Scope → Nat
  | .row => 0 | .cluster => 1 | .die => 2 | .package => 3 | .system => 4

end Sys2Proof.Machine
end

