-- ==== Sys2Proof/Machine/Num.lean ====
section
/-!
DEFINITION. Exact arithmetic on dyadic numbers, one rounding into a binary floating-point format (R73, R79), and
the transcendental functions to 320 bits (R87).
-/
namespace Sys2Proof.Machine

/-- A dyadic number with a sign that zero keeps: ±m·2^e. -/
structure Dy where
  neg : Bool
  m   : Nat
  e   : Int
  deriving DecidableEq, Repr

/-- A floating-point value. -/
inductive Fv where
  | nan
  | inf (neg : Bool)
  | fin (d : Dy)
  deriving DecidableEq, Repr

/-- A binary format (R73): exponent bits, fraction bits, bias, and whether it has infinities (E4M3 has none). -/
structure FpFmt where
  eb   : Nat
  fb   : Nat
  bias : Int
  inf  : Bool
  deriving DecidableEq, Repr

def fF32 : FpFmt := ⟨8, 23, 127, true⟩
def fF16 : FpFmt := ⟨5, 10, 15, true⟩
def fBF16 : FpFmt := ⟨8, 7, 127, true⟩
def fE5M2 : FpFmt := ⟨5, 2, 15, true⟩
def fE4M3 : FpFmt := ⟨4, 3, 7, false⟩

/-- Width in bits. -/
def FpFmt.width (f : FpFmt) : Nat := 1 + f.eb + f.fb

/-- The canonical NaN (R73). -/
def FpFmt.nan (f : FpFmt) : Nat :=
  if f.inf then (2 ^ f.eb - 1) * 2 ^ f.fb + 2 ^ (f.fb - 1) else 2 ^ (f.eb + f.fb) - 1

/-- The bits of an infinity. -/
def FpFmt.infBits (f : FpFmt) (neg : Bool) : Nat :=
  (2 ^ f.eb - 1) * 2 ^ f.fb + (if neg then 2 ^ (f.eb + f.fb) else 0)

/-- The largest finite magnitude (R73). -/
def FpFmt.maxBits (f : FpFmt) : Nat :=
  if f.inf then (2 ^ f.eb - 1) * 2 ^ f.fb - 1 else 2 ^ (f.eb + f.fb) - 2

/-- The value of a code (R73). -/
def FpFmt.decode (f : FpFmt) (x : Nat) : Fv :=
  let neg := x / 2 ^ (f.eb + f.fb) % 2 = 1
  let e := x / 2 ^ f.fb % 2 ^ f.eb
  let fr := x % 2 ^ f.fb
  if e = 2 ^ f.eb - 1 && f.inf then (if fr = 0 then .inf neg else .nan)
  else if !f.inf && x % 2 ^ (f.eb + f.fb) = 2 ^ (f.eb + f.fb) - 1 then .nan
  else if e = 0 then .fin ⟨neg, fr, 1 - f.bias - f.fb⟩
  else .fin ⟨neg, 2 ^ f.fb + fr, (e : Int) - f.bias - f.fb⟩

/-- Bits needed to write a number. -/
def bitLen (m : Nat) : Nat := if m = 0 then 0 else Nat.log2 m + 1

/-- Whether rounding `n + rem/2^sh` goes up in magnitude (R79): `half` compares the remainder with one half. -/
def roundUp (r : Rnd) (neg odd : Bool) (rem half : Nat) (sticky : Bool) : Bool :=
  match r with
  | .rne => half < rem || (half = rem && half ≠ 0 && (sticky || odd))
  | .rtz => false
  | .rup => !neg && (rem ≠ 0 || sticky)
  | .rdn => neg && (rem ≠ 0 || sticky)

/-- What an overflow gives (R79): infinity or the largest finite value. -/
def overflow (f : FpFmt) (r : Rnd) (sat neg : Bool) : Nat :=
  let s := if neg then 2 ^ (f.eb + f.fb) else 0
  let toInf := match r with
    | .rne => true
    | .rtz => false
    | .rup => !neg
    | .rdn => neg
  if toInf && f.inf && !sat then f.infBits neg else f.maxBits + s

/-- Round ±m·2^e (and a little more in magnitude when `sticky`) into a format. -/
def roundTo (f : FpFmt) (r : Rnd) (sat neg : Bool) (m0 : Nat) (e0 : Int) (sticky0 : Bool) : Nat :=
  let s := if neg then 2 ^ (f.eb + f.fb) else 0
  if m0 = 0 && !sticky0 then s
  else
    let m := if m0 = 0 then 1 else m0
    let e := if m0 = 0 then 1 - f.bias - f.fb - 8 else e0
    let sticky := sticky0 && m0 ≠ 0
    let emin : Int := 1 - f.bias
    let ex : Int := e + bitLen m - 1
    let q : Int := max (ex - f.fb) (emin - f.fb)
    let sh : Nat := (q - e).toNat
    let n := if e ≥ q then m * 2 ^ (e - q).toNat else m / 2 ^ sh
    let rem := if e ≥ q then 0 else m % 2 ^ sh
    let half := if e ≥ q then 0 else 2 ^ (sh - 1)
    let up := roundUp r neg (n % 2 = 1) rem half sticky
    let n1 := if up then n + 1 else n
    let n2 := if n1 = 2 ^ (f.fb + 1) then 2 ^ f.fb else n1
    let q2 : Int := if n1 = 2 ^ (f.fb + 1) then q + 1 else q
    if n2 < 2 ^ f.fb then n2 + s
    else
      let be := (q2 + f.fb + f.bias).toNat
      let code := be * 2 ^ f.fb + (n2 - 2 ^ f.fb)
      if code > f.maxBits then overflow f r sat neg else code + s

/-- Round a dyadic number. -/
def Dy.round (f : FpFmt) (r : Rnd) (d : Dy) : Nat := roundTo f r false d.neg d.m d.e false

/-- The signed integer of a dyadic number in units of 2^e. -/
def Dy.at_ (d : Dy) (e : Int) : Int :=
  let n : Int := (d.m * 2 ^ (d.e - e).toNat : Nat)
  if d.neg then -n else n

def Dy.mul (a b : Dy) : Dy := ⟨a.neg != b.neg, a.m * b.m, a.e + b.e⟩

def Dy.negate (a : Dy) : Dy := { a with neg := !a.neg }

/-- Scale by a power of two. -/
def Dy.scale (a : Dy) (k : Int) : Dy := { a with e := a.e + k }

/-- The least exponent of a list of dyadic numbers that are not zero. -/
def minExp : List Dy → Int → Int
  | [], e => e
  | d :: t, e => minExp t (if d.m = 0 then e else min d.e e)

/-- The exact sum of dyadic numbers; an exact zero is −0 when every term is −0, or when `down` and the terms' signs
differ (R79). -/
def Dy.sum (down : Bool) (ds : List Dy) : Dy :=
  let e0 := match ds.find? (fun d => d.m ≠ 0) with
    | none => 0
    | some d => d.e
  let e := minExp ds e0
  let n : Int := ds.foldl (fun a d => if d.m = 0 then a else a + d.at_ e) 0
  if n = 0 then
    let allNeg := ds.all (fun d => d.neg)
    let allPos := ds.all (fun d => !d.neg)
    ⟨if allNeg && !ds.isEmpty then true else if allPos then false else down, 0, 0⟩
  else ⟨decide (n < 0), n.natAbs, e⟩

/-- Compare two finite dyadic numbers as numbers: −1, 0 or 1. -/
def Dy.cmp (a b : Dy) : Int :=
  let e := min a.e b.e
  let x := a.at_ e
  let y := b.at_ e
  if x < y then -1 else if x = y then 0 else 1

/-- Integer square root, bit by bit from bit `k - 1`. -/
def isqrtFrom (n : Nat) : Nat → Nat → Nat
  | 0, r => r
  | k + 1, r => let t := r + 2 ^ k; if t * t ≤ n then isqrtFrom n k t else isqrtFrom n k r

/-- Fixed-point precision of the transcendental functions (log entry 7). -/
def prec : Nat := 320

/-- Σ t^k/k! from term k, in fixed point. -/
def expSeries (t : Nat) : Nat → Nat → Nat → Nat → Nat
  | 0, _, _, acc => acc
  | fuel + 1, k, term, acc => expSeries t fuel (k + 1) (term * t / 2 ^ prec / k) (acc + term)

/-- Σ z^(2k+1)/(2k+1), in fixed point, with z2 = z². -/
def atanhSeries (z2 : Nat) : Nat → Nat → Nat → Nat → Nat
  | 0, _, _, acc => acc
  | fuel + 1, k, pow, acc => atanhSeries z2 fuel (k + 2) (pow * z2 / 2 ^ prec) (acc + pow / k)

/-- ln of num/den in [1, 2], in fixed point. -/
def lnFix (num den : Nat) : Nat :=
  let z := (num - den) * 2 ^ prec / (num + den)
  2 * atanhSeries (z * z / 2 ^ prec) 105 1 z 0

/-- ln 2 in fixed point. -/
def ln2Fix : Nat := lnFix 2 1

/-- 2^x of a finite number as magnitude m·2^e with a sticky bit. -/
def exp2Of (d : Dy) : Nat × Int × Bool :=
  if d.m = 0 then (1, 0, false)
  else
    let x := d.at_ (min d.e 0)
    let k : Nat := (-(min d.e 0)).toNat
    if d.e ≥ 16 || x / (2 ^ k : Nat) > 400 || x / (2 ^ k : Nat) < -400 then
      (if d.neg then (1, -1000, true) else (1, 1000, true))
    else
      let n := x / (2 ^ k : Nat)
      let fr := (x % (2 ^ k : Nat)).toNat
      if fr = 0 then (1, n, false)
      else
        let t := ln2Fix * fr / 2 ^ k
        (expSeries t 80 1 (2 ^ prec) 0, n - (prec : Int), true)

/-- log2 of a positive finite number: sign, magnitude m·2^e, sticky. -/
def log2Of (d : Dy) : Bool × Nat × Int × Bool :=
  let l := bitLen d.m - 1
  let ex : Int := d.e + l
  if d.m = 2 ^ l then (decide (ex < 0), ex.natAbs, 0, false)
  else
    let w := lnFix d.m (2 ^ l) * 2 ^ prec / ln2Fix
    let v : Int := ex * (2 ^ prec : Nat) + w
    (decide (v < 0), v.natAbs, -(prec : Int), true)

/-- 1/x of a finite number other than zero: magnitude and sticky. -/
def rcpOf (d : Dy) : Nat × Int × Bool :=
  (2 ^ (bitLen d.m + 64) / d.m, -(d.e) - bitLen d.m - 64, 2 ^ (bitLen d.m + 64) % d.m ≠ 0)

/-- √x of a positive finite number: magnitude and sticky. -/
def sqrtOf (d : Dy) : Nat × Int × Bool :=
  let p : Nat := if d.e % 2 = 0 then 128 else 129
  let n := d.m * 2 ^ p
  let r := isqrtFrom n (bitLen n / 2 + 1) 0
  (r, (d.e - p) / 2, r * r ≠ n)

/-- 1/√x of a positive finite number: magnitude and sticky. -/
def rsqOf (d : Dy) : Nat × Int × Bool :=
  let p0 := 2 * bitLen d.m + 160
  let p : Nat := if (d.e + p0) % 2 = 0 then p0 else p0 + 1
  let n := 2 ^ p / d.m
  let r := isqrtFrom n (bitLen n / 2 + 1) 0
  (r, -((d.e + p) / 2), r * r ≠ n || 2 ^ p % d.m ≠ 0)

end Sys2Proof.Machine
end

