-- ==== Sys2Proof/Machine/Fp.lean ====
section
/-!
DEFINITION. Floating-point operations on codes of a format (R79-R82, R88), conversions (R83), the orders of R81,
the sums of R84-R86 and the functions of R87.
-/
namespace Sys2Proof.Machine

/-- A value rounded into a format; an infinity or NaN as the format holds it. -/
def Fv.round (f : FpFmt) (r : Rnd) (v : Fv) : Nat :=
  match v with
  | .nan => f.nan
  | .inf neg => if f.inf then f.infBits neg else f.maxBits + (if neg then 2 ^ (f.eb + f.fb) else 0)
  | .fin d => d.round f r

def Fv.negate : Fv → Fv
  | .nan => .nan
  | .inf n => .inf (!n)
  | .fin d => .fin d.negate

/-- The exact sum of two values, a NaN for ∞ − ∞ (R80). -/
def Fv.add (down : Bool) (a b : Fv) : Fv :=
  match a, b with
  | .nan, _ => .nan
  | _, .nan => .nan
  | .inf x, .inf y => if x = y then .inf x else .nan
  | .inf x, _ => .inf x
  | _, .inf y => .inf y
  | .fin x, .fin y => .fin (Dy.sum down [x, y])

/-- The exact product, a NaN for 0 · ∞ (R80). -/
def Fv.mul (a b : Fv) : Fv :=
  match a, b with
  | .nan, _ => .nan
  | _, .nan => .nan
  | .inf x, .inf y => .inf (x != y)
  | .inf x, .fin d => if d.m = 0 then .nan else .inf (x != d.neg)
  | .fin d, .inf x => if d.m = 0 then .nan else .inf (x != d.neg)
  | .fin x, .fin y => .fin (x.mul y)

/-- Codes added, subtracted, multiplied, fused, with one rounding (R79, R88). -/
def FpFmt.add (f : FpFmt) (r : Rnd) (a b : Nat) : Nat := (Fv.add (r = .rdn) (f.decode a) (f.decode b)).round f r
def FpFmt.sub (f : FpFmt) (r : Rnd) (a b : Nat) : Nat := (Fv.add (r = .rdn) (f.decode a) (f.decode b).negate).round f r
def FpFmt.mul (f : FpFmt) (r : Rnd) (a b : Nat) : Nat := ((f.decode a).mul (f.decode b)).round f r
def FpFmt.fma (f : FpFmt) (r : Rnd) (a b c : Nat) : Nat :=
  (Fv.add (r = .rdn) ((f.decode a).mul (f.decode b)) (f.decode c)).round f r

/-- Numerical comparison, none when a NaN is present (R81). -/
def Fv.cmp (a b : Fv) : Option Int :=
  match a, b with
  | .nan, _ => none
  | _, .nan => none
  | .inf x, .inf y => some (if x = y then 0 else if x then -1 else 1)
  | .inf x, .fin _ => some (if x then -1 else 1)
  | .fin _, .inf y => some (if y then 1 else -1)
  | .fin x, .fin y => some (Dy.cmp x y)

/-- Conditions of FCMP and VCMP (R113). -/
def fcondHolds (c : FCond) (o : Option Int) : Bool :=
  match c, o with
  | .un, o => o.isNone
  | .or, o => o.isSome
  | .ne, none => true
  | _, none => false
  | .eq, some x => x = 0
  | .ne, some x => x ≠ 0
  | .lt, some x => x < 0
  | .le, some x => x ≤ 0
  | .gt, some x => 0 < x
  | .ge, some x => 0 ≤ x

/-- The sign bit of a code. -/
def FpFmt.sign (f : FpFmt) (x : Nat) : Bool := x / 2 ^ (f.eb + f.fb) % 2 = 1

/-- Minimum or maximum of R81: a NaN gives the canonical NaN, −0 < +0. -/
def FpFmt.minmax (f : FpFmt) (mx : Bool) (a b : Nat) : Nat :=
  match Fv.cmp (f.decode a) (f.decode b) with
  | none => f.nan
  | some x =>
    let aLess := x < 0 || (x = 0 && f.sign a)
    if aLess = mx then b else a

/-- The rank order of R81 as a comparison: NaN lowest, zeros equal. -/
def Fv.rank (a b : Fv) : Int :=
  match a, b with
  | .nan, .nan => 0
  | .nan, _ => -1
  | _, .nan => 1
  | a, b => (Fv.cmp a b).getD 0

/-- The formats with floating-point values among the codes of R72. -/
def fmtFp : Fmt → Option FpFmt
  | .f32 => some fF32
  | .f16 => some fF16
  | .bf16 => some fBF16
  | .e4m3 => some fE4M3
  | .e5m2 => some fE5M2
  | _ => none

/-- Signedness of the integer formats. -/
def fmtSigned : Fmt → Bool
  | .i8 => true
  | .i16 => true
  | .i32 => true
  | _ => false

/-- The range of an integer format (R75). -/
def intLo (sg : Bool) (w : Nat) : Int := if sg then -((2 ^ (w - 1) : Nat) : Int) else 0
def intHi (sg : Bool) (w : Nat) : Int := if sg then ((2 ^ (w - 1) : Nat) : Int) - 1 else ((2 ^ w : Nat) : Int) - 1

/-- A finite value rounded to an integer under a code (R83). -/
def Dy.toInt (r : Rnd) (d : Dy) : Int :=
  if d.e ≥ 0 then d.at_ 0
  else
    let sh := (-d.e).toNat
    let n := d.m / 2 ^ sh
    let up := roundUp r d.neg (n % 2 = 1) (d.m % 2 ^ sh) (2 ^ (sh - 1)) false
    let v : Int := ((if up then n + 1 else n) : Nat)
    if d.neg then -v else v

/-- An integer as a dyadic number. -/
def Dy.ofInt (x : Int) : Dy := ⟨decide (x < 0), x.natAbs, 0⟩

/-- Rounding into a floating target of a conversion (R83): .SAT and E4M3 saturate. -/
def convFp (f : FpFmt) (r : Rnd) (sat : Bool) (v : Fv) : Nat :=
  match v with
  | .nan => f.nan
  | .inf neg => if f.inf && !sat then f.infBits neg else f.maxBits + (if neg then 2 ^ (f.eb + f.fb) else 0)
  | .fin d => roundTo f r sat d.neg d.m d.e false

/-- Whether .SAT bears on a conversion between floating formats: not on one to a wider format, which is exact (R83). -/
def cvtSat (c : Cvt) : Bool := c.sat && c.dst.width ≤ c.src.width

/-- The conversion of R83 between codes 0-4 and 6-11, on a value of the source's width. -/
def convert (c : Cvt) (x : Nat) : Nat :=
  match fmtFp c.src, fmtFp c.dst with
  | some f, some g =>
    if c.src = c.dst then (if f.decode x = .nan then f.nan else x) else convFp g c.rnd (cvtSat c) (f.decode x)
  | some f, none =>
    let sg := (fmtSigned c.dst)
    let w := c.dst.width
    match f.decode x with
    | .nan => 0
    | .inf neg => wrapInt w (if neg then intLo sg w else intHi sg w)
    | .fin d => wrapInt w (clampInt (intLo sg w) (intHi sg w) (d.toInt c.rnd))
  | none, some g =>
    let v : Int := if fmtSigned c.src then sgn c.src.width x else (x % 2 ^ c.src.width : Nat)
    convFp g c.rnd c.sat (.fin (Dy.ofInt v))
  | none, none =>
    let v : Int := if fmtSigned c.src then sgn c.src.width x else (x % 2 ^ c.src.width : Nat)
    let w := c.dst.width
    if c.sat then wrapInt w (clampInt (intLo (fmtSigned c.dst) w) (intHi (fmtSigned c.dst) w) v) else wrapInt w v

/-- A narrow result alone in a word: sign-extended for I formats, zeros for the others (R76). -/
def placeNarrow (f : Fmt) (x : Nat) : Word :=
  if fmtSigned f then BitVec.ofInt 32 (sgn f.width x) else BitVec.ofNat 32 (x % 2 ^ f.width)

/-- FP32 operations on words. -/
def f32Add (r : Rnd) (a b : Word) : Word := BitVec.ofNat 32 (fF32.add r a.toNat b.toNat)
def f32Sub (r : Rnd) (a b : Word) : Word := BitVec.ofNat 32 (fF32.sub r a.toNat b.toNat)
def f32Mul (r : Rnd) (a b : Word) : Word := BitVec.ofNat 32 (fF32.mul r a.toNat b.toNat)
def f32Fma (r : Rnd) (a b c : Word) : Word := BitVec.ofNat 32 (fF32.fma r a.toNat b.toNat c.toNat)
def f32MinMax (mx : Bool) (a b : Word) : Word := BitVec.ofNat 32 (fF32.minmax mx a.toNat b.toNat)
def f32Cmp (a b : Word) : Option Int := Fv.cmp (fF32.decode a.toNat) (fF32.decode b.toNat)
def f32Rank (a b : Word) : Int := Fv.rank (fF32.decode a.toNat) (fF32.decode b.toNat)
def f32IsNan (a : Word) : Bool := fF32.decode a.toNat = .nan
def f32Nan : Word := 0x7FC00000
def f32NegInf : Word := 0xFF800000
def f32PosInf : Word := 0x7F800000

/-- The functions of R87 on FP32 codes. -/
def f32Exp2 (r : Rnd) (a : Word) : Word :=
  BitVec.ofNat 32 (match fF32.decode a.toNat with
    | .nan => fF32.nan
    | .inf neg => if neg then 0 else fF32.infBits false
    | .fin d => let (m, e, st) := exp2Of d; roundTo fF32 r false false m e st)

def f32Log2 (r : Rnd) (a : Word) : Word :=
  BitVec.ofNat 32 (match fF32.decode a.toNat with
    | .nan => fF32.nan
    | .inf neg => if neg then fF32.nan else fF32.infBits false
    | .fin d =>
      if d.m = 0 then fF32.infBits true
      else if d.neg then fF32.nan
      else let (ng, m, e, st) := log2Of d; if m = 0 then 0 else roundTo fF32 r false ng m e st)

def f32Rcp (r : Rnd) (a : Word) : Word :=
  BitVec.ofNat 32 (match fF32.decode a.toNat with
    | .nan => fF32.nan
    | .inf neg => if neg then 2 ^ 31 else 0
    | .fin d =>
      if d.m = 0 then fF32.infBits d.neg
      else let (m, e, st) := rcpOf d; roundTo fF32 r false d.neg m e st)

def f32Rsq (r : Rnd) (a : Word) : Word :=
  BitVec.ofNat 32 (match fF32.decode a.toNat with
    | .nan => fF32.nan
    | .inf neg => if neg then fF32.nan else 0
    | .fin d =>
      if d.m = 0 then fF32.infBits d.neg
      else if d.neg then fF32.nan
      else let (m, e, st) := rsqOf d; roundTo fF32 r false false m e st)

/-- The square root of an FP32 code (R80: a NaN for a negative number). -/
def f32Sqrt (r : Rnd) (a : Word) : Word :=
  BitVec.ofNat 32 (match fF32.decode a.toNat with
    | .nan => fF32.nan
    | .inf neg => if neg then fF32.nan else fF32.infBits false
    | .fin d =>
      if d.m = 0 then a.toNat
      else if d.neg then fF32.nan
      else let (m, e, st) := sqrtOf d; roundTo fF32 r false false m e st)

/-- The quotient of two FP32 codes with one rounding. -/
def f32Div (r : Rnd) (a b : Word) : Word :=
  BitVec.ofNat 32 (match fF32.decode a.toNat, fF32.decode b.toNat with
    | .nan, _ => fF32.nan
    | _, .nan => fF32.nan
    | .inf _, .inf _ => fF32.nan
    | .inf x, .fin d => fF32.infBits (x != d.neg)
    | .fin d, .inf x => if d.neg != x then 2 ^ 31 else 0
    | .fin x, .fin y =>
      if y.m = 0 then (if x.m = 0 then fF32.nan else fF32.infBits (x.neg != y.neg))
      else
        let k := bitLen y.m + 64
        roundTo fF32 r false (x.neg != y.neg) (x.m * 2 ^ k / y.m) (x.e - y.e - k) (x.m * 2 ^ k % y.m ≠ 0))

/-- Adjacent results added pairwise, level by level (R85). -/
def treeLevel (r : Rnd) : List Word → List Word
  | a :: b :: t => f32Add r a b :: treeLevel r t
  | t => t

def treeSum (r : Rnd) : Nat → List Word → Word
  | 0, xs => xs.headD 0
  | n + 1, xs => treeSum r n (treeLevel r xs)

/-- The first level of a sum of products: x0·y0 + x1·y1 formed as R85 gives, the products exact (R85 step 1). -/
def fusedLevel (r : Rnd) : List (Fv × Fv) → List Word
  | (a, b) :: (c, d) :: t =>
    BitVec.ofNat 32 ((Fv.add (r = .rdn) (a.mul b) (c.mul d)).round fF32 r) :: fusedLevel r t
  | _ => []

/-- A group of sixteen exact products and the accumulator, rounded once (R84). `acc` is none for the exact zero
that contributes no sign. -/
def groupSum (acc : Option Fv) (ps : List Fv) : Nat :=
  let all := match acc with
    | none => ps
    | some a => a :: ps
  if all.any (fun v => v = .nan) then fF32.nan
  else
    let pinf := all.any (fun v => v = .inf false)
    let ninf := all.any (fun v => v = .inf true)
    if pinf && ninf then fF32.nan
    else if pinf then fF32.infBits false
    else if ninf then fF32.infBits true
    else (Dy.sum false (all.map fun v => match v with | .fin d => d | _ => ⟨false, 0, 0⟩)).round fF32 .rne

end Sys2Proof.Machine
end

