-- ==== Sys2Proof/Machine/Ops.lean ====
section
/-!
DEFINITION. The named operations over the state: places, queues and their claims (R165-R168), consumer targets
(R61, R376), memories by home, regions, and the beginning of a freeze at a fault (R334), which is how the device
takes an exception, with its record (R340).
-/
namespace Sys2Proof.Machine

abbrev Out := Host.Outcome State Fault Refusal

/-! ## Places -/

def rowIx (r : RowId) : Nat := (r.die * 12 + r.cl) * 28 + r.row
def clIx (die cl : Nat) : Nat := die * 12 + cl

def State.row (s : State) (r : RowId) : Row := tgetD s.rows (rowIx r) {}
def State.setRow (s : State) (r : RowId) (x : Row) : State := { s with rows := tset s.rows (rowIx r) x }
def State.node (s : State) (n : NodeId) : Node := tgetD (s.row n.row).nodes n.node {}
def State.setNode (s : State) (n : NodeId) (x : Node) : State :=
  s.setRow n.row { s.row n.row with nodes := tset (s.row n.row).nodes n.node x }
def State.die (s : State) (d : Nat) : Die := tgetD s.dies d {}
def State.setDie (s : State) (d : Nat) (x : Die) : State := { s with dies := tset s.dies d x }
def State.cluster (s : State) (die cl : Nat) : Cluster := tgetD s.clusters (clIx die cl) {}
def State.setCluster (s : State) (die cl : Nat) (x : Cluster) : State :=
  { s with clusters := tset s.clusters (clIx die cl) x }
def State.port (s : State) (n : NodeId) : Port := tgetD (s.row n.row).ports n.node {}
def State.setPort (s : State) (n : NodeId) (p : Port) : State :=
  s.setRow n.row { s.row n.row with ports := tset (s.row n.row).ports n.node p }
def State.setHub (s : State) (h : Hub) : State := { s with hub := h }
/-- The cycle counter of a die (R362). -/
def State.cyc (s : State) (die : Nat) : Nat := (s.die die).cyc.toNat
def State.region (s : State) (die k : Nat) : Region := tgetD (s.die die).regions k {}
def State.setRegion (s : State) (die k : Nat) (r : Region) : State :=
  s.setDie die { s.die die with regions := tset (s.die die).regions k r }

/-- The region that holds a row, with its index (R40). -/
def regionAmong (cl row : Nat) : Tbl Region → Option (Nat × Region)
  | [] => none
  | (k, r) :: t =>
    if r.valid && r.cl = cl && r.first ≤ row && row < r.first + r.nrows then some (k, r) else regionAmong cl row t

def State.regionOf (s : State) (r : RowId) : Option (Nat × Region) := regionAmong r.cl r.row (s.die r.die).regions

/-- The owner whose work a row runs; owner 0 where no region holds it (R94). -/
def State.ownerOf (s : State) (r : RowId) : BitVec 12 :=
  match s.regionOf r with
  | none => 0
  | some (_, g) => g.owner

/-- Position of a value in a list. -/
def indexOf (x : Nat) : List Nat → Nat → Option Nat
  | [], _ => none
  | y :: t, i => if x = y then some i else indexOf x t (i + 1)

/-- A row's slot in a band; none for a relay. -/
def Band.slotOf (b : Band) (row : Nat) : Option Nat := indexOf (row - b.base) b.live 0

/-- Whether a row of a band's cluster is one that its launch holds: under SCROLL the slots from D on stay free for other
work of the context (R38, log entry 71). -/
def Band.spans (b : Band) (row : Nat) : Bool :=
  b.base ≤ row && row < b.base + b.b && (b.mode || match b.slotOf row with
    | some i => i < b.desc.d
    | none => true)

/-- The band of a region whose rows a row is one of. -/
def bandAmong (k row : Nat) : Tbl Band → Option (Nat × Band)
  | [] => none
  | (j, b) :: t => if b.region = k && b.spans row then some (j, b) else bandAmong k row t

/-- The band of a row (R367). -/
def State.bandOf (s : State) (r : RowId) : Option (Nat × Band) :=
  match s.regionOf r with
  | none => none
  | some (k, _) => bandAmong k r.row (s.die r.die).bands

/-- The band entry of a row: of its band, or of one whose launch has completed in the row (R367). -/
def State.bandEntry (s : State) (r : RowId) : Option Band :=
  match s.bandOf r, s.regionOf r with
  | some (_, b), _ => some b
  | none, some (k, _) => (bandAmong k r.row (s.die r.die).past).map Prod.snd
  | none, none => none

/-- Whether a row is free: no launch of its region holds it, and no placement has taken it (R45). -/
def State.rowFreeAt (s : State) (die k row : Nat) : Bool :=
  (bandAmong k row (s.die die).bands).isNone &&
    (s.die die).placing.all fun e => !(e.2.region = k && e.2.base ≤ row && row < e.2.base + e.2.desc.b)

/-- The bands of a region, with their indices. -/
def State.bandsOf (s : State) (die k : Nat) : List (Nat × Band) := (s.die die).bands.filter fun e => e.2.region = k

/-- The record of the launch that a row runs; of the region's first launch where no band has the row (R42, R326). -/
def State.launchAt (s : State) (r : RowId) : List DWord :=
  match s.bandOf r, s.regionOf r with
  | some (_, b), _ => b.launch
  | none, some (_, g) => g.launch
  | none, none => []

def State.setBand (s : State) (die k : Nat) (b : Band) : State :=
  s.setDie die { s.die die with bands := tset (s.die die).bands k b }

/-- Whether a freeze token has reached a row (R334: at t0 + 2·d). -/
def Frz.reached (f : Frz) (row cyc : Nat) : Bool :=
  f.t0 + 2 * (if f.row ≤ row then row - f.row else f.row - row) ≤ cyc

/-- Whether a row is no row of a launch: its region is idle, or the launches of its region have other rows. -/
def State.idleAt (s : State) (r : RowId) : Bool :=
  match s.regionOf r with
  | none => false
  | some (k, g) => g.st = .idle || (!(s.bandsOf r.die k).isEmpty && (s.bandOf r).isNone)

/-- Whether the nodes of a row may start firings (R169): its region is no frozen one, and no freeze token has reached the
row (R334). What a launch that has ended left in its rows goes on (log entry 67). -/
def State.rowRuns (s : State) (r : RowId) : Bool :=
  match s.regionOf r with
  | none => false
  | some (_, g) =>
    (g.st = .running || g.st = .idle) && (match g.frz with
      | none => true
      | some f => !f.reached r.row (s.cyc r.die))

/-! ## Memory by home -/

/-- Flat index of a physical SRAM bank's first byte. -/
def sramBase (die cl phys : Nat) : Nat := ((die * 12 + cl) * 26 + phys) * 2 ^ 20

/-- Flat index of a physical register bank's first byte. -/
def regfBase (r : RowId) (phys : Nat) : Nat := (rowIx r * 9 + phys) * 2 ^ 15

def Cluster.ent (c : Cluster) (l : Nat) : MapEnt := tgetD c.map l { pres := true, phys := l }
def Row.ent (r : Row) (l : Nat) : MapEnt := tgetD r.regmap l { pres := true, phys := l }
def Cluster.bank (c : Cluster) (l : Nat) : Bank := tgetD c.banks l {}

/-- The physical bank that a line of a logical bank is in: the target below the watermark of an evacuation (R314). -/
def MapEnt.physAt (e : MapEnt) (line : Nat) : Nat := if e.evac && line < e.wmark then e.tgt else e.phys

/-- Flat SRAM index of a byte of a logical bank (R314: lines of 128 bytes). -/
def State.sramAt (s : State) (die cl bank off : Nat) : Nat :=
  sramBase die cl (((s.cluster die cl).ent bank).physAt (off / 128)) + off

/-- Flat register-file index of beat `j` of tile slot `t` of a row: slot Tn lies in bank n/4 (R89, R144, R314). -/
def State.tileAt (s : State) (r : RowId) (t j : Nat) : Nat :=
  regfBase r (((s.row r).ent (t / 4)).physAt (t % 4 * 64 + j)) + t % 4 * 8192 + j * 128

/-- Bytes at a home. -/
def State.readHome (s : State) (h : Home) (n : Nat) : List Byte :=
  match h with
  | .hbm pa => Memory.readN s.hbm pa n
  | .sram d c b off => Memory.readN s.sram (s.sramAt d c b off) n

/-- Clear the check-value differences of the blocks that bytes [a, b) fill: their check values are made anew. A block written in
part keeps a difference, which the merge carries on (R203, R213). -/
def clearSyn (t : Tbl (BitVec 32)) (a b : Nat) : Tbl (BitVec 32) := t.filter fun e => 64 * e.1 < a || b < 64 * e.1 + 64

/-- Keys of the error table: 64-bit words of HBM, SRAM, the register files, and the last-level cache. -/
def eccHbm (a : Nat) : Nat := 4 * (a / 8)
def eccSram (a : Nat) : Nat := 4 * (a / 8) + 1
def eccReg (a : Nat) : Nat := 4 * (a / 8) + 2
def eccLlc (a : Nat) : Nat := 4 * (a / 8) + 3

/-- Clear the errors of the 64-bit words that a write makes anew, its check bits with them (R25, R212): those that its bytes
fill. -/
def clearEcc (t : Tbl Bool) (kind : Nat → Nat) (a n : Nat) : Tbl Bool :=
  t.filter fun e => !(e.1 % 4 = kind 0 % 4 && a ≤ 8 * (e.1 / 4) && 8 * (e.1 / 4) + 8 ≤ a + n)

/-- The parity group and block that a physical address of a data area of this device lies in (R395). -/
def parityAmong (pa : Nat) : Tbl Parity → Option (Nat × Nat)
  | [] => none
  | (g, p) :: t =>
    let c := Config.parityCfg ((upFrom 0 8).map fun i => tgetD p.words i 0)
    if !p.words.isEmpty && ((c.mems.take 8).contains Config.node) && c.base ≤ pa && pa < c.base + c.size then
      some (g, (pa - c.base) / 64)
    else parityAmong pa t

/-- The parity group whose lost member's area on this device holds a physical address, and the block (R396). -/
def lostAmong (pa : Nat) : Tbl Parity → Option (Parity × Nat)
  | [] => none
  | (_, p) :: t =>
    let c := Config.parityCfg ((upFrom 0 8).map fun i => tgetD p.words i 0)
    if !p.words.isEmpty && c.mems[c.lost]? = some Config.node && c.base ≤ pa && pa < c.base + c.size then
      some (p, (pa - c.base) / 64)
    else lostAmong pa t

/-- A test of the blocks of a lost member's area among the bytes at a home. -/
def State.lostAny (s : State) (h : Home) (n : Nat) (f : Parity → Nat → Bool) : Bool :=
  match h with
  | .sram _ _ _ _ => false
  | .hbm pa =>
    !s.hub.parity.isEmpty && (upFrom (pa / 64) ((pa + n - 1) / 64 + 1 - pa / 64)).any fun b =>
      match lostAmong (64 * b) s.hub.parity with
      | some (p, k) => f p k
      | none => false

/-- Whether the rebuild of a lost member's blocks needs a member that is reached over a link that is down (R387, R396). -/
def State.severed (s : State) (p : Parity) : Bool :=
  let c := Config.parityCfg ((upFrom 0 8).map fun i => tgetD p.words i 0)
  (c.mems.zip (upFrom 0 c.mems.length)).any fun m =>
    m.2 ≠ c.lost && m.1 ≠ Config.node && !(tgetD s.hub.links (Config.route m.1) {}).up

/-- Whether bytes at a home lie in a block that is still to be rebuilt: an access waits for it (R396). -/
def State.unrebuilt (s : State) (h : Home) (n : Nat) : Bool := s.lostAny h n fun p k => !p.rebuilt.contains k && !s.severed p

/-- Whether they lie in one that cannot be rebuilt, for a link is down: an access answers with 0x168 (R387). -/
def State.cutOff (s : State) (h : Home) (n : Nat) : Bool := s.lostAny h n fun p k => !p.rebuilt.contains k && s.severed p

/-- What stops an access to whole blocks at a home: 0 for a rebuild that it waits for, or a link that is down (R387, R396). -/
def State.wholeErr (s : State) (h : Home) (n : Nat) : Option Cause :=
  if s.unrebuilt h n then some 0 else if s.cutOff h n then some 0x168 else none

/-- Whether a rebuilt block of the bytes at a home failed its check value (R396). -/
def State.rebuiltBad (s : State) (h : Home) (n : Nat) : Bool := s.lostAny h n fun p k => p.bad.contains k

/-- Exclusive-or of two byte lists. -/
def xorBytes (a b : List Byte) : List Byte := List.zipWith (· ^^^ ·) a b

/-- A write to a data area sends a parity delta for each block, old XOR new (R395); `m` is the memory before. -/
def State.parityOut (s : State) (m : Memory) (pa n : Nat) : State :=
  if s.hub.parity.isEmpty then s
  else
    let bs := (upFrom (pa / 64) ((pa + n - 1) / 64 + 1 - pa / 64)).filterMap fun b =>
      (parityAmong (64 * b) s.hub.parity).map fun g =>
        (g.1, g.2, xorBytes (Memory.readN m (64 * b) 64) (Memory.readN s.hbm (64 * b) 64))
    { s with hub := { s.hub with outbox := s.hub.outbox ++ bs.map (fun x => .delta x.1 x.2.1 x.2.2),
                                 deltas := s.hub.deltas ++ bs.map fun x => (x.1, x.2.1, none) } }

/-- Write bytes at a home, with new check values of the blocks that they fill (R203, R213). -/
def State.writeHome (s : State) (h : Home) (bs : List Byte) : State :=
  match h with
  | .hbm pa =>
    State.parityOut
      { s with hbm := Memory.writeN s.hbm pa bs, hsyn := clearSyn s.hsyn pa (pa + bs.length),
               ecc := clearEcc (clearEcc s.ecc eccHbm pa bs.length) eccLlc pa bs.length } s.hbm pa bs.length
  | .sram d c b off =>
    let a := s.sramAt d c b off
    { s with sram := Memory.writeN s.sram a bs, ssyn := clearSyn s.ssyn a (a + bs.length),
             ecc := clearEcc s.ecc eccSram a bs.length }

/-- A home some bytes further on. -/
def Home.plus (h : Home) (k : Nat) : Home :=
  match h with
  | .hbm pa => .hbm (pa + k)
  | .sram d c b off => .sram d c b (off + k)

/-! ## Segments of QUEUE-mode banks (R199, R207) -/

def State.bankOf (s : State) (die cl b : Nat) : Bank := (s.cluster die cl).bank b

def State.setBank (s : State) (die cl b : Nat) (k : Bank) : State :=
  let c := s.cluster die cl
  s.setCluster die cl { c with banks := tset c.banks b k }

/-- Where a segment of a bank begins: placement packs its segments one behind another, BMODE's have equal parts (R207, R316). -/
def Bank.segAt (k : Bank) (q : Nat) : Nat :=
  if k.segs.any fun g => g.placed then (k.segs.take q).foldl (fun a g => a + g.esz * g.depth) 0
  else q * (2 ^ 20 / max 1 k.segs.length)

/-- The place of an entry of a segment, by its number in order of pushes. -/
def State.entryHome (s : State) (die cl b q : Nat) (g : Seg) (i : Nat) : Home :=
  .sram die cl b ((s.bankOf die cl b).segAt q + i % max 1 g.depth * g.esz)

/-- An entry's bytes enter the next slot of a segment of a QUEUE-mode bank (R199, R207). -/
def State.fillEntry (s : State) (die cl b q : Nat) (bytes : List Byte) : State :=
  let k := s.bankOf die cl b
  match k.segs[q]? with
  | none => s
  | some g =>
    let h := s.entryHome die cl b q g g.pushed
    let segs := (k.segs.zip (upFrom 0 k.segs.length)).map fun x => if x.2 = q then { x.1 with pushed := x.1.pushed + 1 } else x.1
    (s.setBank die cl b { k with segs := segs }).writeHome h ((bytes ++ List.replicate g.esz 0).take g.esz)

/-- Stages that are entered by queue in CHOICE mode: stage 0 and every EXIT target. -/
def PlDesc.entered (d : PlDesc) : List Nat :=
  if d.choice then (upFrom 0 d.d).filter fun t => t = 0 || d.stages.any fun e => e.exit.contains t else []

/-- Segments that come before the feedback channels' in a launch's packing order: the wrap buffer's, where there is one (R316). -/
def PlDesc.wraps (d : PlDesc) : Nat := if d.d ≤ d.b || d.choice then 0 else 1

/-- A queue that placement makes. -/
inductive MadeQueue where
  | wrap
  | fb (ch : Nat)
  | stage (st : Nat)
  | order (st node slot : Nat)
  deriving DecidableEq, Repr

/-- The number of a queue's segment in the packing order of its launch (R316). -/
def Band.segNo (b : Band) (q : MadeQueue) : Nat :=
  match q with
  | .wrap => 0
  | .fb ch => b.desc.wraps + ch
  | .stage st => b.desc.wraps + b.desc.nfb + (indexOf st b.desc.entered 0).getD 0
  | .order st n sl => b.desc.wraps + b.desc.nfb + b.desc.entered.length + b.ords.findIdx fun x => x = (st, n, sl)

/-- The bank and segment of the `i`-th of the segments that lie in some banks. -/
def State.segIn (s : State) (die cl : Nat) : List Nat → Nat → Option (Nat × Nat)
  | [], _ => none
  | l :: t, i =>
    let n := (s.bankOf die cl l).segs.length
    if i < n then some (l, i) else State.segIn s die cl t (i - n)

/-- A push into a queue that placement made changes the queue's bank: the entry's bytes, whose layout no rule gives, enter its
segment (R199, log entry 91). -/
def State.pushMade (s : State) (die : Nat) (b : Band) (q : MadeQueue) : State :=
  let cl := (s.region die b.region).cl
  match s.segIn die cl b.qbank (b.segNo q) with
  | none => s
  | some (l, i) => s.fillEntry die cl l i (Config.entryBytes s.tick)

/-! ## Queues -/

/-- Depth of a node queue (R165). -/
def queueDepth (node q : Nat) : Nat :=
  if node = 33 && q = 3 then 8 else if node = 37 && q < 2 then 8 else if queueIsBeat node q then 2 else 4

/-- Whether an incoming lane carries beats (R369). -/
def laneIsBeat (l : Nat) : Bool := l = 8 || l = 9 || l = 14

/-- Depth of a lane (R165). -/
def laneDepth (l : Nat) : Nat := if laneIsBeat l then 2 else 4

/-- Entries of a stage entry queue: a sixteenth of a bank in 128-byte entries (log entry 12). -/
def stageQDepth : Nat := 512

def Tok.isMark : Tok → Bool
  | .mark _ _ => true
  | _ => false

/-- The oldest unclaimed token (R166). -/
def firstFree : List QTok → Option QTok
  | [] => none
  | t :: r => if t.claim = 0 then some t else firstFree r

/-- The oldest unclaimed tokens, at most `k`. -/
def freeToks : Nat → List QTok → List QTok
  | _, [] => []
  | 0, _ => []
  | k + 1, t :: r => if t.claim = 0 then t :: freeToks k r else freeToks (k + 1) r

/-- Claim the `k` oldest unclaimed tokens for a firing (R166). -/
def claimToks (id : Nat) : Nat → List QTok → List QTok
  | _, [] => []
  | 0, ts => ts
  | k + 1, t :: r => if t.claim = 0 then { t with claim := id } :: claimToks id k r else t :: claimToks id (k + 1) r

/-- The oldest unclaimed token, if it carries a last-read mark, is one that a firing removes at its completion (R62). -/
def peekToks (id : Nat) : List QTok → List QTok
  | [] => []
  | t :: r => if t.claim ≠ 0 then t :: peekToks id r else if t.last then { t with peek := t.peek ++ [id] } :: r else t :: r

/-- The claimed tokens of a firing leave, and the marked ones that it peeked (R62, R166). -/
def Queue.release (q : Queue) (id : Nat) : Queue :=
  { q with toks := q.toks.filter fun t => t.claim ≠ id && !t.peek.contains id }

/-- What a firing claimed stays, and what it peeked (R62, R167). -/
def Queue.lapse (q : Queue) (id : Nat) : Queue :=
  { q with toks := q.toks.map fun t =>
      { t with claim := if t.claim = id then 0 else t.claim, peek := t.peek.filter fun x => x ≠ id } }

def Node.queue (n : Node) (q : Nat) : Queue := tgetD n.qs q {}
def Node.setQueue (n : Node) (q : Nat) (x : Queue) : Node := { n with qs := tset n.qs q x }
def Node.x (n : Node) (k : Nat) : Word := tgetD n.xs k 0
def Node.setX (n : Node) (k : Nat) (v : Word) : Node := { n with xs := tset n.xs k v }
def Node.prog (n : Node) (slot : Nat) : Prog := tgetD n.progs slot .idle
def Node.setProg (n : Node) (slot : Nat) (p : Prog) : Node := { n with progs := tset n.progs slot p }
def Row.lane (r : Row) (l : Nat) : Queue := tgetD r.lanes l {}
def Row.setLane (r : Row) (l : Nat) (q : Queue) : Row := { r with lanes := tset r.lanes l q }

/-- Free slots of a queue of a depth: the depth less its tokens and reserved slots (R166). -/
def Queue.free (q : Queue) (depth : Nat) : Nat := depth - q.toks.length - q.resv

/-- Entries of a wrap buffer: the word tokens of different lanes that left on one cycle share one (R376). `ls` are the
lanes of the entry being filled and `at_` its cycle. -/
def wrapCount (at_ : Nat) (ls : List Nat) : List WrapEnt → Nat
  | [] => 0
  | e :: t =>
    match e.tok.tok with
    | .word _ _ _ =>
      if e.tok.at_ = at_ && !ls.isEmpty && !ls.contains e.l then wrapCount at_ (e.l :: ls) t
      else wrapCount e.tok.at_ [e.l] t + 1
    | _ => wrapCount 0 [] t + 1

/-- A reservation in a wrap buffer as the entry that it will be. -/
def wrapDue (x : Nat × Nat) : WrapEnt :=
  { l := x.1, tok := { tok := if laneIsBeat x.1 then .beat 0 0 else .word 0 0 0, at_ := x.2 } }

/-- Entries of a wrap buffer that are held or reserved, with some tokens more: words that leave on one cycle share an entry; one
whose cycle is not known has its own (R376, R377). -/
def Band.wrapUse (b : Band) (more : List (Nat × Nat)) : Nat :=
  let (open_, known) := (b.wresv ++ more).partition fun x => x.2 = 0
  open_.length + wrapCount 0 [] (b.wrap ++ (sortBy (fun x y => decide (x.2 < y.2)) known).map wrapDue)

/-- Whether a wrap buffer has room for tokens of some lanes that leave on one cycle; on some cycle, where that is not known yet. -/
def State.wrapRoom (s : State) (die k : Nat) (at_ : Option Nat) (ls : List Nat) : Bool :=
  match tget (s.die die).bands k with
  | none => ls.isEmpty
  | some b =>
    let at_s := match at_ with
      | some c => [c]
      | none => 0 :: b.wresv.map Prod.snd
    ls.isEmpty || at_s.any fun c => b.wrapUse (ls.map fun l => (l, c)) ≤ b.desc.wrapN + 1

/-- Free slots at a destination; a register and the pipeline's exit always have room, a lane of a row that no launch has none
(log entry 67). -/
def State.destFree (s : State) (d : Dest) : Nat :=
  match d with
  | .none => 1024
  | .queue n q => ((s.node n).queue q).free (queueDepth n.node q)
  | .ctl n => (s.node n).ctl.free 8
  | .reg _ _ => 1024
  | .lane r l segs => if s.idleAt r then 0 else ((s.row r).lane l).free (laneDepth l * segs)
  | .foreign _ => 1024
  | .wrap die k _ =>
    match tget (s.die die).bands k with
    | none => 0
    | some b => b.desc.wrapN + 1 - b.wrapUse []
  | .exit _ _ => 1024
  | .fb die k ch =>
    match tget (s.die die).bands k with
    | none => 0
    | some b => b.desc.fbN + 1 - (tgetD b.fbq ch []).length - tgetD b.fresv ch 0
  | .stageQ die k st _ =>
    match tget (s.die die).bands k with
    | none => 0
    | some b => stageQDepth - (tgetD b.stageq st []).length - tgetD b.sresv st 0

def State.updBand (s : State) (die k : Nat) (f : Band → Band) : State :=
  match tget (s.die die).bands k with
  | none => s
  | some b => s.setBand die k (f b)

/-- Remove the first `k` reservations of a lane. -/
def dropResv (l : Nat) : Nat → List (Nat × Nat) → List (Nat × Nat)
  | 0, t => t
  | _, [] => []
  | k + 1, x :: t => if x.1 = l then dropResv l k t else x :: dropResv l (k + 1) t

/-- Add `k` reserved slots at a destination; `at_` is the cycle on which their tokens leave, 0 where it is not known. -/
def State.reserve (s : State) (d : Dest) (k : Nat) (at_ : Nat := 0) : State :=
  match d with
  | .queue n q =>
    let nd := s.node n
    s.setNode n (nd.setQueue q { nd.queue q with resv := (nd.queue q).resv + k })
  | .ctl n =>
    let nd := s.node n
    s.setNode n { nd with ctl := { nd.ctl with resv := nd.ctl.resv + k } }
  | .lane r l _ =>
    let rw := s.row r
    s.setRow r (rw.setLane l { rw.lane l with resv := (rw.lane l).resv + k })
  | .wrap die b l => s.updBand die b fun b => { b with wresv := b.wresv ++ List.replicate k (l, at_) }
  | .fb die b ch => s.updBand die b fun b => { b with fresv := tset b.fresv ch (tgetD b.fresv ch 0 + k) }
  | .stageQ die b st _ => s.updBand die b fun b => { b with sresv := tset b.sresv st (tgetD b.sresv st 0 + k) }
  | _ => s

/-- Give `k` reserved slots back. -/
def State.unreserve (s : State) (d : Dest) (k : Nat) : State :=
  match d with
  | .queue n q =>
    let nd := s.node n
    s.setNode n (nd.setQueue q { nd.queue q with resv := (nd.queue q).resv - k })
  | .ctl n =>
    let nd := s.node n
    s.setNode n { nd with ctl := { nd.ctl with resv := nd.ctl.resv - k } }
  | .lane r l _ =>
    let rw := s.row r
    s.setRow r (rw.setLane l { rw.lane l with resv := (rw.lane l).resv - k })
  | .wrap die b l => s.updBand die b fun b => { b with wresv := dropResv l k b.wresv }
  | .fb die b ch => s.updBand die b fun b => { b with fresv := tset b.fresv ch (tgetD b.fresv ch 0 - k) }
  | .stageQ die b st _ => s.updBand die b fun b => { b with sresv := tset b.sresv st (tgetD b.sresv st 0 - k) }
  | _ => s

/-- The token as its destination holds it: a control queue takes bit 0 of a word (R61). -/
def Tok.atDest (t : Tok) (d : Dest) : Tok :=
  match d, t with
  | .ctl _, .word v _ _ => .ctl (v.getLsbD 0)
  | _, t => t

/-- The die a row or node stands on. -/
def Dest.die : Dest → Nat
  | .none => 0
  | .queue n _ => n.row.die
  | .ctl n => n.row.die
  | .reg n _ => n.row.die
  | .lane r _ _ => r.die
  | .foreign r => r.die
  | .wrap d _ _ => d
  | .exit d _ => d
  | .fb d _ _ => d
  | .stageQ d _ _ _ => d

/-- The ingress gateway of a region drops a token of a foreign owner and counts it (R41, R329). -/
def State.dropForeign (s : State) (r : RowId) : State :=
  match s.regionOf r with
  | none => s
  | some (k, g) =>
    let w := tgetD g.gw 0 {}
    s.setRegion r.die k { g with gw := tset g.gw 0 { w with dropf := min 0xFFFF (w.dropf + 1) } }

/-- The wrap entry of a lane that may leave first: entries leave in order, the tokens of one entry in any (R376). -/
def wrapHead (lane : Nat) : List WrapEnt → Option (WrapEnt × List WrapEnt)
  | [] => none
  | e :: t =>
    if e.l = lane then some (e, t)
    else
      match e.tok.tok, wrapHead lane t with
      | .word _ _ _, some (x, r) =>
        (match x.tok.tok with
         | .word _ _ _ => if x.tok.at_ = e.tok.at_ then some (x, e :: r) else none
         | _ => none)
      | _, _ => none

/-- A token enters a lane. -/
def State.intoLane (s : State) (r : RowId) (l : Nat) (e : QTok) : State :=
  let rw := s.row r
  s.setRow r (rw.setLane l { rw.lane l with toks := (rw.lane l).toks ++ [e] })

/-- A wrap buffer's entry leaves once slot 0 hosts its stage and its lane has a free slot, and is visible there 4 cycles later; WMAX
counts a token's transit, 4 and the entries that were ahead of it (R376, R384). That a marker's transit does not count is DEDUCED
(log entry 101). -/
def State.wrapLeave (s : State) (die k lane : Nat) : State :=
  match tget (s.die die).bands k with
  | none => s
  | some b =>
    match b.live[0]?, wrapHead lane b.wrap with
    | some i, some (e, rest) =>
      let r : RowId := ⟨die, (s.region die b.region).cl, b.base + i⟩
      let x := (s.row r).reel
      if !s.rowRuns r || !x.hosts || x.hosted ≠ e.tok.stage || s.destFree (.lane r lane 1) = 0 then s
      else
        let w := BitVec.ofNat 32 (4 + e.ahead)
        (s.setBand die k { b with wrap := rest, wmax := if !e.tok.tok.isMark && b.wmax.ult w then w else b.wmax }).intoLane r lane
          { tok := e.tok.tok, last := e.tok.last, stage := e.tok.stage, at_ := s.cyc die + 4 }
    | _, _ => s

/-- A token enters a wrap buffer; where no entry is ahead of it, it leaves at once if it can (R376). -/
def State.intoWrap (s : State) (die k l : Nat) (e : QTok) : State :=
  match tget (s.die die).bands k with
  | none => s
  | some b =>
    let wrap := b.wrap ++ [{ l := l, tok := e }]
    let ahead := wrapCount 0 [] wrap - 1
    let fresh := wrapCount 0 [] b.wrap < wrapCount 0 [] wrap
    let s0 := if fresh then s.pushMade die b .wrap else s
    let s1 := s0.setBand die k { b with wrap := b.wrap ++ [{ l := l, tok := e, ahead := ahead }] }
    if ahead = 0 then s1.wrapLeave die k l else s1

/-- A token enters another queue that placement made, as `f` puts it into the band. -/
def State.intoMade (s : State) (die k : Nat) (q : MadeQueue) (f : Band → Band) : State :=
  match tget (s.die die).bands k with
  | none => s
  | some b => (s.pushMade die b q).setBand die k (f b)

/-- Put one token at a target (R166): a register takes a word's value; the exit counts and drops (R376). -/
def State.push (s : State) (t : Target) (k : Tok) : State :=
  let e : QTok := { tok := k.atDest t.dst, last := t.last, stage := t.stage, at_ := s.cyc t.dst.die }
  match t.dst with
  | .none => s
  | .queue n q =>
    let nd := s.node n
    s.setNode n (nd.setQueue q { nd.queue q with toks := (nd.queue q).toks ++ [e] })
  | .ctl n =>
    let nd := s.node n
    s.setNode n { nd with ctl := { nd.ctl with toks := nd.ctl.toks ++ [e] } }
  | .reg n x =>
    match k with
    | .word v _ _ => s.setNode n ((s.node n).setX x v)
    | _ => s
  | .lane r l _ => s.intoLane r l e
  | .foreign r => s.dropForeign r
  | .wrap die b l => s.intoWrap die b l e
  | .exit die b =>
    s.updBand die b fun b =>
      match k with
      | .mark _ _ => b
      | _ => { b with exit := b.exit + 1 }
  | .fb die b ch => s.intoMade die b (.fb ch) fun b => { b with fbq := tset b.fbq ch (tgetD b.fbq ch [] ++ [e]) }
  | .stageQ die b st l =>
    s.intoMade die b (.stage st) fun b => { b with stageq := tset b.stageq st (tgetD b.stageq st [] ++ [{ l := l, tok := e }]) }

def State.pushAll (s : State) (t : Target) : List Tok → State
  | [] => s
  | k :: ks => State.pushAll (s.push t k) t ks

/-! ## Consumer targets -/

/-- The number of an incoming lane (R369) from a slot's distance and LANE field. -/
def laneNo (dist : Nat) (l : Nat) : Nat :=
  if dist = 0 then (if l ≥ 16 then 8 + (l - 16) else l) else (if l ≥ 16 then 14 else 10 + l)

/-- The feedback channel that carries an egress lane of a stage (R380). -/
def fbOf (l : Nat) : List (Bool × Nat × Nat) → Nat → Option (Nat × Nat)
  | [], _ => none
  | (u, dl, ln) :: t, i => if u && ln = l then some (i, dl) else fbOf l t (i + 1)

/-- The lane from a row to one further on: through as many segments as boundaries, those of relay rows among them (R379, R382); at
the border of a region of another owner the gateway takes the token (R41). -/
def State.laneTo (s : State) (r : RowId) (row dist l : Nat) (last : Bool) (stage : Nat) : Target :=
  let nx : RowId := { r with row := row }
  if s.ownerOf nx = s.ownerOf r then ⟨.lane nx (laneNo dist l) (row - r.row), last, stage⟩ else ⟨.foreign nx, last, stage⟩

/-- Where a lane of a row leads (R376, R378-R381): the next hosting row, the wrap, the exit, a feedback channel, a
stage entry queue; in a row without a band, the row `dist + 1` further on, or nowhere from a row that no launch has. -/
def State.laneTarget (s : State) (r : RowId) (stage dist l : Nat) (last : Bool) : Target :=
  match s.bandOf r with
  | none => s.laneTo r (if s.idleAt r then r.row else r.row + dist + 1) dist l last 0
  | some (k, b) =>
    match indexOf (r.row - b.base) b.live 0 with
    | none => s.laneTo r (r.row + dist + 1) dist l last stage
    | some sl =>
      if dist = 0 then
        match b.desc.stages[stage]? with
        | none => ⟨.none, last, 0⟩
        | some st =>
          match fbOf l st.fb 0 with
          | some (ch, dl) => ⟨.fb r.die k ch, last, stage - dl⟩
          | none =>
            if b.mode then
              let x := (st.exit[if l ≥ 16 then l - 8 else l]?).getD 0xFFFF
              if x = 0xFFFF then ⟨.exit r.die k, last, 0⟩ else ⟨.stageQ r.die k x (laneNo 0 l), last, stage⟩
            else if stage + 1 = b.desc.d then ⟨.exit r.die k, last, 0⟩
            else if sl + 1 = b.be then ⟨.wrap r.die k (laneNo 0 l), last, stage + 1⟩
            else
              match b.live[sl + 1]? with
              | none => ⟨.none, last, 0⟩
              | some i => s.laneTo r (b.base + i) 0 l last (stage + 1)
      else
        match b.live[sl + dist + 1]? with
        | none => ⟨.none, last, 0⟩
        | some i => s.laneTo r (b.base + i) dist l last (stage + dist + 1)

/-- The target of a consumer slot of a node (R61). -/
def State.target (s : State) (n : NodeId) (sl : Slot) : Target :=
  match sl with
  | .none => {}
  | .queue k q last => ⟨.queue { n with node := k.toNat } q.toNat, last, (s.node n).stage⟩
  | .lane d last l => s.laneTarget n.row (s.node n).stage d.toNat l.toNat last
  | .reg k x => ⟨.reg { n with node := k.toNat } x.toNat, false, 0⟩
  | .ctl k => ⟨.ctl { n with node := k.toNat }, false, 0⟩

/-! ## The beginning of a freeze: taking an exception -/

/-- What a fault adds to its record (R340). -/
structure FInfo where
  a     : Word := 0
  b     : Word := 0
  tag   : RTag := 0
  addr1 : Nat := 0
  addr2 : Nat := 0
  aux   : Word := 0
  deriving DecidableEq, Repr

/-- The record of a fault at a slot of a node (R340); that of 0x168 fills no field of its own (R422). -/
def State.mkRec (s : State) (n : NodeId) (slot : Nat) (c : Cause) (y : FInfo) (k : Nat) (g : Region) : FaultRec :=
  let x := if c = 0x168 then { tag := y.tag } else y
  { cause := c, die := n.row.die, cl := n.row.cl, row := n.row.row, node := n.node, slot := slot, owner := g.owner,
    region := k, res := true, img := true, tag := x.tag, gen := g.gen, a := x.a, b := x.b, addr1 := x.addr1,
    addr2 := x.addr2, cookie := (s.launchAt n.row).getD 6 0, cyc := s.cyc n.row.die, aux := x.aux }

/-- Whether a freeze's record is of a TRAP or FRZ, which has completed. -/
def FaultRec.completed (r : FaultRec) : Bool := r.cause = 0x148 || (0x150 ≤ r.cause.toNat && r.cause.toNat ≤ 0x15F)

/-- Whether a cause that arises at a node on the cycle on which a freeze began gives its record instead: the lower row, then the
lower node (R335). A TRAP or FRZ that gave it has completed, and keeps it. -/
def Frz.loses (f : Frz) (cyc row node : Nat) : Bool :=
  f.t0 = cyc && (match f.fr with
    | some x => !x.completed && (row < x.row || (row = x.row && node < x.node))
    | none => false)

/-- A freeze begins in a region, unless one runs already (R334, R335: one record for each freeze). -/
def State.startFreeze (s : State) (die k row : Nat) (fr : Option FaultRec) (why : FrzWhy) : State :=
  let g := s.region die k
  match g.frz with
  | some f =>
    if fr.any fun y => f.loses (s.cyc die) y.row y.node then s.setRegion die k { g with frz := some { f with row := row, fr := fr } }
    else s
  | none =>
    if g.st = .running then s.setRegion die k { g with frz := some ⟨s.cyc die, row, fr, why⟩ } else s

/-- A firing of a node faults (R9, R334): its region begins to freeze with the fault's record. Where no region holds
the row nothing runs, and nothing happens. -/
def State.raise (s : State) (n : NodeId) (slot : Nat) (c : Cause) (x : FInfo) : State :=
  match s.regionOf n.row with
  | none => s
  | some (k, g) => s.startFreeze n.row.die k n.row.row (some (s.mkRec n slot c x k g)) .record

/-- A region freezes with a record that no firing gives (R338, R68). -/
def State.raiseRegion (s : State) (die k : Nat) (fr : FaultRec) : State :=
  s.startFreeze die k (s.region die k).first (some fr) .record

/-! ## Stored data -/

/-- Whether the check value of a block that bytes at a home lie in disagrees (R213). -/
def State.badBlock (s : State) (h : Home) (n : Nat) : Bool :=
  match h with
  | .hbm pa => s.hsyn.any fun e => pa / 64 ≤ e.1 && e.1 ≤ (pa + n - 1) / 64 && e.2 ≠ 0
  | .sram d c b off =>
    let a := s.sramAt d c b off
    s.ssyn.any fun e => a / 64 ≤ e.1 && e.1 ≤ (a + n - 1) / 64 && e.2 ≠ 0

/-- Whether a double-bit (or, without correction, any) error stands in a 64-bit word of [a, a + n): `kind` is the
key function; entries hold true for an error that SECDED cannot correct (R212, R25). -/
def State.eccBad (s : State) (kind : Nat → Nat) (a n : Nat) (parity : Bool) : Bool :=
  (upFrom 0 (n / 8 + 1)).any fun i =>
    a / 8 + i ≤ (a + n - 1) / 8 && (match tget s.ecc (kind (8 * (a / 8 + i))) with
      | none => false
      | some d => d || parity)

/-- Whether the line's slice of the last-level cache holds it (R17). -/
def State.lineHeld (s : State) (pa : Nat) : Bool := s.llc.contains (pa / 256)

/-- Where the word at an HBM address stands: in its line's slice of the last-level cache, or in its stack. -/
def State.hbmKey (s : State) (pa : Nat) : Nat := if s.lineHeld pa then eccLlc pa else eccHbm pa

/-- The double-bit error that a read of HBM meets: in the last-level cache, or in the stack (R212); or the cause of a block that
cannot be rebuilt (R387). -/
def State.hbmErr (s : State) (pa n : Nat) : Option Cause :=
  if s.cutOff (.hbm pa) n then some 0x168
  else
  (upFrom 0 (n / 8 + 1)).findSome? fun i =>
    let w := 8 * (pa / 8 + i)
    if w ≤ pa + n - 1 && tget s.ecc (s.hbmKey w) = some true then some (if s.lineHeld w then 0x166 else 0x167) else none

/-- The aligned 128-byte unit that a home lies in. -/
def Home.unit (h : Home) : Home :=
  match h with
  | .hbm pa => .hbm (pa / 128)
  | .sram d c b off => .sram d c b (off / 128)

/-- A beat at a home, block by block: its blocks may lie in two lines of a bank that an evacuation moves (R314). -/
def State.readBeat (s : State) (h : Home) : List Byte := s.readHome h 64 ++ s.readHome (h.plus 64) 64

/-- One beat of a tile slot. -/
def State.readTile (s : State) (r : RowId) (t j : Nat) : Beat := bytesBits 1024 (Memory.readN s.regf (s.tileAt r t j) 128)

/-- The beat of a tile slot written whole, with new check bits (R145, R25). -/
def State.writeTile (s : State) (r : RowId) (t j : Nat) (b : Beat) : State :=
  let a := s.tileAt r t j
  { s with regf := Memory.writeN s.regf a (natBytes' 128 b.toNat), ecc := clearEcc s.ecc eccReg a 128 }

/-- The cause of an error in a beat of a tile slot: double-bit under CORRECT, parity under DETECT (R25). -/
def State.tileErr (s : State) (r : RowId) (t j : Nat) : Option Cause :=
  let detect := match (s.row r).reel.block with
    | some b => b.hdr.detect
    | none => false
  if s.eccBad eccReg (s.tileAt r t j) 128 detect then some (if detect then 0x164 else 0x163) else none

/-- One more corrected error of a physical bank: its count in the window in force (R312). -/
def bumpErr (t : Tbl (Nat × Nat)) (k cyc win : Nat) : Tbl (Nat × Nat) :=
  let (n, w0) := tgetD t k (0, cyc)
  tset t k (if w0 + win ≤ cyc then (1, cyc) else (n + 1, w0))

/-- Under CORRECT the single-bit errors of a beat read from a tile slot are corrected, written back and counted (R25). -/
def State.correctTile (s : State) (r : RowId) (t j : Nat) : State :=
  let a := s.tileAt r t j
  let hit := s.ecc.filter fun e => e.1 % 4 = 2 && a / 8 ≤ e.1 / 4 && e.1 / 4 ≤ (a + 127) / 8 && !e.2
  if hit.isEmpty then s
  else
    let s1 := { s with ecc := s.ecc.filter fun e => !hit.contains e }
    let c := s1.cluster r.die r.cl
    let k := 16 * r.row + ((s1.row r).ent (t / 4)).physAt (t % 4 * 64 + j)
    s1.setCluster r.die r.cl { c with rerrs := hit.foldl (fun x _ => bumpErr x k (s.cyc r.die) s.hub.retWin) c.rerrs }

/-! ## Errors of stored data (R212, R213) -/

/-- The double-bit error that a read at a home meets (R212). -/
def State.eccErr (s : State) (h : Home) (n : Nat) : Option Cause :=
  match h with
  | .hbm pa => s.hbmErr pa n
  | .sram d c b off => if s.eccBad eccSram (s.sramAt d c b off) n false then some 0x165 else none

/-- Whether an error's word is one of those that a read at a home takes. -/
def State.eccAt (s : State) (h : Home) (n key : Nat) : Bool :=
  match h with
  | .hbm pa => key = s.hbmKey (8 * (key / 4)) && pa / 8 ≤ key / 4 && key / 4 ≤ (pa + n - 1) / 8
  | .sram d c b off =>
    let a := s.sramAt d c b off
    key % 4 = 1 && a / 8 ≤ key / 4 && key / 4 ≤ (a + n - 1) / 8

/-- The cause that reading bytes at a home raises: a double-bit error, or a block whose check value disagrees; 0 for a block
still to be rebuilt, for which the read waits (R396). -/
def State.homeErr (s : State) (h : Home) (n : Nat) : Option Cause :=
  match if s.unrebuilt h n then some 0 else s.eccErr h n with
  | some c => some c
  | none => if s.rebuiltBad h n then some 0x169 else if s.badBlock h n then some 0x162 else none

/-- How far into the bytes at a home the first block or word lies that `homeErr` names (R215). -/
def State.errOff (s : State) (h : Home) (n : Nat) : Nat :=
  8 * ((upFrom 0 ((n + 7) / 8)).find? fun i => (s.homeErr (h.plus (8 * i)) (min 8 (n - 8 * i))).isSome).getD 0

/-- The check-value difference of the block at a home. -/
def State.synAt (s : State) (h : Home) : BitVec 32 :=
  match h with
  | .hbm pa => tgetD s.hsyn (pa / 64) 0
  | .sram d c b off => tgetD s.ssyn (s.sramAt d c b off / 64) 0

/-- The block at a home has a check value that differs so. -/
def State.setSyn (s : State) (h : Home) (d : BitVec 32) : State :=
  if d = 0 then s
  else
    match h with
    | .hbm pa => { s with hsyn := tset s.hsyn (pa / 64) d }
    | .sram k c b off => { s with ssyn := tset s.ssyn (s.sramAt k c b off / 64) d }

/-- The check value of a beat from those of its two blocks, the data unread (R214). -/
def State.beatChk (s : State) (h : Home) : BitVec 32 := crcShift64 (s.synAt h) ^^^ s.synAt (h.plus 64)

/-- Single-bit errors of the bytes read are corrected, written back and counted (R212). -/
def State.correct (s : State) (h : Home) (n : Nat) : State :=
  let hit := s.ecc.filter fun e => s.eccAt h n e.1 && !e.2
  if hit.isEmpty then s
  else
    let s1 := { s with ecc := s.ecc.filter fun e => !hit.contains e }
    match h with
    | .hbm pa =>
      let st := pa / 2 ^ 16 % 12
      { s1 with hub := { s1.hub with stkErr := tset s1.hub.stkErr st (tgetD s1.hub.stkErr st 0 + hit.length) } }
    | .sram d c b off =>
      let k := s1.cluster d c
      let p := (k.ent b).physAt (off / 128)
      s1.setCluster d c { k with errs := hit.foldl (fun t _ => bumpErr t p (s.cyc d) s.hub.retWin) k.errs }

/-- Count one event of a row's performance counter (R363). -/
def State.count (s : State) (r : RowId) (k n : Nat) : State :=
  let rw := s.row r
  s.setRow r { rw with pmc := tset rw.pmc k (tgetD rw.pmc k 0 + BitVec.ofNat 48 n) }

end Sys2Proof.Machine
end

