-- ==== Sys2Proof/Machine/Operands.lean ====
section
/-!
DEFINITION. The operands of a firing: what a source selector reads (R60), the guard (R58), the control tokens the
sequencer consumes (R101), the record tag a result carries (R33), and the X registers that REP steps (R116).
-/
namespace Sys2Proof

/-- The value of a constant selector (R60). -/
def Konst.value : Konst → Word
  | .one => 1 | .m1 => 0xFFFFFFFF | .two => 2 | .half => 0x3F000000 | .pinf => 0x7F800000 | .ninf => 0xFF800000
  | .sign => 0x80000000 | .fone => 0x3F800000

/-- Whether a guard pops its token (R58). -/
def Guard.pops : Guard → Bool
  | .popT => true
  | .popF => true
  | _ => false

/-- Whether the guard lets an instruction fire on a token's value. -/
def Guard.passes (g : Guard) (b : Bool) : Bool :=
  match g with
  | .none => true
  | .popT => b
  | .popF => !b
  | .peekT => b
  | .peekF => !b

/-- Control tokens a firing of NXT takes from the queue at its start: NXT = 10 without a popping guard (R101). -/
def Nxt.takes (x : Nxt) (g : Guard) : Nat :=
  match x with
  | .branch _ => if g.pops then 0 else 1
  | _ => 0

/-- Whether the sequencer decides only at the completion (R101). -/
def Nxt.late (x : Nxt) (g : Guard) : Bool :=
  match x with
  | .branch _ => !g.pops
  | .stay => !g.pops
  | _ => false

end Sys2Proof

namespace Sys2Proof.Machine

/-- The value of a token as a word: bits [31:0] of a beat (R422). -/
def Tok.word32 : Tok → Word
  | .word v _ _ => v
  | .beat v _ => v.setWidth 32
  | .ctl b => if b then 1 else 0
  | .mark w _ => w.setWidth 32

/-- The value of a token as a beat. -/
def Tok.beatOf : Tok → Beat
  | .word v _ _ => v.setWidth 1024
  | .beat v _ => v
  | _ => 0

/-- The record tag of a token. -/
def Tok.tag : Tok → RTag
  | .word _ t _ => t
  | _ => 0

/-- A word token that a node emits: its check field is made valid (R213). -/
def wordTok (v : Word) (t : RTag) : Tok := .word v t 0

/-- A beat token that a node emits. -/
def beatTok (v : Beat) : Tok := .beat v 0

/-- Whether a token's check value disagrees (R213). -/
def Tok.badCheck : Tok → Option Cause
  | .word _ _ c => if c = 0 then none else some 0x161
  | .beat _ c => if c = 0 then none else some 0x160
  | _ => none

/-- The token at the head of a node queue that a firing would take: its oldest unclaimed token (R166). -/
def Node.head (n : Node) (q : Nat) : Option QTok := firstFree (n.queue q).toks

/-- The token a selector reads (R60): an absent token reads as the zero word, which no started firing uses. -/
def Node.read (n : Node) (lit : Option DWord) (tag : RTag) (s : Sel) : Tok :=
  match s with
  | .pop q => ((n.head q.toNat).map QTok.tok).getD (.word 0 0 0)
  | .peek q => ((n.head q.toNat).map QTok.tok).getD (.word 0 0 0)
  | .x k => .word (n.x k.toNat) 0 0
  | .litLo => .word ((lit.getD 0).extractLsb' 0 32) 0 0
  | .litHi => .word ((lit.getD 0).extractLsb' 32 32) 0 0
  | .zero => .word 0 0 0
  | .tag => .word (tag.setWidth 32) 0 0
  | .konst c => .word (Konst.value c) 0 0
  | .link => .word 0 0 0

/-- Queues popped by selectors, each once (R60). -/
def popQs : List Sel → List Nat
  | [] => []
  | .pop q :: t => if (popQs t).contains q.toNat then popQs t else q.toNat :: popQs t
  | _ :: t => popQs t

/-- Queues peeked by selectors, each once. -/
def peekQs : List Sel → List Nat
  | [] => []
  | .peek q :: t => if (peekQs t).contains q.toNat then peekQs t else q.toNat :: peekQs t
  | _ :: t => peekQs t

/-- The tag of the first source that is a word token popped or peeked from a queue, else 0 (R33). -/
def Node.firstTag (n : Node) : List Sel → RTag
  | [] => 0
  | s :: t =>
    match s.queue? with
    | none => Node.firstTag n t
    | some q =>
      match (n.head q.toNat).map QTok.tok with
      | some (.word _ g _) => g
      | _ => Node.firstTag n t

/-- X registers a selector reads. -/
def selReg : Sel → Option Nat
  | .x k => some k.toNat
  | _ => none

/-- Whether an earlier firing of the node writes an X register and has not completed (R103). -/
def Firing.writes (f : Firing) (n : NodeId) (k : Nat) : Bool :=
  f.t0.dst = .reg n k || f.t1.dst = .reg n k || (f.xw.map Prod.fst) = some k

def Node.hazard (nd : Node) (n : NodeId) (ss : List Sel) : Bool :=
  ss.any fun s =>
    match selReg s with
    | none => false
    | some k => nd.fly.any fun f => f.writes n k

/-- How far REP moves the X registers of the present repetition (R116). -/
def Rep.offset (r : Rep) : Nat := if r.rem = 0 then 0 else (if r.past then 8 else r.ix.toNat) * r.stride.toNat

/-- The repetition after one (R116). -/
def Rep.advance (r : Rep) : Rep := { r with rem := r.rem - 1, ix := r.ix + 1, past := r.past || r.ix = 7 }

/-- A selector moved by REP; a register past X7 reads as zero in the record of the fault it raises. -/
def bumpSel (k : Nat) (s : Sel) : Sel :=
  match s with
  | .x j => if j.toNat + k ≤ 7 then .x (BitVec.ofNat 3 (j.toNat + k)) else .zero
  | s => s

def bumpSlot (k : Nat) (s : Slot) : Slot :=
  match s with
  | .reg n j => .reg n (BitVec.ofNat 3 (j.toNat + k))
  | s => s

/-- Whether REP keeps a selector, a slot, inside X7. -/
def selFits (k : Nat) (s : Sel) : Bool :=
  match s with
  | .x j => j.toNat + k ≤ 7
  | _ => true

def slotFits (k : Nat) (s : Slot) : Bool :=
  match s with
  | .reg _ j => j.toNat + k ≤ 7
  | _ => true

/-! ## Guards and the sequencer -/

def Tok.ctlVal : Tok → Bool
  | .ctl b => b
  | _ => false

/-- The next occupied slot after `slot`; from the highest, slot 0 (R59). -/
def nextSlot (store : Tbl (DWord × Option DWord)) (slot : Nat) : Nat :=
  match store.find? (fun e => slot < e.1) with
  | some e => e.1
  | none => 0

/-- The slot after a firing whose guard token, if it pops one, has value `g` (R101); `slot` where the decision
waits for the completion or for a marker. -/
def seqAfter (store : Tbl (DWord × Option DWord)) (slot : Nat) (x : Nxt) (gd : Guard) (g : Bool) : Nat :=
  match x with
  | .next => nextSlot store slot
  | .stay => if gd.pops then (if g then slot else nextSlot store slot) else slot
  | .branch b => if gd.pops then (if g then b.toNat else nextSlot store slot) else slot
  | .mark => slot

/-- Whether a slot is occupied in a store. -/
def occupied (store : Tbl (DWord × Option DWord)) (slot : Nat) : Bool := (tget store slot).isSome

end Sys2Proof.Machine
end

