-- ==== Sys2Proof/Machine/Flags.lean ====
section
/-!
DEFINITION. The conditions of the compare instructions (R109, R113, R121) and the results they deliver: the device
has no flags register, and a condition travels as a word 0 or 1 or as a control token (R61, R109).
-/
namespace Sys2Proof

/-- Conditions of CMP (R109). -/
def CmpCond.holds (c : CmpCond) (a b : Word) : Bool :=
  match c with
  | .eq => a == b
  | .ne => a != b
  | .ltI => a.slt b
  | .leI => a.sle b
  | .gtI => b.slt a
  | .geI => b.sle a
  | .ltN => a.ult b
  | .leN => a.ule b
  | .gtN => b.ult a
  | .geN => b.ule a

/-- Conditions of OCMP on the sign of the difference (R121). -/
def OCond.holds (c : OCond) (d : Int) : Bool :=
  match c with
  | .eq => d = 0
  | .ne => d ≠ 0
  | .lt => d < 0
  | .le => d ≤ 0
  | .gt => 0 < d
  | .ge => 0 ≤ d

end Sys2Proof

namespace Sys2Proof.Machine

/-- A condition as a word; a control destination takes its bit 0 (R61, R109). -/
def boolWord (b : Bool) : Word := if b then 1 else 0

/-- FCMP on FP32 words (R113). -/
def fcmpHolds (c : FCond) (a b : Word) : Bool := fcondHolds c (f32Cmp a b)

end Sys2Proof.Machine
end

