-- ==== Sys2Proof/Machine/Fire.lean ====
section
/-!
DEFINITION. The firing rule (R48, R101-R104, R166-R169): the start of a firing as one shared operation, over what an
instruction makes of its operands, and the completion of a firing.
-/
namespace Sys2Proof

/-- The sequencer field of an instruction. -/
def Instr.nxt (i : Instr) : Nxt :=
  match partsOf i with
  | some p => p.ops.nxt
  | none => .next

/-- The operands of an instruction word. -/
def Instr.ops (i : Instr) : Ops :=
  match partsOf i with
  | some p => p.ops
  | none => {}

/-- The third source. -/
def Instr.third (i : Instr) : Option Sel :=
  match partsOf i with
  | some p => p.c
  | none => none

/-- The selectors through which an instruction pops queues that a marker must reach before the node forwards it: not
the back edge of LOOPIN, which never receives one (R185). -/
def Instr.popSels (i : Instr) : List Sel :=
  match i with
  | .loopin o _ => [o.a]
  | i => [i.ops.a, i.ops.b, i.third.getD .zero]

/-- Queues popped besides the selectors: Q3 of the matrix node (R148), the value queue of TAPP (R286). -/
def Instr.morePops (i : Instr) : List Nat :=
  match i with
  | .mma _ _ _ => [3]
  | .mstat _ _ => [3]
  | .mswap _ => [3]
  | .mdrain _ _ => [3]
  | .mzero _ => [3]
  | .mrec _ _ _ _ => [3]
  | .mpair _ => [3]
  | .mscale _ => [3]
  | .tapp o _ => (match o.b with | .pop q => [5 - q.toNat] | _ => [])
  | _ => []

end Sys2Proof

namespace Sys2Proof.Machine

/-- What a starting firing makes of its operands. `n0` and `n1` are the free slots it needs beyond its deliveries. -/
structure Plan where
  o0    : List Tok := []
  o1    : List Tok := []
  lat   : Nat := 1
  n0    : Nat := 1
  n1    : Nat := 1
  prog  : Option Prog := none
  xw    : Option (Nat × Word) := none
  pops  : Option (List (Nat × Nat)) := none         -- queues popped and how many tokens; none: each source once
  ctls  : Nat := 0                                  -- control tokens its entry takes besides (R180, R181)
  stay  : Bool := false                             -- the sequencer stays, whatever NXT says (R118)
  rep   : Option Rep := none
  late  : Bool := false                             -- takes its free consumer slots at its completion (R359)
  skip  : Bool := false                             -- REP of count 0 skips its target (R116)
  await : Await := .nothing
  acc   : List Access := []
  curs  : List (Nat × Nat) := []                    -- stream cursors moved: stream and new cursor (R240)
  a     : Word := 0
  b     : Word := 0
  el    : Nat := 0                                  -- LDT, STT: the first element
  data  : List Beat := []
  tag   : Option RTag := none                       -- the tag of its results, where it is not that of the first source token
  eff   : State → State := id                       -- effects that take place at the start

/-- What a meaning answers: not yet; a change of state before a firing can start; a fault; a firing. -/
inductive Res where
  | wait
  | set (s : State)
  | fault (c : Cause) (x : FInfo)
  | go (p : Plan)

/-- What a meaning knows: the state, the place, the node, its operands, the tag its result carries (R33), the
control token its entry consumes, its slot's progress, and the firing's number. -/
structure Env where
  s    : State
  l    : Loc
  nd   : Node
  a    : Tok
  b    : Tok
  c    : Tok
  tag  : RTag
  ctl  : Bool
  prog : Prog
  id   : Nat

def Env.av (e : Env) : Word := e.a.word32
def Env.bv (e : Env) : Word := e.b.word32
def Env.cv (e : Env) : Word := e.c.word32

/-- The operands of a fault record (R422). -/
def Env.info (e : Env) (aux : Word := 0) : FInfo := { a := e.av, b := e.bv, tag := e.tag, aux := aux }

/-- What an instruction's entry says of its firing besides its operands: a third source, queues popped besides its
selectors, a control token it consumes, whether its operands' check values are verified (R213: arithmetic), whether
it waits for the node's earlier firings because it acts on state at its start (R167), whether its entry itself says
which sources must hold tokens (R178, R181, R185), the queues that
only its steps pop and whose tokens its first step needs (R148, R169), whether it fires in a wave that MARK closed (R183), whether it
starts without free consumer slots (R359), whether it may take several firings, at all but the last of which its sequencer
stays (R118, R119, R239), and what holds its firing back when it is guarded off (R149). -/
structure FireReq where
  ops    : Ops
  c      : Option Sel := none
  more   : List Nat := []
  first  : List Nat := []
  ctl    : Bool := false
  verify : Bool := true
  serial : Bool := false
  own    : Bool := false
  close  : Bool := false
  late   : Bool := false
  multi  : Bool := false
  hold   : Node → Instr → Bool := fun _ _ => false

def FireReq.sels (r : FireReq) : List Sel :=
  match r.c with
  | none => [r.ops.a, r.ops.b]
  | some c => [r.ops.a, r.ops.b, c]

/-- The cause of a marker that interrupts what a slot has begun (R117, R138). -/
def Prog.midCause : Prog → Option Cause
  | .sdval _ _ => some 0x02B
  | .oadd _ _ => some 0x02B
  | .ocmp _ _ _ => some 0x02B
  | .ocut _ _ => some 0x02B
  | .omax _ _ _ _ _ => some 0x02B
  | _ => none

/-- Whether a queue offers a token to a firing: an unclaimed token that is no marker (R169). -/
def Node.offers (n : Node) (q : Nat) : Bool :=
  match n.head q with
  | some t => !t.tok.isMark
  | none => false

/-- The slot that a node offers: a cancelled firing that starts again before all others (R167), or its sequencer's
(R101), unless an earlier decision is open. -/
def Node.offer (n : Node) : Option Nat :=
  match n.redo with
  | x :: _ => some x.slot
  | [] => if n.wait.isNone then some n.seq else none

/-- The instruction an occupied slot holds. -/
def slotInstr (e : DWord × Option DWord) : Option Instr :=
  match decodeWord {} e.1 (e.2.getD 0) with
  | .ok i => some i
  | .error _ => none

/-- The instructions of a node by slot. -/
def Node.instrs (n : Node) : List (Nat × Instr) := n.store.filterMap fun e => (slotInstr e.2).map fun i => (e.1, i)

/-- The instruction at a place. -/
def State.instrAt (s : State) (l : Loc) : Option Instr := (tget (s.node l.nd).store l.slot).bind slotInstr

def dedup : List Nat → List Nat
  | [] => []
  | x :: t => if (dedup t).contains x then dedup t else x :: dedup t

/-- The queues a node pops (R102). -/
def Node.popped (n : Node) : List Nat :=
  dedup (n.instrs.flatMap fun e => popQs e.2.popSels ++ e.2.morePops)

/-- The queues a node names only by peek selectors (R171). -/
def Node.peekOnly (n : Node) : List Nat :=
  let p := n.popped
  (dedup (n.instrs.flatMap fun e => peekQs e.2.popSels)).filter fun q => !p.contains q

/-- Whether a marker stands at the head of a queue. -/
def Node.markAt (n : Node) (q : Nat) : Bool :=
  match n.head q with
  | some t => t.tok.isMark
  | none => false

/-- A marker stands at the head of every queue the node pops. -/
def Node.allMarked (n : Node) : Bool := !n.popped.isEmpty && n.popped.all n.markAt

/-- Whether a slot holds its node's marker back: LOOPIN with records in the loop, RMERGE with records in its store, BAR with
an arrival that waits (R179, R185, R359). -/
def Node.holdsMarker (n : Node) : Bool :=
  n.instrs.any fun e =>
    match e.2, n.prog e.1 with
    | .loopin _ _, .loopin k _ _ => k ≠ 0
    | .rmerge _ _ _, .rmerge _ st => !st.isEmpty
    | .bar _ _ _, .arrived _ => true
    | .bar _ _ _, .released _ => true
    | _, _ => false

/-- Whether the node's markers are due: the wave closes before slot 0 starts its next one (R170, log entry 75). -/
def Node.due (n : Node) (slot : Nat) : Bool := slot = 0 && n.fly.isEmpty && n.allMarked && !n.holdsMarker

/-- The node offers the slot, it forwards no marker and its row runs (R101, R169). -/
def State.offered (s : State) (l : Loc) (nd : Node) (close : Bool) : Bool :=
  nd.offer = some l.slot && (!nd.closed || close) && nd.outs.isEmpty && !nd.dry && (!nd.due l.slot || close) && s.rowRuns l.nd.row

/-- Control tokens that NXT takes at the start: none where the sequencer stays, by the entry (R118) or for a repetition that
is not the last (R116). -/
def FireReq.nxtTakes (r : FireReq) (nd : Node) (stay : Bool) : Nat :=
  if stay || nd.rep.rem.toNat > 1 then 0 else r.ops.nxt.takes r.ops.grd

/-- The number of control tokens a firing looks at. -/
def FireReq.ctlNeed (r : FireReq) (nd : Node) (stay : Bool) : Nat :=
  let pops := (if r.ops.grd.pops then 1 else 0) + (if r.ctl then 1 else 0) + r.nxtTakes nd stay
  if pops = 0 && r.ops.grd ≠ .none then 1 else pops

/-- Whether the control tokens that a firing looks at are there (R169). -/
def FireReq.ctlThere (r : FireReq) (nd : Node) (stay : Bool) : Bool :=
  r.ctlNeed nd stay ≤ (freeToks (r.ctlNeed nd stay) nd.ctl.toks).length

/-- The number it claims. -/
def FireReq.ctlTakes (r : FireReq) (nd : Node) (off stay : Bool) : Nat :=
  (if r.ops.grd.pops then 1 else 0) + (if r.ctl && !off then 1 else 0) + r.nxtTakes nd stay

/-- The guard token's value, if the firing has a guard. -/
def FireReq.guardOff (r : FireReq) (nd : Node) : Bool :=
  match r.ops.grd with
  | .none => false
  | g =>
    match firstFree nd.ctl.toks with
    | some t => !g.passes t.tok.ctlVal
    | none => false

/-- The value of the control token that the entry consumes. -/
def FireReq.ctlVal (r : FireReq) (nd : Node) : Bool :=
  match (freeToks 2 nd.ctl.toks)[if r.ops.grd.pops then 1 else 0]? with
  | some t => t.tok.ctlVal
  | none => false

/-- The environment of a firing with its selectors moved by REP. -/
def FireReq.env (r : FireReq) (s : State) (l : Loc) (nd : Node) : Env :=
  let k := nd.rep.offset
  let tag := nd.firstTag r.sels
  let rd := fun x => nd.read r.ops.lit tag (bumpSel k x)
  { s := s, l := l, nd := nd, a := rd r.ops.a, b := rd r.ops.b, c := rd (r.c.getD .zero), tag := tag,
    ctl := r.ctlVal nd, prog := nd.prog l.slot, id := nd.nid }

/-- Node and queue of an operand, as a check fault's record names them (R422): node index and queue number. -/
def nodeQueue (n : NodeId) (s : Sel) : Word :=
  BitVec.ofNat 32 (n.node * 4 + (match s.queue? with | some q => q.toNat | none => 0))

/-- The first operand whose check value disagrees (R213), with its node and queue. -/
def FireReq.checkFault (r : FireReq) (e : Env) : Option (Cause × Word) :=
  if !r.verify then none
  else
    match e.a.badCheck, e.b.badCheck, e.c.badCheck with
    | some x, _, _ => some (x, nodeQueue e.l.nd r.ops.a)
    | _, some x, _ => some (x, nodeQueue e.l.nd r.ops.b)
    | _, _, some x => some (x, nodeQueue e.l.nd (r.c.getD .zero))
    | _, _, _ => none

/-- Free slots needed at a consumer slot: what it delivers and at least one (R48, R166); none for kind 00. -/
def need (t : Target) (n : Nat) (o : List Tok) : Nat := if t.dst = .none then 0 else max n o.length

/-- Free slots a guarded-off firing needs: those of the null done it delivers (R236), else none (R104). -/
def offNeed (t : Target) (o : List Tok) : Nat := if o.isEmpty then 0 else need t 1 o

/-- Destinations that share one store: the wrap buffer and a stage entry queue take every lane. -/
def Dest.store (d : Dest) : Dest :=
  match d with
  | .wrap a b _ => .wrap a b 0
  | .stageQ a b c _ => .stageQ a b c 0
  | d => d

/-- Whether a destination has `k` free slots, in a wrap buffer those that tokens leaving on a cycle take. -/
def State.roomAt (s : State) (at_ : Option Nat) (d : Dest) (k : Nat) : Bool :=
  match d with
  | .wrap die b l => s.wrapRoom die b at_ (List.replicate k l)
  | d => k ≤ s.destFree d

/-- Whether both consumer slots have their free slots (R166); in a wrap buffer what leaves on one cycle shares an entry (R376). -/
def State.room (s : State) (t0 t1 : Target) (k0 k1 : Nat) (at_ : Option Nat := none) : Bool :=
  match t0.dst, t1.dst with
  | .wrap d b l0, .wrap _ _ l1 => s.wrapRoom d b at_ (List.replicate k0 l0 ++ List.replicate k1 l1)
  | x, y =>
    if x.store = y.store then k0 + k1 ≤ s.destFree x
    else s.roomAt at_ x k0 && s.roomAt at_ y k1

/-- The cycle on which a plan's deliveries leave, 0 where it is not known at the start. -/
def Plan.leaves (p : Plan) (cyc : Nat) : Nat := if p.await = .nothing then cyc + p.lat else 0

/-- Claim the oldest tokens of each queue of a list (R166, R174). -/
def Node.claimAll (n : Node) (id : Nat) : List (Nat × Nat) → Node
  | [] => n
  | (q, k) :: t => Node.claimAll (n.setQueue q { n.queue q with toks := claimToks id k (n.queue q).toks }) id t

/-- Mark the peeked heads that carry a last-read mark: they leave at the completion as a pop would (R62). -/
def Node.markPeeks (n : Node) (id : Nat) : List Nat → Node
  | [] => n
  | q :: t => Node.markPeeks (n.setQueue q { n.queue q with toks := peekToks id (n.queue q).toks }) id t

/-- A running region sees a firing start: its watchdog clears (R364). -/
def State.noteStart (s : State) (r : RowId) : State :=
  match s.regionOf r with
  | none => s
  | some (k, g) => if g.st = .running then s.setRegion r.die k { g with fired := true, wdog := 0 } else s

/-- The slot progress after REP and NXT at the start of a firing: (next slot, repetition). -/
def seqStart (nd : Node) (l : Loc) (r : FireReq) (p : Plan) (gv : Bool) : Nat × Rep :=
  if p.stay then (l.slot, nd.rep)
  else
    match p.rep with
    | some x => (nextSlot nd.store l.slot, x)
    | none =>
      if p.skip then (nextSlot nd.store (nextSlot nd.store l.slot), {})
      else if nd.rep.rem.toNat > 1 then (l.slot, nd.rep.advance)
      else (seqAfter nd.store l.slot r.ops.nxt r.ops.grd gv, if nd.rep.rem = 0 then nd.rep else {})

/-- Set stream cursors of a port. -/
def State.setCurs (s : State) (n : NodeId) (cs : List (Nat × Nat)) : State :=
  if cs.isEmpty then s
  else
    let p := s.port n
    s.setPort n { p with streams := p.streams.map fun e => (e.1, { e.2 with cursor := ((cs.find? (fun c => c.1 = e.1)).map Prod.snd).getD e.2.cursor }) }

/-- The firing starts (R166): claims, reservations, its record in the node, the sequencer, the counters. -/
def State.begin (s : State) (l : Loc) (ins : Instr) (r : FireReq) (off : Bool) (p : Plan) (t0 t1 : Target) : State :=
  let nd := s.node l.nd
  let id := nd.nid
  let k0 := if p.late then 0 else if off then offNeed t0 p.o0 else need t0 p.n0 p.o0
  let k1 := if p.late then 0 else if off then offNeed t1 p.o1 else need t1 p.n1 p.o1
  let gv := match firstFree nd.ctl.toks with
    | some t => t.tok.ctlVal
    | none => false
  let last := p.stay || nd.rep.rem.toNat > 1
  let late := !last && r.ops.nxt.late r.ops.grd && p.rep.isNone && !p.skip
  let again := nd.redo.head?
  let sq := if again.isSome then (nd.seq, nd.rep) else seqStart nd l r p gv
  let late := match again with
    | some x => x.late
    | none => late
  let old := p.curs.map fun c => (c.1, match tget (s.port l.nd).streams c.1 with | some st => st.cursor | none => 0)
  let f : Firing :=
    { id := id, slot := l.slot, ins := ins, off := off, t0 := t0, t1 := t1, n0 := k0, n1 := k1,
      o0 := p.o0, o1 := p.o1, xw := if off then none else p.xw,
      undo := ⟨nd.seq, nd.wait, nd.rep, nd.prog l.slot, nd.redo, old⟩,
      start := s.cyc l.nd.row.die, born := s.tick, doneAt := s.cyc l.nd.row.die + p.lat, await := p.await, acc := p.acc, el := p.el,
      tag := nd.firstTag r.sels, otag := p.tag.getD (nd.firstTag r.sels), a := p.a, b := p.b, ra := (r.env s l nd).av, rb := (r.env s l nd).bv, data := p.data, ctlAt := late }
  let pops := match p.pops with
    | some x => x
    | none => (popQs r.sels ++ r.more).map fun q => (q, 1)
  let n1 := (if p.stay && p.pops = some [] then nd else nd.markPeeks id (peekQs r.sels)).claimAll id pops
  let n2 := { n1 with
    ctl := { n1.ctl with toks := claimToks id (r.ctlTakes nd off p.stay + p.ctls) n1.ctl.toks }, fly := n1.fly ++ [f], nid := id + 1,
    seq := sq.1, rep := sq.2, wait := if late then some id else if again.isSome then nd.wait else none, redo := nd.redo.drop 1,
    progs := match p.prog with
      | none => n1.progs
      | some x => tset n1.progs l.slot x }
  let at_ := p.leaves (s.cyc l.nd.row.die)
  p.eff ((((((s.setNode l.nd n2).setCurs l.nd p.curs).reserve t0.dst k0 at_).reserve t1.dst k1 at_).count l.nd.row 0 1).noteStart l.nd.row)

/-- The targets of a firing's consumer slots, moved by REP. -/
def State.slotTarget (s : State) (l : Loc) (d : Slot) : Target := s.target l.nd (bumpSlot (s.node l.nd).rep.offset d)

/-- Whether every operand of a firing is inside X7 (R116). -/
def FireReq.fits (r : FireReq) (k : Nat) : Bool :=
  r.sels.all (selFits k) && slotFits k r.ops.d0 && slotFits k r.ops.d1

/-- Whether an earlier firing in steps of the port still pops a queue. -/
def Node.sttBusy (nd : Node) (id q : Nat) : Bool :=
  nd.fly.any fun g => g.id < id && g.await = .steps && (match g.ins with
    | .stt o _ _ _ => (popQs [o.b]).contains q
    | .spill o _ _ _ => (popQs [o.a]).contains q
    | _ => false)

/-- The slot of a node starts a firing, or waits, or faults (R169). `k` is what the instruction makes of its
operands, `off` what it does when guarded off (R104). -/
def fire (s : State) (l : Loc) (ins : Instr) (r : FireReq) (k : Env → Res) (off : Env → Plan := fun _ => {}) :
    State :=
  let nd := s.node l.nd
  if !s.offered l nd r.close then s
  else if !r.ctlThere nd r.multi then s
  else if !r.own && (popQs r.sels ++ r.more).any nd.markAt && (nd.prog l.slot).midCause.isSome then
    s.raise l.nd l.slot ((nd.prog l.slot).midCause.getD 0) (r.env s l nd).info
  else if !r.own && !(popQs r.sels ++ peekQs r.sels ++ r.more ++ r.first).all nd.offers then s
  else if r.first.any (nd.sttBusy nd.nid) then s
  else
    let e := r.env s l nd
    let t0 := s.slotTarget l r.ops.d0
    let t1 := s.slotTarget l r.ops.d1
    if !r.fits nd.rep.offset then s.raise l.nd l.slot 0x029 e.info
    else if nd.hazard l.nd (r.sels.map (bumpSel nd.rep.offset)) then s
    else if r.guardOff nd then
      let p := off e
      if r.hold nd ins || !r.ctlThere nd p.stay then s
      else if s.room t0 t1 (offNeed t0 p.o0) (offNeed t1 p.o1) (some (p.leaves (s.cyc l.nd.row.die))) then s.begin l ins r true p t0 t1 else s
    else if r.serial && !nd.fly.isEmpty then s
    else if !r.late && !s.room t0 t1 (need t0 1 []) (need t1 1 []) then s
    else
      match r.checkFault e with
      | some (c, w) => s.raise l.nd l.slot c (e.info w)
      | none =>
        match k e with
        | .wait => s
        | .set x => x
        | .fault c x => s.raise l.nd l.slot c x
        | .go p =>
          if r.ctlThere nd p.stay && (p.late || s.room t0 t1 (need t0 p.n0 p.o0) (need t1 p.n1 p.o1) (some (p.leaves (s.cyc l.nd.row.die)))) then
            s.begin l ins r false p t0 t1
          else s

/-- Deliver one word to both consumer slots after `lat` cycles. -/
def Res.word (lat : Nat) (v : Word) (tag : RTag) : Res :=
  .go { o0 := [wordTok v tag], o1 := [wordTok v tag], lat := lat }

/-- Deliver one beat to both consumer slots after `lat` cycles. -/
def Res.beat (lat : Nat) (v : Beat) : Res := .go { o0 := [beatTok v], o1 := [beatTok v], lat := lat }

/-! ## Completion -/

/-- The firing of a number. -/
def Node.firing (n : Node) (id : Nat) : Option Firing := n.fly.find? fun f => f.id = id

def Node.setFiring (n : Node) (f : Firing) : Node := { n with fly := n.fly.map fun g => if g.id = f.id then f else g }

def State.setFiring (s : State) (n : NodeId) (f : Firing) : State := s.setNode n ((s.node n).setFiring f)

/-- What a firing waited for has come: nothing but its time holds it now. -/
def State.wake (s : State) (n : NodeId) (id : Nat) (f : Firing → Firing) : State :=
  match (s.node n).firing id with
  | none => s
  | some x => s.setFiring n { f x with await := .nothing }

/-- Parity deltas sent since `k` of them stood have a firing wait for their acknowledgement (R395). -/
def State.awaitDeltas (s : State) (k : Nat) (n : NodeId) (id : Nat) : State :=
  s.setHub { s.hub with deltas := s.hub.deltas.take k ++ (s.hub.deltas.drop k).map fun d => (d.1, d.2.1, some (n, id)) }

/-- Whether a firing waits for the acknowledgement of a parity delta. -/
def State.owes (s : State) (n : NodeId) (id : Nat) : Bool := s.hub.deltas.any fun d => d.2.2 = some (n, id)

/-- What a firing that has its results waits for: the parity deltas of its writes (R395), or nothing but its time. -/
def State.ackAwait (s : State) (n : NodeId) (id : Nat) : Await := if s.owes n id then .hub 2 else .nothing

/-- Release the claims of a firing in every queue of a node (R166). -/
def Node.releaseAll (n : Node) (id : Nat) : Node :=
  { n with qs := n.qs.map fun e => (e.1, e.2.release id), ctl := n.ctl.release id }

/-- Let the claims of a firing lapse (R167). -/
def Node.lapseAll (n : Node) (id : Nat) : Node :=
  { n with qs := n.qs.map fun e => (e.1, e.2.lapse id), ctl := n.ctl.lapse id }

/-- The control token a firing claimed last. -/
def claimedCtl (id : Nat) : List QTok → Option Bool
  | [] => none
  | t :: r =>
    match claimedCtl id r with
    | some b => some b
    | none => if t.claim = id then some t.tok.ctlVal else none

/-- The sequencer's decision at a completion (R101): NXT 10 goes by its token; NXT 01 pops a token that stands at
the head and goes on, or stays. -/
def Node.decide (n : Node) (f : Firing) (nxt : Nxt) (tok : Option Bool) : Node :=
  if !f.ctlAt then n
  else
    match nxt with
    | .branch b => { n with wait := none, seq := if tok = some true then b.toNat else nextSlot n.store f.slot }
    | .stay =>
      match firstFree n.ctl.toks with
      | none => { n with wait := none }
      | some _ =>
        { n with wait := none, seq := nextSlot n.store f.slot,
                 ctl := { n.ctl with toks := (claimToks f.id 1 n.ctl.toks).filter fun t => t.claim ≠ f.id } }
    | _ => { n with wait := none }

/-- A firing completes: claimed tokens leave, reservations end, its deliveries fill them, X registers are written,
the sequencer decides what it left open (R166, R101). -/
def State.complete (s : State) (n : NodeId) (f : Firing) : State :=
  let nd := s.node n
  let tok := claimedCtl f.id nd.ctl.toks
  let n1 := ((nd.releaseAll f.id).decide f f.ins.nxt tok)
  let n2 := { n1 with fly := n1.fly.filter fun g => g.id ≠ f.id }
  let n3 := match f.xw with
    | none => n2
    | some (k, v) => n2.setX k v
  ((((s.setNode n n3).unreserve f.t0.dst f.n0).unreserve f.t1.dst f.n1).pushAll f.t0 f.o0).pushAll f.t1 f.o1

/-- What a cancelled firing asked of the hub or the die is withdrawn (R167, R196). -/
def State.disown (s : State) (n : NodeId) (id : Nat) : State :=
  let h := s.hub
  let s1 := s.setHub
    { h with waits := h.waits.map (fun e => (e.1, e.2.filter fun w => !(w.n = n && w.fid = id))),
             slots := h.slots.map fun e => (e.1,
               let mine := fun (w : Ticket) => w.n = n && w.fid = id
               { e.2 with tickets := e.2.tickets.filter (fun w => !mine w),
                          pins := (e.2.tickets.filter mine).flatMap Ticket.pins ++ e.2.pins }) }
  let d := s1.die n.row.die
  let s2 := s1.setDie n.row.die { d with preqs := d.preqs.filter fun q => !(q.n = n && q.fid = id) }
  let c := s2.cluster n.row.die n.row.cl
  let mine := fun (q : ModeReq) => q.n = n && q.fid = id
  s2.setCluster n.row.die n.row.cl
    { c with banks := c.banks.map fun e => (e.1, if e.2.pend.any mine then { e.2 with pend := none } else e.2) }

/-- A cancelled BRET's request leaves the line for its FIFO (R311). -/
def State.leaveQueue (s : State) (n : NodeId) (id : Nat) : State :=
  { s with clusters := s.clusters.map fun c => (c.1, { c.2 with waitq := c.2.waitq.filter fun q => q.src ≠ .firing n id }) }

/-- A slot's progress before one of its firings, which did not complete; what has come into it by itself since then stays:
records in RMERGE's store, keys in KCHK's list (R179, R189). -/
def Prog.back (now old : Prog) : Prog :=
  match now, old with
  | .keys ks, _ => .keys ks
  | .rmerge _ st, .rmerge e0 st0 => .rmerge e0 ((st0.filter fun x => x.1 = e0 && st.all fun y => y.1 ≠ e0) ++ st)
  | .rmerge _ st, .idle => .rmerge 0 st
  | _, p => p

/-- A slot's progress goes back. -/
def Node.progBack (n : Node) (slot : Nat) (old : Prog) : Node :=
  if (n.prog slot).back old = n.prog slot then n else n.setProg slot ((n.prog slot).back old)

/-- A cancelled firing leaves without effect: its claims and reservations lapse, its slot's progress and its elements return
(R167, R240). -/
def State.dropFiring (s : State) (n : NodeId) (f : Firing) : State :=
  let nd := ((s.node n).lapseAll f.id).progBack f.slot f.undo.prog
  let s0 := s.setNode n { nd with fly := nd.fly.filter fun g => g.id ≠ f.id }
  let s1 := if f.await = .hub 0 then s0.disown n f.id else if f.await = .fifo then s0.leaveQueue n f.id else s0
  ((s1.setCurs n f.undo.curs).unreserve f.t0.dst f.n0).unreserve f.t1.dst f.n1

/-- Cancel firings of a node, oldest first in the list, so that they start again in their original order (R167). Where
every firing from the oldest on is cancelled the node's sequencer is as before it; a node with a later one that has completed
or keeps its steps leaves its sequencer and starts the cancelled ones again first. -/
def State.cancelAll (s : State) (n : NodeId) (fs : List Firing) : State :=
  match fs with
  | [] => s
  | f :: _ =>
    let nd := s.node n
    let s1 := fs.reverse.foldl (fun x g => x.dropFiring n g) s
    let n1 := s1.node n
    if f.id + fs.length = nd.nid then
      s1.setNode n { n1 with seq := f.undo.seq, wait := f.undo.wait, rep := f.undo.rep, redo := f.undo.redo }
    else s1.setNode n { n1 with redo := (fs.map fun g => Redo.mk g.slot g.ctlAt) ++ n1.redo }

/-- What the record of a fault of a firing in progress names (R422). -/
def Firing.info (f : Firing) (aux : Word := 0) : FInfo := { a := f.ra, b := f.rb, tag := f.tag, aux := aux }

/-- The same for one of its accesses: a step of STT has its beat's element 0 as second operand. -/
def Firing.accInfo (f : Firing) (op : AccOp) (aux : Word := 0) : FInfo :=
  match f.ins, op with
  | .stt _ _ _ _, .store bs _ => { f.info aux with b := BitVec.ofNat 32 (bytesNat (bs.take 4)) }
  | _, _ => f.info aux

/-- The word that stands at the head of a queue, or element 0 of the beat. -/
def Node.headWord (n : Node) (q : Nat) : Word :=
  match n.head q with
  | some t => t.tok.word32
  | none => 0

/-- Whether a firing has completed a step, which is never repeated (R9, R162). -/
def Firing.underway (f : Firing) : Bool := f.step ≠ 0

/-- A step of a firing faults: the firing keeps its earlier steps, and every later one of its node is cancelled but those
that have completed steps of their own (R9, R167). -/
def State.faultStep (s : State) (n : NodeId) (f : Firing) (c : Cause) (x : FInfo) : State :=
  (s.cancelAll n ((s.node n).fly.filter fun g => f.id < g.id && !g.underway)).raise n f.slot c x

/-- A firing that has started faults: it and every later one of its node are cancelled, but those that have completed steps,
which they keep (R9, R167). -/
def State.faultFiring (s : State) (n : NodeId) (f : Firing) (c : Cause) (x : FInfo) : State :=
  if f.underway then s.faultStep n f c x
  else (s.cancelAll n ((s.node n).fly.filter fun g => f.id ≤ g.id && !g.underway)).raise n f.slot c x

end Sys2Proof.Machine
end

