-- ==== Sys2Proof/Machine/Lane.lean ====
section
/-!
DEFINITION. The lane instructions 0x60-0x7A (R125-R146): element-wise arithmetic, functions, conversions,
microscaling, reductions, scans, noise and tile beats.
-/
namespace Sys2Proof

/-- The floating format of an element type; none for I32 (R126). -/
def LaneTy.fmt : LaneTy → Option Machine.FpFmt
  | .f32 => some Machine.fF32
  | .f16 => some Machine.fF16
  | .bf16 => some Machine.fBF16
  | .i32 => none

/-- Width of an element. -/
def LaneTy.w : LaneTy → Nat
  | .f32 => 32 | .i32 => 32 | .f16 => 16 | .bf16 => 16

/-- Elements of a beat (R126). -/
def LaneTy.e (t : LaneTy) : Nat := 1024 / t.w

end Sys2Proof

namespace Sys2Proof.Machine

/-- Every element the same. -/
def splat (w x : Nat) : Beat := packBeat w (List.replicate (1024 / w) x)

/-- A literal half as an element: read as F32, or as I32, and converted with RNE (R127). -/
def laneLit (t : LaneTy) (v : Word) : Nat :=
  match t.fmt with
  | none => v.toNat
  | some f => if f = fF32 then v.toNat else convFp f .rne false (fF32.decode v.toNat)

/-- A constant selector as an element (R127). -/
def laneKonst (t : LaneTy) (c : Konst) : Nat :=
  match c with
  | .sign => 2 ^ (t.w - 1)
  | .one => (match t.fmt with | none => 1 | some _ => laneLit t 0x3F800000)
  | .m1 => (match t.fmt with | none => 0xFFFFFFFF | some _ => laneLit t 0xBF800000)
  | .two => (match t.fmt with | none => 2 | some _ => laneLit t 0x40000000)
  | .half => laneLit t 0x3F000000
  | .pinf => laneLit t 0x7F800000
  | .ninf => laneLit t 0xFF800000
  | .fone => laneLit t 0x3F800000

/-- The operand a lane selector names (R127): a queue's beat, or a broadcast. -/
def laneOpd (t : LaneTy) (lit : Option DWord) (s : Sel) (k : Tok) : Beat :=
  match s with
  | .litLo => splat t.w (laneLit t ((lit.getD 0).extractLsb' 0 32))
  | .litHi => splat t.w (laneLit t ((lit.getD 0).extractLsb' 32 32))
  | .konst c => splat t.w (laneKonst t c)
  | .zero => 0
  | _ => k.beatOf

/-- The elements of operand a, b, c. -/
def Env.la (e : Env) (t : LaneTy) (o : Ops) : List Nat := beatElems t.w (laneOpd t o.lit o.a e.a)
def Env.lb (e : Env) (t : LaneTy) (o : Ops) : List Nat := beatElems t.w (laneOpd t o.lit o.b e.b)
def Env.lc (e : Env) (t : LaneTy) (o : Ops) (c : Sel) : List Nat := beatElems t.w (laneOpd t o.lit c e.c)

/-- A function of two elements applied to every element. -/
def lane2 (t : LaneTy) (f : Nat → Nat → Nat) (xs ys : List Nat) : Beat := packBeat t.w (xs.zipWith f ys)

/-- An arithmetic operation on elements: in the format, or on 32-bit integers (R130). -/
def laneOp (t : LaneTy) (ff : FpFmt → Nat → Nat → Nat) (fi : Word → Word → Word) (x y : Nat) : Nat :=
  match t.fmt with
  | some f => ff f x y
  | none => (fi (BitVec.ofNat 32 x) (BitVec.ofNat 32 y)).toNat

def sMin (a b : Word) : Word := if b.slt a then b else a
def sMax (a b : Word) : Word := if a.slt b then b else a

def execVadd (o : Ops) (ty : LaneTy) (r : Rnd) (s : State) : Out :=
  .next (fire s s.locus (.vadd o ty r) { ops := o } fun e =>
    .beat 3 (lane2 ty (laneOp ty (fun f => f.add r) (· + ·)) (e.la ty o) (e.lb ty o)))

def execVsub (o : Ops) (ty : LaneTy) (r : Rnd) (s : State) : Out :=
  .next (fire s s.locus (.vsub o ty r) { ops := o } fun e =>
    .beat 3 (lane2 ty (laneOp ty (fun f => f.sub r) (· - ·)) (e.la ty o) (e.lb ty o)))

def execVmul (o : Ops) (ty : LaneTy) (r : Rnd) (s : State) : Out :=
  .next (fire s s.locus (.vmul o ty r) { ops := o } fun e =>
    .beat 3 (lane2 ty (laneOp ty (fun f => f.mul r) (· * ·)) (e.la ty o) (e.lb ty o)))

def execVfma (o : Ops) (ty : LaneTy) (r : Rnd) (c : Sel) (s : State) : Out :=
  .next (fire s s.locus (.vfma o ty r c) { ops := o, c := some c } fun e =>
    .beat 3 (packBeat ty.w (((e.la ty o).zip ((e.lb ty o).zip (e.lc ty o c))).map fun x =>
      match ty.fmt with
      | some f => f.fma r x.1 x.2.1 x.2.2
      | none => x.1 * x.2.1 + x.2.2)))

def execVmax (o : Ops) (ty : LaneTy) (s : State) : Out :=
  .next (fire s s.locus (.vmax o ty) { ops := o } fun e =>
    .beat 3 (lane2 ty (laneOp ty (fun f => f.minmax true) sMax) (e.la ty o) (e.lb ty o)))

def execVmin (o : Ops) (ty : LaneTy) (s : State) : Out :=
  .next (fire s s.locus (.vmin o ty) { ops := o } fun e =>
    .beat 3 (lane2 ty (laneOp ty (fun f => f.minmax false) sMin) (e.la ty o) (e.lb ty o)))

/-- A function of FP32 elements (R134). -/
def lane1 (f : Word → Word) (xs : List Nat) : Beat := packBeat 32 (xs.map fun x => (f (BitVec.ofNat 32 x)).toNat)

def execVexp2 (o : Ops) (r : Rnd) (s : State) : Out :=
  .next (fire s s.locus (.vexp2 o r) { ops := o } fun e => .beat 8 (lane1 (f32Exp2 r) (e.la .f32 o)))

def execVlog2 (o : Ops) (r : Rnd) (s : State) : Out :=
  .next (fire s s.locus (.vlog2 o r) { ops := o } fun e => .beat 8 (lane1 (f32Log2 r) (e.la .f32 o)))

def execVrcp (o : Ops) (r : Rnd) (s : State) : Out :=
  .next (fire s s.locus (.vrcp o r) { ops := o } fun e => .beat 8 (lane1 (f32Rcp r) (e.la .f32 o)))

def execVrsq (o : Ops) (r : Rnd) (s : State) : Out :=
  .next (fire s s.locus (.vrsq o r) { ops := o } fun e => .beat 8 (lane1 (f32Rsq r) (e.la .f32 o)))

/-- The condition of VCMP on two elements (R131). -/
def laneCond (t : LaneTy) (cc : FCond) (x y : Nat) : Bool :=
  match t.fmt with
  | some f => fcondHolds cc (Fv.cmp (f.decode x) (f.decode y))
  | none => fcondHolds cc (some (sgn 32 x - sgn 32 y))

def execVcmp (o : Ops) (ty : LaneTy) (cc : FCond) (s : State) : Out :=
  .next (fire s s.locus (.vcmp o ty cc) { ops := o } fun e =>
    .beat 3 (lane2 ty (fun x y => if laneCond ty cc x y then 2 ^ ty.w - 1 else 0) (e.la ty o) (e.lb ty o)))

def execVsel (o : Ops) (ty : LaneTy) (c : Sel) (s : State) : Out :=
  .next (fire s s.locus (.vsel o ty c) { ops := o, c := some c } fun e =>
    .beat 3 (packBeat ty.w (((e.la ty o).zip ((e.lb ty o).zip (e.lc ty o c))).map fun x =>
      if x.2.2 / 2 ^ (ty.w - 1) % 2 = 1 then x.1 else x.2.1)))

/-- VCVT of a beat (R135). -/
def laneCvt (v : Cvt) (part : Nat) (x : Beat) : Beat :=
  let wf := v.src.width
  let wt := v.dst.width
  if wt ≤ wf then packBeat wt (List.replicate (part * (1024 / wf)) 0 ++ (beatElems wf x).map (convert v))
  else packBeat wt ((((beatElems wf x).drop (part * (1024 / wt))).take (1024 / wt)).map (convert v))

def execVcvt (o : Ops) (v : Cvt) (part : BitVec 2) (s : State) : Out :=
  .next (fire s s.locus (.vcvt o v part) { ops := o } fun e =>
    .beat 3 (laneCvt v part.toNat (laneOpd .f32 o.lit o.a e.a)))

/-! ## Microscaling (R74, R136, R137) -/

/-- The value of an E2M1 code (R74). -/
def e2m1 (c : Nat) : Dy :=
  let m := match c % 8 with
    | 0 => 0
    | 1 => 1
    | 2 => 2
    | 3 => 3
    | 4 => 4
    | 5 => 6
    | 6 => 8
    | _ => 12
  ⟨8 ≤ c, m, -1⟩

/-- The E2M1 code nearest a value, ties to the even code, clamped to ±6 (R136). -/
def toE2m1 (v : Fv) : Nat :=
  match v with
  | .nan => 0
  | .inf n => if n then 15 else 7
  | .fin d => min 7 (roundTo ⟨4, 1, 1, false⟩ .rne false false d.m d.e false) + (if d.neg then 8 else 0)

/-- ⌊log2⌋ of the largest finite magnitude other than zero. -/
def maxLog : List Fv → Option Int
  | [] => none
  | .fin d :: t =>
    if d.m = 0 then maxLog t
    else
      match maxLog t with
      | none => some (d.e + bitLen d.m - 1)
      | some x => some (max x (d.e + bitLen d.m - 1))
  | _ :: t => maxLog t

/-- The scale code and the element codes of a block (R136). -/
def quantBlock (xs : List Fv) : Nat × List Nat :=
  if xs.any (fun v => v = .nan) then (0xFF, xs.map fun _ => 0)
  else
    let sc : Int := match maxLog xs with
      | none => 0
      | some l => clampInt 0 254 (l - 2 + 127)
    (sc.toNat, xs.map fun v =>
      toE2m1 (match v with
        | .fin d => .fin (d.scale (127 - sc))
        | v => v))

/-- Replace bits [lo + w - 1 : lo] of a beat. -/
def putBits (b : Beat) (lo w x : Nat) : Beat :=
  (b &&& ~~~(BitVec.ofNat 1024 (2 ^ w - 1) <<< lo)) ||| (BitVec.ofNat 1024 (x % 2 ^ w) <<< lo)

def execVqmx (o : Ops) (c : Sel) (part : BitVec 3) (s : State) : Out :=
  .next (fire s s.locus (.vqmx o c part) { ops := o, c := some c } fun e =>
    let q := quantBlock ((e.la .f32 o).map fF32.decode)
    .go { o0 := [beatTok (putBits (laneOpd .f32 o.lit o.b e.b) (128 * part.toNat) 128 (packNat 4 q.2))],
          o1 := [beatTok (putBits (laneOpd .f32 o.lit c e.c) (8 * part.toNat) 8 q.1)], lat := 4 })

/-- An MX4 element times its scale (R74): a NaN for the scale 0xFF. -/
def mx4Val (sc c : Nat) : Fv := if sc = 0xFF then .nan else .fin ((e2m1 c).scale (sc - 127))

/-- VDQMX: 32 or 64 elements from block PART on (R137). -/
def dequant (t : LaneTy) (r : Rnd) (part : Nat) (a b : Beat) : Beat :=
  let f := t.fmt.getD fF32
  packBeat t.w ((upFrom 0 t.e).map fun i =>
    let j := part * (t.e / 32) + i / 32
    (mx4Val (elem b 8 j) (elem a 4 (32 * j + i % 32))).round f r)

def execVdqmx (o : Ops) (ty : LaneTy) (r : Rnd) (part : BitVec 3) (s : State) : Out :=
  .next (fire s s.locus (.vdqmx o ty r part) { ops := o } fun e =>
    .beat 4 (dequant ty r part.toNat (laneOpd ty o.lit o.a e.a) (laneOpd ty o.lit o.b e.b)))

def execVbcast (o : Ops) (ty : LaneTy) (ix : Option (BitVec 6)) (s : State) : Out :=
  .next (fire s s.locus (.vbcast o ty ix) { ops := o } fun e =>
    match ix with
    | some j => .beat 3 (splat ty.w (((e.la ty o)[j.toNat]?).getD 0))
    | none => .beat 3 (laneOpd ty o.lit o.a e.a))

def execVshuf (o : Ops) (ty : LaneTy) (s : State) : Out :=
  .next (fire s s.locus (.vshuf o ty) { ops := o } fun e =>
    .beat 3 (packBeat ty.w ((e.lb ty o).map fun i => ((e.la ty o)[i]?).getD 0)))

/-! ## Reductions (R138-R142) -/

/-- SPAN and BASE of a group literal (R138). -/
def spanOf (g : Option Group) : Nat :=
  match g with
  | none => 1
  | some x => x.span.toNat

def baseOf (g : Option Group) : Word :=
  match g with
  | none => 0
  | some x => x.base

/-- An element widened exactly to FP32, or the I32 itself. -/
def widen (t : LaneTy) (x : Nat) : Word :=
  match t.fmt with
  | none => BitVec.ofNat 32 x
  | some f => if f = fF32 then BitVec.ofNat 32 x else BitVec.ofNat 32 (convFp fF32 .rne false (f.decode x))

def groupOf (p : Prog) : GroupSt :=
  match p with
  | .group g => g
  | _ => {}

/-- A reduction's firing: fold the beat, and deliver where it is the group's last (R125, R138). -/
def reduce (e : Env) (span lat : Nat) (fold : GroupSt → GroupSt) (out : GroupSt → Word × Word) : Res :=
  let g := fold (groupOf e.prog)
  let g1 := { g with n := g.n + 1, has := true, at_ := e.s.cyc e.l.nd.row.die }
  if g1.n = span then
    .go { o0 := [wordTok (out g1).1 0], o1 := [wordTok (out g1).2 0], lat := lat, prog := some .idle }
  else .go { lat := 3, prog := some (.group g1) }

/-- The sum of a beat's elements by the tree, or modulo 2^32 (R85). -/
def beatSum (t : LaneTy) (r : Rnd) (xs : List Nat) : Word :=
  match t.fmt with
  | none => xs.foldl (fun a x => a + BitVec.ofNat 32 x) 0
  | some _ => treeSum r 6 (xs.map (widen t))

/-- Add a beat's result into the running total with one rounding (R139). -/
def GroupSt.total (g : GroupSt) (t : LaneTy) (r : Rnd) (x : Word) : GroupSt :=
  { g with v := if g.has then (match t.fmt with | none => g.v + x | some _ => f32Add r g.v x) else x }

/-- What a group delivers to DST0 and DST1, empty groups included (R139). -/
def sumOut (g : GroupSt) : Word × Word := (g.v, g.v)

def execVredadd (o : Ops) (ty : LaneTy) (r : Rnd) (g : Option Group) (s : State) : Out :=
  .next (fire s s.locus (.vredadd o ty r g) { ops := o } fun e =>
    reduce e (spanOf g) 8 (fun x => x.total ty r (beatSum ty r (e.la ty o))) sumOut)

/-- The maximum of R81 over a beat, in FP32 or I32. -/
def beatMax (t : LaneTy) (xs : List Nat) : Word :=
  match t.fmt with
  | none => xs.foldl (fun a x => sMax a (BitVec.ofNat 32 x)) 0x80000000
  | some _ => xs.foldl (fun a x => f32MinMax true a (widen t x)) f32NegInf

def maxEmpty (t : LaneTy) : Word :=
  match t.fmt with
  | none => 0x80000000
  | some _ => f32NegInf

def maxOut (t : LaneTy) (g : GroupSt) : Word × Word := if g.has then (g.v, g.v) else (maxEmpty t, maxEmpty t)

def execVredmax (o : Ops) (ty : LaneTy) (g : Option Group) (s : State) : Out :=
  .next (fire s s.locus (.vredmax o ty g) { ops := o } fun e =>
    reduce e (spanOf g) 8 (fun x =>
      let m := beatMax ty (e.la ty o)
      { x with v := if x.has then (match ty.fmt with | none => sMax x.v m | some _ => f32MinMax true x.v m) else m })
      (maxOut ty))

/-- Whether a ranks above b (R81, R140). -/
def rankAbove (t : LaneTy) (a b : Word) : Bool :=
  match t.fmt with
  | none => b.slt a
  | some _ => 0 < f32Rank a b

/-- VARGMAX over a beat from index `i` on: the first of the highest rank wins (R140). -/
def argFold (t : LaneTy) : GroupSt → Word → List Nat → GroupSt
  | g, _, [] => g
  | g, i, x :: xs =>
    let w := widen t x
    argFold t (if g.has && !rankAbove t w g.v then g else { g with v := w, ix := i, has := true }) (i + 1) xs

def argOut (g : GroupSt) : Word × Word :=
  if g.has then (g.ix, g.v) else (0xFFFFFFFF, f32Nan)

/-- A NaN winner is delivered as the canonical NaN (R140). -/
def canonWin (t : LaneTy) (p : Word × Word) : Word × Word :=
  match t.fmt with
  | none => p
  | some _ => (p.1, if f32IsNan p.2 then f32Nan else p.2)

def execVargmax (o : Ops) (ty : LaneTy) (g : Option Group) (s : State) : Out :=
  .next (fire s s.locus (.vargmax o ty g) { ops := o } fun e =>
    reduce e (spanOf g) 8
      (fun x => argFold ty x (baseOf g + BitVec.ofNat 32 (x.n * ty.e)) (e.la ty o)) (fun x => canonWin ty (argOut x)))

/-- One beat of VLSE (R86). -/
def lseFold (t : LaneTy) (xs : List Nat) (g : GroupSt) : GroupSt :=
  let m := if g.has then g.v else f32NegInf
  let z := if g.has then g.z else 0
  let ws := xs.map (widen t)
  let mb := ws.foldl (f32MinMax true) f32NegInf
  if f32IsNan m || f32IsNan mb then { g with v := f32Nan, z := f32Nan }
  else if mb = f32NegInf then { g with v := m, z := z }
  else
    let m1 := f32MinMax true m mb
    if m1 = f32PosInf then { g with v := m1, z := f32PosInf }
    else
      let sb := treeSum .rne 6 (ws.map fun x => f32Exp2 .rne (f32Sub .rne x mb))
      let za := f32Mul .rne z (f32Exp2 .rne (f32Sub .rne m m1))
      let zb := f32Mul .rne sb (f32Exp2 .rne (f32Sub .rne mb m1))
      { g with v := m1, z := f32Add .rne za zb }

def lseOut (g : GroupSt) : Word × Word := if g.has then (g.v, g.z) else (f32NegInf, 0)

def execVlse (o : Ops) (ty : LaneTy) (g : Option Group) (s : State) : Out :=
  .next (fire s s.locus (.vlse o ty g) { ops := o } fun e =>
    reduce e (spanOf g) 16 (lseFold ty (e.la ty o)) lseOut)

/-- The sum of exact products of a beat by the tree (R85). -/
def beatDot (t : LaneTy) (r : Rnd) (xs ys : List Nat) : Word :=
  let f := t.fmt.getD fF32
  treeSum r 5 (fusedLevel r ((xs.map f.decode).zip (ys.map f.decode)))

def execVdot (o : Ops) (ty : LaneTy) (r : Rnd) (g : Option Group) (s : State) : Out :=
  .next (fire s s.locus (.vdot o ty r g) { ops := o } fun e =>
    reduce e (spanOf g) 8 (fun x => x.total .f32 r (beatDot ty r (e.la ty o) (e.lb ty o))) sumOut)

def execVnorm2 (o : Ops) (ty : LaneTy) (r : Rnd) (g : Option Group) (s : State) : Out :=
  .next (fire s s.locus (.vnorm2 o ty r g) { ops := o } fun e =>
    reduce e (spanOf g) 8 (fun x => x.total .f32 r (beatDot ty r (e.la ty o) (e.la ty o))) sumOut)

/-- base-2 Gumbel noise from a random word (R143): g = −RNE(log2(−l1)). -/
def gumbel (b : Nat) : Word :=
  let l := log2Of ⟨false, 2 * (b / 2 ^ 8) + 1, -25⟩
  let l1 := roundTo fF32 .rne false l.1 l.2.1 l.2.2.1 l.2.2.2
  let g := f32Log2 .rne (BitVec.ofNat 32 l1 ^^^ 0x80000000)
  g ^^^ 0x80000000

def execVgumbel (o : Ops) (s : State) : Out :=
  .next (fire s s.locus (.vgumbel o) { ops := o } fun e =>
    .beat 12 (lane2 .f32 (fun a b => (f32Add .rne (BitVec.ofNat 32 a) (gumbel b)).toNat) (e.la .f32 o) (e.lb .f32 o)))

/-- Inclusive prefix sums with the carry (R142): results as element codes, and the group with the carry. -/
def scanFold (t : LaneTy) (r : Rnd) : GroupSt → List Nat → List Nat × GroupSt
  | g, [] => ([], g)
  | g, x :: xs =>
    let w := widen t x
    let v := match t.fmt with
      | none => if g.has then g.v + w else w
      | some _ => if g.has then f32Add r g.v w else if f32IsNan w then f32Nan else w
    let y := match t.fmt with
      | none => v.toNat
      | some f => if f = fF32 then v.toNat else convFp f .rne false (fF32.decode v.toNat)
    let z := scanFold t r { g with v := v, has := true } xs
    (y :: z.1, z.2)

def execVscan (o : Ops) (ty : LaneTy) (r : Rnd) (g : Option Group) (s : State) : Out :=
  .next (fire s s.locus (.vscan o ty r g) { ops := o } fun e =>
    let z := scanFold ty r (groupOf e.prog) (e.la ty o)
    let b := packBeat ty.w z.1
    let n := z.2.n + 1
    .go { o0 := [beatTok b], o1 := [beatTok b], lat := 10,
          prog := some (if n = spanOf g then .idle else .group { z.2 with n := n }) })

/-! ## Tile beats (R144, R145) -/

def cursorOf (p : Prog) : BitVec 6 :=
  match p with
  | .cursor k => k
  | _ => 0

/-- The next cursor: (k + 1) mod (COUNT + 1). -/
def nextCursor (t : Tile) (k : BitVec 6) : BitVec 6 := if k = t.count then 0 else k + 1

/-- Whether an earlier firing writes the tile slot by VTST (R145). -/
def writesTile (n : BitVec 6) (f : Firing) : Bool :=
  match f.ins with
  | .vtst _ t => t.tile = n && !f.off
  | _ => false

/-- VTLD pairs each beat with the next beat of the range (R144); the beat it passes on keeps its check value. -/
def execVtld (o : Ops) (t : Tile) (s : State) : Out :=
  .next (fire s s.locus (.vtld o t) { ops := o, verify := false } fun e =>
    if e.nd.fly.any (writesTile t.tile) then .wait
    else
      let k := cursorOf e.prog
      let j := (t.start + k).toNat
      match e.s.tileErr e.l.nd.row t.tile.toNat j with
      | some c => .fault c (e.info t.tile.toNat)
      | none =>
        .go { o0 := [beatTok (e.s.readTile e.l.nd.row t.tile.toNat j)], o1 := [e.a], lat := 2,
              prog := some (.cursor (nextCursor t k)), eff := fun x => x.correctTile e.l.nd.row t.tile.toNat j })

/-- VTST writes the arriving beat to the next beat of the range and passes it on (R144). -/
def execVtst (o : Ops) (t : Tile) (s : State) : Out :=
  .next (fire s s.locus (.vtst o t) { ops := o } fun e =>
    let k := cursorOf e.prog
    let j := (t.start + k).toNat
    .go { o0 := [beatTok e.a.beatOf], o1 := [beatTok e.a.beatOf], lat := 2, prog := some (.cursor (nextCursor t k)),
          eff := fun x => x.writeTile e.l.nd.row t.tile.toNat j e.a.beatOf })

end Sys2Proof.Machine
end

