-- ==== Sys2Proof/Machine/Scalar.lean ====
section
/-!
DEFINITION. The scalar instructions 0x01-0x25 (R105-R116): each is the start of a firing at the locus, over the
operands it reads and the word it computes. Its deliveries take effect at the completion (R103, R166).
-/
namespace Sys2Proof.Machine

/-! ## Integer values of a type (R106, R107) -/

def Wid.w : Wid → Nat
  | .w32 => 32 | .w16 => 16 | .w8 => 8

/-- A lane's value, signed or unsigned. -/
def laneVal (uns : Bool) (w x : Nat) : Int := if uns then (x : Int) else sgn w x

/-- An exact result as a lane: saturated to the type's range, or wrapped (R106). -/
def IntTy.fit (t : IntTy) (w : Nat) (x : Int) : Nat :=
  if t.sat then wrapInt w (clampInt (intLo (!t.uns) w) (intHi (!t.uns) w) x) else wrapInt w x

/-- A function of two lanes applied to every lane. -/
def IntTy.map2 (t : IntTy) (f : Int → Int → Int) (a b : Word) : Word :=
  let w := Wid.w t.w
  let g := fun x y => IntTy.fit t w (f (laneVal t.uns w x) (laneVal t.uns w y))
  BitVec.ofNat 32 (packNat w ((elems w (32 / w) a.toNat).zipWith g (elems w (32 / w) b.toNat)))

def intAdd (t : IntTy) (a b : Word) : Word := IntTy.map2 t (· + ·) a b
def intSub (t : IntTy) (a b : Word) : Word := IntTy.map2 t (· - ·) a b
def intMul (t : IntTy) (a b : Word) : Word := IntTy.map2 t (· * ·) a b
def intMin (t : IntTy) (a b : Word) : Word := IntTy.map2 t (fun x y => if y < x then y else x) a b
def intMax (t : IntTy) (a b : Word) : Word := IntTy.map2 t (fun x y => if x < y then y else x) a b
def intNeg (t : IntTy) (a : Word) : Word := IntTy.map2 t (fun x _ => -x) a a
def intAbs (t : IntTy) (a : Word) : Word := IntTy.map2 t (fun x _ => if t.uns then x else (x.natAbs : Int)) a a
/-- Bits [63:32] of the exact product. -/
def intMulh (t : IntTy) (a b : Word) : Word :=
  BitVec.ofInt 32 (laneVal t.uns 32 a.toNat * laneVal t.uns 32 b.toNat / (2 ^ 32 : Nat))
/-- a · b + c, exact, then fitted once. -/
def intMad (t : IntTy) (a b c : Word) : Word :=
  BitVec.ofNat 32 (IntTy.fit t 32
    (laneVal t.uns 32 a.toNat * laneVal t.uns 32 b.toNat + laneVal t.uns 32 c.toNat))

def popcount : Nat → Nat → Nat
  | 0, _ => 0
  | n + 1, x => x % 2 + popcount n (x / 2)

/-! ## Bit fields (R108) -/

/-- POS and the effective length L' of a control word. -/
def bfPos (c : Word) : Nat := c.toNat % 32
def bfLen (c : Word) : Nat := min (c.toNat / 32 % 32 + 1) (32 - bfPos c)

def bitExtract (uns : Bool) (a ctl : Word) : Word :=
  let f := a.toNat / 2 ^ bfPos ctl % 2 ^ bfLen ctl
  if uns then BitVec.ofNat 32 f else BitVec.ofInt 32 (sgn (bfLen ctl) f)

def bitInsert (a b ctl : Word) : Word :=
  let m : Word := BitVec.ofNat 32 ((2 ^ bfLen ctl - 1) * 2 ^ bfPos ctl)
  (a &&& ~~~m) ||| ((b <<< bfPos ctl) &&& m)

/-! ## The instructions -/

def execAdd (o : Ops) (ty : IntTy) (s : State) : Out :=
  .next (fire s s.locus (.add o ty) { ops := o } fun e => .word 1 (intAdd ty e.av e.bv) e.tag)

def execSub (o : Ops) (ty : IntTy) (s : State) : Out :=
  .next (fire s s.locus (.sub o ty) { ops := o } fun e => .word 1 (intSub ty e.av e.bv) e.tag)

def execMul (o : Ops) (ty : IntTy) (s : State) : Out :=
  .next (fire s s.locus (.mul o ty) { ops := o } fun e => .word 3 (intMul ty e.av e.bv) e.tag)

def execMulh (o : Ops) (ty : IntTy) (s : State) : Out :=
  .next (fire s s.locus (.mulh o ty) { ops := o } fun e => .word 3 (intMulh ty e.av e.bv) e.tag)

def execMad (o : Ops) (ty : IntTy) (c : Sel) (s : State) : Out :=
  .next (fire s s.locus (.mad o ty c) { ops := o, c := some c } fun e => .word 3 (intMad ty e.av e.bv e.cv) e.tag)

def execNeg (o : Ops) (ty : IntTy) (s : State) : Out :=
  .next (fire s s.locus (.neg o ty) { ops := o } fun e => .word 1 (intNeg ty e.av) e.tag)

def execAbs (o : Ops) (ty : IntTy) (s : State) : Out :=
  .next (fire s s.locus (.abs o ty) { ops := o } fun e => .word 1 (intAbs ty e.av) e.tag)

def execMin (o : Ops) (ty : IntTy) (s : State) : Out :=
  .next (fire s s.locus (.min o ty) { ops := o } fun e => .word 1 (intMin ty e.av e.bv) e.tag)

def execMax (o : Ops) (ty : IntTy) (s : State) : Out :=
  .next (fire s s.locus (.max o ty) { ops := o } fun e => .word 1 (intMax ty e.av e.bv) e.tag)

def execBand (o : Ops) (s : State) : Out :=
  .next (fire s s.locus (.band o) { ops := o } fun e => .word 1 (e.av &&& e.bv) e.tag)

def execBor (o : Ops) (s : State) : Out :=
  .next (fire s s.locus (.bor o) { ops := o } fun e => .word 1 (e.av ||| e.bv) e.tag)

def execBxor (o : Ops) (s : State) : Out :=
  .next (fire s s.locus (.bxor o) { ops := o } fun e => .word 1 (e.av ^^^ e.bv) e.tag)

def execBandn (o : Ops) (s : State) : Out :=
  .next (fire s s.locus (.bandn o) { ops := o } fun e => .word 1 (e.av &&& ~~~e.bv) e.tag)

def execBnot (o : Ops) (s : State) : Out :=
  .next (fire s s.locus (.bnot o) { ops := o } fun e => .word 1 (~~~e.av) e.tag)

def execShl (o : Ops) (s : State) : Out :=
  .next (fire s s.locus (.shl o) { ops := o } fun e => .word 1 (e.av <<< (e.bv.toNat % 32)) e.tag)

def execShr (o : Ops) (s : State) : Out :=
  .next (fire s s.locus (.shr o) { ops := o } fun e => .word 1 (e.av >>> (e.bv.toNat % 32)) e.tag)

def execSar (o : Ops) (s : State) : Out :=
  .next (fire s s.locus (.sar o) { ops := o } fun e => .word 1 (e.av.sshiftRight (e.bv.toNat % 32)) e.tag)

def execRol (o : Ops) (s : State) : Out :=
  .next (fire s s.locus (.rol o) { ops := o } fun e => .word 1 (e.av.rotateLeft (e.bv.toNat % 32)) e.tag)

def execClz (o : Ops) (s : State) : Out :=
  .next (fire s s.locus (.clz o) { ops := o } fun e => .word 1 (BitVec.ofNat 32 (32 - bitLen e.av.toNat)) e.tag)

def execPopc (o : Ops) (s : State) : Out :=
  .next (fire s s.locus (.popc o) { ops := o } fun e => .word 1 (BitVec.ofNat 32 (popcount 32 e.av.toNat)) e.tag)

def execBfx (o : Ops) (uns : Bool) (s : State) : Out :=
  .next (fire s s.locus (.bfx o uns) { ops := o } fun e => .word 1 (bitExtract uns e.av e.bv) e.tag)

def execBfi (o : Ops) (c : Sel) (s : State) : Out :=
  .next (fire s s.locus (.bfi o c) { ops := o, c := some c } fun e => .word 1 (bitInsert e.av e.bv e.cv) e.tag)

def execCmp (o : Ops) (cc : CmpCond) (s : State) : Out :=
  .next (fire s s.locus (.cmp o cc) { ops := o } fun e => .word 1 (boolWord (cc.holds e.av e.bv)) e.tag)

/-- SEL delivers the operand that the control token selects, with that operand's tag (R110). -/
def execSel (o : Ops) (s : State) : Out :=
  .next (fire s s.locus (.sel o) { ops := o, ctl := true } fun e =>
    if e.ctl then .word 1 e.av e.a.tag else .word 1 e.bv e.b.tag)

def execMov (o : Ops) (s : State) : Out :=
  .next (fire s s.locus (.mov o) { ops := o } fun e => .word 1 e.av e.a.tag)

/-- LDI delivers the literal's halves, each with tag 0 (R111). -/
def execLdi (o : Ops) (v : BitVec 64) (s : State) : Out :=
  .next (fire s s.locus (.ldi o v) { ops := o } fun _ =>
    .go { o0 := [wordTok (v.extractLsb' 0 32) 0], o1 := [wordTok (v.extractLsb' 32 32) 0] })

/-- The sum of ACC (R112). -/
def accAdd (k : AccKind) (x a : Word) : Word :=
  match k with
  | .wrap => x + a
  | .sat => intAdd ⟨true, false, .w32⟩ x a
  | .f32 r => f32Add r x a

def accLat : AccKind → Nat
  | .f32 _ => 4
  | _ => 1

/-- The accumulator register that a selector names, moved by REP. -/
def accReg (b : Sel) (k : Nat) : Nat :=
  match b with
  | .x j => j.toNat + k
  | _ => 0

/-- ACC adds into its register and keeps the tag; it delivers when the wave closes (R112). -/
def execAcc (o : Ops) (k : AccKind) (s : State) : Out :=
  .next (fire s s.locus (.acc o k) { ops := o } fun e =>
    .go { lat := accLat k, prog := some (.acc e.a.tag), xw := some (accReg o.b e.nd.rep.offset, accAdd k e.bv e.av) })

def execFadd (o : Ops) (r : Rnd) (s : State) : Out :=
  .next (fire s s.locus (.fadd o r) { ops := o } fun e => .word 4 (f32Add r e.av e.bv) e.tag)

def execFsub (o : Ops) (r : Rnd) (s : State) : Out :=
  .next (fire s s.locus (.fsub o r) { ops := o } fun e => .word 4 (f32Sub r e.av e.bv) e.tag)

def execFmul (o : Ops) (r : Rnd) (s : State) : Out :=
  .next (fire s s.locus (.fmul o r) { ops := o } fun e => .word 4 (f32Mul r e.av e.bv) e.tag)

def execFfma (o : Ops) (r : Rnd) (c : Sel) (s : State) : Out :=
  .next (fire s s.locus (.ffma o r c) { ops := o, c := some c } fun e => .word 4 (f32Fma r e.av e.bv e.cv) e.tag)

def execFmin (o : Ops) (s : State) : Out :=
  .next (fire s s.locus (.fmin o) { ops := o } fun e => .word 2 (f32MinMax false e.av e.bv) e.tag)

def execFmax (o : Ops) (s : State) : Out :=
  .next (fire s s.locus (.fmax o) { ops := o } fun e => .word 2 (f32MinMax true e.av e.bv) e.tag)

def execFcmp (o : Ops) (cc : FCond) (s : State) : Out :=
  .next (fire s s.locus (.fcmp o cc) { ops := o } fun e => .word 2 (boolWord (fcmpHolds cc e.av e.bv)) e.tag)

/-- CVT converts bits [w − 1:0] of its source (R83, R114). -/
def execCvt (o : Ops) (v : Cvt) (s : State) : Out :=
  .next (fire s s.locus (.cvt o v) { ops := o } fun e =>
    .word 4 (placeNarrow v.dst (convert v (e.av.toNat % 2 ^ v.src.width))) e.tag)

/-- MCTL delivers its template OR a, unless reserved bits are set (R115). -/
def execMctl (o : Ops) (v : BitVec 64) (s : State) : Out :=
  .next (fire s s.locus (.mctl o v) { ops := o } fun e =>
    let t := v.extractLsb' 0 32 ||| e.av
    if t.extractLsb' 0 15 ≠ 0 then .fault 0x02A e.info else .word 1 t e.tag)

/-- REP sets the count and index for the slot that follows, or skips it (R116). -/
def execRep (o : Ops) (stride : BitVec 3) (s : State) : Out :=
  .next (fire s s.locus (.rep o stride) { ops := o } fun e =>
    if e.av = 0 then .go { skip := true } else .go { rep := some { rem := e.av, stride := stride } })

end Sys2Proof.Machine
end

