-- ==== Sys2Proof/Machine/Wave.lean ====
section
/-!
DEFINITION. Waves (R34-R36, R102, R170, R171): the queues a node pops, the closing of a wave, the delivery of its
groups, the forwarding of its marker, the removal of markers in queues that are only peeked, and done events.
-/
namespace Sys2Proof

/-- The consumer slots that are arcs, kinds 01 and 10; LOOPOUT forwards markers on DST1 alone (R34, R186). -/
def Instr.arcs (i : Instr) : List Slot :=
  let isArc := fun x => match x with
    | Slot.queue _ _ _ => true
    | Slot.lane _ _ _ => true
    | _ => false
  match i with
  | .loopout o _ => [o.d1].filter isArc
  | i => [i.ops.d0, i.ops.d1].filter isArc

end Sys2Proof

namespace Sys2Proof.Machine

/-- What an open group of a slot delivers when the wave closes (R112, R138, R182); none where nothing is open. -/
def Node.groupOut (n : Node) (cyc slot : Nat) (i : Instr) : Option GroupOut :=
  let p := n.prog slot
  let red := fun (g : Option Group) (lat : Nat) (out : GroupSt → Word × Word) =>
    let x := groupOf p
    if x.n = 0 && spanOf g ≠ 0 then none
    else some (GroupOut.mk slot [wordTok (out x).1 0] [wordTok (out x).2 0] (x.at_ + lat))
  match i with
  | .acc o k =>
    let tag := match p with
      | .acc t => t
      | _ => 0
    let v := n.x (accReg o.b 0)
    some ⟨slot, [wordTok v tag], [wordTok v tag], cyc + accLat k⟩
  | .sink _ =>
    let c := match p with
      | .count k => k
      | _ => 0
    some ⟨slot, [wordTok (BitVec.ofNat 32 c) 0], [wordTok (BitVec.ofNat 32 c) 0], cyc + 1⟩
  | .vredadd _ _ _ g => red g 8 sumOut
  | .vredmax _ t g => red g 8 (maxOut t)
  | .vargmax _ t g => red g 8 fun x => canonWin t (argOut x)
  | .vlse _ _ g => red g 16 lseOut
  | .vdot _ _ _ g => red g 8 sumOut
  | .vnorm2 _ _ _ g => red g 8 sumOut
  | _ => none

/-- The open groups of a list of slots, in slot order: an accumulator is 0 for the slots after the one that delivers it, and
ACC slots deliver in slot order, so none is ready before `from_`, when those before it are (R112). -/
def Node.groupsOf (n : Node) (cyc from_ : Nat) : List (Nat × Instr) → List GroupOut
  | [] => []
  | e :: t =>
    match e.2, n.groupOut cyc e.1 e.2 with
    | .acc o _, some g =>
      let g1 := { g with readyAt := max from_ g.readyAt }
      g1 :: (n.setX (accReg o.b 0) 0).groupsOf cyc g1.readyAt t
    | _, g => g.toList ++ Node.groupsOf n cyc from_ t

def Node.groupOuts (n : Node) (cyc : Nat) : List GroupOut := n.groupsOf cyc 0 n.instrs

/-- The wave closes at a node: its open groups are ready to deliver (R170). -/
def Node.closeWave (n : Node) (cyc : Nat) : Node := { n with closed := true, outs := n.groupOuts cyc }

/-- A slot whose number is interrupted by the markers (R117). -/
def Node.interrupted (n : Node) : Option (Nat × Cause) :=
  n.instrs.findSome? fun e => (n.prog e.1).midCause.map fun c => (e.1, c)

/-- Whether a wave number is forwarded: not later than the last one forwarded. -/
def waveDone (fwd : Option (BitVec 16)) (w : BitVec 16) : Bool :=
  match fwd with
  | some f => (f - w).ult 0x8000
  | none => false

/-- Whether the head of a queue is a marker of a wave that the node has left behind at the stage from which it last switched
(R171, R372). -/
def Node.staleMark (n : Node) (q : Nat) : Bool :=
  match n.head q, n.prev with
  | some t, some (st, v) =>
    match t.tok with
    | .mark w _ => t.stage = st && waveDone (some v) w
    | _ => false
  | _, _ => false

/-- The queues whose head is a marker that goes: one of its stage that is only peeked, of a wave forwarded or of a node that
forwards none, and any of a wave that it has left behind (R171). -/
def Node.deadMarks (n : Node) : List Nat :=
  let none_ := n.popped.isEmpty
  let gone := fun q =>
    match n.head q with
    | some t =>
      match t.tok with
      | .mark w _ => t.stage = n.stage && (none_ || waveDone n.fwd w)
      | _ => false
    | none => false
  (dedup (n.peekOnly ++ n.qs.map Prod.fst)).filter fun q => n.staleMark q || (n.peekOnly.contains q && gone q)

/-- Whether a slot behind slot 0 that takes nothing from a queue, and has still to fire in the wave, can start: it goes ahead of the
marker (R101, R170, DEDUCED from the worked programs, log entry 75). One that stays on its slot fires at its turn only. -/
def State.endsWave (s : State) (n : NodeId) (nd : Node) : Bool :=
  match nd.offer with
  | none => false
  | some k =>
    match s.instrAt ⟨n, k⟩ with
    | none => false
    | some i =>
      let l : Loc := ⟨n, k⟩
      let r : FireReq := { ops := i.ops }
      let t0 := s.slotTarget l i.ops.d0
      let t1 := s.slotTarget l i.ops.d1
      k ≠ 0 && i.ops.nxt = .next && (popQs i.popSels ++ peekQs i.popSels ++ i.morePops).isEmpty && r.ctlThere nd false &&
        (match nd.prog k with | .arrived _ => false | _ => true) &&
        (r.guardOff nd || s.room t0 t1 (need t0 1 []) (need t1 1 []))

/-- WAVE_CLOSE (R170): the markers stand and every earlier firing has completed. -/
def State.waveClose (s : State) (n : NodeId) : State :=
  let nd := s.node n
  if !s.rowRuns n.row || s.endsWave n nd || nd.closed || nd.dry || !nd.fly.isEmpty || !nd.allMarked || nd.holdsMarker || !nd.deadMarks.isEmpty then s
  else
    match nd.interrupted with
    | some (sl, c) => s.raise n sl c {}
    | none => s.setNode n (nd.closeWave (s.cyc n.row.die))

/-- The group of a slot has delivered: its accumulator and progress reset (R112, R138, R182). -/
def Node.groupReset (n : Node) (slot : Nat) (i : Option Instr) : Node :=
  let n1 := match i with
    | some (.acc o _) => n.setX (accReg o.b 0) 0
    | _ => n
  n1.setProg slot .idle

/-- The group of a slot that is the next to deliver: the first to have its result, then in slot order (R170). -/
def Node.groupNext (n : Node) (slot : Nat) : Option GroupOut :=
  match n.outs.find? fun g => g.slot = slot with
  | none => none
  | some g =>
    if n.outs.all fun h => g.readyAt < h.readyAt || (g.readyAt = h.readyAt && g.slot ≤ h.slot) then some g else none

/-- GROUP_DELIVERY (R170): after the stated time, into free slots. -/
def State.groupDelivery (s : State) (l : Loc) : State :=
  let nd := s.node l.nd
  let i := s.instrAt l
  let o := match i with
    | some i => i.ops
    | none => {}
  let t0 := s.target l.nd o.d0
  let t1 := s.target l.nd o.d1
  match nd.groupNext l.slot with
  | none => s
  | some g =>
    if !s.rowRuns l.nd.row || s.cyc l.nd.row.die < g.readyAt || !s.room t0 t1 (need t0 1 []) (need t1 1 []) then s
    else
      let n1 := { nd with outs := nd.outs.filter fun h => h.slot ≠ l.slot }.groupReset l.slot i
      ((s.setNode l.nd n1).pushAll t0 g.o0).pushAll t1 g.o1

/-- Targets of a node's arcs, each once. -/
def dedupT : List Target → List Target
  | [] => []
  | x :: t => if (dedupT t).any (fun y => y.dst = x.dst) then dedupT t else { x with last := false } :: dedupT t

def State.arcTargets (s : State) (n : NodeId) : List Target :=
  dedupT (((s.node n).instrs.flatMap fun e => e.2.arcs).map fun sl => s.target n sl)

/-- Whether every arc has a free slot for one token; arcs that share a store need one each. -/
def State.arcRoom (s : State) (ts : List Target) : Bool :=
  ts.all fun t => (ts.filter fun u => u.dst.store = t.dst.store).length ≤ s.destFree t.dst

/-- The marker at the head of the first popped queue: wave number, and the final flag of any. -/
def Node.markHead (n : Node) : Option (BitVec 16 × Bool) :=
  let ms := n.popped.filterMap fun q =>
    match n.head q with
    | some t => (match t.tok with | .mark w f => some (w, f) | _ => none)
    | none => none
  match ms with
  | [] => none
  | m :: _ => some (m.1, ms.any fun x => x.2)

/-- Drop the oldest unclaimed token. -/
def dropFree : List QTok → List QTok
  | [] => []
  | t :: r => if t.claim = 0 then r else t :: dropFree r

/-- Drop the head of each queue of a list. -/
def Node.dropHeads (n : Node) : List Nat → Node
  | [] => n
  | q :: t => Node.dropHeads (n.setQueue q { n.queue q with toks := dropFree (n.queue q).toks }) t

/-- What a forwarded marker resets in a slot: STEER's and RMERGE's counters, kill lists, beat cursors, scan carries
(R142, R144, R177, R179, R189). -/
def Prog.atMarker (p : Prog) : Prog :=
  match p with
  | .steer _ => .idle
  | .rmerge _ _ => .idle
  | .keys _ => .idle
  | .cursor _ => .idle
  | .group _ => .idle
  | p => p

/-- The node after it forwarded a wave's marker: markers removed, counters and sequencer (R102, R171, R183). In a row
that goes on to another stage the node starts nothing until it has switched (R372). A marker that is forwarded while a REP
target with NXT = 11 has repetitions left sets the sequencer to slot 0 and leaves the count, which slot 0's firings then use up
(DESIGN CHOICE, log entry 89). -/
def Node.forwarded (n : Node) (wave : BitVec 16) (switch : Bool) : Node :=
  let n1 := n.dropHeads n.popped
  let nx := match n.instrs.find? (fun e => e.1 = n.seq) with
    | some e => e.2.nxt
    | none => .next
  { n1 with closed := false, fwd := some wave, marks := n.marks + 1, seq := if nx = .mark then 0 else n.seq,
            progs := n1.progs.map fun e => (e.1, e.2.atMarker), dry := switch }

/-- Whether the row goes on to another stage after this wave (R370). -/
def State.scrolls (s : State) (r : RowId) : Bool :=
  match s.bandOf r with
  | none => false
  | some (_, b) => !b.mode && (s.row r).reel.hosts && (s.row r).reel.nxt ≠ (s.row r).reel.hosted

/-- A port's cursors return to 0 at a marker (R240). -/
def Port.rewind (p : Port) : Port := { p with streams := p.streams.map fun e => (e.1, { e.2 with cursor := 0 }) }

/-- Bytes by offset as runs of neighbours. -/
def byteRuns : Tbl Byte → List (Nat × List Byte)
  | [] => []
  | (o, v) :: t =>
    match byteRuns t with
    | (o1, vs) :: r => if o1 = o + 1 then (o, v :: vs) :: r else (o, [v]) :: (o1, vs) :: r
    | [] => [(o, [v])]

/-- The other port of a row. -/
def otherPort (n : NodeId) : NodeId := { n with node := if n.node = 34 then 35 else 34 }

/-- Before bytes that fill a block in part are merged into it: the stored block is verified and its check value made anew, in the
step of the merge; where it is bad the port faults, and the block stays bad (R203, R212, R213, log entry 96). -/
def State.merging (s : State) (n : NodeId) (h : Home) (va len : Nat) : State :=
  if 64 ≤ len then s
  else
    match s.homeErr h 64 with
    | some c => s.raise n 255 c { addr1 := va }
    | none => s.correct h 64

/-- A block of a port's coalescing buffer is written to its home. -/
def State.writeBlock (n : NodeId) (s : State) (b : CBlock) : State :=
  (byteRuns b.bytes).foldl (fun x e => x.writeHome (b.home.plus e.1) e.2) (s.merging n b.home b.va b.bytes.length)

/-- Whether a block may leave for its home: it is held for no iteration, and no rebuild is due there (R245, R396). -/
def State.mayLeave (s : State) (b : CBlock) : Bool := b.spec.isNone && !s.unrebuilt b.home 64

/-- The aligned 128-byte units whose buffered blocks leave when a test names blocks of a port's buffer. -/
def State.leavingUnits (s : State) (p : Port) (sel : CBlock → Bool) : List Home :=
  (p.buf.filter fun b => s.mayLeave b && sel b).map fun b => b.home.unit

/-- The blocks of one buffer that lie in units that leave are written to their homes, oldest first. -/
def State.flushUnits (s : State) (n : NodeId) (us : List Home) : State :=
  let p := s.port n
  let out := fun (b : CBlock) => s.mayLeave b && us.contains b.home.unit
  ((p.buf.filter out).foldl (State.writeBlock n) s).setPort n { p with buf := p.buf.filter fun b => !out b }

/-- The blocks of a port's buffer that a test names leave for their homes (R244, R245, R256). With a block leaves all that the
row's buffers hold of its aligned 128-byte unit: its other half, and the bytes that the other port stored over it, so that no
reader at home sees a part of a store (R222). -/
def State.flushIf (s : State) (n : NodeId) (sel : CBlock → Bool) : State :=
  let us := s.leavingUnits (s.port n) sel
  if us.isEmpty then s
  else if (s.port (otherPort n)).buf.any fun b => us.contains b.home.unit then (s.flushUnits n us).flushUnits (otherPort n) us
  else s.flushUnits n us

/-- What a port node does besides when it forwards a marker. -/
def State.portMarker (s : State) (n : NodeId) : State :=
  if n.node = 34 || n.node = 35 then
    let s1 := s.flushIf n fun _ => true
    s1.setPort n (s1.port n).rewind
  else s

/-- Whether the node can forward its wave's marker now, arcs apart. -/
def State.canForward (s : State) (n : NodeId) : Bool :=
  let nd := s.node n
  s.rowRuns n.row && nd.closed && nd.outs.isEmpty && nd.fly.isEmpty && nd.allMarked

/-- Whether a node has passed the marker of a wave of its row's stage on: it has switched, or forwarded it. -/
def Node.passed (n : Node) (stage : Nat) (w : BitVec 16) : Bool := n.stage ≠ stage || n.fwd = some w

/-- The node queue that an ingress map byte names (R369). -/
def imapQueue (x : Byte) : Option (Nat × Nat) := if x = 0xFF then none else some (x.toNat / 4, x.toNat % 4)

/-- The ingress map of the stage that a row hosts. -/
def State.rowMap (s : State) (r : RowId) : List Byte :=
  match s.bandOf r with
  | none => []
  | some (_, b) =>
    match b.desc.stages[(s.row r).reel.hosted]? with
    | none => []
    | some st => st.imap

/-- Whether a marker stands anywhere in a queue. -/
def Queue.marked (q : Queue) : Bool := q.toks.any fun t => t.tok.isMark

/-- Whether some node that forwards markers has not passed one on yet: a marker stands in a queue that it pops, or the
ingress map names one; markers reach every other node from a node that has not passed them on (R34, R35). -/
def Row.owesMark (r : Row) (imap : List Byte) (passed : Node → Bool) : Bool :=
  let ins := (imap.take 15).filterMap imapQueue
  r.nodes.any fun e => !passed e.2 && e.2.popped.any fun q => (e.2.queue q).marked || ins.contains (e.1, q)

/-- A node as it stands for the stage that its row goes on to: one that has not switched yet with the shadow's instructions. -/
def Node.atStage (n : Node) (st : Nat) : Node := if n.stage = st then n else { n with store := n.shadow, stage := st, fwd := none }

/-- The rows' nodes as they stand for the last stage of a pipeline; none where the row neither hosts it nor goes on to it. -/
def Row.lastStage (r : Row) (d : Nat) : Option Row :=
  let x := r.reel
  if !x.hosts then none
  else if x.hosted + 1 = d then some r
  else if x.nxt + 1 = d && x.sh = .ready then some { r with nodes := r.nodes.map fun e => (e.1, e.2.atStage x.nxt) }
  else none

/-- A marker that every forwarding node of the last stage has passed on ends its wave; the final one the launch's. A node of the row
that has not switched to that stage yet, and forwards no marker in it, does not hold the end back (R36, R400). -/
def State.waveEnded (s : State) (r : RowId) (w : BitVec 16) (fin : Bool) : State :=
  match s.bandOf r with
  | none => s
  | some (k, b) =>
    let st := b.desc.d - 1
    let imap := match b.desc.stages[st]? with
      | some e => e.imap
      | none => []
    match (s.row r).lastStage b.desc.d with
    | none => s
    | some x => if x.owesMark imap (fun e => e.passed st w) then s else s.setBand r.die k { b with ended := b.ended + 1, fin := b.fin || fin }

/-- MARKER_FORWARD (R170): first the markers of peeked queues go (R171); else one marker to each arc. -/
def State.markerForward (s : State) (n : NodeId) : State :=
  let nd := s.node n
  if s.rowRuns n.row && !nd.deadMarks.isEmpty then s.setNode n (nd.dropHeads nd.deadMarks)
  else
    let ts := s.arcTargets n
    match nd.markHead with
    | none => s
    | some (w, f) =>
      if !s.canForward n || ts.isEmpty || !s.arcRoom ts then s
      else
        let s1 := ((s.portMarker n).setNode n ((s.portMarker n).node n |>.forwarded w (s.scrolls n.row)))
        (ts.foldl (fun x t => x.push t (.mark w f)) ((s1.count n.row 0 1).noteStart n.row)).waveEnded n.row w f

/-- The word of a done event (R346). -/
def doneWord (w : BitVec 16) (f : Bool) : Word := (BitVec.ofBool f).setWidth 32 <<< 16 ||| w.setWidth 32

/-- DONE_EVENT (R35, R346): a node that names no arc gives its marker to Q3 of its row's control cell. -/
def State.doneEvent (s : State) (n : NodeId) : State :=
  let nd := s.node n
  let t : Target := ⟨.queue { n with node := 36 } 3, false, 0⟩
  match nd.markHead with
  | none => s
  | some (w, f) =>
    if !s.canForward n || !(s.arcTargets n).isEmpty || s.destFree t.dst = 0 then s
    else
      let s0 := s.portMarker n
      let s1 := s0.setNode n ((s0.node n).forwarded w (s.scrolls n.row))
      (((s1.count n.row 0 1).noteStart n.row).push t (wordTok (doneWord w f) 0)).waveEnded n.row w f

end Sys2Proof.Machine
end

