-- ==== Sys2Proof/Machine/Steer.lean ====
section
/-!
DEFINITION. The steering instructions but the loops (R174-R184, R188, R189), RMERGE's order store, and kills.
-/
namespace Sys2Proof.Machine

/-- The tag of an end-of-run token (R175). -/
def endTag : RTag := 0xFFFFFF

/-- A group of G tokens of a queue (R174): a marker at its head blocks, a marker inside it is a fault. -/
inductive Grp where
  | wait
  | mark
  | toks (ts : List Tok)

def Node.group (n : Node) (q g : Nat) : Grp :=
  let ts := freeToks g (n.queue q).toks
  match ts with
  | [] => .wait
  | t :: r =>
    if t.tok.isMark then .wait
    else if r.any fun x => x.tok.isMark then .mark
    else if ts.length < g then .wait
    else .toks (ts.map QTok.tok)

/-- The queue number of a pop or peek selector. -/
def selQ (s : Sel) : Nat :=
  match s.queue? with
  | some q => q.toNat
  | none => 0

/-- The tokens of a record as its node emits them: values and tags as they are (R174). -/
def reemit (ts : List Tok) : List Tok := ts.map fun t => wordTok t.word32 t.tag

/-- The counters of STEER and RMERGE count modulo 2^24 and skip the end tag (R177, R179). -/
def nextIx (r : BitVec 24) : BitVec 24 := if r + 1 = endTag then 0 else r + 1

def steerR (p : Prog) : BitVec 24 :=
  match p with
  | .steer r => r
  | _ => 0

/-- STEER sends a record to the arm that its control token names; NUM numbers it (R177). -/
def execSteer (o : Ops) (num : Bool) (g : BitVec 2) (s : State) : Out :=
  .next (fire s s.locus (.steer o num g) { ops := o, ctl := true, verify := false, own := g ≠ 0 } fun e =>
    let n := g.toNat + 1
    let go := fun (ts : List Tok) =>
      let r := steerR e.prog
      let rec_ := if num then ts.map fun t => wordTok t.word32 r else reemit ts
      Res.go { o0 := if e.ctl then [] else rec_, o1 := if e.ctl then rec_ else [], n0 := n, n1 := n,
               prog := if num then some (.steer (nextIx r)) else none,
               pops := if g = 0 then none else some [(selQ o.a, n)] }
    if g = 0 then go [e.a]
    else
      match e.nd.group (selQ o.a) n with
      | .wait => .wait
      | .mark => .fault 0x062 (e.info (BitVec.ofNat 32 (selQ o.a)))
      | .toks ts => go ts)

/-- MERGE takes a record from the queue that its control token chooses (R178). -/
def execMerge (o : Ops) (g : BitVec 2) (s : State) : Out :=
  .next (fire s s.locus (.merge o g) { ops := o, ctl := true, verify := false, own := true } fun e =>
    let n := g.toNat + 1
    let q := if e.ctl then selQ o.b else selQ o.a
    let other := if e.ctl then selQ o.a else selQ o.b
    if e.nd.markAt q && !e.nd.markAt other then .fault 0x062 (e.info (BitVec.ofNat 32 q))
    else
      match e.nd.group q n with
      | .wait => .wait
      | .mark => .fault 0x062 (e.info (BitVec.ofNat 32 q))
      | .toks ts => .go { o0 := reemit ts, o1 := reemit ts, n0 := n, n1 := n, pops := some [(q, n)] })

/-- Whether key a is below key b (R180). -/
def keyLess (k : MKey) (a b : Word) : Bool :=
  match k with
  | .i32 => a.slt b
  | .n32 => a.ult b
  | .f32 => f32Rank a b < 0
  | .x => false

/-- MERGE2 merges two sorted runs, stably (R180). -/
def execMerge2 (o : Ops) (key : MKey) (desc : Bool) (g : Option (BitVec 2)) (s : State) : Out :=
  .next (fire s s.locus (.merge2 o key desc g) { ops := o, verify := false, own := true } fun e =>
    let n := (g.getD 0).toNat + 1
    let qa := selQ o.a
    let qb := selQ o.b
    match e.nd.head qa, e.nd.head qb with
    | some ha, some hb =>
      if ha.tok.isMark && hb.tok.isMark then .wait
      else if ha.tok.isMark then .fault 0x062 (e.info (BitVec.ofNat 32 qa))
      else if hb.tok.isMark then .fault 0x062 (e.info (BitVec.ofNat 32 qb))
      else
        let ea := ha.tok.tag = endTag
        let eb := hb.tok.tag = endTag
        let take := fun (q k : Nat) =>
          match e.nd.group q n with
          | .wait => Res.wait
          | .mark => .fault 0x062 (e.info (BitVec.ofNat 32 q))
          | .toks ts => .go { o0 := reemit ts, o1 := reemit ts, n0 := n, n1 := n, pops := some [(q, n)], ctls := k }
        if ea && eb then
          let t := [wordTok (ha.tok.word32 + hb.tok.word32) endTag]
          .go { o0 := t, o1 := t, pops := some [(qa, 1), (qb, 1)] }
        else if ea then take qb 0
        else if eb then take qa 0
        else
          let a := ha.tok.word32
          let b := hb.tok.word32
          match key with
          | .x =>
            match firstFree e.nd.ctl.toks with
            | none => .wait
            | some c => if c.tok.ctlVal then take qb 1 else take qa 1
          | _ => if (if desc then keyLess key a b else keyLess key b a) then take qb 0 else take qa 0
    | _, _ => .wait)

/-! ## RMERGE (R179) -/

def rmergeSt (p : Prog) : BitVec 24 × List (BitVec 24 × List QTok) :=
  match p with
  | .rmerge e st => (e, st)
  | _ => (0, [])

/-- The record of an index in the order store. -/
def storeGet (e : BitVec 24) : List (BitVec 24 × List QTok) → Option (List QTok)
  | [] => none
  | (k, v) :: t => if k = e then some v else storeGet e t

def storeDel (e : BitVec 24) : List (BitVec 24 × List QTok) → List (BitVec 24 × List QTok)
  | [] => []
  | (k, v) :: t => if k = e then t else (k, v) :: storeDel e t

/-- RMERGE delivers the record with the expected index from its store (R179). -/
def execRmerge (o : Ops) (size : BitVec 12) (g : BitVec 2) (s : State) : Out :=
  .next (fire s s.locus (.rmerge o size g) { ops := o, verify := false, own := true } fun e =>
    let (x, st) := rmergeSt e.prog
    match storeGet x st with
    | some ts =>
      let r := reemit (ts.map QTok.tok)
      .go { o0 := r, o1 := r, n0 := g.toNat + 1, n1 := g.toNat + 1, pops := some [],
            prog := some (.rmerge (nextIx x) (storeDel x st)) }
    | none =>
      if e.nd.markAt (selQ o.a) && e.nd.markAt (selQ o.b) && !st.isEmpty then
        .fault 0x061 (e.info (BitVec.ofNat 32 (selQ o.a)))
      else .wait)

/-- Whether index j lies at or after e (R179). -/
def atOrAfter (e j : BitVec 24) : Bool := (j - e).ult 0x800000

/-- The index of the record at the head of a queue, if the record stands there whole. -/
def Node.recordIx (n : Node) (q g : Nat) : Option (BitVec 24) :=
  match n.group q g with
  | .toks (t :: _) => some t.tag
  | _ => none

/-- Entries of RMERGE's store in use: its records, and those of firings that have not completed (R166, R179). -/
def Node.storeUsed (n : Node) (slot : Nat) : Nat :=
  (rmergeSt (n.prog slot)).2.length + (n.fly.filter fun f => f.slot = slot).length

/-- A record that enters an order store changes the store's bank (R199). -/
def State.enterOrder (s : State) (l : Loc) : State :=
  match s.bandOf l.nd.row with
  | none => s
  | some (_, b) => s.pushMade l.nd.row.die b (.order (s.node l.nd).stage l.nd.node l.slot)

/-- RMERGE_TAKE (R173, R179): the record at the head of an arm enters the store; an index below e, or one held
already, is a fault; with one entry left, the lower of two indices that could enter does. -/
def State.rmergeTake (s : State) (l : Loc) (arm : Bool) : State :=
  let nd := s.node l.nd
  match s.instrAt l with
  | some (.rmerge o size g) =>
    if !s.rowRuns l.nd.row || nd.closed then s
    else
      let n := g.toNat + 1
      let q := selQ (if arm then o.b else o.a)
      let q2 := selQ (if arm then o.a else o.b)
      let (x, st) := rmergeSt (nd.prog l.slot)
      match nd.group q n with
      | .mark => s.raise l.nd l.slot 0x062 { aux := BitVec.ofNat 32 q }
      | .wait => s
      | .toks ts =>
        let j := (ts.headD (.word 0 0 0)).tag
        if !atOrAfter x j || (storeGet j st).isSome then
          s.raise l.nd l.slot 0x060 { a := (ts.headD (.word 0 0 0)).word32, tag := j, aux := BitVec.ofNat 32 q }
        else if size.toNat + 1 ≤ nd.storeUsed l.slot then s
        else
          let yields := nd.storeUsed l.slot = size.toNat && (match nd.recordIx q2 n with
            | some j2 => atOrAfter x j2 && (storeGet j2 st).isNone && (j2 - x).ult (j - x)
            | none => false)
          if yields then s
          else
            let rec_ := freeToks n (nd.queue q).toks
            let qu := nd.queue q
            let n1 := nd.setQueue q { qu with toks := (List.range n).foldl (fun ts _ => dropFree ts) qu.toks }
            (s.enterOrder l).setNode l.nd (n1.setProg l.slot (.rmerge x (st ++ [(j, rec_)])))
  | _ => s

/-! ## Gates, sinks, marks (R181-R184) -/

def creditOf (p : Prog) : BitVec 16 :=
  match p with
  | .credit c => c
  | _ => 0

/-- GATE takes a control token into its credit first, or passes a token on credit (R181). -/
def execGate (o : Ops) (n : BitVec 16) (s : State) : Out :=
  .next (fire s s.locus (.gate o n) { ops := o, verify := false, own := true } fun e =>
    let c := creditOf e.prog
    match firstFree e.nd.ctl.toks with
    | some t =>
      .go { pops := some [], ctls := 1,
            prog := some (.credit (if t.tok.ctlVal then BitVec.ofNat 16 (min 65535 (c.toNat + n.toNat)) else 0)) }
    | none =>
      match e.nd.head (selQ o.a) with
      | none => .wait
      | some t =>
        if c = 0 || t.tok.isMark then .wait
        else .go { o0 := reemit [t.tok], o1 := reemit [t.tok], prog := some (.credit (c - 1)) })

def countOf (p : Prog) : Nat :=
  match p with
  | .count k => k
  | _ => 0

/-- SINK absorbs its token and counts it (R182). -/
def execSink (o : Ops) (s : State) : Out :=
  .next (fire s s.locus (.sink o) { ops := o, verify := false } fun e =>
    .go { prog := some (.count (countOf e.prog + 1)) })

/-- Whether a node has an ACC or SINK slot, which MARK delivers first (R183). -/
def Node.hasCounts (n : Node) : Bool :=
  n.instrs.any fun e =>
    match e.2 with
    | .acc _ _ => true
    | .sink _ => true
    | _ => false

/-- MARK creates a marker, once the wave it closes at the node has delivered its counts (R183). -/
def execMark (o : Ops) (s : State) : Out :=
  .next (fire s s.locus (.mark o) { ops := o, verify := false, serial := true, close := true } fun e =>
    if e.nd.closed && e.nd.allMarked then .wait
    else if e.nd.hasCounts && !e.nd.closed then .set (e.s.setNode e.l.nd (e.nd.closeWave (e.s.cyc e.l.nd.row.die)))
    else
      let t := [Tok.mark e.nd.marks (e.av.getLsbD 0)]
      .go { o0 := t, o1 := t, eff := fun x =>
        let nd := x.node e.l.nd
        x.setNode e.l.nd { nd with closed := false, marks := nd.marks + 1,
                                   seq := if o.nxt = .mark then 0 else nd.seq } })

/-- ENDRUN delivers its operand as an end-of-run token (R184). -/
def execEndrun (o : Ops) (s : State) : Out :=
  .next (fire s s.locus (.endrun o) { ops := o, verify := false } fun e => .word 1 e.av endTag)

/-! ## Kill (R188, R189) -/

/-- Whether a key with its shift kills a tag (R188). -/
def killsTag (key : BitVec 24) (sh : Nat) (t : RTag) : Bool :=
  t ≠ endTag && t.toNat / 2 ^ sh = key.toNat / 2 ^ sh && key.toNat % 2 ^ sh ≤ t.toNat % 2 ^ sh

def killsTok (key : BitVec 24) (sh : Nat) (t : Tok) : Bool :=
  match t with
  | .word _ g _ => killsTag key sh g
  | _ => false

def keysOf (p : Prog) : List (BitVec 24 × BitVec 5) :=
  match p with
  | .keys ks => ks
  | _ => []

/-- KCHK passes its token unless a key of its list kills it (R189). -/
def execKchk (o : Ops) (s : State) : Out :=
  .next (fire s s.locus (.kchk o) { ops := o, verify := false } fun e =>
    if (keysOf e.prog).any fun k => killsTok k.1 k.2.toNat e.a then
      .go { eff := fun x => x.count e.l.nd.row 6 1 }
    else .go { o0 := reemit [e.a], o1 := reemit [e.a] })

/-- The KCHK slots of a row. -/
def Row.kchks (r : Row) (id : RowId) : List Loc :=
  r.nodes.flatMap fun e => e.2.instrs.filterMap fun x =>
    match x.2 with
    | .kchk _ => some ⟨⟨id, e.1⟩, x.1⟩
    | _ => none

/-- Rows of a region. -/
def Region.rowIds (g : Region) (die : Nat) : List RowId := (upFrom g.first g.nrows).map fun r => ⟨die, g.cl, r⟩

/-- The KCHK slots of every region of an owner on a die but the frozen ones, and the owner's frozen regions (R188, R335). -/
def State.killTargets (s : State) (die : Nat) (owner : BitVec 12) : List Loc × List Nat :=
  let gs := (s.die die).regions.filter fun e => e.2.valid && e.2.owner = owner
  let run := gs.filter fun e => e.2.st ≠ .frozen
  let frz := gs.filter fun e => e.2.st = .frozen
  (run.flatMap fun e => (e.2.rowIds die).flatMap fun r => (s.row r).kchks r, frz.map Prod.fst)

/-- KILL sends its key to every KCHK slot of its context on the die, and completes when all have it (R188). -/
def execKill (o : Ops) (sh : BitVec 5) (s : State) : Out :=
  .next (fire s s.locus (.kill o sh) { ops := o, verify := false, serial := true } fun e =>
    let die := e.l.nd.row.die
    let d := e.s.die die
    let t := e.s.killTargets die (e.s.ownerOf e.l.nd.row)
    let m : KillMsg := ⟨e.av.setWidth 24, sh, e.l.nd, e.id, t.1, t.2⟩
    .go { o0 := [wordTok 1 e.tag], o1 := [wordTok 1 e.tag], await := if m.dst.isEmpty && m.regs.isEmpty then .nothing else .hub d.nkill,
          eff := fun x => if m.dst.isEmpty && m.regs.isEmpty then x else
            x.setDie die { x.die die with kills := tset (x.die die).kills d.nkill m, nkill := d.nkill + 1 } })

/-- Remove the unclaimed killed word tokens of a queue: what is left, and how many went (R189). -/
def Queue.purge (q : Queue) (key : BitVec 24) (sh : Nat) : Queue × Nat :=
  let keep := q.toks.filter fun t => !(t.claim = 0 && killsTok key sh t.tok)
  ({ q with toks := keep }, q.toks.length - keep.length)

def Node.purge (n : Node) (key : BitVec 24) (sh : Nat) : Node × Nat :=
  let qs := n.qs.map fun e => (e.1, e.2.purge key sh)
  ({ n with qs := qs.map fun e => (e.1, e.2.1) }, qs.foldl (fun a e => a + e.2.2) 0)

/-- Every node queue of a row and every word lane that ends at it loses its killed tokens. -/
def State.purgeRow (s : State) (r : RowId) (key : BitVec 24) (sh : Nat) : State :=
  let rw := s.row r
  let ns := rw.nodes.map fun e => (e.1, e.2.purge key sh)
  let ls := rw.lanes.map fun e => (e.1, e.2.purge key sh)
  let k := (ns.foldl (fun a e => a + e.2.2) 0) + ls.foldl (fun a e => a + e.2.2) 0
  (s.setRow r { rw with nodes := ns.map fun e => (e.1, e.2.1), lanes := ls.map fun e => (e.1, e.2.1) }).count r 6 k

/-- Whether a KCHK stands at a place. -/
def State.isKchk (s : State) (l : Loc) : Bool :=
  match s.instrAt l with
  | some (.kchk _) => true
  | _ => false

/-- A key reaches a KCHK slot (R189): a ninth key faults, is not added and removes nothing. A slot that has come to hold another
instruction since the KILL takes no key. -/
def State.addKey (s : State) (l : Loc) (key : BitVec 24) (sh : BitVec 5) : State :=
  let ks := keysOf ((s.node l.nd).prog l.slot)
  if !s.isKchk l then s
  else if 8 ≤ ks.length then s.raise l.nd l.slot 0x063 { a := key.setWidth 32, tag := key }
  else
    let s1 := s.purgeRow l.nd.row key sh.toNat
    s1.setNode l.nd ((s1.node l.nd).setProg l.slot (.keys (ks ++ [(key, sh)])))

/-- The kill is done when every slot and region has it: its firing may complete. -/
def State.killDone (s : State) (die k : Nat) (m : KillMsg) : State :=
  if m.dst.isEmpty && m.regs.isEmpty then
    (s.setDie die { s.die die with kills := tdel (s.die die).kills k }).wake m.src m.fid id
  else s.setDie die { s.die die with kills := tset (s.die die).kills k m }

/-- A region that resumed before a kill came: each of its KCHK slots receives it (R188). -/
def State.killRegion (s : State) (die : Nat) (g : Region) (m : KillMsg) : State :=
  ((g.rowIds die).flatMap fun r => (s.row r).kchks r).foldl (fun s l => s.addKey l m.key m.sh) s

/-- KILL_ARRIVAL (R188, R189, R335): at a KCHK slot of a running region the key takes effect; a frozen region's
pending list takes it. A region that has frozen since counts as frozen, one that is released or gone as reached. -/
def State.killArrival (s : State) (l : Loc) (k : Nat) : State :=
  let die := l.nd.row.die
  match tget (s.die die).kills k with
  | none => s
  | some m0 =>
    let owner := s.ownerOf m0.src.row
    let m := { m0 with regs := m0.regs.filter fun x => (s.region die x).valid && (s.region die x).owner = owner && (s.region die x).st ≠ RegSt.releasing }
    match s.regionOf l.nd.row with
    | none => s.killDone die k { m with dst := m.dst.filter fun x => x ≠ l }
    | some (ri, g) =>
      let rest := m.regs.filter fun x => x ≠ ri
      if g.st = .frozen then
        let m1 := { m with dst := m.dst.filter (fun x => !(x.nd.row.cl = g.cl && g.first ≤ x.nd.row.row && x.nd.row.row < g.first + g.nrows)),
                           regs := rest }
        if m.dst.contains l || m.regs.contains ri then
          (s.setRegion die ri { g with pkill := g.pkill ++ [(m.key, m.sh)] }).killDone die k m1
        else s
      else if m.dst.contains l then (s.addKey l m.key m.sh).killDone die k { m with dst := m.dst.filter fun x => x ≠ l }
      else if m.regs.contains ri then (s.killRegion die g m).killDone die k { m with regs := rest }
      else s.killDone die k m

end Sys2Proof.Machine
end

