-- ==== Sys2Proof/Machine/Cell.lean ====
section
/-!
DEFINITION. The control cell's instructions (R346-R362, R384), and the events of the control column: decisions,
enables, dones and final words (R349-R351).
-/
namespace Sys2Proof.Machine

/-! ## Controllers -/

def State.ctlAt (s : State) (die cl c : Nat) : Option Ctl := tget (s.cluster die cl).ctls c

def State.setCtl (s : State) (die cl c : Nat) (x : Ctl) : State :=
  let k := s.cluster die cl
  s.setCluster die cl { k with ctls := tset k.ctls c x }

def State.addTransit (s : State) (die cl : Nat) (t : Transit) : State :=
  let k := s.cluster die cl
  s.setCluster die cl { k with transit := k.transit ++ [t] }

/-- The children of a controller that are controllers: those that name it as parent. -/
def childOf (ctls : Tbl Ctl) (c pos : Nat) : Option Nat :=
  (ctls.find? fun e => e.2.parent = c && e.2.pos = pos).map Prod.fst

/-- The control-column entry of a controller index of a region, none where it lies beyond the region (R347). -/
def ctlEntry (g : Region) (c : Nat) : Option Nat := if c < 2 * g.nrows && c < 56 then some (2 * g.first + c) else none

/-- A controller as arming leaves it, with where its final word goes and that word's tag (R348, R349, R354). -/
def armed (m : CtlMode) (n : Nat) (cfg : CtlCfg) (parent : Nat) (l : Loc) (dst : Target) (tag : RTag) : Ctl :=
  let k := cfg.nch1.toNat + 1
  { mode := m, n := n, parent := parent, pos := cfg.pos.toNat, nch := k, k := cfg.k.toNat,
    e := List.replicate k 0, d := List.replicate k 0, w := List.replicate (k - 1) 1, arm := l, dst := dst, tag := tag }

/-- A new run: no enables or dones counted yet (R349). -/
def Ctl.start (c : Ctl) : Ctl :=
  { c with run := true, e := List.replicate c.nch 0, d := List.replicate c.nch 0, x := 0, stop := none, latch := [] }

/-- Arming (R347, R348); a root's run starts at its completion. -/
def armRes (e : Env) (o : Ops) (m : CtlMode) (n : Nat) (cfg : CtlCfg) : Res :=
  let r := e.l.nd.row
  match e.s.regionOf r with
  | none => .wait
  | some (_, g) =>
    let p := if cfg.parent = 63 then some 63 else ctlEntry g cfg.parent.toNat
    match ctlEntry g cfg.id.toNat, p with
    | some c, some p =>
      let ctls := (e.s.cluster r.die r.cl).ctls
      let running := match tget ctls c with
        | some x => x.run
        | none => false
      let badPos := match tget ctls p with
        | some x => p ≠ 63 && x.nch ≤ cfg.pos.toNat
        | none => false
      let badKids := ctls.any fun k => k.2.parent = c && cfg.nch1.toNat + 1 ≤ k.2.pos
      if running then .wait
      else if badPos || badKids then .fault 0x120 e.info
      else
        let held := match tget ctls p with
          | some x => p ≠ 63 && (tget x.latch cfg.pos.toNat).isSome
          | none => false
        .go { o1 := [wordTok 1 e.a.tag], eff := fun s =>
                let k := armed m n cfg p e.l (e.s.slotTarget e.l o.d0) e.a.tag
                let s1 := s.setCtl r.die r.cl c (if held then k.start else k)
                if held then
                  match s1.ctlAt r.die r.cl p with
                  | some x => s1.setCtl r.die r.cl p { x with latch := tdel x.latch cfg.pos.toNat }
                  | none => s1
                else s1 }
    | _, _ => .fault 0x120 e.info

/-- A root's run starts when its arming completes (R348). -/
def State.startRoot (s : State) (n : NodeId) (f : Firing) (cfg : CtlCfg) : State :=
  match s.regionOf n.row with
  | none => s
  | some (_, g) =>
    match ctlEntry g cfg.id.toNat with
    | none => s
    | some c =>
      match s.ctlAt n.row.die n.row.cl c with
      | none => s
      | some x => if x.parent = 63 && x.arm = ⟨n, f.slot⟩ && !x.run then s.setCtl n.row.die n.row.cl c x.start else s

def cellReq (o : Ops) : FireReq := { ops := o, verify := false, serial := true }

def execSeq (o : Ops) (cfg : CtlCfg) (s : State) : Out :=
  .next (fire s s.locus (.seq o cfg) (cellReq o) fun e => armRes e o .seq e.av.toNat cfg)

def execPipe (o : Ops) (opn : Bool) (cfg : CtlCfg) (s : State) : Out :=
  .next (fire s s.locus (.pipe o opn cfg) (cellReq o) fun e =>
    if opn then armRes e o .openPipe 0 cfg else armRes e o .pipe e.av.toNat cfg)

def execStrm (o : Ops) (cfg : CtlCfg) (s : State) : Out :=
  .next (fire s s.locus (.strm o cfg) (cellReq o) fun e => armRes e o .strm e.av.toNat cfg)

def Ctl.isOpen (c : Ctl) : Bool := c.mode = .openPipe

def nth (l : List Nat) (i : Nat) : Nat := (l[i]?).getD 0

/-- Whether child i is enabled for iteration j = E_i (R349, R350). -/
def Ctl.enables (c : Ctl) (i : Nat) : Bool :=
  let j := nth c.e i
  let below := match c.stop with
    | some t => j ≤ t
    | none => true
  below && (c.isOpen || j < c.n) && nth c.d i = j &&
  (match c.mode with
   | .seq => if i = 0 then nth c.d (c.nch - 1) = j else nth c.d (i - 1) = j + 1
   | .strm => true
   | _ => (i = 0 || j + 1 ≤ nth c.d (i - 1)) && (i + 1 = c.nch || j - nth c.d (i + 1) ≤ nth c.w i) &&
          (!c.isOpen || i ≠ 0 || j - c.x ≤ c.k))

/-- Whether the run has ended (R349). -/
def Ctl.ended (c : Ctl) : Bool :=
  if c.isOpen then c.stop.isSome && c.d = c.e else c.d.all fun x => x = c.n

/-- The enables of a decision: child positions in ascending order. -/
def Ctl.allowed (c : Ctl) : List Nat := (upFrom 0 c.nch).filter c.enables

/-- The region whose controllers an entry of the control column belongs to (R347). -/
def State.ctlRegion (s : State) (die cl c : Nat) : Option Region :=
  (regionAmong cl (c / 2) (s.die die).regions).map Prod.snd

/-- Whether controllers of a region decide: it runs and no freeze token has reached row FIRST (R353). -/
def State.decides (s : State) (die cl c : Nat) : Bool :=
  match s.ctlRegion die cl c with
  | none => false
  | some g => s.rowRuns ⟨die, cl, g.first⟩

/-- Whether an enable or done that a controller's decision takes into account has arrived and is still to be counted (R351). -/
def State.unheard (s : State) (die cl c : Nat) : Bool :=
  (s.cluster die cl).transit.any fun t =>
    match t with
    | .done c1 _ _ a => c1 = c && a ≤ s.cyc die
    | .enable p pos _ a => a ≤ s.cyc die && childOf (s.cluster die cl).ctls p pos = some c
    | .final _ _ _ _ _ => false

/-- A root's run has ended: its final word leaves, with a slot reserved if there is one (R349, R351). -/
def State.sendFinal (s : State) (die cl c : Nat) (x : Ctl) (t : Nat) : State :=
  let has := s.destFree x.dst.dst ≠ 0
  (if has then s.reserve x.dst.dst 1 else s).addTransit die cl (.final c x.dst x.tag has t)

/-- CONTROLLER_DECISION (R349-R351): every enable allowed now leaves, or the run ends. -/
def State.controllerDecision (s : State) (die cl c : Nat) : State :=
  match s.ctlAt die cl c with
  | none => s
  | some x =>
    if !x.run || !s.decides die cl c || s.unheard die cl c then s
    else
      let t := s.cyc die + 4
      let go := x.allowed
      if go.isEmpty then
        if x.ended then
          let s1 := s.setCtl die cl c { x with run := false }
          if x.parent = 63 then s1.sendFinal die cl c x t else s1.addTransit die cl (.done x.parent x.pos false t)
        else s
      else
        let s1 := s.setCtl die cl c { x with e := go.foldl (fun e i => lset e i (nth e i + 1)) x.e }
        go.foldl (fun s i => s.addTransit die cl (.enable c i (nth x.e i) t)) s1

/-- Entry k of the words in transit, if its time has come. -/
def State.arrived (s : State) (die cl k : Nat) : Option Transit :=
  match (s.cluster die cl).transit[k]? with
  | none => none
  | some t =>
    let at_ := match t with
      | .enable _ _ _ a => a
      | .done _ _ _ a => a
      | .final _ _ _ _ a => a
    if at_ ≤ s.cyc die then some t else none

def State.dropTransit (s : State) (die cl k : Nat) : State :=
  let c := s.cluster die cl
  s.setCluster die cl { c with transit := c.transit.eraseIdx k }

/-- ENABLE_ARRIVAL (R351): an enable reaches its leaf's latch, or starts a child controller's run (R348). -/
def State.enableArrival (s : State) (die cl k : Nat) : State :=
  match s.arrived die cl k with
  | some (.enable c pos it _) =>
    let s1 := s.dropTransit die cl k
    match childOf (s.cluster die cl).ctls c pos with
    | some ch =>
      match s1.ctlAt die cl ch with
      | some x => s1.setCtl die cl ch x.start
      | none => s1
    | none =>
      match s1.ctlAt die cl c with
      | some x => s1.setCtl die cl c { x with latch := tset x.latch pos it }
      | none => s1
  | _ => s

/-- The enables above iteration t that no ENA has taken are withdrawn (R350): those in latches and in transit. -/
def State.withdraw (s : State) (die cl c t : Nat) : State :=
  match s.ctlAt die cl c with
  | none => s
  | some x =>
    let k := s.cluster die cl
    let above := fun y => match y with
      | Transit.enable c1 _ it _ => c1 = c && t < it
      | _ => false
    let inLatch := x.latch.filter fun e => t < e.2
    let inFlight := (k.transit.filter above).map fun y => match y with
      | .enable _ p _ _ => p
      | _ => 0
    let e1 := (inLatch.map Prod.fst ++ inFlight).foldl (fun e i => lset e i (nth e i - 1)) x.e
    s.setCluster die cl { k with transit := k.transit.filter fun y => !above y,
                                 ctls := tset k.ctls c { x with e := e1, latch := x.latch.filter fun e => e.2 ≤ t } }

/-- DONE_ARRIVAL (R349-R351): a done is counted; an OPEN controller confirms an exit or stops. -/
def State.doneArrival (s : State) (die cl k : Nat) : State :=
  match s.arrived die cl k with
  | some (.done c pos flag _) =>
    let s1 := s.dropTransit die cl k
    match s1.ctlAt die cl c with
    | none => s1
    | some x =>
      let j := nth x.d pos
      let x1 := { x with d := lset x.d pos (j + 1) }
      let live := match x.stop with
        | some t => j ≤ t
        | none => true
      if x.isOpen && pos + 1 = x.nch && live then
        if flag then (s1.setCtl die cl c { x1 with stop := some j }).withdraw die cl c j
        else s1.setCtl die cl c { x1 with x := x1.x + 1 }
      else s1.setCtl die cl c x1
  | _ => s

/-- FINAL_WORD (R349, R351): a root's final word goes to the slot that its arming named, with the arming's tag, into the slot
reserved for it or once there is one. -/
def State.finalWord (s : State) (die cl k : Nat) : State :=
  match s.arrived die cl k with
  | some (.final c t tag resv _) =>
    if !s.decides die cl c then s
    else if resv then ((s.dropTransit die cl k).unreserve t.dst 1).push t (wordTok 1 tag)
    else if s.destFree t.dst = 0 then s
    else (s.dropTransit die cl k).push t (wordTok 1 tag)
  | _ => s

/-- The controller and position of ENA, DONE and WINC: a fault, nothing armed yet, or the entry (R347, R355). -/
inductive CtlRef where
  | bad (c : Cause)
  | unarmed
  | ok (entry : Nat) (c : Ctl)

def ctlRef (e : Env) (ctl : BitVec 6) : CtlRef :=
  let r := e.l.nd.row
  match e.s.regionOf r with
  | none => .unarmed
  | some (_, g) =>
    match ctlEntry g ctl.toNat with
    | none => .bad 0x120
    | some c =>
      match e.s.ctlAt r.die r.cl c with
      | none => .unarmed
      | some x => .ok c x

/-- The leaf position of an ENA or DONE (R347). -/
def leafRef (e : Env) (ctl : BitVec 6) (p : BitVec 3) : CtlRef :=
  match ctlRef e ctl with
  | .ok c x =>
    if x.nch ≤ p.toNat then .bad 0x120
    else if (childOf (e.s.cluster e.l.nd.row.die e.l.nd.row.cl).ctls c p.toNat).isSome then .bad 0x121
    else .ok c x
  | r => r

/-- ENA takes the enable in its position's latch (R355). -/
def execEna (o : Ops) (ctl : BitVec 6) (p : BitVec 3) (s : State) : Out :=
  .next (fire s s.locus (.ena o ctl p) (cellReq o) fun e =>
    match leafRef e ctl p with
    | .bad c => .fault c e.info
    | .unarmed => .wait
    | .ok c x =>
      match tget x.latch p.toNat with
      | none => .wait
      | some it =>
        .go { o0 := [wordTok 1 e.a.tag], o1 := [wordTok (BitVec.ofNat 32 it) e.a.tag],
              eff := fun s => s.setCtl e.l.nd.row.die e.l.nd.row.cl c { x with latch := tdel x.latch p.toNat } })

/-- Dones of a position on their way. -/
def donesUnderway (ts : List Transit) (c p : Nat) : Nat :=
  (ts.filter fun t => match t with
    | .done c1 p1 _ _ => c1 = c && p1 = p
    | _ => false).length

/-- DONE firings of a position that have not completed: a region's control cells fire one at a time each. -/
def State.donesFiring (s : State) (die : Nat) (g : Region) (c p : Nat) : Nat :=
  ((g.rowIds die).filter fun r => (s.node ⟨r, 36⟩).fly.any fun f =>
    match f.ins with
    | .done _ _ ctl q => !f.off && ctlEntry g ctl.toNat = some c && q.toNat = p
    | _ => false).length

/-- DONE sends done at its position, with a stop flag for .X, 4 cycles after it completes (R350, R351, R355). -/
def execDone (o : Ops) (x : Bool) (ctl : BitVec 6) (p : BitVec 3) (s : State) : Out :=
  .next (fire s s.locus (.done o x ctl p) (cellReq o) fun e =>
    let r := e.l.nd.row
    match leafRef e ctl p with
    | .bad c => .fault c e.info
    | .unarmed => .wait
    | .ok c k =>
      let firing := match e.s.regionOf r with
        | some (_, g) => e.s.donesFiring r.die g c p.toNat
        | none => 0
      if nth k.e p.toNat ≤ nth k.d p.toNat + donesUnderway (e.s.cluster r.die r.cl).transit c p.toNat + firing then
        .fault 0x121 e.info
      else .go { o0 := [wordTok 1 e.a.tag], o1 := [wordTok 1 e.a.tag], a := e.av })

/-- A DONE has completed: its done is on its way (R351). -/
def State.sendDone (s : State) (n : NodeId) (f : Firing) (x : Bool) (ctl : BitVec 6) (p : BitVec 3) : State :=
  match s.regionOf n.row with
  | none => s
  | some (_, g) =>
    match ctlEntry g ctl.toNat with
    | none => s
    | some c => s.addTransit n.row.die n.row.cl (.done c p.toNat (x && f.a.getLsbD 0) (s.cyc n.row.die + 4))

/-- What a control cell's firing does as it completes. -/
def State.cellDone (s : State) (n : NodeId) (f : Firing) : State :=
  match f.ins with
  | .seq _ cfg => s.startRoot n f cfg
  | .pipe _ _ cfg => s.startRoot n f cfg
  | .strm _ cfg => s.startRoot n f cfg
  | .done _ x ctl p => s.sendDone n f x ctl p
  | _ => s

/-- The window count of WINC (R356). -/
def wincRes (e : Env) (ctl : BitVec 6) (p : BitVec 3) (f : Nat → Option Nat) : Res :=
  match ctlRef e ctl with
  | .bad c => .fault c e.info
  | .unarmed => .fault 0x122 e.info
  | .ok c x =>
    if (x.mode ≠ .pipe && x.mode ≠ .openPipe) || x.nch ≤ p.toNat + 1 then .fault 0x122 e.info
    else
      match f (nth x.w p.toNat) with
      | none => .fault 0x122 e.info
      | some w =>
        .go { o0 := [wordTok 1 e.a.tag], o1 := [wordTok 1 e.a.tag], eff := fun s =>
                s.setCtl e.l.nd.row.die e.l.nd.row.cl c { x with w := lset x.w p.toNat w } }

def execWincSet (o : Ops) (ctl : BitVec 6) (p : BitVec 3) (s : State) : Out :=
  .next (fire s s.locus (.wincSet o ctl p) (cellReq o) fun e =>
    wincRes e ctl p fun _ => if e.av.toNat = 0 || 255 < e.av.toNat then none else some e.av.toNat)

def execWincAdd (o : Ops) (ctl : BitVec 6) (p : BitVec 3) (s : State) : Out :=
  .next (fire s s.locus (.wincAdd o ctl p) (cellReq o) fun e => wincRes e ctl p fun w => some (min 255 (w + e.av.toNat)))

/-! ## Counters and the LUT (R357, R358) -/

def State.setCell (s : State) (r : RowId) (f : Cell → Cell) : State :=
  let rw := s.row r
  s.setRow r { rw with cell := f rw.cell }

def Env.cnt (e : Env) (k : BitVec 2) : Word := tgetD (e.s.row e.l.nd.row).cell.c k.toNat 0

/-- Set a counter and deliver a word. -/
def cntRes (e : Env) (k : BitVec 2) (v out : Word) : Res :=
  .go { o0 := [wordTok out e.a.tag], o1 := [wordTok out e.a.tag], eff := fun s =>
          s.setCell e.l.nd.row fun c => { c with c := tset c.c k.toNat v } }

def execCntSet (o : Ops) (k : BitVec 2) (s : State) : Out :=
  .next (fire s s.locus (.cntSet o k) (cellReq o) fun e => cntRes e k e.av e.av)

def execCntAdd (o : Ops) (k : BitVec 2) (s : State) : Out :=
  .next (fire s s.locus (.cntAdd o k) (cellReq o) fun e => cntRes e k (e.cnt k + e.av) (e.cnt k + e.av))

def execCntStep (o : Ops) (k : BitVec 2) (s : State) : Out :=
  .next (fire s s.locus (.cntStep o k) (cellReq o) fun e =>
    if e.cnt k + 1 = e.av then cntRes e k 0 1 else cntRes e k (e.cnt k + 1) 0)

def execCntRead (o : Ops) (k : BitVec 2) (s : State) : Out :=
  .next (fire s s.locus (.cntRead o k) (cellReq o) fun e => cntRes e k (e.cnt k) (e.cnt k))

def execLutGet (o : Ops) (s : State) : Out :=
  .next (fire s s.locus (.lutGet o) (cellReq o) fun e =>
    .word 1 (tgetD (e.s.row e.l.nd.row).cell.lut (e.av.toNat % 16) 0) e.a.tag)

def execLutSet (o : Ops) (s : State) : Out :=
  .next (fire s s.locus (.lutSet o) (cellReq o) fun e =>
    .go { o0 := [wordTok e.bv e.a.tag], o1 := [wordTok e.bv e.a.tag], eff := fun s =>
            s.setCell e.l.nd.row fun c => { c with lut := tset c.lut (e.av.toNat % 16) e.bv } })

/-! ## Barriers and permits (R359-R361) -/

def barReq (o : Ops) : FireReq := { cellReq o with late := true, serial := false, own := true }

/-- What BAR's firing does at the release: its source has been popped by its arrival (R359). -/
def barPlan (tag : RTag) : Plan := { o0 := [wordTok 1 tag], o1 := [wordTok 1 tag], lat := 0, late := true, pops := some [], prog := some .idle }

/-- Cancelled firings that a node still has to start again stay so while another firing of it starts by itself. -/
def Node.withRedo (n : Node) (xs : List Redo) : Node :=
  { n with redo := xs, fly := n.fly.map fun f => if f.id + 1 = n.nid then { f with undo := { f.undo with redo := xs } } else f }

/-- An arrival's slot fires: its round is released. -/
def State.barFires (s : State) (l : Loc) : State :=
  match s.instrAt l, (s.node l.nd).prog l.slot with
  | some (.bar o bi n), .arrived tag =>
    let nd := s.node l.nd
    let s1 := (s.setNode l.nd ({ nd with redo := [] }.setProg l.slot (.released tag))).begin l (.bar o bi n) (barReq o) false
      (barPlan tag) (s.slotTarget l o.d0) (s.slotTarget l o.d1)
    s1.setNode l.nd ((s1.node l.nd).withRedo nd.redo)
  | _, _ => s

/-- Every arrival of a round is released. -/
def State.releaseBar (s : State) : List (NodeId × Nat) → State
  | [] => s
  | (n, sl) :: t => State.releaseBar (s.barFires ⟨n, sl⟩) t

/-- BAR's slot arrives: it pops its source, which is no firing yet; the arrival that completes the round releases all of
them (R359). -/
def State.barArrive (s : State) (l : Loc) (k : Nat) (o : Ops) (bi : BitVec 3) (n : Nat) (tag : RTag) : State :=
  let die := l.nd.row.die
  let s1 := s.setNode l.nd (((s.node l.nd).dropHeads (popQs [o.a])).setProg l.slot (.arrived tag))
  let g := s1.region die k
  let b := tgetD g.bars bi.toNat ⟨n, []⟩
  let arr := b.arr ++ [(l.nd, l.slot)]
  if n ≤ arr.length then (s1.setRegion die k { g with bars := tdel g.bars bi.toNat }).releaseBar arr
  else s1.setRegion die k { g with bars := tset g.bars bi.toNat ⟨n, arr⟩ }

/-- BAR arrives, and fires when its round is complete (R359). -/
def execBar (o : Ops) (bi : BitVec 3) (n : BitVec 8) (s : State) : Out :=
  .next (fire s s.locus (.bar o bi n) (barReq o) fun e =>
    match e.s.regionOf e.l.nd.row with
    | none => .wait
    | some (k, g) =>
      let b := tgetD g.bars bi.toNat ⟨n.toNat + 1, []⟩
      match e.prog with
      | .arrived _ => .wait
      | .released tag => .go (barPlan tag)
      | _ =>
        if !(popQs [o.a] ++ peekQs [o.a]).all e.nd.offers then .wait
        else if !b.arr.isEmpty && b.n ≠ n.toNat + 1 then .fault 0x123 e.info
        else .set (e.s.barArrive e.l k o bi (n.toNat + 1) e.a.tag))

/-- Whether a sequence slot is bound to an owner (R325). -/
def State.slotOwned (s : State) (slot : Nat) (owner : BitVec 12) : Bool :=
  slot < 4096 && (match tget s.hub.slots slot with
    | some x => x.bound && x.owner = owner
    | none => false)

/-- PERMT asks the die's pool for permits; the window's end decides (R360). -/
def execPermt (o : Ops) (s : State) : Out :=
  .next (fire s s.locus (.permt o) (cellReq o) fun e =>
    let r := e.l.nd.row
    if !e.s.slotOwned e.av.toNat (e.s.ownerOf r) then .fault 0x143 e.info
    else
      .go { await := .hub 0, eff := fun s =>
              let d := s.die r.die
              s.setDie r.die
                { d with preqs := d.preqs ++ [⟨e.l.nd, e.id, e.av.toNat, min 64 e.bv.toNat, s.cyc r.die⟩] } })

/-- PERMG returns permits (R360). -/
def execPermg (o : Ops) (s : State) : Out :=
  .next (fire s s.locus (.permg o) (cellReq o) fun e =>
    let r := e.l.nd.row
    let a := e.av.toNat
    let n := e.bv.toNat
    if !e.s.slotOwned a (e.s.ownerOf r) then .fault 0x143 e.info
    else if tgetD (e.s.die r.die).held a 0 < n then .fault 0x124 e.info
    else
      .go { o0 := [wordTok 1 e.a.tag], o1 := [wordTok 1 e.a.tag], eff := fun s =>
              let d := s.die r.die
              s.setDie r.die { d with held := tset d.held a (tgetD d.held a 0 - n), heldsum := d.heldsum - n } })

/-- Permit requests of one window in their order: by SLACK, then by arrival and place (R360, R191). -/
def permBefore (slack : Nat → Nat) (a b : PermReq) : Bool :=
  let ka := slack a.slot
  let kb := slack b.slot
  if ka ≠ kb then ka < kb
  else if a.at_ ≠ b.at_ then a.at_ < b.at_
  else
    let ia := rowIx a.n.row * 64 + a.n.node
    let ib := rowIx b.n.row * 64 + b.n.node
    ia < ib

def State.slack (s : State) (slot : Nat) : Nat :=
  match tget s.hub.slots slot with
  | some x => x.slack.toNat
  | none => 0

/-- One grant: the request's firing has its word, due 4 cycles after the window's end (R360). -/
def State.grantPermit (s : State) (die : Nat) (q : PermReq) : State :=
  let d := s.die die
  let held := tgetD d.held q.slot 0
  let g := min q.cnt (min (64 - held) (d.grant - d.heldsum))
  let s1 := s.setDie die { d with held := tset d.held q.slot (held + g), heldsum := d.heldsum + g }
  s1.wake q.n q.fid fun f =>
    { f with o0 := [wordTok (BitVec.ofNat 32 g) f.tag], o1 := [wordTok (BitVec.ofNat 32 g) f.tag],
             doneAt := (q.at_ / 16 + 1) * 16 + 4 }

/-- PERMIT_WINDOW (R360): the requests of the earliest window that has ended are decided. -/
def State.permitWindow (s : State) (die : Nat) : State :=
  let d := s.die die
  let ended := d.preqs.filter fun q => q.at_ / 16 < s.cyc die / 16
  match ended.map fun q => q.at_ / 16 with
  | [] => s
  | w :: ws =>
    let first := ws.foldl min w
    let now := ended.filter fun q => q.at_ / 16 = first
    let s1 := s.setDie die { d with preqs := d.preqs.filter fun q => q.at_ / 16 ≠ first }
    (sortBy (permBefore s.slack) now).foldl (fun s q => s.grantPermit die q) s1

/-! ## Counters of the row and the Reel's registers (R362, R384) -/

/-- Low and high halves of a value to DST0 and DST1. -/
def Res.pair (lat : Nat) (lo hi : Word) (tag : RTag) : Res := .go { o0 := [wordTok lo tag], o1 := [wordTok hi tag], lat := lat }

def execCyc (o : Ops) (s : State) : Out :=
  .next (fire s s.locus (.cyc o) (cellReq o) fun e =>
    let c := (e.s.die e.l.nd.row.die).cyc
    .pair 1 (c.extractLsb' 0 32) (c.extractLsb' 32 32) e.a.tag)

def execCycPmc (o : Ops) (s : State) : Out :=
  .next (fire s s.locus (.cycPmc o) (cellReq o) fun e =>
    if 7 < e.av.toNat then .fault 0x120 e.info
    else
      let c := tgetD (e.s.row e.l.nd.row).pmc e.av.toNat 0
      .pair 1 (c.extractLsb' 0 32) (c.extractLsb' 32 32) e.a.tag)

/-- Words that BAND and SCROLL read in a row that stands in no band: free values (log entry 90). -/
def noBandWord (e : Env) (i : Nat) : Word := Config.noBand e.s.tick i

/-- The BAND status word (R384). -/
def bandWord (b : Band) (r : Reel) (row : Nat) : Word :=
  BitVec.ofNat 32 (b.b * 2 ^ 27 + b.be * 2 ^ 22 + ((b.slotOf row).getD 31) * 2 ^ 17 + (if r.leaving then 2 ^ 16 else 0) +
    (if b.be = 0 then 0 else r.hosted / b.be % 2 ^ 16))

def execBandRead (o : Ops) (s : State) : Out :=
  .next (fire s s.locus (.bandRead o) (cellReq o) fun e =>
    match e.s.bandEntry e.l.nd.row with
    | none => .word 2 (noBandWord e 0) e.a.tag
    | some b => .word 2 (bandWord b (e.s.row e.l.nd.row).reel e.l.nd.row.row) e.a.tag)

def execBandExit (o : Ops) (s : State) : Out :=
  .next (fire s s.locus (.bandExit o) (cellReq o) fun e =>
    match e.s.bandEntry e.l.nd.row with
    | none => .pair 2 (noBandWord e 0) (noBandWord e 1) e.a.tag
    | some b => .pair 2 (b.exit.extractLsb' 0 32) (b.exit.extractLsb' 32 32) e.a.tag)

def execStageCur (o : Ops) (s : State) : Out :=
  .next (fire s s.locus (.stageCur o) (cellReq o) fun e =>
    let r := (e.s.row e.l.nd.row).reel
    .word 2 (BitVec.ofNat 32 (r.nxt % 2 ^ 16 * 2 ^ 16 + r.hosted % 2 ^ 16)) e.a.tag)

def execStageSh (o : Ops) (s : State) : Out :=
  .next (fire s s.locus (.stageSh o) (cellReq o) fun e =>
    .word 2 (boolWord ((e.s.row e.l.nd.row).reel.sh = .ready)) e.a.tag)

def execScrollRead (o : Ops) (s : State) : Out :=
  .next (fire s s.locus (.scrollRead o) (cellReq o) fun e =>
    match e.s.bandEntry e.l.nd.row with
    | none => .pair 2 (noBandWord e 0) (noBandWord e 1) e.a.tag
    | some b => .pair 2 b.smax b.wmax e.a.tag)

/-- SMAX and WMAX of a row's band entry become 0 (R384). -/
def State.clearScroll (s : State) (r : RowId) : State :=
  let zero := fun (b : Band) => { b with smax := 0, wmax := 0 }
  match s.bandOf r, s.regionOf r with
  | some (k, _), _ => s.updBand r.die k zero
  | none, some (k, _) =>
    let d := s.die r.die
    match bandAmong k r.row d.past with
    | some (j, b) => s.setDie r.die { d with past := tset d.past j (zero b) }
    | none => s
  | none, none => s

def execScrollClr (o : Ops) (s : State) : Out :=
  .next (fire s s.locus (.scrollClr o) (cellReq o) fun e =>
    .go { o0 := [wordTok 1 e.a.tag], o1 := [wordTok 1 e.a.tag], lat := 2, eff := fun s =>
            s.clearScroll e.l.nd.row })

/-- The band of a SCHED, which needs CHOICE mode and a stage below D (R384). -/
def schedBand (e : Env) : Option (Nat × Band) :=
  match e.s.bandOf e.l.nd.row with
  | none => none
  | some (k, b) => if b.mode && e.av.toNat < b.desc.d then some (k, b) else none

/-- Entries of a stage entry queue that are records. -/
def waitingRecords (q : List WrapEnt) : List WrapEnt := q.filter fun x => !x.tok.tok.isMark

def execSchedRead (o : Ops) (s : State) : Out :=
  .next (fire s s.locus (.schedRead o) (cellReq o) fun e =>
    match schedBand e with
    | none => .fault 0x12C e.info
    | some (_, b) =>
      let q := tgetD b.stageq e.av.toNat []
      let age := match q with
        | [] => 0
        | x :: _ => e.s.cyc e.l.nd.row.die - x.tok.at_
      .pair 2 (BitVec.ofNat 32 (waitingRecords q).length) (BitVec.ofNat 32 (min age 0xFFFFFFFF)) e.a.tag)

def execSchedBoost (o : Ops) (s : State) : Out :=
  .next (fire s s.locus (.schedBoost o) (cellReq o) fun e =>
    match schedBand e with
    | none => .fault 0x12C e.info
    | some (k, _) =>
      .go { o0 := [wordTok 1 e.a.tag], o1 := [wordTok 1 e.a.tag], lat := 2, eff := fun s =>
              s.updBand e.l.nd.row.die k fun b => { b with boost := b.boost ++ [e.av.toNat] } })

end Sys2Proof.Machine
end

