-- ==== Sys2Proof/Machine/Mem.lean ====
section
/-!
DEFINITION. Translation (R298-R304), and reads and writes of memory by virtual address for the agents that accept a
leaf of any size (R251): engines, block fetches, descents, the hub and the host.
-/
namespace Sys2Proof.Machine

/-! ## The page-table walk -/

/-- A translation that stopped: cause, level, physical address of the entry (R301). -/
structure XFault where
  cause : Cause
  level : Nat := 0
  entry : Nat := 0
  va    : Option Nat := none                        -- the virtual address that stopped it, where it is not the caller's
  deriving DecidableEq, Repr

/-- A translation or a read that meets a block still to be rebuilt has no cause: it waits (R396). -/
def XFault.waits (x : XFault) : Bool := x.cause = 0

/-- Whether it is a fault of the translation, after which the rest of the region runs on (R304), and not of stored data. -/
def XFault.walks (x : XFault) : Bool := x.entry ≠ 0 || x.cause.toNat < 0x160

/-- A leaf: logarithm of its page's size, page address, writable (R299, R300). -/
structure Leaf where
  log : Nat
  pa  : Nat
  wr  : Bool
  deriving DecidableEq, Repr

/-- Size of HBM (R201). -/
def hbmTop : Nat := 0xC000000000

/-- Lowest VA bit that a level indexes (R299). -/
def lvlLo (l : Nat) : Nat := if l = 3 then 38 else if l = 2 then 26 else if l = 1 then 21 else 16

/-- Index bits of a level. -/
def lvlBits (l : Nat) : Nat := if l = 3 then 17 else if l = 2 then 12 else 5

/-- Logarithm of a table's size. -/
def tableLog (l : Nat) : Nat := if l = 3 then 20 else if l = 2 then 15 else 8

def State.owner (s : State) (o : BitVec 12) : Owner := tgetD s.hub.owners o.toNat {}

/-- A leaf against the sandbox partition (R210). -/
def State.sandboxOk (s : State) (sandbox : Bool) (pa n : Nat) : Bool :=
  let lo := s.hub.sbase
  let hi := s.hub.sbase + s.hub.ssize
  if sandbox then lo ≤ pa && pa + n ≤ hi else pa + n ≤ lo || hi ≤ pa

/-- What an entry of a table says. -/
inductive Pte where
  | bad (c : Cause)
  | next (base : Nat)
  | leaf (x : Leaf)

/-- The checks of R301 on one entry, in order. -/
def State.pte (s : State) (sandbox : Bool) (psz : Nat) (wr : Bool) (l : Nat) (e : DWord) : Pte :=
  let ty := (e.extractLsb' 61 2).toNat
  let pa := (e.extractLsb' 8 44).toNat * 256
  let align := if ty = 1 then (if l = 3 then 8 else lvlLo l) else if l = 0 then 8 else tableLog (l - 1)
  if !e.getLsbD 63 then .bad 0x0A0
  else if 2 ≤ ty || e.extractLsb' 52 9 ≠ 0 || e.extractLsb' 0 7 ≠ 0 || (ty = 0 && e.getLsbD 7) || pa % 2 ^ align ≠ 0 then
    .bad 0x0A5
  else if (ty = 1 && l = 3) || (ty = 0 && l = 0) then .bad 0x0A6
  else if hbmTop ≤ pa then .bad 0x0A3
  else if ty = 0 then .next pa
  else if psz ≠ 0 && psz ≠ lvlLo l then .bad 0x0A1
  else if !s.sandboxOk sandbox pa (2 ^ lvlLo l) then .bad 0x0A4
  else if wr && !e.getLsbD 7 then .bad 0x0A2
  else .leaf ⟨lvlLo l, pa, e.getLsbD 7⟩

/-- The address of the entry that a level reads. -/
def pteAt (l base va : Nat) : Nat := base + 8 * (va / 2 ^ lvlLo l % 2 ^ lvlBits l)

/-- One level of the walk; an entry in a block still to be rebuilt has cause 0, for the walk waits (R396). -/
def State.walkAt (s : State) (sandbox : Bool) (psz : Nat) (wr : Bool) (va l base : Nat) : Pte :=
  let a := pteAt l base va
  match if s.unrebuilt (.hbm a) 8 then some 0 else s.hbmErr a 8 with
  | some c => .bad c
  | none => s.pte sandbox psz wr l (bytesBits 64 (Memory.readN s.hbm a 8))

/-- The walk from a level down (R299). -/
def State.walkFrom (s : State) (sandbox : Bool) (psz : Nat) (wr : Bool) (va : Nat) : Nat → Nat → Except XFault Leaf
  | 0, base =>
    match s.walkAt sandbox psz wr va 0 base with
    | .bad c => .error ⟨c, 0, pteAt 0 base va, none⟩
    | .next _ => .error ⟨0x0A6, 0, pteAt 0 base va, none⟩
    | .leaf x => .ok x
  | l + 1, base =>
    match s.walkAt sandbox psz wr va (l + 1) base with
    | .bad c => .error ⟨c, l + 1, pteAt (l + 1) base va, none⟩
    | .next b => State.walkFrom s sandbox psz wr va l b
    | .leaf x => .ok x

/-- The walk for an owner's virtual address; `psz` is the page size bound, 0 for a leaf of any size (R299, R301). -/
def State.walk (s : State) (o : BitVec 12) (va psz : Nat) (wr : Bool) : Except XFault Leaf :=
  let w := s.owner o
  if w.root = 0 then .error ⟨0x0A7, 3, 0, none⟩ else s.walkFrom w.sandbox psz wr va 3 w.root

/-- The physical address of a virtual address, by a leaf of any size (R251, R69, R388). -/
def State.xlate (s : State) (o : BitVec 12) (va : Nat) (wr : Bool) : Except XFault Nat :=
  if 2 ^ 55 ≤ va then .error ⟨0x080, 0, 0, none⟩
  else
    match s.walk o va 0 wr with
    | .error f => .error f
    | .ok x => .ok (x.pa + va % 2 ^ x.log)

/-! ## Reads by virtual address -/

/-- The entries that a walk reads from a level down. -/
def State.walkPas (s : State) (sandbox : Bool) (psz : Nat) (wr : Bool) (va : Nat) : Nat → Nat → List Nat
  | 0, base => [pteAt 0 base va]
  | l + 1, base =>
    pteAt (l + 1) base va :: (match s.walkAt sandbox psz wr va (l + 1) base with
      | .next b => State.walkPas s sandbox psz wr va l b
      | _ => [])

/-- The single-bit errors of the entries that a walk reads are corrected (R212). -/
def State.fixWalk (s : State) (o : BitVec 12) (va psz : Nat) (wr : Bool) : State :=
  let w := s.owner o
  if w.root = 0 then s else (s.walkPas w.sandbox psz wr va 3 w.root).foldl (fun x a => x.correct (.hbm a) 8) s

/-- The single-bit errors that reading words at a virtual address meets are corrected, in the tables and in the data. -/
def State.fixVa (s : State) (o : BitVec 12) (wr : Bool) : Nat → Nat → State
  | 0, _ => s
  | n + 1, va =>
    let s1 := s.fixWalk o va 0 wr
    match s1.xlate o va wr with
    | .error _ => s1
    | .ok pa => State.fixVa (if wr then s1 else s1.correct (.hbm pa) 8) o wr n (va + 8)

/-! ## Memory by virtual address -/

/-- The words from a virtual address on, aligned to 8 bytes, read by an agent that accepts any leaf. -/
def State.readVa (s : State) (o : BitVec 12) : Nat → Nat → Except XFault (List DWord)
  | 0, _ => .ok []
  | n + 1, va =>
    match if va % 8 = 0 then s.xlate o va false else .error ⟨0x083, 0, 0, none⟩ with
    | .error f => .error { f with va := some va }
    | .ok pa =>
      match s.homeErr (.hbm pa) 8 with
      | some c => .error ⟨c, 0, 0, some (va / 64 * 64)⟩
      | none =>
        match State.readVa s o n (va + 8) with
        | .error f => .error f
        | .ok ws => .ok (bytesBits 64 (Memory.readN s.hbm pa 8) :: ws)

/-- Write words from a virtual address on; nothing is written when one does not translate, or when a block that the words from
`lo` to `hi` fill in part has a check value that disagrees (R203). -/
def State.writeIn (s : State) (o : BitVec 12) (lo hi : Nat) : List DWord → Nat → Except XFault State
  | [], _ => .ok s
  | w :: ws, va =>
    match if va % 8 = 0 then s.xlate o va true else .error ⟨0x083, 0, 0, none⟩ with
    | .error f => .error { f with va := some va }
    | .ok pa =>
      match if lo ≤ va / 64 * 64 && va / 64 * 64 + 64 ≤ hi then s.wholeErr (.hbm pa) 8
        else s.homeErr (.hbm pa) 8 with
      | some c => .error ⟨c, 0, 0, some (va / 64 * 64)⟩
      | none =>
        match State.writeIn s o lo hi ws (va + 8) with
        | .error f => .error f
        | .ok x => .ok ((x.fixWalk o va 0 true).writeHome (.hbm pa) (natBytes' 8 w.toNat))

def State.writeVa (s : State) (o : BitVec 12) (ws : List DWord) (va : Nat) : Except XFault State :=
  s.writeIn o va (va + 8 * ws.length) ws va

/-- One word read at a virtual address. -/
def State.readVa1 (s : State) (o : BitVec 12) (va : Nat) : Except XFault DWord :=
  match s.readVa o 1 va with
  | .error f => .error f
  | .ok ws => .ok (ws.headD 0)

/-- Bytes of a list of words. -/
def wordsBytes (ws : List DWord) : List Byte := ws.flatMap fun w => natBytes' 8 w.toNat

/-- Words of a list of bytes. -/
def bytesWords : Nat → List Byte → List DWord
  | 0, _ => []
  | n + 1, bs => bytesBits 64 (bs.take 8) :: bytesWords n (bs.drop 8)

/-! ## TLB slices (R303) -/

/-- The exclusive-or of the 6-bit chunks of a number. -/
def fold6 : Nat → Nat → Nat
  | 0, _ => 0
  | k + 1, x => (x % 64) ^^^ fold6 k (x / 64)

/-- The slice of a page under an owner. -/
def sliceOf (o : BitVec 12) (va psz : Nat) : Nat := (fold6 8 (va / 2 ^ psz) ^^^ fold6 2 o.toNat) % 48

def Die.slice (d : Die) (k : Nat) : List TlbEnt := tgetD d.tlb k []
def Die.walksOf (d : Die) (k : Nat) : List Walk := tgetD d.walks k []

def TlbEnt.is (e : TlbEnt) (o : BitVec 12) (psz vpn : Nat) : Bool := e.owner = o && e.psz = psz && e.vpn = vpn

/-- Fill an entry, replacing the least recently used of 256. -/
def tlbFill (es : List TlbEnt) (e : TlbEnt) : List TlbEnt :=
  let rest := es.filter fun x => !x.is e.owner e.psz e.vpn
  (if 256 ≤ rest.length then rest.drop 1 else rest) ++ [e]

/-- Whether an access can write (R301). -/
def AccOp.writes : AccOp → Bool
  | .store _ _ => true
  | .atom _ _ _ => true
  | _ => false

/-- A look-ahead translation of a stream that serves an access (R242). -/
def Stream.lookup (st : Stream) (psz va : Nat) (wr : Bool) : Option Nat :=
  (st.look.find? fun x => x.1 = va / 2 ^ psz && (x.2.2 || !wr)).map fun x => x.2.1 + va % 2 ^ psz

/-- The stream keeps a page's translation, the last 16 of them (R298). -/
def Stream.keep (st : Stream) (vpn pa : Nat) (wr : Bool) : Stream :=
  let l := st.look.filter fun x => x.1 ≠ vpn
  { st with look := (if 16 ≤ l.length then l.drop 1 else l) ++ [(vpn, pa, wr)] }

def Firing.setAcc (f : Firing) (a : Access) : Firing :=
  { f with acc := f.acc.map fun x => if x.id = a.id then a else x }

def State.keepLook (s : State) (n : NodeId) (sm vpn pa : Nat) (wr : Bool) : State :=
  let p := s.port n
  match tget p.streams sm with
  | none => s
  | some st => s.setPort n { p with streams := tset p.streams sm (st.keep vpn pa wr) }

/-- An access has its physical address. -/
def State.translated (s : State) (n : NodeId) (f : Firing) (a : Access) (page : Nat) (wr : Bool) : State :=
  (s.setFiring n (f.setAcc { a with phase := .home (.hbm (page + a.addr % 2 ^ a.psz)) })).keepLook n a.sm
    (a.addr / 2 ^ a.psz) page wr

/-- A translation that a firing needs besides its accesses faulted: the firing waits with it, the port's generator stops, and
the rest of the region runs on until it starves (R304). The access of a descent is numbered by its step, which orders it among
port pa's firings. -/
def State.stopGen (s : State) (n : NodeId) (f : Firing) (x : XFault) (va : Nat) (cls : Nat := 0) : State :=
  let a : Access :=
    { id := s.tick, op := .other, addr := x.va.getD va, size := 0, bank := false, psz := 0, cls := cls,
      phase := .faulted x.cause x.level x.entry }
  let acc := match f.acc with
    | [] => [a]
    | b :: t => { b with addr := a.addr, phase := a.phase } :: t
  let s1 := s.setFiring n { f with acc := acc }
  let p : NodeId := if n.node = 37 then ⟨n.row, 34⟩ else n
  if p.node = 34 || p.node = 35 then s1.setPort p { s1.port p with stopped := true } else s1

/-- Whether a firing waits with a translation that faulted. -/
def Firing.xstopped (f : Firing) : Bool := f.acc.any fun a => match a.phase with | .faulted _ _ _ => true | _ => false

/-- A translation that an access needs faulted: the port's generator stops (R242). -/
def State.xfaulted (s : State) (n : NodeId) (f : Firing) (a : Access) (x : XFault) : State :=
  let s1 := s.setFiring n (f.setAcc { a with phase := .faulted x.cause x.level x.entry })
  s1.setPort n { s1.port n with stopped := true }

/-- The slice's answer to a lookup: a hit moves its entry to the most recently used place; a miss starts a walk, joins
one, or parks while 8 walks run. -/
inductive Look where
  | hit (d : Die) (e : TlbEnt)
  | walking (d : Die)
  | parked

def Die.look (d : Die) (o : BitVec 12) (va psz : Nat) (wr : Bool) : Look :=
  let k := sliceOf o va psz
  match (d.slice k).find? (fun e => e.is o psz (va / 2 ^ psz) && (e.wr || !wr)) with
  | some e => .hit { d with tlb := tset d.tlb k (tlbFill (d.slice k) e) } e
  | none =>
    if (d.walksOf k).any fun w => w.owner = o && w.psz = psz && w.va / 2 ^ psz = va / 2 ^ psz then .walking d
    else if 8 ≤ (d.walksOf k).length then .parked
    else .walking { d with walks := tset d.walks k (d.walksOf k ++ [⟨o, va, psz, wr⟩]) }

/-- The walk of a page ends well: it fills an entry of its slice (R303). -/
def State.fillSlice (s : State) (die slice : Nat) (o : BitVec 12) (va : Nat) (l : Leaf) : State :=
  let d := s.die die
  s.setDie die { d with tlb := tset d.tlb slice (tlbFill (d.slice slice) ⟨o, l.log, va / 2 ^ l.log, l.pa, l.wr⟩) }

/-- A translation that is needed at once, under a page size bound: the slice's hit; on a miss a walk that ends in this step and
fills its entry. It waits (cause 0) while the page's walk is in progress or no walk is free (R303). With bound 0 any leaf does,
and no slice is asked (R251). -/
def State.lookNow (s : State) (r : RowId) (va psz : Nat) (wr : Bool) : Except XFault (State × Nat × Bool) :=
  let o := s.ownerOf r
  let busy : XFault := ⟨0, 0, 0, none⟩
  let walk := fun (go : State → Leaf → State) =>
    match s.walk o va psz wr with
    | .error x => .error x
    | .ok l => .ok (go (s.fixWalk o va psz wr) l, l.pa + va % 2 ^ l.log, l.wr)
  if 2 ^ 55 ≤ va then .error ⟨0x080, 0, 0, none⟩
  else if psz = 0 then walk fun x _ => x
  else
    let k := sliceOf o va psz
    let d := s.die r.die
    match d.look o va psz wr with
    | .hit d1 e => .ok (s.setDie r.die d1, e.pa + va % 2 ^ psz, e.wr)
    | .parked => .error busy
    | .walking d1 =>
      if (d1.walksOf k).length = (d.walksOf k).length then .error busy
      else walk fun x l => (x.fillSlice r.die k o va l).count r 4 1

/-- The address of element e of an affine stream (R239). -/
def Stream.address (st : Stream) (e : Nat) : Int :=
  let go := st.dims.foldl (fun (a : Int × Nat) d => (a.1 + d.2 * ((a.2 % d.1 : Nat) : Int), a.2 / d.1)) ((st.base : Int), e)
  go.1

/-- N, the number of elements of an affine stream (R239). -/
def Stream.count (st : Stream) : Nat := st.dims.foldl (fun a d => a * d.1) 1

/-- Logarithm of a stream's page size; 0 for bank addresses (R238). -/
def StreamLit.psz (l : StreamLit) : Nat :=
  match l.pgsz.toNat with
  | 0 => 16
  | 1 => 21
  | 2 => 26
  | _ => 0

/-! ## Elements of a stream -/

def Stream.isBank (st : Stream) : Bool := StreamLit.psz st.lit = 0

def Stream.esize (st : Stream) : Nat := 2 ^ st.lit.esz.toNat

/-- An element's address inside its space: the bank addresses, or the 55-bit space (R200, R239). Elements of one stream may
lie in different banks (log entry 70). -/
def Stream.inSpace (st : Stream) (a : Int) : Except Cause Nat :=
  if st.isBank then (if 0 ≤ a && a < 2 ^ 25 then .ok a.toNat else .error 0x081)
  else if 0 ≤ a && a < 2 ^ 55 then .ok a.toNat
  else .error 0x080

/-- The address of element e of an affine stream, or of index e of a run list (R239-R241). -/
def Stream.elemAt (st : Stream) (e : Nat) : Except Cause Nat :=
  if st.run then
    match st.runs.find? fun r => r.2.1 ≤ e && e < r.2.1 + r.2.2 with
    | none => .error 0x085
    | some r => st.inSpace ((r.1 : Int) + ((e - r.2.1 : Nat) : Int) * st.stride)
  else if st.count ≤ e then .error 0x084
  else st.inSpace (st.address e)

/-- The address that the record of an access names whose element has none in its space: the one its stream gives, modulo
2^64; 0 where the element lies beyond the stream or in no run (R422, log entry 68). -/
def Stream.badAddr (st : Stream) (e : Nat) : Nat :=
  if st.run then
    match st.runs.find? fun r => r.2.1 ≤ e && e < r.2.1 + r.2.2 with
    | none => 0
    | some r => (((r.1 : Int) + ((e - r.2.1 : Nat) : Int) * st.stride) % 2 ^ 64).toNat
  else if st.count ≤ e then 0
  else (st.address e % 2 ^ 64).toNat

/-- The first address of the elements at most 16 ahead of an affine stream's cursor whose page it has no translation of (R242); a
run list has no cursor (R241). -/
def Stream.ahead (st : Stream) : Option Nat :=
  let n := st.count
  if st.run || StreamLit.psz st.lit = 0 || n = 0 then none
  else
    (upFrom st.cursor 16).findSome? fun e =>
      let a := st.address (e % n)
      if 0 ≤ a && a < 2 ^ 55 && (st.lookup (StreamLit.psz st.lit) a.toNat false).isNone then some a.toNat else none

/-- The stream of an access and its index operand (R243). -/
def indexOperand (i : Instr) : Option (Nat × Sel) :=
  match i with
  | .ld o sm _ => some (sm.toNat, o.a)
  | .st o sm _ => some (sm.toNat, o.a)
  | .scat o sm _ => some (sm.toNat, o.a)
  | .atom o sm _ _ => some (sm.toNat, o.a)
  | .ldt o sm _ => some (sm.toNat, o.a)
  | .stt o sm _ _ => some (sm.toNat, o.a)
  | _ => none

/-- The indexes that stand in the queues of a port's accesses of a stream. -/
def State.arrivedAt (s : State) (n : NodeId) (sm : Nat) : List Nat :=
  (s.node n).instrs.flatMap fun e =>
    match indexOperand e.2 with
    | some (k, x) =>
      if k ≠ sm then []
      else
        match x.queue? with
        | some q => ((s.node n).queue q.toNat).toks.map fun t => t.tok.word32.toNat
        | none => []
    | none => []

/-- The first address of an index that has arrived whose page the stream has no translation of. -/
def Stream.aheadOf (st : Stream) (js : List Nat) : Option Nat :=
  if StreamLit.psz st.lit = 0 then none
  else
    js.findSome? fun j =>
      match st.elemAt j with
      | .ok a => if (st.lookup (StreamLit.psz st.lit) a false).isNone then some a else none
      | .error _ => none

/-- A look-ahead lookup of a port: the first of its streams that needs one, for its cursor or for an index that has arrived
(R242). -/
def State.lookAhead (s : State) (n : NodeId) : State :=
  match (s.port n).streams.findSome? fun e => (e.2.ahead.orElse fun _ => e.2.aheadOf (s.arrivedAt n e.1)).map fun a => (e.1, e.2, a) with
  | none => s
  | some (sm, st, va) =>
    let psz := StreamLit.psz st.lit
    match (s.die n.row.die).look (s.ownerOf n.row) va psz false with
    | .hit d e => (s.setDie n.row.die d).keepLook n sm e.vpn e.pa e.wr
    | .walking d =>
      if d = s.die n.row.die then s else (s.setDie n.row.die d).count n.row 4 1
    | .parked => s

/-- Whether an access of the port waits for the lookup of the same page for the same stream, which it then shares (R242). -/
def Node.asks (nd : Node) (a : Access) : Bool :=
  nd.fly.any fun g => g.acc.any fun b =>
    b.phase = .walking && b.sm = a.sm && b.psz = a.psz && b.addr / 2 ^ b.psz = a.addr / 2 ^ a.psz

/-- The translation of an access's page that its stream has by now (R242). -/
def State.looked (s : State) (n : NodeId) (a : Access) : Option Nat :=
  (tget (s.port n).streams a.sm).bind fun st => st.lookup a.psz a.addr a.op.writes

/-- TLB_LOOKUP (R303): the first access of a firing that waits for its translation reaches its slice; firing number 0
stands for the generator's look-ahead. -/
def State.tlbLookup (s : State) (n : NodeId) (id : Nat) : State :=
  if id = 0 then (if s.rowRuns n.row && !(s.port n).stopped then s.lookAhead n else s)
  else
    match (s.node n).firing id with
    | none => s
    | some f =>
      match f.acc.find? fun a => a.phase = .translate with
      | none => s
      | some a =>
        match s.looked n a with
        | some pa => s.setFiring n (f.setAcc { a with phase := .home (.hbm pa) })
        | none =>
          match (s.die n.row.die).look (s.ownerOf n.row) a.addr a.psz a.op.writes with
          | .hit d e => (s.setDie n.row.die d).translated n f a e.pa e.wr
          | .walking d =>
            let s1 := (s.setDie n.row.die d).setFiring n (f.setAcc { a with phase := .walking })
            if (s.node n).asks a then s1 else s1.count n.row 4 1
          | .parked => s

/-- The accesses of a die that wait for a walk. -/
def State.joined (s : State) (die : Nat) (w : Walk) : List (NodeId × Nat × Nat) :=
  s.rows.flatMap fun r =>
    if r.1 / 336 ≠ die then []
    else
      let row : RowId := ⟨die, r.1 / 28 % 12, r.1 % 28⟩
      if s.ownerOf row ≠ w.owner then []
      else r.2.nodes.flatMap fun e => e.2.fly.flatMap fun f =>
        (f.acc.filter fun a => a.phase = .walking && a.psz = w.psz && a.addr / 2 ^ a.psz = w.va / 2 ^ w.psz).map
          fun a => (⟨row, e.1⟩, f.id, a.id)

/-- A waiting access has the walk's outcome (R301: its own check of WR). -/
def State.walked (s : State) (o : BitVec 12) (x : NodeId × Nat × Nat) : State :=
  match (s.node x.1).firing x.2.1 with
  | none => s
  | some f =>
    match f.acc.find? fun a => a.id = x.2.2 with
    | none => s
    | some a =>
      match s.walk o a.addr a.psz a.op.writes with
      | .error e => if e.waits then s else s.xfaulted x.1 f a e
      | .ok l => s.translated x.1 f a l.pa l.wr

/-- PAGE_WALK_COMPLETE (R303): the walk fills an entry, or stops at a check; every access that joined it goes on. -/
def State.pageWalkComplete (s : State) (die slice k : Nat) : State :=
  let d := s.die die
  match (d.walksOf slice)[k]? with
  | none => s
  | some w =>
    let s1 := s.fixWalk w.owner w.va w.psz false
    let s2 := s1.setDie die { d with walks := tset d.walks slice ((d.walksOf slice).eraseIdx k) }
    let go := fun (x : State) => (s.joined die w).foldl (fun s x => s.walked w.owner x) x
    match s.walk w.owner w.va w.psz false with
    | .error x => if x.waits then s else go s2
    | .ok l => go (s2.fillSlice die slice w.owner w.va l)

/-! ## Owned ranges (R225) -/

/-- Whether bytes meet an owned range. -/
def OwnEnt.meets (e : OwnEnt) (addr size : Nat) (bank : Bool) : Bool := e.bank = bank && e.lo ≤ addr + size - 1 && addr ≤ e.hi

/-- A range of virtual addresses that a port of another region of the owner owns (R225). -/
def State.ownedBeyond (s : State) (o : BitVec 12) (die k addr size : Nat) : Option Nat :=
  s.dies.findSome? fun d => d.2.regions.findSome? fun e =>
    if e.2.valid && e.2.owner = o && !(d.1 = die && e.1 = k) then (e.2.own.find? fun x => x.2.meets addr size false).map Prod.fst else none

/-- Whether a range is owned by another port, by none during a handover, or given up by an OWN.REL in progress that started
before the firing `fid` (R225, R248). -/
def State.ownedBad (s : State) (n : NodeId) (addr size : Nat) (bank : Bool) (fid : Nat) : Option Nat :=
  match s.regionOf n.row with
  | none => none
  | some (k, g) =>
    let given := (s.node n).fly.filterMap fun f =>
      match f.ins with
      | .ownRel _ sm _ => if f.id < fid then (tget (s.port n).streams sm.toNat).bind fun st => st.own else none
      | _ => none
    let own := (g.own.find? fun e =>
      e.2.meets addr size bank &&
      (e.2.hand || e.2.row ≠ n.row.row - g.first || e.2.port ≠ n.node - 34 || given.contains e.1)).map Prod.fst
    if own.isSome || bank then own else s.ownedBeyond g.owner n.row.die k addr size
end Sys2Proof.Machine
end

