-- ==== Sys2Proof/Machine/Hub.lean ====
section
/-!
DEFINITION. What every port instruction shares (R235-R237), and the port instructions that act on the hub: notify
registers, random words and token rings (R190-R197).
-/
namespace Sys2Proof.Machine

/-! ## Done tokens and order of completion -/

/-- The tag of the first popped source token, 0 where a firing pops nothing (R236). -/
def Node.popTag (n : Node) : List Sel → RTag
  | [] => 0
  | .pop q :: t =>
    match n.head q.toNat with
    | some k => k.tok.tag
    | none => Node.popTag n t
  | _ :: t => Node.popTag n t

def FireReq.doneTag (r : FireReq) (nd : Node) : RTag := nd.popTag r.sels

/-- A done token (R236). -/
def doneTok1 (t : RTag) : List Tok := [wordTok 1 t]

/-- A guarded-off firing whose slots are done slots delivers a null done to them (R236). -/
def nullDone (r : FireReq) (d0 d1 : Bool) (e : Env) : Plan :=
  { o0 := if d0 then doneTok1 (r.doneTag e.nd) else [], o1 := if d1 then doneTok1 (r.doneTag e.nd) else [] }

/-- The alias class of a firing's accesses. -/
def Firing.cls (f : Firing) : Option Nat := f.acc.head?.map fun a => a.cls

/-- The stores that a firing will deliver into. -/
def Firing.feeds (f : Firing) : List Dest :=
  (if f.n0 = 0 then [] else [f.t0.dst.store]) ++ (if f.n1 = 0 then [] else [f.t1.dst.store])

/-- Whether a port firing's turn to complete has come (R237): no earlier firing of its alias class, and none that
delivers into a queue it delivers into, is in progress. -/
def Node.portTurn (nd : Node) (f : Firing) : Bool :=
  nd.fly.all fun g =>
    !(g.id < f.id && ((f.cls.isSome && g.cls = f.cls) || g.feeds.any fun d => f.feeds.contains d))

/-- Whether a firing's time and turn to complete have come. Every node completes its firings in the order of their starts
(R103, R125, R149, R281, R346) but a port node, which keeps the order of a class and of a consumer (R237). -/
def State.mayComplete (s : State) (n : NodeId) (f : Firing) : Bool :=
  let nd := s.node n
  f.doneAt ≤ s.cyc n.row.die && (if n.node = 34 || n.node = 35 then nd.portTurn f else nd.fly.all fun g => f.id ≤ g.id)

/-- A release at a scope wider than ROW makes every store that the region's ports have accepted visible (R219): their
buffers write out, but for held speculative blocks. -/
def State.release (s : State) (r : RowId) (sc : Scope) : State :=
  if sc = .row then s
  else
    match s.regionOf r with
    | none => s
    | some (_, g) =>
      (g.rowIds r.die).foldl (fun x row => (x.flushIf ⟨row, 34⟩ fun _ => true).flushIf ⟨row, 35⟩ fun _ => true) s

/-- The record of a fault at a memory address (R301, R340). -/
def xinfo (x : XFault) (va : Nat) (tag : RTag) : FInfo :=
  { tag := tag, addr1 := x.va.getD va, addr2 := x.entry, aux := BitVec.ofNat 32 x.level }

/-! ## Notify registers (R195-R197) -/

def State.granted (s : State) (r : Nat) (o : BitVec 12) : Bool := r < 4096 && tget s.hub.grants r = some o

/-- WAITN's condition (R196). -/
def reached (v b : Word) : Bool := (v - b).ult 0x80000000

/-- A woken waiter has the register's value. -/
def State.wakeAll (s : State) (v : Word) : List Waiter → State
  | [] => s
  | w :: t => State.wakeAll (s.wake w.n w.fid fun f => { f with o0 := [wordTok v f.tag], o1 := [wordTok v f.tag] }) v t

/-- A notify register takes a value and wakes the waiters whose condition then holds, in the order they joined. -/
def State.setNotify (s : State) (r : Nat) (v : Word) : State :=
  let ws := tgetD s.hub.waits r []
  let h := s.hub
  (s.setHub { h with notify := tset h.notify r v,
                     waits := tset h.waits r (ws.filter fun w => !reached v w.b) }).wakeAll v
    (ws.filter fun w => reached v w.b)

def State.notifyVal (s : State) (r : Nat) : Word := tgetD s.hub.notify r 0

/-- A member whose trigger register takes round k has begun it, and its hub has the record to send (R392). -/
def beginRound (r k : Nat) (m : Merge) : Merge :=
  let c := Config.mergeCfg ((upFrom 0 16).map fun i => tgetD m.words i 0)
  if m.words.isEmpty then m
  else
    let mine := (upFrom 0 c.mems.length).filter fun i =>
      match c.mems[i]? with
      | some x => x.node = Config.node && x.trig = r && c.mask.getLsbD i
      | none => false
    { m with mems := mine.foldl (fun t i =>
        let y := tgetD t i {}
        tset t i { y with begun := max y.begun k, due := y.due ++ [k] }) m.mems }

def State.triggerMerges (s : State) (r k : Nat) : State :=
  if k = 0 then s else s.setHub { s.hub with merges := s.hub.merges.map fun e => (e.1, beginRound r k e.2) }

/-- NOTIFY: a granted register, or 0x144; it takes effect when it completes (R195, R334). -/
def notifyRes (e : Env) : Res :=
  if e.s.granted e.av.toNat (e.s.ownerOf e.l.nd.row) then .go { a := e.av, b := e.bv }
  else .fault 0x144 e.info

def execNotifyAdd (o : Ops) (s : State) : Out := .next (fire s s.locus (.notifyAdd o) { ops := o } notifyRes)

def execNotifySet (o : Ops) (s : State) : Out := .next (fire s s.locus (.notifySet o) { ops := o } notifyRes)

/-- WAITN completes, or parks on the register's wait list of 16 (R196). -/
def execWaitn (o : Ops) (s : State) : Out :=
  .next (fire s s.locus (.waitn o) { ops := o } fun e =>
    let r := e.av.toNat
    if !e.s.granted r (e.s.ownerOf e.l.nd.row) then .fault 0x144 e.info
    else if reached (e.s.notifyVal r) e.bv then .word 1 (e.s.notifyVal r) e.tag
    else if 16 ≤ (tgetD e.s.hub.waits r []).length then .wait
    else
      .go { await := .hub 0, a := e.av, b := e.bv, eff := fun s =>
              s.setHub { s.hub with waits := tset s.hub.waits r (tgetD s.hub.waits r [] ++ [⟨e.l.nd, e.id, e.bv⟩]) } })

/-- The owner that a core's traffic carries (R391). -/
def State.coreOwner (s : State) (core : Nat) : BitVec 12 := (tgetD s.hub.cores core {}).owner

/-- NOTIFY_WINDOW_WRITE (R197, R211): offset +0 sets, +8 adds, +4 and +12 do nothing. -/
def State.notifyWindowWrite (s : State) (core off : Nat) (v : Word) : State :=
  let r := off / 16
  if 65536 ≤ off || !s.granted r (s.coreOwner core) then
    s.setHub { s.hub with outbox := s.hub.outbox ++ [.accessFault core none] }
  else if off % 16 = 0 then s.setNotify r v
  else if off % 16 = 8 then s.setNotify r (s.notifyVal r + v)
  else s


/-! ## ChaCha20 (R190, RFC 8439) -/

abbrev ChaSt := List Word

def chaAt (x : ChaSt) (i : Nat) : Word := (x[i]?).getD 0

/-- The quarter round. -/
def quarter (x : ChaSt) (a b c d : Nat) : ChaSt :=
  let va := chaAt x a + chaAt x b
  let vd := (chaAt x d ^^^ va).rotateLeft 16
  let vc := chaAt x c + vd
  let vb := (chaAt x b ^^^ vc).rotateLeft 12
  let va := va + vb
  let vd := (vd ^^^ va).rotateLeft 8
  let vc := vc + vd
  let vb := (vb ^^^ vc).rotateLeft 7
  lset (lset (lset (lset x a va) b vb) c vc) d vd

def doubleRound (x : ChaSt) : ChaSt :=
  let x := quarter (quarter (quarter (quarter x 0 4 8 12) 1 5 9 13) 2 6 10 14) 3 7 11 15
  quarter (quarter (quarter (quarter x 0 5 10 15) 1 6 11 12) 2 7 8 13) 3 4 9 14

def chaRounds : Nat → ChaSt → ChaSt
  | 0, x => x
  | n + 1, x => chaRounds n (doubleRound x)

/-- The starting state: constants, key, block counter, nonce. -/
def chaInit (key : List Word) (ctr : Nat) (nonce : Word) : ChaSt :=
  [0x61707865, 0x3320646e, 0x79622d32, 0x6b206574] ++ key ++ [BitVec.ofNat 32 ctr, nonce, 0, 0]

/-- One block of 16 words. -/
def chaBlock (key : List Word) (ctr : Nat) (nonce : Word) : List Word :=
  let x := chaInit key ctr nonce
  List.zipWith (· + ·) (chaRounds 10 x) x

/-- The key words of a slot's seed. -/
def seedKey (seed : List DWord) : List Word := seed.flatMap fun w => [w.extractLsb' 0 32, w.extractLsb' 32 32]

/-- Keystream words n to n + k − 1 of a slot. -/
def keyWords (seed : List DWord) (slot n k : Nat) : List Word :=
  let b0 := n / 16
  (((upFrom b0 ((n + k + 15) / 16 - b0)).flatMap fun b => chaBlock (seedKey seed) b (BitVec.ofNat 32 slot)).drop
    (n % 16)).take k

def State.setSlot (s : State) (k : Nat) (x : SeqSlot) : State := s.setHub { s.hub with slots := tset s.hub.slots k x }

/-- RING_REFILL (R190): the ring is filled to 64 words, none at or beyond word 2^36. -/
def State.ringRefill (s : State) (slot : Nat) : State :=
  match tget s.hub.slots slot with
  | none => s
  | some x =>
    if !x.bound then s
    else
      let n := x.n + x.ring.length
      let k := min (64 - x.ring.length) (2 ^ 36 - n)
      s.setSlot slot { x with ring := x.ring ++ keyWords x.seed slot n k }


/-! ## RANDT and RNGSET (R191, R192) -/

/-- A ticket is granted, in the order of the requests, with the pinned words that stand then (R191, R192). -/
def SeqSlot.ticket (x : SeqSlot) (n : NodeId) (fid cnt at_ : Nat) : SeqSlot :=
  { x with tickets := x.tickets ++ [⟨n, fid, cnt, at_, x.pins.take cnt⟩], pins := x.pins.drop cnt }

def execRandt (o : Ops) (beat : Bool) (s : State) : Out :=
  .next (fire s s.locus (.randt o beat) { ops := o } fun e =>
    let k := e.av.toNat
    if !e.s.slotOwned k (e.s.ownerOf e.l.nd.row) then .fault 0x143 e.info
    else
      .go { await := .hub 0, lat := 24, a := e.av, eff := fun s =>
              match tget s.hub.slots k with
              | none => s
              | some x => s.setSlot k (x.ticket e.l.nd e.id (if beat then 32 else 1) (s.cyc e.l.nd.row.die)) })

/-- RANDT_TICKET (R191): the next ticket takes its words, its pinned ones first, and its firing completes with them; one that the
keystream cannot serve holds the slot until it is reseeded (R190). -/
def State.randtTicket (s : State) (slot : Nat) : State :=
  match tget s.hub.slots slot with
  | none => s
  | some x =>
    match x.tickets with
    | [] => s
    | t :: ts =>
      match (s.node t.n).firing t.fid with
      | none => s
      | some f =>
        let k := t.cnt - t.pins.length
        if x.ring.length < k || !s.mayComplete t.n f then s
        else
          let ws := t.pins ++ x.ring.take k
          let out := if t.cnt = 1 then wordTok (ws.headD 0) f.tag else beatTok (packBeat 32 (ws.map BitVec.toNat))
          let s1 := s.setSlot slot
            { x with ring := x.ring.drop k, n := x.n + k, tickets := ts }
          s1.complete t.n { f with o0 := [out], o1 := [out] }


/-- RNGSET: an owned slot with room in its pin queue; it takes effect when it completes, with no release (DESIGN CHOICE, log entry
106). -/
def execRngset (o : Ops) (s : State) : Out :=
  let r : FireReq := { ops := o }
  .next (fire s s.locus (.rngset o) r (fun e =>
    if !e.s.slotOwned e.av.toNat (e.s.ownerOf e.l.nd.row) then .fault 0x143 e.info
    else if 64 ≤ ((tget e.s.hub.slots e.av.toNat).map fun x => x.pins.length).getD 0 then .fault 0x064 e.info
    else .go { o0 := doneTok1 (r.doneTag e.nd), o1 := doneTok1 (r.doneTag e.nd), a := e.av, b := e.bv })
    (nullDone r true true))

def execRngsetClr (o : Ops) (s : State) : Out :=
  let r : FireReq := { ops := o }
  .next (fire s s.locus (.rngsetClr o) r (fun e =>
    if !e.s.slotOwned e.av.toNat (e.s.ownerOf e.l.nd.row) then .fault 0x143 e.info
    else .go { o0 := doneTok1 (r.doneTag e.nd), o1 := doneTok1 (r.doneTag e.nd), a := e.av })
    (nullDone r true true))

/-! ## Token rings (R193, R194) -/

def SeqSlot.e (x : SeqSlot) : Nat := x.e1.toNat + 1

/-- Whether the ring has room: cursor − CONS < E as integers, the counts not wrapping (R193, R194). -/
def ringRoom (x : SeqSlot) (cons : DWord) : Bool := x.cursor < cons.toNat + x.e

/-- The ownership entry by which bytes of a ring belong to another port (R225). -/
def State.ringOwned (s : State) (n : NodeId) (fid va size : Nat) : Option Nat := s.ownedBad n va size false fid

/-- The address of the entry that RING.PUT writes (R193). -/
def SeqSlot.entryVa (x : SeqSlot) : Nat := x.rbase + 64 + 8 * (x.cursor % x.e)

/-- The record of a ring's access to a range that another port owns (R422). -/
def ownInfo (x : FInfo) (va k : Nat) : FInfo := { x with addr1 := va, aux := BitVec.ofNat 32 k }

/-- RING.PUT waits for room; its entry is written when it completes. -/
def execRingPut (o : Ops) (c : Sel) (s : State) : Out :=
  let r : FireReq := { ops := o, c := some c }
  .next (fire s s.locus (.ringPut o c) r (fun e =>
    let ow := e.s.ownerOf e.l.nd.row
    match tget e.s.hub.slots e.av.toNat with
    | none => .fault 0x143 e.info
    | some x =>
      if !e.s.slotOwned e.av.toNat ow then .fault 0x143 e.info
      else
        match e.s.ringOwned e.l.nd e.id (x.rbase + 8) 8 with
        | some k => .fault 0x0C0 (ownInfo e.info (x.rbase + 8) k)
        | none =>
        match e.s.readVa1 ow (x.rbase + 8) with
        | .error f =>
          if f.waits then .wait
          else if f.walks then
            .go { await := .hub 3, a := e.av, b := e.bv, eff := fun s =>
                    match (s.node e.l.nd).firing e.id with
                    | some g => s.stopGen e.l.nd g f (x.rbase + 8)
                    | none => s }
          else .fault f.cause { xinfo f (x.rbase + 8) e.tag with a := e.av, b := e.bv }
        | .ok cons =>
          if !ringRoom x cons then .wait
          else .go { o0 := doneTok1 (r.doneTag e.nd), o1 := doneTok1 (r.doneTag e.nd), a := e.av, b := e.bv,
                     data := [e.c.beatOf] })
    (nullDone r true true))

def execRingPub (o : Ops) (s : State) : Out :=
  let r : FireReq := { ops := o }
  .next (fire s s.locus (.ringPub o) r (fun e =>
    if !e.s.slotOwned e.av.toNat (e.s.ownerOf e.l.nd.row) then .fault 0x143 e.info
    else .go { o0 := doneTok1 (r.doneTag e.nd), o1 := doneTok1 (r.doneTag e.nd), a := e.av })
    (nullDone r true true))

/-! ## What takes effect at a completion -/

/-- The outcome of an effect that a firing has at its completion. -/
inductive Fin where
  | wait
  | fault (c : Cause) (x : FInfo)
  | faultIn (s : State) (c : Cause) (x : FInfo)     -- a fault after a change that stays
  | stop (x : XFault) (va : Nat)                    -- a translation that it needs faulted (R304)
  | ok (s : State) (f : Firing)

/-- An access at a completion that stopped: a fault of its translation stops the generator, one of the data faults the firing. -/
def Fin.ofX (f : Firing) (x : XFault) (va : Nat) : Fin :=
  if x.waits then .wait else if x.walks then .stop x va else .fault x.cause { xinfo x va f.tag with a := f.ra, b := f.rb }

/-- RING.PUT writes the entry at the cursor (R194); its done token goes out with no release wider than ROW (DESIGN CHOICE, log entry
106). -/
def State.ringPut (s : State) (n : NodeId) (f : Firing) : Fin :=
  let ow := s.ownerOf n.row
  match tget s.hub.slots f.a.toNat with
  | none => .fault 0x143 f.info
  | some x =>
    match s.readVa1 ow (x.rbase + 8) with
    | .error y => .ofX f y (x.rbase + 8)
    | .ok cons =>
      if !ringRoom x cons then .wait
      else
        let va := x.entryVa
        let hi : Word := (f.data.headD 0).setWidth 32
        match s.ringOwned n f.id va 8 with
        | some k => .fault 0x0C0 (ownInfo f.info va k)
        | none =>
        match (s.fixVa ow false 1 (x.rbase + 8)).writeVa ow [hi ++ f.b] va with
        | .error y => .ofX f y va
        | .ok s1 => .ok (s1.setSlot f.a.toNat { x with cursor := x.cursor + 1 }) f

/-- Whether a firing of RING.PUT to the slot of a RING.PUB, at any node, started before it and has not completed. -/
def State.putsBefore (s : State) (n : NodeId) (f : Firing) : Bool :=
  s.rows.any fun r => r.2.nodes.any fun e => e.2.fly.any fun g =>
    (match g.ins with | .ringPut _ _ => true | _ => false) && !g.off && g.a = f.a &&
      (g.born < f.born || (r.1 = rowIx n.row && e.1 = n.node && g.id < f.id))

/-- RING.PUB waits for every earlier PUT to its slot and writes COUNT := cursor as a release (R194). -/
def State.ringPub (s : State) (n : NodeId) (f : Firing) : Fin :=
  match tget s.hub.slots f.a.toNat with
  | none => .fault 0x143 f.info
  | some x =>
    if s.putsBefore n f then .wait
    else
    match s.ringOwned n f.id x.rbase 8 with
    | some k => .fault 0x0C0 (ownInfo f.info x.rbase k)
    | none =>
    match (s.release n.row .system).writeVa (s.ownerOf n.row) [BitVec.ofNat 64 x.cursor] x.rbase with
    | .error y => .ofX f y x.rbase
    | .ok s1 => .ok s1 f

/-- NOTIFY updates its register as a release and delivers the new value (R195). -/
def State.notifyDone (s : State) (n : NodeId) (f : Firing) (v : Word) (set : Bool) : Fin :=
  let s1 := (s.release n.row .system).setNotify f.a.toNat v
  .ok (if set then s1.triggerMerges f.a.toNat v.toNat else s1) { f with o0 := [wordTok v f.tag], o1 := [wordTok v f.tag] }

/-- The effects on the hub of a completing firing. -/
def State.hubDone (s : State) (n : NodeId) (f : Firing) : Fin :=
  match f.ins with
  | .notifyAdd _ => s.notifyDone n f (s.notifyVal f.a.toNat + f.b) false
  | .notifySet _ => s.notifyDone n f f.b true
  | .ringPut _ _ => s.ringPut n f
  | .ringPub _ => s.ringPub n f
  | .rngset _ =>
    match tget s.hub.slots f.a.toNat with
    | none => .fault 0x143 f.info
    | some x =>
      if 64 ≤ x.pins.length then .fault 0x064 f.info
      else .ok (s.setSlot f.a.toNat { x with pins := x.pins ++ [f.b] }) f
  | .rngsetClr _ =>
    match tget s.hub.slots f.a.toNat with
    | none => .fault 0x143 f.info
    | some x => .ok (s.setSlot f.a.toNat { x with pins := [] }) f
  | _ => .ok (s.cellDone n f) f

end Sys2Proof.Machine
end

