-- ==== Sys2Proof/Machine/Matrix.lean ====
section
/-!
DEFINITION. The matrix instructions 0x80-0x87 (R147-R164): each firing starts on a matrix control token and runs in
steps, one row or beat at a time (FIRING_STEP).
-/
namespace Sys2Proof.Machine

/-! ## The control token (R115) -/

def tokOpv (t : Word) : Nat := t.toNat / 2 ^ 28
def tokVar (t : Word) : Nat := t.toNat / 2 ^ 24 % 16
def tokM (t : Word) : Nat := 16 * (t.toNat / 2 ^ 22 % 4 + 1)
def tokN (t : Word) : Nat := 16 * (t.toNat / 2 ^ 20 % 4 + 1)
def tokK (t : Word) : Nat := 16 * (t.toNat / 2 ^ 16 % 16 + 1)
def tokAcc (t : Word) : Bool := t.getLsbD 15

/-- The completion word: the token with bit 0 set (R148). -/
def doneTok (t : Word) : List Tok := [wordTok (t ||| 1) 0]

/-- Largest k and elements per beat of a format (R151). -/
def MFmt.maxK : MFmt → Nat
  | .bf16 => 64 | .e4m3 => 128 | .e5m2 => 128 | .mx4 => 256

/-- Width of an element. -/
def MFmt.w : MFmt → Nat
  | .bf16 => 16 | .e4m3 => 8 | .e5m2 => 8 | .mx4 => 4

/-- A value with subnormals flushed to a zero of the same sign (R82). -/
def flushDecode (f : FpFmt) (x : Nat) : Fv :=
  if x / 2 ^ f.fb % 2 ^ f.eb = 0 then .fin ⟨f.sign x, 0, 0⟩ else f.decode x

/-- The value of an element before its scale (R82, R151). -/
def mVal (f : MFmt) (x : Nat) : Fv :=
  match f with
  | .bf16 => flushDecode fBF16 x
  | .e4m3 => flushDecode fE4M3 x
  | .e5m2 => flushDecode fE5M2 x
  | .mx4 => .fin (e2m1 x)

/-- Multiply by an E8M0 scale; the scale 0xFF is a NaN (R74). -/
def scaled (sc : Nat) (v : Fv) : Fv :=
  if sc = 0xFF then .nan
  else
    match v with
    | .fin d => .fin (d.scale ((sc : Int) - 127))
    | v => v

/-- Element B[k][c] of a stationary register (R152). -/
def StatReg.el (r : StatReg) (f : MFmt) (k c : Nat) : Fv :=
  let per := MFmt.maxK f / 64
  let v := mVal f (elem (tgetD r.rows (k / per) 0) (MFmt.w f) (k % per * 64 + c))
  match f with
  | .mx4 => scaled (tgetD r.sc (64 * (k / 32) + c) 0).toNat v
  | _ => v

/-- Element k of an A beat with its scale beat (R155). -/
def aEl (f : MFmt) (x sx : Beat) (k : Nat) : Fv :=
  let v := mVal f (elem x (MFmt.w f) k)
  match f with
  | .mx4 => scaled (elem sx 8 (k / 32)) v
  | _ => v

/-- The groups of 16 products in ascending k, each rounded once (R84, R155). -/
def groupsFrom (acc : Option Fv) (p : Nat → Fv) : Nat → Nat → Option Fv
  | _, 0 => acc
  | g, n + 1 =>
    groupsFrom (some (fF32.decode (groupSum acc ((upFrom (16 * g) 16).map p)))) p (g + 1) n

/-- An FP32 value as its code. -/
def fvCode (v : Option Fv) : Word :=
  match v with
  | none => 0
  | some x => BitVec.ofNat 32 (x.round fF32 .rne)

/-- One element of a result row. -/
def rowEl (fa fb : MFmt) (sa : StatReg) (x sx : Beat) (k c : Nat) (init : Option Word) : Word :=
  fvCode (groupsFrom (init.map fun w => fF32.decode w.toNat)
    (fun j => (aEl fa x sx j).mul (sa.el fb j c)) 0 (k / 16))

/-- A result row from its starting values. -/
def rowOf (fa fb : MFmt) (sa : StatReg) (x sx : Beat) (k n : Nat) (init : Nat → Option Word) : List Word :=
  (upFrom 0 n).map fun c => rowEl fa fb sa x sx k c (init c)

/-- Write a row of an accumulator from column c on. -/
def putRow (t : Tbl Word) (i : Nat) : Nat → List Word → Tbl Word
  | _, [] => t
  | c, w :: ws => putRow (tset t (64 * i + c) w) i (c + 1) ws

/-- Starting values of row i: MMA's accumulator (R155). -/
def mmaInit (m : Mat) (t : Word) (i c : Nat) : Option Word :=
  if tokAcc t then some (tgetD m.ca (64 * i + c) 0) else none

/-- Starting values of row i: MREC's delayed row times γ (R159). -/
def mrecInit (m : Mat) (t gam : Word) (i c : Nat) : Option Word :=
  let d := tokVar t + 1
  if d ≤ i then some (f32Mul .rne gam (tgetD m.ca (64 * (i - d) + c) 0))
  else if tokAcc t then some (f32Mul .rne gam (tgetD m.ca (64 * (tokM t - d + i) + c) 0))
  else none

/-! ## Starting -/

inductive Engine where
  | array | loader | drain | none
  deriving DecidableEq, Repr

/-- The engine of an instruction (R149). -/
def engineOf (i : Instr) : Engine :=
  match i with
  | .mma _ _ _ => .array
  | .mrec _ _ _ _ => .array
  | .mstat _ _ => .loader
  | .mscale _ => .loader
  | .mdrain _ _ => .drain
  | _ => .none

/-- Whether a firing of an engine may start beside those in progress: one for each engine, none beside an exchange
(R149). -/
def Node.engineFree (n : Node) (e : Engine) : Bool :=
  n.fly.all fun f => engineOf f.ins ≠ .none && engineOf f.ins ≠ e

/-- A matrix firing: its token is checked (R150), and `k` goes on with the token. -/
def mxStart (e : Env) (opv : Nat) (eng : Engine) (k : Word → Res) : Res :=
  match e.nd.head 3 with
  | none => .wait
  | some q =>
    let t := q.tok.word32
    if !e.nd.engineFree eng then .wait
    else if tokOpv t ≠ opv then .fault 0x040 (e.info)
    else if t.toNat % 2 ^ 15 ≠ 0 then .fault 0x043 (e.info)
    else k t

/-- The plan of a firing that runs in steps: it claims its token. -/
def mxSteps (t : Word) : Plan := { a := t, o0 := doneTok t, o1 := doneTok t, pops := some [(3, 1)], await := .steps }

/-- A guarded-off firing pops its token, and in steps the beats that the token's shape uses (R150). -/
def mxOff (e : Env) : Plan :=
  match e.nd.head 3 with
  | none => {}
  | some q => { a := q.tok.word32, pops := some [(3, 1)], await := .steps }

/-- A guarded-off firing too takes its turn on its engine, and an exchange waits for every earlier firing (R149). -/
def mxReq (o : Ops) : FireReq :=
  { ops := o, more := [3], verify := false,
    hold := fun nd i => !nd.engineFree (engineOf i) || (engineOf i = .none && !nd.fly.isEmpty) }

/-- Whether the row's link offers a row step. -/
def linkReady (e : Env) (o : Ops) : Bool :=
  if o.a = .link || o.b = .link then !(e.s.row e.l.nd.row).mat.link.isEmpty else true

def execMma (o : Ops) (fa fb : MFmt) (s : State) : Out :=
  .next (fire s s.locus (.mma o fa fb) (mxReq o) (fun e => if !linkReady e o then .wait else mxStart e 0 .array fun t =>
    if tokVar t ≠ 0 then .fault 0x042 e.info
    else if MFmt.maxK fa < tokK t || MFmt.maxK fb < tokK t then .fault 0x041 e.info
    else .go (mxSteps t)) mxOff)

def execMrec (o : Ops) (fa fb : MFmt) (gam : BitVec 32) (s : State) : Out :=
  .next (fire s s.locus (.mrec o fa fb gam) (mxReq o) (fun e => if !linkReady e o then .wait else mxStart e 5 .array fun t =>
    if MFmt.maxK fa < tokK t || MFmt.maxK fb < tokK t || tokM t < tokVar t + 1 then .fault 0x041 e.info
    else .go (mxSteps t)) mxOff)

def execMstat (o : Ops) (f : MFmt) (s : State) : Out :=
  .next (fire s s.locus (.mstat o f) (mxReq o) (fun e => mxStart e 1 .loader fun t =>
    if tokVar t ≠ 0 then .fault 0x042 e.info
    else if MFmt.maxK f < tokK t then .fault 0x041 e.info
    else .go (mxSteps t)) mxOff)

/-- The scale bytes from `lo` to 511, all 0x7F. -/
def unitScales (t : Tbl Byte) (lo : Nat) : Tbl Byte := (upFrom lo (512 - lo)).foldl (fun t i => tset t i 0x7F) t

def State.setMat (s : State) (r : RowId) (f : Mat → Mat) : State :=
  let rw := s.row r
  s.setRow r { rw with mat := f rw.mat }

/-- Whether MSCALE's first step still waits for its beat: in every variant but the one that pops nothing (R148, R154). -/
def scaleWaits (e : Env) (o : Ops) : Bool :=
  match e.nd.head 3 with
  | none => true
  | some q => tokVar q.tok.word32 ≠ 1 && (popQs [o.a]).any fun q => !e.nd.offers q

/-- MSCALE loads scales in steps, or sets them all to 1 in one step (R154). -/
def execMscale (o : Ops) (s : State) : Out :=
  .next (fire s s.locus (.mscale o) (mxReq { o with a := .zero }) (fun e => if scaleWaits e o then .wait else
    mxStart e 7 .loader fun t => if 1 < tokVar t then .fault 0x042 e.info else .go (mxSteps t)) mxOff)

/-- Exchange SA with SL, or CA with CL (R156). -/
def Mat.swap (m : Mat) (a c : Bool) : Mat :=
  let m1 := if a then { m with sa := m.sl, sl := m.sa } else m
  if c then { m1 with ca := m1.cl, cl := m1.ca } else m1

/-- A firing of one cycle that waits for every earlier one (R149). -/
def mxOnce (t : Word) (f : State → State) : Res :=
  .go { a := t, o0 := doneTok t, o1 := doneTok t, pops := some [(3, 1)], eff := f }

def mxOnceOff (_ : Env) : Plan := { pops := some [(3, 1)] }

def execMswap (o : Ops) (s : State) : Out :=
  .next (fire s s.locus (.mswap o) { mxReq o with serial := true } (fun e => mxStart e 2 .none fun t =>
    if 2 < tokVar t then .fault 0x042 e.info
    else mxOnce t fun x => x.setMat e.l.nd.row fun m => m.swap (tokVar t ≠ 2) (tokVar t ≠ 1)) mxOnceOff)

def execMzero (o : Ops) (s : State) : Out :=
  .next (fire s s.locus (.mzero o) { mxReq o with serial := true } (fun e => mxStart e 4 .none fun t =>
    if 2 < tokVar t then .fault 0x042 e.info
    else mxOnce t fun x => x.setMat e.l.nd.row fun m =>
      { m with ca := if tokVar t = 1 then m.ca else [], cl := if tokVar t = 0 then m.cl else [] }) mxOnceOff)

/-- The row of the live slot after or before a row's own (R370). -/
def State.besideRow (s : State) (r : RowId) (up : Bool) : RowId :=
  match s.bandOf r with
  | none => { r with row := if up then r.row + 1 else r.row - 1 }
  | some (_, b) =>
    match indexOf (r.row - b.base) b.live 0 with
    | none => r
    | some i =>
      match b.live[if up then i + 1 else i - 1]? with
      | some j => { r with row := b.base + j }
      | none => r

def Row.hdr (r : Row) : Hdr :=
  match r.reel.block with
  | some b => b.hdr
  | none => {}

/-- The matrix node of the other half of a pair (R160). -/
def State.pairNode (s : State) (n : NodeId) : NodeId := ⟨s.besideRow n.row (!(s.row n.row).hdr.trail), 33⟩

/-- A MPAIR of the node that waits for its partner. -/
def Node.pairWait (n : Node) : Option Firing :=
  n.fly.find? fun f => (match f.ins with | .mpair _ => true | _ => false) && f.await ≠ .nothing

/-- MPAIR exchanges in both halves once both have started (R161). -/
def execMpair (o : Ops) (s : State) : Out :=
  .next (fire s s.locus (.mpair o) { mxReq o with serial := true } (fun e => mxStart e 6 .none fun t =>
    if 1 < tokVar t then .fault 0x042 e.info
    else
      let p := e.s.pairNode e.l.nd
      match (e.s.node p).pairWait with
      | none => .go { a := t, o0 := doneTok t, o1 := doneTok t, pops := some [(3, 1)], await := .hub 0 }
      | some f =>
        mxOnce t fun x =>
          ((x.setMat e.l.nd.row fun m => m.swap true (tokVar t = 0)).setMat p.row
            fun m => m.swap true (tokVar f.a = 0)).wake p f.id id) mxOnceOff)

/-- Whether a tile slot lies in the banks of the row's block (R54). -/
def Row.tileOk (r : Row) (t : Nat) : Bool := t / 4 < r.hdr.banks

def execMdrain (o : Ops) (t : Option (BitVec 6)) (s : State) : Out :=
  .next (fire s s.locus (.mdrain o t) (mxReq o) (fun e => mxStart e 3 .drain fun k =>
    if 3 < tokVar k || (tokVar k < 2 && o.d0 = .none) || (2 ≤ tokVar k && t.isNone) then .fault 0x042 e.info
    else if tokVar k = 3 && !(e.s.row e.l.nd.row).tileOk ((t.getD 0).toNat + 1) then .fault 0x044 e.info
    else .go { mxSteps k with o0 := [], n0 := 0 }) mxOff)

/-! ## Steps -/

/-- Number of steps of a matrix firing (R153-R158). -/
def mxCount (i : Instr) (t : Word) : Nat :=
  match i with
  | .mma _ _ _ => tokM t
  | .mrec _ _ _ _ => tokM t
  | .mstat _ f => tokK t / (MFmt.maxK f / 64)
  | .mscale _ => if tokVar t = 1 then 1 else (tokK t + 63) / 64
  | .mdrain _ _ => tokM t
  | _ => 0

/-- Cycles from the last step to the completion (R149). -/
def mxTail (i : Instr) : Nat :=
  match engineOf i with
  | .array => 12
  | .loader => 2
  | _ => 1

/-- What a step takes: a beat of a queue, the link's, or nothing. -/
inductive StepSrc where
  | none
  | queue (q : Nat)
  | link
  deriving DecidableEq, Repr

def stepSrc (s : Sel) : StepSrc :=
  match s with
  | .pop q => .queue q.toNat
  | .link => .link
  | _ => .none

/-- The sources of a step of a firing whose token is `t`. -/
def mxSrcs (i : Instr) (t : Word) : StepSrc × StepSrc :=
  match i with
  | .mdrain _ _ => (.none, .none)
  | .mscale o => if tokVar t = 1 then (.none, .none) else (stepSrc o.a, .none)
  | i => (stepSrc i.ops.a, stepSrc i.ops.b)

/-- A guarded-off firing pops its pop sources, Q0 to Q2, and takes nothing from the pair link (R147, R150). -/
def stepSrcs (f : Firing) : StepSrc × StepSrc :=
  let x := mxSrcs f.ins f.a
  if f.off then (if x.1 = .link then .none else x.1, if x.2 = .link then .none else x.2) else x

/-- Whether an earlier firing of the node still pops a queue. -/
def Node.popBusy (n : Node) (id q : Nat) : Bool :=
  n.fly.any fun f => f.id < id && f.await = .steps && ((mxSrcs f.ins f.a).1 = .queue q || (mxSrcs f.ins f.a).2 = .queue q)

/-- The beat a step source offers: absent, a marker, or a beat with its check difference. -/
def stepTok (n : Node) (id : Nat) (x : StepSrc) : Option Tok :=
  match x with
  | .queue q => if n.popBusy id q then none else (n.head q).map QTok.tok
  | _ => some (.beat 0 0)

/-- A step's sources are popped. -/
def Node.popStep (n : Node) (x : StepSrc) : Node :=
  match x with
  | .queue q => n.dropHeads [q]
  | _ => n

/-- The row step at the head of the pair link. -/
def linkHead (m : Mat) : Option (Beat × Option Beat × Nat × Nat) := m.link.head?

/-- What a step's fault record holds of an operand: element 0 of its beat, the link's for one that the link gives (R422). -/
def stepWord (m : Mat) (x : StepSrc) (first : Bool) (t : Option Tok) : Word :=
  match x, linkHead m with
  | .link, some l => (Tok.beat (if first then l.1 else l.2.1.getD 0) 0).word32
  | .link, none => 0
  | _, _ => (t.getD (.word 0 0 0)).word32

/-- The beats of a step from its sources and the link. -/
def stepBeats (m : Mat) (sa sb : StepSrc) (ta tb : Tok) : Beat × Beat :=
  let l := (linkHead m).getD (0, none, 0, 0)
  (if sa = .link then l.1 else ta.beatOf, if sb = .link then l.2.1.getD 0 else tb.beatOf)

/-- The beat columns c0 to c0 + 31 of a row of CL as FP32, zero beyond n: R158 says so of variants 0 to 2; that variant 3's tile
beats hold zeros there too is a DESIGN CHOICE (log entry 95). -/
def drainF32 (m : Mat) (i c0 n : Nat) : Beat :=
  packBeat 32 ((upFrom c0 32).map fun c => if c < n then (tgetD m.cl (64 * i + c) 0).toNat else 0)

/-- A row of CL as BF16 (R158). -/
def drainBf16 (m : Mat) (i n : Nat) : Beat :=
  packBeat 16 ((upFrom 0 64).map fun c =>
    if c < n then convFp fBF16 .rne false (fF32.decode (tgetD m.cl (64 * i + c) 0).toNat) else 0)

/-- The beats MDRAIN delivers to DST0 at a row. -/
def drainBeats (m : Mat) (t : Word) (i : Nat) : List Tok :=
  let n := tokN t
  match tokVar t with
  | 0 => if 32 < n then [beatTok (drainF32 m i 0 n), beatTok (drainF32 m i 32 n)] else [beatTok (drainF32 m i 0 n)]
  | 1 => [beatTok (drainBf16 m i n)]
  | _ => []

/-- The effect of step i of a firing that is not guarded off, on the row's registers and tiles. -/
def mxEffect (s : State) (n : NodeId) (f : Firing) (x sx : Beat) : State :=
  let t := f.a
  let i := f.step
  match f.ins with
  | .mma _ fa fb =>
    s.setMat n.row fun m => { m with ca := putRow m.ca i 0 (rowOf fa fb m.sa x sx (tokK t) (tokN t) (mmaInit m t i)) }
  | .mrec _ fa fb gam =>
    s.setMat n.row fun m =>
      { m with ca := putRow m.ca i 0 (rowOf fa fb m.sa x sx (tokK t) (tokN t) (mrecInit m t gam i)) }
  | .mstat _ fm =>
    let keep := packBeat (MFmt.w fm)
      ((upFrom 0 (1024 / MFmt.w fm)).map fun j => if j % 64 < tokN t then elem x (MFmt.w fm) j else 0)
    s.setMat n.row fun m =>
      let rows := tset m.sl.rows i keep
      let rows1 := if i + 1 = mxCount f.ins t then rows.filter fun e => e.1 ≤ i else rows
      { m with sl := { m.sl with rows := rows1 } }
  | .mscale _ =>
    s.setMat n.row fun m =>
      let sc := (upFrom 0 128).foldl (fun sc j => tset sc (128 * i + j) (BitVec.ofNat 8 (elem x 8 j))) m.sl.sc
      let sc1 := if tokVar t = 1 then unitScales [] 0 else if i + 1 = mxCount f.ins t then unitScales sc (64 * ((tokK t + 31) / 32)) else sc
      { m with sl := { m.sl with sc := sc1 } }
  | .mdrain _ tl =>
    let m := (s.row n.row).mat
    let tn := (tl.getD 0).toNat
    match tokVar t with
    | 2 => s.writeTile n.row tn i (drainBf16 m i (tokN t))
    | 3 => (s.writeTile n.row tn i (drainF32 m i 0 (tokN t))).writeTile n.row (tn + 1) i (drainF32 m i 32 (tokN t))
    | _ => s.pushAll f.t0 (drainBeats m t i)
  | _ => s

/-- The beats that a step forwards to the pair link: those of a leading half's MMA and MREC (R160). -/
def mxForwards (h : Hdr) (i : Instr) : Bool := h.paired && !h.trail && engineOf i = .array

/-- FIRING_STEP of a matrix firing: it waits for its beats and room, faults, or takes effect (R148, R160, R162). -/
def State.mxStep (s : State) (n : NodeId) (f : Firing) : State :=
  let nd := s.node n
  let rw := s.row n.row
  let t := f.a
  let (sa, sb) := stepSrcs f
  let fwd := mxForwards rw.hdr f.ins && !f.off
  let pn := s.pairNode n
  let drains := match f.ins with
    | .mdrain _ _ => !f.off && (drainBeats rw.mat t f.step).length > s.destFree f.t0.dst
    | _ => false
  let info : FInfo := { a := stepWord rw.mat sa true (stepTok nd f.id sa), b := stepWord rw.mat sb false (stepTok nd f.id sb),
                        aux := BitVec.ofNat 32 f.step }
  if mxCount f.ins t ≤ f.step then
    s.setFiring n { f with await := .nothing, doneAt := s.cyc n.row.die + mxTail f.ins }
  else if !s.rowRuns n.row then s
  else if (stepTok nd f.id sa).any Tok.isMark || (stepTok nd f.id sb).any Tok.isMark then
    s.faultStep n f 0x046 info
  else if (sa = .link || sb = .link) && rw.mat.link.isEmpty then s
  else if fwd && 2 ≤ (s.row pn.row).mat.link.length then s
  else if drains then s
  else
    match stepTok nd f.id sa, stepTok nd f.id sb with
    | some ta, some tb =>
      match if f.off then (none, none) else (ta.badCheck, tb.badCheck) with
      | (some c, _) => s.faultStep n f c { info with aux := nodeQueue n f.ins.ops.a }
      | (_, some c) => s.faultStep n f c { info with aux := nodeQueue n f.ins.ops.b }
      | (none, none) =>
        let l := (linkHead rw.mat).getD (0, none, tokM t, tokK t)
        if (sa = .link || sb = .link) && (l.2.2.1 ≠ tokM t || l.2.2.2 ≠ tokK t) then
          s.faultStep n f 0x045 info
        else
          let (x, sx) := stepBeats rw.mat sa sb ta tb
          let s1 := s.setNode n (if sb = sa then nd.popStep sa else (nd.popStep sa).popStep sb)
          let s2 := if sa = .link || sb = .link then s1.setMat n.row fun m => { m with link := m.link.drop 1 } else s1
          let s3 := if fwd then s2.setMat pn.row fun m =>
            { m with link := m.link ++ [(x, if sb = .none then none else some sx, tokM t, tokK t)] } else s2
          let s4 := if f.off then s3 else mxEffect s3 n f x sx
          if f.step + 1 = mxCount f.ins t then
            s4.setFiring n { f with step := f.step + 1, await := .nothing,
                                    doneAt := s.cyc n.row.die + mxTail f.ins }
          else s4.setFiring n { f with step := f.step + 1 }
    | _, _ => s

end Sys2Proof.Machine
end

