-- ==== Sys2Proof/Machine/Port.lean ====
section
/-!
DEFINITION. Streams and port accesses (R234-R246): what SDEF and SRUN define, the start of an access, what it does at
its home, the coalescing buffer, and the instructions LD, ST, LDT, STT, SCAT, ATOM, SDEF, SRUN.
-/
namespace Sys2Proof

/-- The stream an access names as the scope its literal selects (R238); `d` is the header's default. -/
def ScopeSel.scope (x : ScopeSel) (d : Machine.Scope) : Machine.Scope :=
  match x with
  | .row => .row
  | .cluster => .cluster
  | .die => .die
  | .package => .package
  | .system => .system
  | _ => d

end Sys2Proof

namespace Sys2Proof.Machine

/-! ## Accesses of a stream -/

/-- The elements an access takes: the first, and the cursor it moves (R240). -/
inductive Pick where
  | bad (c : Cause)
  | ok (first : Nat) (curs : List (Nat × Nat))

/-- `n` elements by cursor, or from index j on. -/
def Stream.pick (st : Stream) (sm : Nat) (byCursor : Bool) (j n : Nat) : Pick :=
  if byCursor then
    if st.run then .bad 0x086
    else if st.count = 0 then .bad 0x084
    else .ok st.cursor [(sm, (st.cursor + n) % st.count)]
  else .ok j []

/-- Whether the region of a row holds a logical bank. -/
def State.holdsBank (s : State) (r : RowId) (b : Nat) : Bool :=
  match s.regionOf r with
  | none => false
  | some (_, g) => b < 24 && g.sbanks.getLsbD b

/-- The window bank and index of a stream (R238). -/
def StreamLit.window (l : StreamLit) : Option (Nat × Nat) :=
  if l.wbank = 31 then none else some (l.wbank.toNat, l.widx.toNat)

/-- The generation of the region that holds a row (R255). -/
def State.genOf (s : State) (r : RowId) : BitVec 16 :=
  match s.regionOf r with
  | none => 0
  | some (_, g) => g.gen

/-- Why an access cannot start: cause, address, ownership entry. -/
structure AccErr where
  cause : Cause
  addr  : Nat := 0
  aux   : Nat := 0

/-- The access of element `el` of a stream by the firing `fid`, with its home where no lookup is needed (R200, R235, R242). -/
def State.mkAcc (s : State) (n : NodeId) (sm : Nat) (st : Stream) (op : AccOp) (el id fid : Nat) : Except AccErr Access :=
  match st.elemAt el with
  | .error c => .error ⟨c, st.badAddr el, sm⟩
  | .ok a =>
    let b := a / 2 ^ 20
    let w := StreamLit.window st.lit
    let held := if st.isBank then s.holdsBank n.row b else match w with
      | none => true
      | some (k, _) => s.holdsBank n.row k
    if !held then .error ⟨0x081, a, sm⟩
    else if a % st.esize ≠ 0 then .error ⟨0x083, a, sm⟩
    else
      match s.ownedBad n a st.esize st.isBank fid with
      | some k => .error ⟨0x0C0, a, k⟩
      | none =>
        let x : Access :=
          { id := id, op := op, addr := a, size := st.esize, bank := st.isBank, sm := sm, psz := StreamLit.psz st.lit,
            cls := st.lit.cls.toNat, scope := st.lit.scope.scope (s.row n.row).hdr.scope,
            win := if st.isBank then none else w, gen := s.genOf n.row }
        if st.isBank then .ok { x with phase := .home (.sram n.row.die n.row.cl b (a % 2 ^ 20)) }
        else
          match st.lookup x.psz a op.writes with
          | some pa => .ok { x with phase := .home (.hbm pa) }
          | none => .ok x

/-- A record's addresses for a cause of a port: class 6 names no second one (R422). -/
def FInfo.atAddr (x : FInfo) (c : Cause) (a : Nat) : FInfo := { x with addr1 := a, addr2 := if c.toNat / 16 = 0xC then 0 else a }

/-- The record of an access that cannot start (R422). -/
def Env.accInfo (e : Env) (x : AccErr) (sm : Nat) : FInfo :=
  (e.info (BitVec.ofNat 32 (if x.cause = 0x0C0 then x.aux else sm))).atAddr x.cause x.addr

/-- Firings that hold one of the 16 in-flight entries (R235). -/
def Node.entries (nd : Node) : Nat :=
  (nd.fly.filter fun f => !f.acc.isEmpty || (match f.ins with
    | .spill _ _ _ _ => !f.off
    | .fill _ _ _ _ => !f.off
    | _ => false)).length

/-- Whether the generator has stopped and the access needs it (R242). -/
def Port.stops (p : Port) (a : Access) : Bool := p.stopped && a.phase = .translate

/-- Whether an access enters the coalescing buffer (R244, R246). -/
def AccOp.stores : AccOp → Bool
  | .store _ _ => true
  | _ => false

/-- Whether the coalescing buffer has no place for a store: 16 blocks, every one held for an iteration (R245). -/
def Port.full (p : Port) : Bool := 16 ≤ p.buf.length && p.buf.all fun b => b.spec.isSome

/-- The stream number in the record of a class-4 fault (R422). -/
def Env.smInfo (e : Env) (sm : BitVec 2) : FInfo := e.info (BitVec.ofNat 32 sm.toNat)

/-- Whether the last firing of an SDEF (or of an SRUN) of a stream has started and is not complete. -/
def Node.defining (nd : Node) (sm : BitVec 2) (list : Bool) : Bool :=
  nd.fly.any fun f => match f.ins with
    | .sdef _ k _ => !list && k = sm
    | .srun _ k _ => list && k = sm
    | _ => false

/-- The stream a firing names, or 0x084 where it is not defined (R240). An access starts no sooner than an SDEF of its stream before
it is complete; while an SRUN still reads its list the stream keeps its previous definition (R239, R241), and an access waits where
it has none (log entry 102). -/
def Env.withStream (e : Env) (sm : BitVec 2) (k : Stream → Res) : Res :=
  if e.nd.defining sm false then .wait
  else
    match tget (e.s.port e.l.nd).streams sm.toNat with
    | none => if e.nd.defining sm true then .wait else .fault 0x084 (e.smInfo sm)
    | some st => k st

/-- Least cycles of an access (R237). -/
def Access.lat (a : Access) : Nat :=
  match a.op with
  | .store _ _ => 2
  | .load => if a.bank || a.win.isSome then 6 else 40
  | _ => 40

/-- The start of one access of one element (R235, R240, R243). `ok` says which element sizes the instruction allows,
`op` what it does for an element size, `sm` its stream. -/
def accRes (e : Env) (r : FireReq) (sm : BitVec 2) (ok : Nat → Bool) (op : Nat → AccOp) (p : Plan) : Res :=
  e.withStream sm fun st =>
    if !ok st.lit.esz.toNat then .fault 0x086 (e.smInfo sm)
    else
      match st.pick sm.toNat (r.ops.a = .zero) e.av.toNat 1 with
      | .bad c => .fault c (e.smInfo sm)
      | .ok el curs =>
        match e.s.mkAcc e.l.nd sm.toNat st (op st.lit.esz.toNat) el 0 e.id with
        | .error x => .fault x.cause (e.accInfo x sm.toNat)
        | .ok a =>
          let pt := e.s.port e.l.nd
          if 16 ≤ e.nd.entries || pt.stops a || (a.op.stores && pt.full) then .wait
          else .go { p with await := .access, acc := [a], curs := curs, lat := a.lat, eff := fun s => s.count e.l.nd.row 3 1 }

/-! ## LD, ST, SCAT, ATOM, LDT, STT (R243, R246) -/

def execLd (o : Ops) (sm : BitVec 2) (sx : Bool) (s : State) : Out :=
  let r : FireReq := { ops := o }
  .next (fire s s.locus (.ld o sm sx) r (fun e => accRes e r sm (· ≤ 2) (fun _ => .load) { o1 := doneTok1 (r.doneTag e.nd) })
    (nullDone r false true))

/-- The iteration a speculative store belongs to: tag bits [23:16] of its data, or of a beat's index (R245). -/
def specOf (e : Env) (spec : Bool) : Option Nat :=
  if !spec then none
  else
    match e.b with
    | .word _ t _ => some (t.extractLsb' 16 8).toNat
    | _ => some (e.tag.extractLsb' 16 8).toNat

def Tok.isBeat : Tok → Bool
  | .beat _ _ => true
  | _ => false

/-- The plan of a store: done tokens to both slots. -/
def storePlan (e : Env) (r : FireReq) : Plan := { o0 := doneTok1 (r.doneTag e.nd), o1 := doneTok1 (r.doneTag e.nd) }

def execSt (o : Ops) (sm : BitVec 2) (spec : Bool) (s : State) : Out :=
  let r : FireReq := { ops := o }
  .next (fire s s.locus (.st o sm spec) r (fun e =>
    accRes e r sm (· ≤ 2) (fun k => .store (natBytes' (2 ^ k) e.bv.toNat) (specOf e spec)) (storePlan e r))
    (nullDone r true true))

def execScat (o : Ops) (sm : BitVec 2) (spec : Bool) (s : State) : Out :=
  let r : FireReq := { ops := o }
  .next (fire s s.locus (.scat o sm spec) r (fun e =>
    accRes e r sm (fun k => (3 ≤ k) = e.b.isBeat)
      (fun k => .store (natBytes' (2 ^ k) e.b.beatOf.toNat) (specOf e spec)) (storePlan e r))
    (nullDone r true true))

def execAtom (o : Ops) (sm : BitVec 2) (op : AtomOp) (c : Sel) (s : State) : Out :=
  let r : FireReq := { ops := o, c := some c }
  .next (fire s s.locus (.atom o sm op c) r (fun e =>
    accRes e r sm (· = 2) (fun _ => .atom op e.bv e.cv) { o1 := doneTok1 (r.doneTag e.nd), tag := some e.b.tag })
    (nullDone r false true))

/-- An access that stands for a firing in steps between two of its steps. -/
def idleAcc (sm : Nat) (st : Stream) (sc : Scope) : Access :=
  { id := 0, op := .other, addr := 0, size := 0, bank := st.isBank, sm := sm, psz := StreamLit.psz st.lit,
    cls := st.lit.cls.toNat, scope := sc, phase := .finished }

/-- The start of LDT and STT: COUNT elements from the cursor or from an index on (R243). -/
def stepRes (e : Env) (r : FireReq) (sm : BitVec 2) (n : BitVec 6) (p : Plan) : Res :=
  e.withStream sm fun st =>
    if st.lit.esz ≠ 7 then .fault 0x086 (e.smInfo sm)
    else
      match st.pick sm.toNat (r.ops.a = .zero) e.av.toNat (n.toNat + 1) with
      | .bad c => .fault c (e.smInfo sm)
      | .ok el curs =>
        if 16 ≤ e.nd.entries then .wait
        else
          .go { p with await := .steps, curs := curs, el := el,
                       acc := [idleAcc sm.toNat st (st.lit.scope.scope (e.s.row e.l.nd.row).hdr.scope)] }

def execLdt (o : Ops) (sm : BitVec 2) (n : BitVec 6) (s : State) : Out :=
  let r : FireReq := { ops := o }
  .next (fire s s.locus (.ldt o sm n) r (fun e => stepRes e r sm n { n0 := 0, o1 := doneTok1 (r.doneTag e.nd) })
    (nullDone r false true))

/-- STT pops its beats in its steps; its start pops the index alone. -/
def sttReq (o : Ops) : FireReq := { ops := { o with b := .zero }, first := popQs [o.b] }

def execStt (o : Ops) (sm : BitVec 2) (spec : Bool) (n : BitVec 6) (s : State) : Out :=
  let r : FireReq := sttReq o
  .next (fire s s.locus (.stt o sm spec n) r (fun e => stepRes e r sm n (storePlan e r))
    (fun e => { nullDone r true true e with pops := some ((popQs [o.a, o.b]).map fun q => (q, 1)) }))

/-! ## SDEF and SRUN (R239, R241) -/

def wordsOf (p : Prog) : List Word :=
  match p with
  | .words ws => ws
  | _ => []

/-- Words of an affine stream: base, then a count and a stride for each dimension (R239). -/
def sdefCount (l : StreamLit) : Nat := 2 + 2 * (l.dims.toNat + 1)

/-- The dimensions that words from the third on give. -/
def dimsOf : List Word → List (Nat × Int)
  | c :: g :: t => (c.toNat, g.toInt) :: dimsOf t
  | _ => []

/-- The stream that a list of words defines. -/
def affine (l : StreamLit) (ws : List Word) : Stream :=
  { lit := l, base := (ws.getD 1 0).toNat * 2 ^ 32 + (ws.getD 0 0).toNat, dims := dimsOf (ws.drop 2) }

/-- The cause that a base breaks (R200, R239). -/
def baseBad (s : State) (r : RowId) (st : Stream) : Option Cause :=
  if st.isBank then (if 2 ^ 25 ≤ st.base || !s.holdsBank r (st.base / 2 ^ 20) then some 0x081 else none)
  else if 2 ^ 55 ≤ st.base then some 0x080
  else none

/-- The checks of SDEF's last firing before ownership. -/
def sdefBad (s : State) (r : RowId) (st : Stream) : Option Cause :=
  match baseBad s r st with
  | some c => some c
  | none => if st.base % st.esize ≠ 0 || st.dims.any (fun d => d.2 % (st.esize : Int) ≠ 0) then some 0x083 else none

/-- A firing of SDEF or SRUN on word k of n: the words before it, or not yet while an earlier one is in progress. -/
def wordRes (e : Env) (n : Nat) (k : List Word → Res) : Res :=
  if e.nd.fly.any fun f => f.slot = e.l.slot then .wait
  else
    let ws := wordsOf e.prog ++ [e.av]
    if ws.length < n then .go { stay := true, a := e.av } else k ws

def execSdef (o : Ops) (sm : BitVec 2) (sl : StreamLit) (s : State) : Out :=
  .next (fire s s.locus (.sdef o sm sl) { ops := o, multi := true } fun e => wordRes e (sdefCount sl) fun ws =>
    let st := affine sl ws
    match sdefBad e.s e.l.nd.row st with
    | some c => .fault c { e.smInfo sm with addr1 := st.base, addr2 := st.base }
    | none => .go { a := e.av })

/-- The accesses of SRUN's last firing: one for each entry of the run list. -/
def runAccs (s : State) (n : NodeId) (sm : Nat) (st : Stream) (fid : Nat) : Nat → Except AccErr (List Access)
  | 0 => .ok []
  | k + 1 =>
    match runAccs s n sm st fid k with
    | .error x => .error x
    | .ok as =>
      match s.mkAcc n sm { st with run := false, dims := [(k + 1, 16)], lit := { st.lit with esz := 4 } } .load k k fid with
      | .error x => .error x
      | .ok a => .ok (as ++ [a])

def execSrun (o : Ops) (sm : BitVec 2) (sl : StreamLit) (s : State) : Out :=
  .next (fire s s.locus (.srun o sm sl) { ops := o, multi := true } fun e => wordRes e 4 fun ws =>
    let st := { affine sl (ws.take 2) with stride := (ws.getD 3 0).toInt }
    let n := (ws.getD 2 0).toNat
    let info := { e.smInfo sm with addr1 := st.base, addr2 := st.base }
    match baseBad e.s e.l.nd.row st with
    | some c => .fault c info
    | none =>
      if n = 0 || 256 < n then .fault 0x088 info
      else if st.base % 16 ≠ 0 || st.stride % (st.esize : Int) ≠ 0 then .fault 0x083 info
      else
        match runAccs e.s e.l.nd sm.toNat st e.id n with
        | .error x => .fault x.cause (e.accInfo x sm.toNat)
        | .ok as =>
          if 16 ≤ e.nd.entries || as.any (e.s.port e.l.nd).stops then .wait
          else .go { a := e.av, await := .access, acc := as, lat := if st.isBank then 6 else 40,
                     eff := fun s => s.count e.l.nd.row 3 n })

/-- The byte range of a stream: the smallest that holds every element (R239). -/
def Stream.range (st : Stream) : Option (Nat × Nat) :=
  if st.run then
    let ends := st.runs.filterMap fun r =>
      if r.2.2 = 0 then none
      else
        let z := (r.1 : Int) + ((r.2.2 - 1 : Nat) : Int) * st.stride
        some ((min (r.1 : Int) z).toNat, (max (r.1 : Int) z).toNat + st.esize - 1)
    match ends with
    | [] => none
    | x :: t => some (t.foldl (fun a b => (min a.1 b.1, max a.2 b.2)) x)
  else if st.count = 0 then none
  else
    let lo := st.dims.foldl (fun (a : Int) d => a + min 0 (((d.1 - 1 : Nat) : Int) * d.2)) (st.base : Int)
    let hi := st.dims.foldl (fun (a : Int) d => a + max 0 (((d.1 - 1 : Nat) : Int) * d.2)) (st.base : Int)
    some (lo.toNat, hi.toNat + st.esize - 1)

/-- The lowest free ownership entry (R328). -/
def freeOwn (t : Tbl OwnEnt) : Option Nat := (upFrom 0 64).find? fun i => (tget t i).isNone

/-- The entry that a port's stream still owns. -/
def Region.ownedBy (g : Region) (n : NodeId) (k : Option Nat) : Option Nat :=
  k.bind fun i => (tget g.own i).bind fun e =>
    if !e.hand && e.row = n.row.row - g.first && e.port = n.node - 34 then some i else none

/-- A stream is installed: the previous owned range is released, an owned range takes the lowest free entry
(R239, R328). -/
def State.install (s : State) (n : NodeId) (f : Firing) (sm : Nat) (st : Stream) : Fin :=
  let info : Nat → FInfo := fun k => { f.info (BitVec.ofNat 32 k) with addr1 := if st.run then (st.runs.head?.map Prod.fst).getD 0 else st.base }
  let p := s.port n
  let put := fun (s : State) (k : Option Nat) =>
    let q := s.port n
    s.setPort n { q with streams := tset q.streams sm { st with own := k } }
  let done := fun (s : State) => s.setNode n ((s.node n).setProg f.slot .idle)
  match s.regionOf n.row with
  | none => .ok (done (put s none)) f
  | some (k, g) =>
    let own1 := match g.ownedBy n ((tget p.streams sm).bind fun x => x.own) with
      | some i => tdel g.own i
      | none => g.own
    match st.lit.owned, st.range with
    | true, some (lo, hi) =>
      match own1.find? fun e => e.2.bank = st.isBank && e.2.lo ≤ hi && lo ≤ e.2.hi with
      | some e => .fault 0x0C2 (info e.1)
      | none =>
        match freeOwn own1 with
        | none => .fault 0x0C3 (info 0)
        | some i =>
          let x : OwnEnt := { lo := lo, hi := hi, bank := st.isBank, row := n.row.row - g.first, port := n.node - 34 }
          .ok (done (put (s.setRegion n.row.die k { g with own := tset own1 i x }) (some i))) f
    | _, _ => .ok (done (put (s.setRegion n.row.die k { g with own := own1 }) none)) f

/-- Whether an earlier firing of the port still uses a stream. -/
def Node.usesStream (nd : Node) (f : Firing) (sm : Nat) : Bool :=
  nd.fly.any fun g => g.id < f.id && g.acc.any fun a => a.sm = sm

/-- An SDEF firing completes: it keeps its word, or installs the stream. -/
def State.sdefDone (s : State) (n : NodeId) (f : Firing) (sm : Nat) (sl : StreamLit) : Fin :=
  let nd := s.node n
  let ws := wordsOf (nd.prog f.slot) ++ [f.a]
  if ws.length < sdefCount sl then .ok (s.setNode n (nd.setProg f.slot (.words ws))) f
  else if nd.usesStream f sm then .wait
  else s.install n f sm (affine sl ws)

/-- The runs that the entries read give (R241). -/
def runsOf (as : List Access) : List (Nat × Nat × Nat) :=
  as.map fun a =>
    let w := bytesBits 128 a.data
    ((w.extractLsb' 64 64).toNat, (w.extractLsb' 0 32).toNat, (w.extractLsb' 32 32).toNat)

/-- Runs ascend by first index and do not overlap (R241). -/
def runsOk : List (Nat × Nat × Nat) → Bool
  | a :: b :: t => decide (a.2.1 + a.2.2 ≤ b.2.1) && decide (a.2.1 < b.2.1) && runsOk (b :: t)
  | _ => true

def State.srunDone (s : State) (n : NodeId) (f : Firing) (sm : Nat) (sl : StreamLit) : Fin :=
  let nd := s.node n
  let ws := wordsOf (nd.prog f.slot) ++ [f.a]
  if ws.length < 4 then .ok (s.setNode n (nd.setProg f.slot (.words ws))) f
  else if nd.usesStream f sm then .wait
  else
    let rs := runsOf f.acc
    let base := (ws.getD 1 0).toNat * 2 ^ 32 + (ws.getD 0 0).toNat
    if !runsOk rs then .fault 0x085 ((f.info (BitVec.ofNat 32 sm)).atAddr 0x085 base)
    else s.install n f sm { lit := sl, run := true, runs := rs, stride := (ws.getD 3 0).toInt }

/-! ## Windows (R206) -/

/-- Lines of a window (R206). -/
def Bank.lines (b : Bank) : Nat := 4096 / max 1 b.wins.length

/-- The home of a byte of a held line: slot (L / 256) mod C of the window's part (R206). -/
def winHome (die cl bank w c va : Nat) : Home := .sram die cl bank (w * c * 256 + va / 256 % c * 256 + va % 256)

def State.setWin (s : State) (die cl b w : Nat) (x : Win) : State :=
  let k := s.bankOf die cl b
  s.setBank die cl b { k with wins := lset k.wins w x }

/-! ## What an access does at its home (R205, R206, R243-R246) -/

/-- A block of the buffer at a home. -/
def blockOf (h : Home) : Home × Nat :=
  match h with
  | .hbm pa => (.hbm (pa / 64 * 64), pa % 64)
  | .sram d c b off => (.sram d c b (off / 64 * 64), off % 64)

/-- Whether iteration i is at or before iteration j, modulo 256 (R245). -/
def iterLe (i j : Nat) : Bool := ((j + 256 - i % 256) % 256) < 128

/-- A buffered block as a load of iteration `it` sees it. -/
def CBlock.seen (b : CBlock) (it : Nat) : Bool :=
  match b.spec with
  | none => true
  | some i => iterLe i it

/-- The byte that a list of blocks holds at a home, the last block that holds it first. -/
def bufByte (bs : List CBlock) (it : Nat) (h : Home) : Option Byte :=
  let (b, o) := blockOf h
  bs.foldl (fun r x => if x.home = b && x.seen it then (match tget x.bytes o with | some v => some v | none => r) else r) none

/-- Bytes at a home through the buffers of a row: what is buffered, then what is held (R218, R244, R245). -/
def State.bufRead (s : State) (n : NodeId) (it : Nat) (h : Home) (size : Nat) : List Byte :=
  let all := (s.port (otherPort n)).buf ++ (s.port n).buf
  let bs := (all.filter fun b => b.spec.isNone) ++ all.filter fun b => b.spec.isSome
  let raw := if size = 128 then s.readBeat h else s.readHome h size
  if bs.isEmpty then raw
  else (upFrom 0 size).map fun i => (bufByte bs it (h.plus i)).getD ((raw[i]?).getD 0)

/-- Whether the row's buffers hold bytes of the block at a home that a load of iteration `it` sees. -/
def State.bufHolds (s : State) (n : NodeId) (it : Nat) (h : Home) : Bool :=
  ((s.port (otherPort n)).buf ++ (s.port n).buf).any fun b => b.home = (blockOf h).1 && b.seen it && !b.bytes.isEmpty

/-- Put bytes into a block. -/
def putBytes (t : Tbl Byte) (o : Nat) : List Byte → Tbl Byte
  | [] => t
  | b :: bs => putBytes (tset t o b) (o + 1) bs

/-- A store's bytes, cut at 64-byte blocks: block home, offset, bytes. -/
def cutBlocks (h : Home) (bs : List Byte) : List (Home × Nat × List Byte) :=
  let (b, o) := blockOf h
  if o + bs.length ≤ 64 then [(b, o, bs)]
  else [(b, o, bs.take (64 - o)), (b.plus 64, 0, bs.drop (64 - o))]

/-- A block of the buffer takes bytes. -/
def CBlock.put (x : CBlock) (o : Nat) (bs : List Byte) (cls born : Nat) : CBlock :=
  { x with bytes := putBytes x.bytes o bs, cls := if x.cls.contains cls then x.cls else x.cls ++ [cls], born := min x.born born }

/-- Blocks without some bytes at a home, which a later store of the row has written (R220, R221); a held block stays,
its bytes apart. -/
def dropBytes (b : Home) (o n : Nat) (bs : List CBlock) : List CBlock :=
  (bs.map fun x => if x.home = b then { x with bytes := x.bytes.filter fun e => e.1 < o || o + n ≤ e.1 } else x).filter
    fun x => x.spec.isSome || !x.bytes.isEmpty

/-- An ordinary store supersedes what the row's buffers hold of its bytes: in the other port's, and held in its own. -/
def State.supersede (s : State) (n : NodeId) (b : Home) (o len : Nat) : State :=
  let p := s.port n
  let q := s.port (otherPort n)
  let own := p.buf.map fun x => if x.spec.isSome && x.home = b then
    { x with bytes := x.bytes.filter fun e => e.1 < o || o + len ≤ e.1 } else x
  let s1 := if own = p.buf then s else s.setPort n { p with buf := own }
  if q.buf.any fun x => x.home = b then s1.setPort (otherPort n) { q with buf := dropBytes b o len q.buf } else s1

/-- Bytes enter the coalescing buffer (R244): they merge into their block, or a new one for which the oldest block that
is not held leaves, with the other half of its unit; nothing where every block is held. `va` is the block's address and
`born` the start of the firing that stores. -/
def State.buffer (s0 : State) (n : NodeId) (b : Home) (o : Nat) (bs : List Byte) (cls : Nat) (spec : Option Nat)
    (va born : Nat) (win : Option (Nat × Nat × Nat) := none) : Option State :=
  let s := if spec.isNone then s0.supersede n b o bs.length else s0
  let p := s.port n
  if p.buf.any fun x => x.home = b && x.spec = spec && x.win = win then
    some (s.setPort n { p with buf := p.buf.map fun x => if x.home = b && x.spec = spec && x.win = win then x.put o bs cls born else x })
  else
    let new := CBlock.put { home := b, spec := spec, win := win, va := va, born := born } o bs cls born
    if p.buf.length < 16 then some (s.setPort n { p with buf := p.buf ++ [new] })
    else
      match p.buf.find? fun x => x.spec.isNone with
      | none => none
      | some old =>
        let s1 := s.flushIf n fun x => x = old
        let s2 := s1.setPort n { s1.port n with buf := (s1.port n).buf ++ [new] }
        some (if old.home.unit = b.unit then s2.flushIf n fun x => x = new else s2)

/-- Every block of a store enters the buffer. -/
def State.bufferAll (s : State) (n : NodeId) (cls : Nat) (spec : Option Nat) (born : Nat) :
    Nat → List (Home × Nat × List Byte) → Option State
  | _, [] => some s
  | va, x :: t =>
    match s.buffer n x.1 x.2.1 x.2.2 cls spec va born with
    | none => none
    | some s1 => State.bufferAll s1 n cls spec born (va + 64) t

/-- The outcome of an access at its home. -/
inductive AccRes where
  | wait
  | fault (c : Cause) (off : Nat)                   -- with the offset of the block that it names (R215)
  | ok (s : State) (data : List Byte) (chk : BitVec 32)

/-- ATOM's new value, none where nothing is written (R246). -/
def atomVal (op : AtomOp) (old a b : Word) : Option Word :=
  match op with
  | .add => some (old + a)
  | .minI => some (if old.slt a then old else a)
  | .maxI => some (if old.slt a then a else old)
  | .minN => some (if old.ult a then old else a)
  | .maxN => some (if old.ult a then a else old)
  | .and => some (old &&& a)
  | .or => some (old ||| a)
  | .xor => some (old ^^^ a)
  | .swap => some a
  | .cas => if old = b then some a else none
  | .fadd => some (f32Add .rne old a)
  | .bad _ => none

/-- What a read verifies of its bytes, block by block: all of it, but for the two blocks of a whole beat, whose check values the
beat carries on unread, unless bytes of the row's buffers merge into them (R203, R214). With the block's offset. -/
def State.readErr (s : State) (h : Home) (size : Nat) (beat : Bool) (merged : Home → Bool) : Option (Cause × Nat) :=
  (upFrom 0 ((size + 63) / 64)).findSome? fun i =>
    let x := h.plus (64 * i)
    let c := if beat then
        (s.eccErr x 64).orElse fun _ =>
          if s.rebuiltBad x 64 then some 0x169 else if merged x && s.badBlock x 64 then some 0x162 else none
      else s.homeErr x (min 64 (size - 64 * i))
    c.map fun c => (c, 64 * i)

/-- The single-bit errors of bytes read are corrected, those of a beat block by block (R212, R314). -/
def State.correctRead (s : State) (h : Home) (size : Nat) : State :=
  if size = 128 then (s.correct h 64).correct (h.plus 64) 64 else s.correct h size

/-- A load reads its bytes, verified or, as a whole beat, with their check values (R212-R214), the buffers in front of home. -/
def State.loadAt (s : State) (n : NodeId) (it : Nat) (h : Home) (size : Nat) (beat : Bool) : AccRes :=
  match s.readErr h size beat (s.bufHolds n it) with
  | some (c, o) => .fault c o
  | none => .ok (s.correctRead h size) (s.bufRead n it h size) (if beat then s.beatChk h else 0)

/-- The blocks that a store fills in part are verified by the merge (R203). -/
def State.partErr (s : State) (h : Home) (bs : List Byte) : Option (Cause × Nat) :=
  let cs := cutBlocks h bs
  (cs.zip (upFrom 0 cs.length)).findSome? fun x =>
    if 64 ≤ x.1.2.2.length then none else (s.homeErr x.1.1 64).map fun c => (c, 64 * x.2)

/-- Bytes are written to their home, block by block; a block that they fill in part is corrected first (R203, R212, R314). -/
def State.storeBytes (s : State) (h : Home) (bs : List Byte) : State :=
  (cutBlocks h bs).foldl (fun x c => (if 64 ≤ c.2.2.length then x else x.correct c.1 64).writeHome (c.1.plus c.2.1) c.2.2) s

/-- A store enters the buffer; one with a wider scope than ROW goes on to its home (R244), where a block that it fills in
part is verified by the merge (R203). -/
def State.storeAt (s : State) (n : NodeId) (a : Access) (h : Home) (bs : List Byte) (spec : Option Nat) (born : Nat) : AccRes :=
  let stays : Bool := a.scope = .row || spec.isSome
  match if stays then none else s.partErr h bs with
  | some (c, o) => .fault c o
  | none =>
    match s.bufferAll n a.cls spec born (a.addr / 64 * 64) (cutBlocks h bs) with
    | none => .wait
    | some s1 =>
      if stays then .ok s1 [] 0
      else .ok (s1.flushIf n fun b => (cutBlocks h bs).any fun x => x.1 = b.home) [] 0

/-- An ATOM at its home: buffered blocks that hold its bytes leave first (R246). -/
def State.atomAt (s : State) (n : NodeId) (op : AtomOp) (a b : Word) (h : Home) : AccRes :=
  let blk := (blockOf h).1
  let s1 := (s.flushIf { n with node := 34 } fun x => x.home = blk).flushIf { n with node := 35 } fun x => x.home = blk
  match s1.homeErr blk 64 with
  | some c => .fault c 0
  | none =>
    let s2 := s1.correct blk 64
    let old : Word := bytesBits 32 (s2.readHome h 4)
    match atomVal op old a b with
    | none => .ok s2 (natBytes' 4 old.toNat) 0
    | some v =>
      let s3 := (s2.supersede n blk (blockOf h).2 4).supersede (otherPort n) blk (blockOf h).2 4
      .ok (s3.writeHome h (natBytes' 4 v.toNat)) (natBytes' 4 old.toNat) 0

/-- A store below a window's tail writes the last-level cache itself (R206): what the row's buffers hold of its blocks
leaves first, and it supersedes what they hold for an iteration. -/
def State.storeDirect (s : State) (n : NodeId) (h : Home) (bs : List Byte) : State :=
  let cs := cutBlocks h bs
  let hit := fun (x : CBlock) => cs.any fun c => c.1 = x.home
  let s1 := (s.flushIf { n with node := 34 } hit).flushIf { n with node := 35 } hit
  let s2 := cs.foldl (fun x c =>
    (x.supersede n c.1 c.2.1 c.2.2.length).supersede (otherPort n) c.1 c.2.1 c.2.2.length) s1
  s2.storeBytes h bs

/-- Bytes of a window as a load of iteration `it` sees them: with the stores that the row's buffers hold for it (R245). -/
def State.heldOver (s : State) (n : NodeId) (it pa : Nat) (data : List Byte) : List Byte :=
  let bs := ((s.port (otherPort n)).buf ++ (s.port n).buf).filter fun b => b.win.isSome
  if bs.isEmpty then data
  else ((upFrom 0 data.length).zip data).map fun x => (bufByte bs it ((Home.hbm pa).plus x.1)).getD x.2

/-- A speculative store of a window stream is held (R245), block by block from a VA on. -/
def State.holdWin (s : State) (n : NodeId) (cls it born bank w : Nat) : Nat → List (Home × Nat × List Byte) → Option State
  | _, [] => some s
  | va, x :: t =>
    match s.buffer n x.1 x.2.1 x.2.2 cls (some it) va born (some (bank, w, va)) with
    | none => none
    | some s1 => State.holdWin s1 n cls it born bank w (va + 64) t

/-- An ordinary store of a window stream supersedes what its port holds for the window (R244). -/
def State.dropHeld (s : State) (n : NodeId) (cs : List (Home × Nat × List Byte)) : State :=
  let p := s.port n
  let own := p.buf.map fun x =>
    match if x.win.isSome then cs.find? fun c => c.1 = x.home else none with
    | some c => { x with bytes := x.bytes.filter fun e => e.1 < c.2.1 || c.2.1 + c.2.2.length ≤ e.1 }
    | none => x
  if own = p.buf then s else s.setPort n { p with buf := own }

/-- The store of a window's held line, which is then dirty (R206). -/
def State.winStore (s : State) (r : RowId) (bank w : Nat) (x : Win) (va : Nat) (bs : List Byte) : State :=
  let l := va / 256 * 256
  (s.storeBytes (winHome r.die r.cl bank w (s.bankOf r.die r.cl bank).lines va) bs).setWin r.die r.cl bank w
    { x with dirty := if x.dirty.contains l then x.dirty else x.dirty ++ [l] }

/-- Whether the row's buffers hold bytes for a window in the block at a physical address. -/
def State.winHolds (s : State) (n : NodeId) (it : Nat) (h : Home) : Bool :=
  ((s.port (otherPort n)).buf ++ (s.port n).buf).any fun b => b.win.isSome && b.home = (blockOf h).1 && b.seen it && !b.bytes.isEmpty

/-- A load of a window's held line, the row's held stores in front of it (R206, R245). -/
def State.winLoad (s : State) (n : NodeId) (it : Nat) (h : Home) (pa size : Nat) (beat : Bool) : AccRes :=
  match s.readErr h size beat fun x => s.winHolds n it (if x = h then .hbm pa else .hbm (pa + 64)) with
  | some (k, o) => .fault k o
  | none => .ok (s.correctRead h size) (s.heldOver n it pa (s.readHome h size)) (if beat then s.beatChk h else 0)

/-- A load or store of a window stream (R206, R245); an ATOM is not an access that the mode allows (R204). -/
def State.winAt (s : State) (n : NodeId) (it born : Nat) (a : Access) (pa : Nat) (bank w : Nat) (beat : Bool) : AccRes :=
  let d := n.row.die
  let c := n.row.cl
  let b := s.bankOf d c bank
  if b.mode ≠ .window then .fault 0x082 0
  else
    match b.wins[w]? with
    | none => .fault 0x086 0
    | some x =>
      let h := winHome d c bank w b.lines a.addr
      let low := a.addr < x.t
      if !low && x.h ≤ a.addr then (match a.op with
        | .load => .wait
        | .store _ _ => .wait
        | _ => .fault 0x082 0)
      else
        match a.op with
        | .load => if low then s.loadAt n it (.hbm pa) a.size beat else s.winLoad n it h pa a.size beat
        | .store bs sp =>
          let cs := cutBlocks (.hbm pa) bs
          match sp with
          | some i =>
            match s.holdWin n a.cls i born bank w (a.addr / 64 * 64) cs with
            | none => .wait
            | some s1 => .ok s1 [] 0
          | none =>
            match s.partErr (if low then .hbm pa else h) bs with
            | some (k, o) => .fault k o
            | none =>
              if low then .ok (s.storeDirect n (.hbm pa) bs) [] 0
              else .ok ((s.dropHeld n cs).winStore n.row bank w x a.addr bs) [] 0
        | _ => .fault 0x082 0

/-- An access at its home. An ATOM of any scope is performed at a SCRATCH bank (DESIGN CHOICE, log entry 105). -/
def State.accAt (s : State) (n : NodeId) (f : Firing) (a : Access) (h : Home) : AccRes :=
  let it := (f.tag.extractLsb' 16 8).toNat
  let beat := match f.ins with
    | .ldt _ _ _ => true
    | _ => false
  if s.unrebuilt h a.size then .wait
  else if s.cutOff h a.size then .fault 0x168 0
  else
  match a.win, h with
  | some (b, w), .hbm pa => s.winAt n it f.born a pa b w beat
  | _, _ =>
    let badMode : Bool := match h with
      | .sram d c b _ => (s.bankOf d c b).mode ≠ .scratch
      | .hbm _ => false
    if badMode then .fault 0x082 0
    else
      match a.op with
      | .load => s.loadAt n it h a.size beat
      | .store bs spec => s.storeAt n a h bs spec f.born
      | .atom op x y => s.atomAt n op x y h
      | .other => .ok s [] 0

/-! ## Memory replies (R237) -/

/-- The value LD delivers (R243). -/
def loadWord (sx : Bool) (bs : List Byte) : Word :=
  let w := 8 * bs.length
  if sx then BitVec.ofInt 32 (sgn w (bytesNat bs)) else BitVec.ofNat 32 (bytesNat bs)

/-- The memory gateway counts a dropped reply whose generation is stale (R255). -/
def State.countStale (s : State) (r : RowId) (gen : BitVec 16) : State :=
  match s.regionOf r with
  | none => s
  | some (k, g) =>
    if g.gen = gen then s
    else
      let w := tgetD g.gw 2 {}
      s.setRegion r.die k { g with gw := tset g.gw 2 { w with drops := min 0xFFFF (w.drops + 1) } }

/-- A reply of an access that was cancelled: dropped, and counted where it is stale (R255). -/
def State.staleReply (s : State) (n : NodeId) : State :=
  let d := s.die n.row.die
  match d.stale.find? fun x => x.1 = n with
  | none => s
  | some x => (s.setDie n.row.die { d with stale := d.stale.erase x }).countStale n.row x.2

/-- A reply of an older generation: the access has its effect at home, and the port drops the reply; the firing that waits
for it never completes (R255). -/
def State.dropReply (s : State) (n : NodeId) (f : Firing) (a : Access) : State :=
  (s.setFiring n { f with await := .hub 0, acc := f.acc.filter fun x => x.id ≠ a.id }).countStale n.row a.gen

/-- Whether an earlier firing of the port has a store to the same bytes that it has not performed: a port's stores to
one location take effect in their order (R244). -/
def Node.storeBehind (nd : Node) (f : Firing) (a : Access) : Bool :=
  a.op.writes && nd.fly.any fun g => g.id < f.id && g.acc.any fun b =>
    b.op.writes && b.phase ≠ .finished && b.bank = a.bank && b.addr < a.addr + a.size && a.addr < b.addr + b.size

/-- The state of a firing after one of its accesses has been performed. `s` has the effect; `k` parity deltas stood
before it, and those sent since hold back the done token of a scope wider than ROW (R395). -/
def State.performed (s : State) (n : NodeId) (f : Firing) (a : Access) (data : List Byte) (k : Nat) : State :=
  let f1 := f.setAcc { a with phase := .finished, data := data }
  if f1.acc.any fun x => x.phase ≠ .finished then s.setFiring n f1
  else
    let held : Bool := match a.op with
      | .store _ (some _) => true
      | _ => false
    let s1 := if held then s else s.release n.row a.scope
    let s2 := if held || a.scope = .row then s1 else s1.awaitDeltas k n f.id
    let aw := if held then Await.hub 1 else s2.ackAwait n f.id
    match f.ins with
    | .ld _ _ sx => s2.setFiring n { f1 with await := aw, o0 := [wordTok (loadWord sx data) f.tag] }
    | _ => s2.setFiring n { f1 with await := aw }

/-- An ATOM completes with its effect (R246), or once its parity deltas are acknowledged (R395). -/
def State.atomDone (s : State) (n : NodeId) (f : Firing) (a : Access) (data : List Byte) (k : Nat) : State :=
  let f1 := { f.setAcc { a with phase := .finished } with o0 := [wordTok (bytesBits 32 data) f.otag] }
  let s1 := s.release n.row a.scope
  if s1.hub.deltas.length ≤ k || a.scope = .row then s1.complete n f1
  else (s1.awaitDeltas k n f.id).setFiring n { f1 with await := .hub 2, acted := true }

/-- The number of steps of a port firing. -/
def portSteps (i : Instr) : Nat :=
  match i with
  | .ldt _ _ n => n.toNat + 1
  | .stt _ _ _ n => n.toNat + 1
  | .spill _ _ _ t => t.count.toNat + 1
  | .fill _ _ _ t => t.count.toNat + 1
  | _ => 0

/-- A step of LDT or STT is done: LDT delivers its beat with its check value, STT pops it (R214, R243); each step of a store wider
than ROW is a release (R219, R220). -/
def State.stepped (s : State) (n : NodeId) (f : Firing) (a : Access) (data : List Byte) (chk : BitVec 32) (k : Nat) : State :=
  let last := f.step + 1 = portSteps f.ins
  let s1 := match f.ins with
    | .ldt _ _ _ => s.push f.t0 (.beat (bytesBits 1024 data) chk)
    | .stt o _ _ _ => s.setNode n ((s.node n).dropHeads (popQs [o.b]))
    | _ => s
  let f1 := { f with step := f.step + 1, acc := [{ a with op := .other, phase := .finished, data := [] }] }
  let held := match a.op with
    | .store _ sp => sp.isSome
    | _ => false
  let s2 := if held then s1 else s1.release n.row a.scope
  let s3 := if held || a.scope = .row then s2 else s2.awaitDeltas k n f.id
  s3.setFiring n (if last then { f1 with await := if held then .hub 1 else s3.ackAwait n f.id } else f1)

/-! ## The loop link -/

/-- The row that hosts a stage of a band. -/
def State.rowOfStage (s : State) (die cl : Nat) (b : Band) (stage : Nat) : Option RowId :=
  (b.live.find? fun i =>
    let r := (s.row ⟨die, cl, b.base + i⟩).reel
    r.hosts && r.hosted = stage).map fun i => ⟨die, cl, b.base + i⟩

/-- The entry of a stage's ingress map for an incoming lane. -/
def Band.imap (b : Band) (stage lane : Nat) : Option (Nat × Nat) :=
  match b.desc.stages[stage]? with
  | none => none
  | some st => imapQueue ((st.imap[lane]?).getD 0xFF)

/-- The LOOPIN of a node whose SRCB is a queue. -/
def State.loopinAt (s : State) (n : NodeId) (q : Nat) : Option Loc :=
  ((s.node n).instrs.find? fun e => match e.2 with | .loopin o _ => (o.b.queue?.map BitVec.toNat) = some q | _ => false).map
    fun e => ⟨n, e.1⟩

/-- The LOOPIN that a LOOPOUT is paired with: the one whose SRCB queue its DST0 reaches (R185). -/
def State.loopPartner (s : State) (l : Loc) (d0 : Slot) : Option Loc :=
  let t := s.target l.nd d0
  match t.dst with
  | .queue n q => s.loopinAt n q
  | .fb _ _ ch =>
    match s.bandOf l.nd.row with
    | none => none
    | some (_, b) =>
      match s.rowOfStage l.nd.row.die l.nd.row.cl b t.stage, b.imap t.stage (15 + ch) with
      | some r, some (k, q) => s.loopinAt ⟨r, k⟩ q
      | _, _ => none
  | _ => none

def loopinSt (p : Prog) : Nat × Option Loc :=
  match p with
  | .loopin k x _ => (k, x)
  | _ => (0, none)

/-- The step on which a LOOPIN admitted its last record. -/
def loopinSince (p : Prog) : Nat :=
  match p with
  | .loopin _ _ t => t
  | _ => 0

def loopSt (p : Prog) : LoopSt :=
  match p with
  | .loopout x => x
  | _ => {}

/-- The rows of a LOOPOUT's loop: its own, and those that host the stages from its LOOPIN's to its own (R187, log entry 76). -/
def State.loopRows (s : State) (l : Loc) (d0 : Slot) : List RowId :=
  let own := l.nd.row
  match s.loopPartner l d0, s.bandOf own with
  | some i, some (_, b) =>
    own :: b.live.filterMap fun k =>
      let r : RowId := ⟨own.die, own.cl, b.base + k⟩
      let x := (s.row r).reel
      if r ≠ own && x.hosts && (s.row i.nd.row).reel.hosted ≤ x.hosted && x.hosted ≤ (s.row own).reel.hosted then some r else none
  | _, _ => [own]

/-- A LOOPOUT of a row, with its DST0 and depth, whose loop takes in row `r`. -/
def State.loopIn (s : State) (r at_ : RowId) : Option (Loc × Slot × Nat) :=
  (s.row at_).nodes.findSome? fun e => e.2.instrs.findSome? fun i =>
    match i.2 with
    | .loopout o k => if (s.loopRows ⟨⟨at_, e.1⟩, i.1⟩ o.d0).contains r then some (⟨⟨at_, e.1⟩, i.1⟩, o.d0, k.toNat) else none
    | _ => none

/-- The LOOPOUT whose loop a row lies in, in the row or in another one of its band. -/
def State.loopOf (s : State) (r : RowId) : Option (Loc × Slot × Nat) :=
  match s.bandOf r with
  | none => s.loopIn r r
  | some (_, b) => (s.loopIn r r).orElse fun _ => b.live.findSome? fun k => s.loopIn r ⟨r.die, r.cl, b.base + k⟩

/-- How LOOPOUT's decisions stand to a speculative store of an iteration when it arrives (R187, R245). -/
inductive SpecNow where
  | held
  | confirmed
  | squashed
  deriving DecidableEq, Repr

/-- A record's iterations up to its last one are confirmed, later ones squashed. -/
def specBy (last it : Nat) : SpecNow := if iterLe it (last % 256) then .confirmed else .squashed

/-- Whether the record whose state a LOOPOUT has left the loop with nothing of it still to be discarded. -/
def LoopSt.over (x : LoopSt) : Bool := x.out && x.dv = 0 && x.dc = 0

/-- The state that a new record finds: that of a loop whose squash has drained is over. -/
def LoopSt.fresh (x : LoopSt) : LoopSt := if x.over then { last := some (x.oldest - 1) } else x

/-- The LOOPOUT of the row's loop decides on a store of an iteration whose firing started at step `born`: an iteration before the oldest
unresolved one is confirmed, one after an exit squashed. With k = 0 no iteration is issued before its turn, and all are confirmed (R186).
A firing that started before the last record was admitted is the record's before it, and goes by how that one left the loop; a record
that is admitted and has sent no value yet has no iteration resolved (DEDUCED, log entry 33). -/
def State.specNow (s : State) (r : RowId) (born it : Nat) : SpecNow :=
  match s.loopOf r with
  | none => .held
  | some (l, d0, k) =>
    let x := loopSt ((s.node l.nd).prog l.slot)
    let p := match s.loopPartner l d0 with
      | some i => (s.node i.nd).prog i.slot
      | none => .idle
    if k = 0 then .confirmed
    else if x.over && (loopinSt p).1 ≠ 0 then (if born < loopinSince p then specBy (x.oldest - 1) it else .held)
    else
      match if born < loopinSince p then x.last else none with
      | some j => specBy j it
      | none => if x.oldest ≠ 0 && iterLe it ((x.oldest - 1) % 256) then .confirmed else if x.out then .squashed else .held

/-- A store as it stands when it arrives: a speculative one that is confirmed is an ordinary store, one that is
squashed stores nothing. -/
def State.arriving (s : State) (r : RowId) (born : Nat) (a : Access) : Access :=
  match a.op with
  | .store bs (some i) =>
    match s.specNow r born i with
    | .held => a
    | .confirmed => { a with op := .store bs none }
    | .squashed => { a with op := .other }
  | _ => a

/-- MEMORY_REPLY (R237): the next access of a firing that has its home takes effect there; the firing has its data and
done token once every access has. -/
def State.memoryReply (s : State) (n : NodeId) (id : Nat) : State :=
  match (s.node n).firing id with
  | none => s.staleReply n
  | some f =>
    match f.acc.find? fun a => match a.phase with | .home _ => true | _ => false with
    | none => s
    | some a0 =>
      let a := s.arriving n.row f.born a0
      match a.phase with
      | .home h =>
        let nd := s.node n
        let room := match f.ins with
          | .ldt _ _ _ => s.destFree f.t0.dst ≠ 0 && nd.portTurn { f with n0 := 1 }
          | .atom _ _ _ _ => s.mayComplete n f
          | _ => true
        let goes := match a.op with
          | .atom _ _ _ => s.rowRuns n.row || s.mayComplete n f
          | _ => s.rowRuns n.row
        if nd.storeBehind f a || !room || !goes then s
        else
          match s.accAt n f a h with
          | .wait => s
          | .fault c off =>
            if a.gen ≠ s.genOf n.row then s.dropReply n f a
            else
            let blk := c = 0x162 || 0x165 ≤ c.toNat
            let x : FInfo :=
              { f.accInfo a0.op (if blk then 0 else BitVec.ofNat 32 a.sm) with
                addr1 := if blk then (a.addr + off) / 64 * 64 else a.addr, addr2 := if blk then 0 else a.addr }
            if portSteps f.ins = 0 then s.faultFiring n f c x
            else (s.setFiring n (f.setAcc { a with op := .other, phase := .finished })).faultStep n f c x
          | .ok s1 data chk =>
            if a.gen ≠ s.genOf n.row then s1.dropReply n f a
            else
            match f.ins with
            | .atom _ _ _ _ => s1.atomDone n f a data s.hub.deltas.length
            | .ldt _ _ _ => s1.stepped n f a data chk s.hub.deltas.length
            | .stt _ _ _ _ => s1.stepped n f a data chk s.hub.deltas.length
            | _ => s1.performed n f a data s.hub.deltas.length
      | _ => s

/-- The beat that a step of STT or SPILL takes: not yet, a marker, a fault, or the beat. -/
inductive StepBeat where
  | wait
  | bad (c : Cause)
  | ok (v : Beat)

def Node.stepBeat (nd : Node) (id : Nat) (q : Nat) : StepBeat :=
  if nd.sttBusy id q then .wait
  else
    match nd.head q with
    | none => .wait
    | some t =>
      if t.tok.isMark then .bad 0x046
      else
        match t.tok.badCheck with
        | some c => .bad c
        | none => .ok t.tok.beatOf

/-- FIRING_STEP of LDT and STT: the access of the next element starts (R243). -/
def State.ldtStep (s : State) (n : NodeId) (f : Firing) (op : Except Cause AccOp) : State :=
  match f.acc with
  | [a0] =>
    if a0.phase ≠ .finished || portSteps f.ins ≤ f.step then s
    else
      match op, tget (s.port n).streams a0.sm with
      | .error c, _ =>
        s.faultStep n f c { f.info (if c = 0x046 then BitVec.ofNat 32 f.step else nodeQueue n f.ins.ops.b) with
          b := (s.node n).headWord (selQ f.ins.ops.b) }
      | .ok op, none => s.faultStep n f 0x084 (f.accInfo op (BitVec.ofNat 32 a0.sm))
      | .ok op, some st =>
        let el := f.el + f.step
        match s.mkAcc n a0.sm st op (if f.ins.ops.a = .zero then el % max 1 st.count else el) 0 f.id with
        | .error x =>
          s.faultStep n f x.cause ((f.accInfo op (BitVec.ofNat 32 x.aux)).atAddr x.cause x.addr)
        | .ok a => if (s.port n).stops a || (a.op.stores && (s.port n).full) then s
                 else (s.setFiring n { f with acc := [a] }).count n.row 3 1
  | _ => s

/-- The operation of a step of LDT or STT, none while its beat has not come. -/
def State.ldtOp (s : State) (n : NodeId) (f : Firing) : Option (Except Cause AccOp) :=
  match f.ins with
  | .stt o _ spec _ =>
    match (s.node n).stepBeat f.id (selQ o.b) with
    | .wait => none
    | .bad c => some (.error c)
    | .ok v => some (.ok (.store (natBytes' 128 v.toNat) (if spec then some (f.tag.extractLsb' 16 8).toNat else none)))
  | _ => some (.ok .load)

def State.portStep (s : State) (n : NodeId) (f : Firing) : State :=
  if !s.rowRuns n.row then s
  else
    match s.ldtOp n f with
    | none => s
    | some op => s.ldtStep n f op

end Sys2Proof.Machine
end

