-- ==== Sys2Proof/Machine/PortCtl.lean ====
section
/-!
DEFINITION. The port instructions beyond plain accesses (R247-R254, R305): fences, ownership, windows, bank modes,
engine streams, the state home, TLB invalidation; and the events of the memory side that serve them.
-/
namespace Sys2Proof.Machine

def Row.dflt (r : Row) : Scope := r.hdr.scope

/-! ## FENCE and OWN (R247, R248) -/

def execFence (o : Ops) (msk : BitVec 16) (sc : ScopeSel) (s : State) : Out :=
  let r : FireReq := { ops := o }
  .next (fire s s.locus (.fence o msk sc) r (fun e => .go (storePlan e r)) (nullDone r true true))

/-- Whether a firing that has not completed has an access that a test names. -/
def Firing.pending (f : Firing) (sel : Access → Bool) : Bool := f.acc.any sel

/-- The engine requests of a port, of firings before `id`, that no engine has performed yet: those in a segment, and the gathers
that a freeze cancelled (R226, R334). -/
def State.requestsOf (s : State) (n : NodeId) (id : Nat) : List EngineJob :=
  let c := s.cluster n.row.die n.row.cl
  let asked := c.banks.flatMap fun b => b.2.segs.flatMap fun g => if g.esz = 64 then g.jobs else []
  let again := c.jobs.flatMap fun e => e.2.filter EngineJob.again
  (asked ++ again).filter fun j => j.n = n && j.fid < id

/-- Whether an access of a descent, which port pa makes for it, waits with a translation that faulted: one of a class that a mask
names, which stopped before a step (R283, R304). -/
def State.descParked (s : State) (n : NodeId) (msk : BitVec 16) (born : Nat) : Bool :=
  n.node = 34 && (s.node { n with node := 37 }).fly.any fun g => g.acc.any fun a =>
    a.id < born && msk.getLsbD a.cls && (match a.phase with | .faulted _ _ _ => true | _ => false)

/-- A FENCE waits for earlier accesses of its classes, engine requests and a descent's parked access among them, and writes out
their blocks (R226, R228, R247, R304). -/
def State.fenceDone (s : State) (n : NodeId) (f : Firing) (msk : BitVec 16) (sc : ScopeSel) : Fin :=
  if ((s.node n).fly.any fun g => g.id < f.id && g.pending fun a => msk.getLsbD a.cls) || s.descParked n msk f.born ||
      (s.requestsOf n f.id).any fun j => j.cls.any fun c => msk.getLsbD c then .wait
  else .ok ((s.flushIf n fun b => b.cls.any fun c => msk.getLsbD c).release n.row (sc.scope (s.row n.row).dflt)) f

/-- The ownership entry that a port's stream owns. -/
def State.ownEntry (s : State) (n : NodeId) (sm : BitVec 2) : Option Nat :=
  match s.regionOf n.row with
  | none => none
  | some (_, g) => g.ownedBy n ((tget (s.port n).streams sm.toNat).bind fun x => x.own)

/-- OWN.REL needs a range that its stream owns, and that no OWN.REL in progress gives up (R248). -/
def execOwnRel (o : Ops) (sm : BitVec 2) (sc : ScopeSel) (s : State) : Out :=
  let r : FireReq := { ops := o }
  .next (fire s s.locus (.ownRel o sm sc) r (fun e =>
    let twice := e.nd.fly.any fun f => match f.ins with | .ownRel _ k _ => k = sm | _ => false
    match e.s.ownEntry e.l.nd sm with
    | none => .fault 0x0C1 e.info
    | some k =>
      if twice then .fault 0x0C1 (e.info (BitVec.ofNat 32 k)) else .go { o1 := doneTok1 (r.doneTag e.nd), a := BitVec.ofNat 32 k })
    (nullDone r false true))

/-- The handover word (R248). -/
def handWord (owner : BitVec 12) (k : Nat) : Word := BitVec.ofNat 32 (2 ^ 31 + owner.toNat * 2 ^ 16 + k % 64)

/-- Whether an owned range covers a block: of a bank range the blocks it overlaps, of a range of virtual addresses every
HBM block of the port (log entry 35). -/
def OwnEnt.covers (x : OwnEnt) (b : CBlock) : Bool :=
  match b.home with
  | .sram _ _ k off => x.bank && decide (x.lo < k * 2 ^ 20 + off + 64) && decide (k * 2 ^ 20 + off ≤ x.hi)
  | .hbm _ => !x.bank

/-- The home of a byte of a stage's state home (R254, R368). -/
def State.homeAt (s : State) (r : RowId) (stage off : Nat) : Option Home :=
  match s.bandOf r with
  | none => none
  | some (_, b) =>
    match b.desc.stages[stage]? with
    | none => none
    | some st =>
      let a := 64 * st.hoff + off
      (b.homes[a / 2 ^ 20]?).map fun k => .sram r.die r.cl k (a % 2 ^ 20)

/-- The address of a home in its space, as the record of a fault names it. -/
def Home.bankAddr : Home → Nat
  | .sram _ _ b o => b * 2 ^ 20 + o
  | .hbm pa => pa

/-- The addresses of 128 bytes that the steps of a firing which are still to come access: whether they lie in banks, and where. -/
def State.toCome (s : State) (n : NodeId) (f : Firing) : List (Bool × Nat) :=
  let ks := upFrom f.step (portSteps f.ins - f.step)
  let homes := fun (off : BitVec 17) => ks.filterMap fun k =>
    (s.homeAt n.row (s.node n).stage (128 * (off.toNat + k))).map fun h => (true, h.bankAddr)
  let elems := fun (sm : BitVec 2) => match tget (s.port n).streams sm.toNat with
    | none => []
    | some st => ks.filterMap fun k =>
      match st.elemAt (if f.ins.ops.a = .zero then (f.el + k) % max 1 st.count else f.el + k) with
      | .ok a => some (st.isBank, a)
      | .error _ => none
  if f.off then []
  else
    match f.ins with
    | .spill _ _ off _ => homes off
    | .fill _ _ off _ => homes off
    | .ldt _ sm _ => elems sm
    | .stt _ sm _ _ => elems sm
    | _ => []

/-- OWN.REL completes once its earlier accesses to the range are performed and written out (R225, R248). -/
def State.ownRelDone (s : State) (n : NodeId) (f : Firing) (sc : ScopeSel) : Fin :=
  match s.regionOf n.row with
  | none => .wait
  | some (k, g) =>
    match tget g.own f.a.toNat with
    | none => .fault 0x0C1 { tag := f.tag, aux := f.a }
    | some x =>
      let inRange := fun (a : Access) => a.bank = x.bank && x.lo < a.addr + a.size && a.addr ≤ x.hi
      let asked := fun (j : EngineJob) => x.meets j.src j.len j.sbank || (!j.gath && x.meets j.dst j.len j.dbank)
      if ((s.node n).fly.any fun g => g.id < f.id &&
          (g.pending inRange || (s.toCome n g).any fun z => x.meets z.2 128 z.1)) || (s.requestsOf n f.id).any asked then .wait
      else
        let s1 := (s.flushIf n x.covers).release n.row (sc.scope (s.row n.row).dflt)
        .ok (s1.setRegion n.row.die k { s1.region n.row.die k with own := tset g.own f.a.toNat { x with hand := true } })
          { f with o0 := [wordTok (handWord g.owner f.a.toNat) f.tag] }

/-- The entry in handover that a handover word names, if it may be taken (R248, R328). -/
def Region.handed (g : Region) (w : Word) : Option Nat :=
  let k := w.toNat % 64
  match tget g.own k with
  | none => none
  | some x => if w.getLsbD 31 && w.extractLsb' 16 12 = g.owner && x.hand then some k else none

/-- OWN.ACQ, whose done token goes out with no release wider than ROW (DESIGN CHOICE, log entry 106). -/
def execOwnAcq (o : Ops) (s : State) : Out :=
  let r : FireReq := { ops := o }
  .next (fire s s.locus (.ownAcq o) r (fun e =>
    match e.s.regionOf e.l.nd.row with
    | none => .wait
    | some (_, g) =>
      match g.handed e.av with
      | none => .fault 0x0C1 (e.info (BitVec.ofNat 32 (e.av.toNat % 64)))
      | some _ => .go { storePlan e r with a := e.av })
    (nullDone r true true))

def State.ownAcqDone (s : State) (n : NodeId) (f : Firing) : Fin :=
  match s.regionOf n.row with
  | none => .wait
  | some (k, g) =>
    match g.handed f.a with
    | none => .fault 0x0C1 (f.info (BitVec.ofNat 32 (f.a.toNat % 64)))
    | some i =>
      match tget g.own i with
      | none => .wait
      | some x =>
        .ok (s.setRegion n.row.die k
          { g with own := tset g.own i { x with hand := false, row := n.row.row - g.first, port := n.node - 34 } }) f

/-! ## WIN, PREF and window fills (R206, R249) -/

/-- A block of 64 bytes from one home to another, with its check value; single-bit errors are corrected (R206, R212, R213). -/
def State.copyBlock (s : State) (src dst : Home) : State :=
  let s1 := s.correct src 64
  (s1.writeHome dst (s1.readHome src 64)).setSyn dst (s1.synAt src)

/-- 128 bytes from one home to another. -/
def State.copyHalf (s : State) (src dst : Home) : State := (s.copyBlock src dst).copyBlock (src.plus 64) (dst.plus 64)

/-- A line of 256 bytes from one home to another: its halves, since an evacuation may have moved the first alone
(R314). -/
def State.copyHome (s : State) (src dst : Home) : State := (s.copyHalf src dst).copyHalf (src.plus 128) (dst.plus 128)

/-- The double-bit error that a copy of a line meets, or its block that was rebuilt bad; 0 where it waits for a rebuild (R396). -/
def State.copyErr (s : State) (h : Home) : Option Cause :=
  if s.unrebuilt h 256 then some 0
  else
    ((s.eccErr h 128).orElse fun _ => s.eccErr (h.plus 128) 128).orElse fun _ => if s.rebuiltBad h 256 then some 0x169 else none

/-- Write back dirty lines of a window in ascending address order, under a stream's page size bound or none; the first that fails
stops it (R206, R208, R301). -/
def State.writeBack (s : State) (r : RowId) (bank w lines psz : Nat) : List Nat → Except (XFault × Nat) State
  | [] => .ok s
  | l :: ls =>
    match s.lookNow r l psz true with
    | .error x => .error (x, l)
    | .ok (s1, pa, _) =>
      let h := winHome r.die r.cl bank w lines l
      match if s1.unrebuilt (.hbm pa) 256 then some 0 else s1.copyErr h with
      | some c => .error (⟨c, 0, 0, some (l + s1.errOff h 256)⟩, l)
      | none => State.writeBack (s1.copyHome h (.hbm pa)) r bank w lines psz ls

/-- Ascending order of lines. -/
def sortLines (l : List Nat) : List Nat := sortBy (fun a b => decide (a < b)) l

/-- WIN and PREF start on a stream with a window that the region holds. -/
def winRes (e : Env) (sm : BitVec 2) (sc : Scope) (p : Plan) : Res :=
  e.withStream sm fun st =>
    match StreamLit.window st.lit with
    | none => .fault 0x086 (e.smInfo sm)
    | some (b, _) =>
      if !e.s.holdsBank e.l.nd.row b then .fault 0x081 (e.smInfo sm)
      else if 16 ≤ e.nd.entries then .wait
      else .go { p with a := e.av, acc := [idleAcc sm.toNat st sc] }

def execWin (o : Ops) (sm : BitVec 2) (sc : ScopeSel) (s : State) : Out :=
  let r : FireReq := { ops := o }
  .next (fire s s.locus (.win o sm sc) r (fun e => winRes e sm (sc.scope (e.s.row e.l.nd.row).dflt) (storePlan e r))
    (nullDone r true true))

def execPref (o : Ops) (sm : BitVec 2) (s : State) : Out :=
  let r : FireReq := { ops := o }
  .next (fire s s.locus (.pref o sm) r (fun e =>
    e.withStream sm fun st => winRes e sm (st.lit.scope.scope (e.s.row e.l.nd.row).dflt) (storePlan e r))
    (nullDone r true true))

/-- The window that a firing of WIN or PREF names. -/
def State.firingWin (s : State) (n : NodeId) (f : Firing) : Option (Nat × Nat × Bank) :=
  match f.acc with
  | a :: _ =>
    ((tget (s.port n).streams a.sm).bind fun st => StreamLit.window st.lit).map
      fun w => (w.1, w.2, s.bankOf n.row.die n.row.cl w.1)
  | [] => none

def winFault (f : Firing) (c : Cause) : Fin :=
  .fault c (f.info (BitVec.ofNat 32 ((f.acc.head?.map fun a => a.sm).getD 0)))

/-- WIN moves the tail after the write-backs of the lines it passes (R206, R249). -/
def State.winDone (s : State) (n : NodeId) (f : Firing) : Fin :=
  match s.firingWin n f with
  | none => winFault f 0x086
  | some (b, w, k) =>
    if k.mode ≠ .window then winFault f 0x082
    else
      match k.wins[w]? with
      | none => winFault f 0x086
      | some x =>
        let t := x.t + 256 * f.a.toNat
        let d := n.row.die
        let c := n.row.cl
        let psz := (f.acc.head?.map fun a => a.psz).getD 0
        match s.writeBack n.row b w k.lines psz (sortLines (x.dirty.filter fun l => l < t)) with
        | .error (y, l) => .ofX f y l
        | .ok s1 =>
          let s2 := s1.setWin d c b w { t := t, h := max x.h t, dirty := x.dirty.filter fun l => t ≤ l }
          .ok (s2.release n.row ((f.acc.head?.map fun a => a.scope).getD .row)) f

/-- PREF is done when its lines are held or no slot is free (R249). -/
def State.prefDone (s : State) (n : NodeId) (f : Firing) : Fin :=
  match s.firingWin n f with
  | none => winFault f 0x086
  | some (_, w, k) =>
    if k.mode ≠ .window then winFault f 0x082
    else
      match k.wins[w]? with
      | none => winFault f 0x086
      | some x =>
        if f.a.toNat ≤ f.step || x.h = x.t + 256 * k.lines then
          .ok (s.release n.row ((f.acc.head?.map fun a => a.scope).getD .row)) f
        else .wait

/-- Port nodes of the rows of a cluster that hold firings. -/
def State.clusterPorts (s : State) (die cl : Nat) : List NodeId :=
  s.rows.flatMap fun r =>
    if r.1 / 28 ≠ die * 12 + cl then []
    else (r.2.nodes.filter fun e => e.1 = 34 || e.1 = 35).map fun e => ⟨⟨die, cl, r.1 % 28⟩, e.1⟩

/-- Who demands a fill of a window at its head: an access beyond the head, or a PREF. -/
inductive Demand where
  | access (n : NodeId) (f : Firing) (a : Access)
  | pref (n : NodeId) (f : Firing) (psz : Nat)

def State.firingDemand (s : State) (n : NodeId) (bank w h : Nat) (f : Firing) : Option Demand :=
  match f.ins with
  | .pref _ sm =>
    match tget (s.port n).streams sm.toNat with
    | none => none
    | some st =>
      if StreamLit.window st.lit = some (bank, w) && f.step < f.a.toNat && !f.xstopped then some (.pref n f (StreamLit.psz st.lit)) else none
  | _ =>
    (f.acc.find? fun a => a.win = some (bank, w) && h ≤ a.addr && (match a.phase with | .home _ => true | _ => false)).map
      fun a => .access n f a

def State.demand (s : State) (die cl bank w h : Nat) : Option Demand :=
  (s.clusterPorts die cl).findSome? fun n => (s.node n).fly.findSome? fun f => s.firingDemand n bank w h f

/-- The data of an access faults the firing: one in steps keeps those that it has done (R9). -/
def State.faultAcc (s : State) (n : NodeId) (f : Firing) (a : Access) (c : Cause) (addr : Nat) : State :=
  let x := { f.accInfo a.op with addr1 := addr }
  if portSteps f.ins = 0 then s.faultFiring n f c x
  else (s.setFiring n (f.setAcc { a with op := .other, phase := .finished })).faultStep n f c x

/-- The line at a window's head is filled from its page: how the head stands then, or why not (R206, R301). -/
def State.fillHead (s : State) (r : RowId) (bank w psz : Nat) (k : Bank) (x : Win) : Except XFault State :=
  match s.lookNow r x.h psz false with
  | .error y => .error y
  | .ok (s1, pa, _) =>
    match s1.copyErr (.hbm pa) with
    | some c => .error ⟨c, 0, 0, some (x.h + s1.errOff (.hbm pa) 256 / 64 * 64)⟩
    | none =>
      .ok ((s1.copyHome (.hbm pa) (winHome r.die r.cl bank w k.lines x.h)).setWin r.die r.cl bank w { x with h := x.h + 256 })

/-- WINDOW_FILL (R206): the line at the head is filled for an access or a PREF, once a slot is free. A fault names the line; a
PREF counts the lines that have been filled (R9, R249). -/
def State.windowFill (s : State) (die cl bank w : Nat) : State :=
  let k := s.bankOf die cl bank
  match k.wins[w]? with
  | none => s
  | some x =>
    if k.mode ≠ .window || x.t + 256 * k.lines ≤ x.h then s
    else
      match s.demand die cl bank w x.h with
      | none => s
      | some (.access n f a) =>
        if !s.rowRuns n.row then s
        else
          match s.fillHead n.row bank w a.psz k x with
          | .error y =>
            if y.waits then s
            else if y.walks then s.xfaulted n f { a with addr := x.h } y
            else s.faultAcc n f a y.cause (y.va.getD x.h)
          | .ok s1 => s1
      | some (.pref n f psz) =>
        if !s.rowRuns n.row then s
        else
          match s.fillHead n.row bank w psz k x with
          | .error y =>
            if y.waits then s
            else if y.walks then s.stopGen n f y x.h
            else s.faultFiring n f y.cause { f.info with addr1 := y.va.getD x.h }
          | .ok s1 => s1.setFiring n { f with step := f.step + 1 }

/-! ## BMODE (R208, R250) -/

def execBmode (o : Ops) (bm : BankModeLit) (s : State) : Out :=
  let r : FireReq := { ops := o }
  .next (fire s s.locus (.bmode o bm) r (fun e =>
    let b := e.av.toNat
    let base := bm.basehi.toNat * 2 ^ 32 + e.bv.toNat
    let k := e.s.bankOf e.l.nd.row.die e.l.nd.row.cl b
    let info := { e.info with addr1 := b * 2 ^ 20, addr2 := base }
    if !e.s.holdsBank e.l.nd.row b then .fault 0x081 info
    else if bm.mode = 1 && base % 256 ≠ 0 then .fault 0x083 info
    else if k.segs.any fun g => g.placed then .fault 0x087 info
    else if k.pend.isSome then .wait
    else
      let ask := fun (s : State) => s.setBank e.l.nd.row.die e.l.nd.row.cl b { k with pend := some ⟨e.l.nd, e.id, bm, base⟩ }
      .go { storePlan e r with await := .hub 0, eff := ask })
    (nullDone r true true))

/-- Whether a buffered block belongs to a bank: its home is there, or the window that it is held for. -/
def CBlock.ofBank (x : CBlock) (b : Nat) : Bool :=
  match x.win with
  | some (k, _, _) => k = b
  | none =>
    match x.home with
    | .sram _ _ k _ => k = b
    | .hbm _ => false

/-- Entry sizes of R250's codes. -/
def entBytes (c : BitVec 2) : Nat := if c = 0 then 8 else if c = 1 then 64 else 128

/-- The segments that BMODE names (R207, R250). -/
def newSegs (bm : BankModeLit) : List Seg :=
  let n := bm.nseg.toNat + 1
  (upFrom 0 n).map fun j =>
    let z := entBytes (if j % 2 = 1 then bm.ento else bm.ente)
    { esz := z, depth := 2 ^ 20 / n / z }

/-- The bank after the switch (R208). -/
def Bank.switched (m : ModeReq) : Bank :=
  match m.lit.mode.toNat with
  | 1 => { mode := .window, wins := List.replicate (2 ^ m.lit.pcode.toNat) ⟨m.base, m.base, []⟩ }
  | 2 => { mode := .queue, segs := newSegs m.lit }
  | _ => {}

/-- Whether an access that reached the bank before the request has not taken effect (R208): one in progress, or a speculative
store that a port holds. -/
def State.bankBusy (s : State) (die cl b start : Nat) : Bool :=
  (s.clusterPorts die cl).any fun n =>
    ((s.node n).fly.any fun f => f.start ≤ start && f.acc.any fun a =>
      match a.phase with
      | .home (.sram _ _ k _) => k = b
      | .home (.hbm _) => (a.win.map Prod.fst) = some b
      | _ => false) ||
    (s.port n).buf.any fun x => x.spec.isSome && x.ofBank b

/-- The stores into a bank that ports of the cluster have accepted and not written out reach it (R208, R244). -/
def State.flushBank (s : State) (die cl b : Nat) : State :=
  (s.clusterPorts die cl).foldl (fun s n => s.flushIf n fun x => x.ofBank b) s

/-- Write back every dirty line of every window, in ascending address order (R208). -/
def State.writeBackAll (s : State) (r : RowId) (b : Nat) (k : Bank) : List (Nat × Nat) → Except (XFault × Nat) State
  | [] => .ok s
  | (l, w) :: t =>
    match s.writeBack r b w k.lines 0 [l] with
    | .error x => .error x
    | .ok s1 => State.writeBackAll s1 r b k t

/-- The dirty lines of a bank with their windows, ascending. -/
def Bank.dirtyLines (k : Bank) : List (Nat × Nat) :=
  sortBy (fun a b => decide (a.1 < b.1)) (((upFrom 0 k.wins.length).zip k.wins).flatMap fun x => x.2.dirty.map fun l => (l, x.1))

/-- BMODE_SWITCH (R208): a requested switch takes effect once the bank is ready for it. -/
def State.bmodeSwitch (s : State) (die cl b : Nat) : State :=
  let k := s.bankOf die cl b
  match k.pend with
  | none => s
  | some m =>
    match (s.node m.n).firing m.fid with
    | none => s.setBank die cl b { k with pend := none }
    | some f =>
      let full := (upFrom 0 16).any fun i => !(tgetD (s.cluster die cl).jobs (16 * b + i) []).isEmpty
      if f.xstopped || s.bankBusy die cl b f.start || (k.mode = .queue && (full || k.segs.any fun g => !g.jobs.isEmpty)) then s
      else
        match (s.flushBank die cl b).writeBackAll m.n.row b k k.dirtyLines with
        | .error (x, l) =>
          if x.waits then s
          else if x.walks then s.stopGen m.n f x l
          else (s.setBank die cl b { k with pend := none }).faultFiring m.n f x.cause { xinfo x l f.tag with a := f.ra, b := f.rb }
        | .ok s1 =>
          let sc := m.lit.scope.scope (s1.row m.n.row).dflt
          let s2 := (s1.setBank die cl b (Bank.switched m)).release m.n.row sc
          let s3 := if sc = .row then s2 else s2.awaitDeltas s.hub.deltas.length m.n m.fid
          s3.setFiring m.n { f with await := s3.ackAwait m.n m.fid }

/-! ## Engine streams (R226, R251-R253) -/

/-- The request and response segments of a stream, or the cause that refuses them (R251). -/
def State.engine (s : State) (r : RowId) (l : StreamLit) : Except Cause (Nat × Nat × Seg × Seg) :=
  if l.qbank = 31 then .error 0x086
  else
    let b := l.qbank.toNat
    let q := l.qseg.toNat
    let k := s.bankOf r.die r.cl b
    if !s.holdsBank r b then .error 0x081
    else
      match k.segs[q]?, k.segs[q + 1]? with
      | some a, some z =>
        if k.mode ≠ .queue || a.esz ≠ 64 || z.esz ≠ 128 || a.depth < 16 || z.depth < 16 then .error 0x082
        else .ok (b, q, { a with depth := min 4096 a.depth }, { z with depth := min 4096 z.depth })
      | _, _ => .error 0x082

/-- An entry's bytes enter the next slot of a segment of a QUEUE-mode bank, its blocks with their check values (R199, R207, R213,
R250). -/
def State.pushEntry (s : State) (die cl b q : Nat) (bytes : List Byte) (syns : List (BitVec 32) := []) : State :=
  match (s.bankOf die cl b).segs[q]? with
  | none => s
  | some g =>
    let h := s.entryHome die cl b q g g.pushed
    (syns.zip (upFrom 0 syns.length)).foldl (fun x e => x.setSyn (h.plus (64 * e.2)) e.1) (s.fillEntry die cl b q bytes)

/-- The place of the oldest entry of a segment of an engine stream. -/
def State.headEntry (s : State) (die cl b q : Nat) (g : Seg) : Home := s.entryHome die cl b q g (g.pushed - g.jobs.length)

/-- Put a job into a segment. -/
def State.setSegJobs (s : State) (die cl b q : Nat) (f : List EngineJob → List EngineJob) : State :=
  let k := s.bankOf die cl b
  s.setBank die cl b { k with segs := (k.segs.zip (upFrom 0 k.segs.length)).map fun x =>
    if x.2 = q then { x.1 with jobs := f x.1.jobs } else x.1 }

/-- GATH asks for one element (R243, R251). -/
def execGath (o : Ops) (sm : BitVec 2) (s : State) : Out :=
  .next (fire s s.locus (.gath o sm) { ops := o } fun e =>
    e.withStream sm fun st =>
      match e.s.engine e.l.nd.row st.lit with
      | .error c => .fault c (e.smInfo sm)
      | .ok (_, _, a, _) =>
        match e.s.mkAcc e.l.nd sm.toNat st .other e.av.toNat 0 e.id with
        | .error x => .fault x.cause (e.accInfo x sm.toNat)
        | .ok x =>
          if a.depth ≤ a.jobs.length || 16 ≤ e.nd.entries then .wait
          else .go { a := e.av, acc := [{ x with phase := .finished }], eff := fun s => s.count e.l.nd.row 3 1 })

/-- The elements of a CPY and the cursors it moves, or the cause and the stream that it is of. The destination's element of a CPY on
one stream is the one after the source's. -/
def cpyPicks (sa sb : Nat) (s d : Stream) : Except (Cause × Nat) (Nat × Nat × List (Nat × Nat)) :=
  match s.pick sa true 0 1, d.pick sb true 0 1 with
  | .bad c, _ => .error (c, sa)
  | _, .bad c => .error (c, sb)
  | .ok x _, .ok y _ =>
    if sa = sb then .ok (x, (x + 1) % max 1 s.count, [(sa, (x + 2) % max 1 s.count)])
    else .ok (x, y, [(sa, (x + 1) % max 1 s.count), (sb, (y + 1) % max 1 d.count)])

/-- CPY asks for a copy or reduction of n bytes (R252). -/
def execCpy (o : Ops) (sa : BitVec 2) (op : CpyOp) (sb : BitVec 2) (sc : ScopeSel) (s : State) : Out :=
  .next (fire s s.locus (.cpy o sa op sb sc) { ops := o } fun e =>
    e.withStream sa fun st => e.withStream sb fun dt =>
      let n := e.av.toNat
      if n % 64 ≠ 0 || n = 0 || 2 ^ 24 < n then .fault 0x084 (e.smInfo sa)
      else
        match e.s.engine e.l.nd.row st.lit with
        | .error c => .fault c (e.smInfo sa)
        | .ok (_, _, q, _) =>
          match cpyPicks sa.toNat sb.toNat st dt with
          | .error (c, k) => .fault c (e.info (BitVec.ofNat 32 k))
          | .ok (x, y, curs) =>
            match e.s.mkAcc e.l.nd sa.toNat st .other x 0 e.id, e.s.mkAcc e.l.nd sb.toNat dt .other y 1 e.id with
            | .error z, _ => .fault z.cause (e.accInfo z sa.toNat)
            | _, .error z => .fault z.cause (e.accInfo z sb.toNat)
            | .ok a, .ok b =>
              match e.s.ownedBad e.l.nd a.addr n a.bank e.id, e.s.ownedBad e.l.nd b.addr n b.bank e.id with
              | some k, _ => .fault 0x0C0 (e.accInfo ⟨0x0C0, a.addr, k⟩ sa.toNat)
              | _, some k => .fault 0x0C0 (e.accInfo ⟨0x0C0, b.addr, k⟩ sb.toNat)
              | _, _ =>
                if q.depth ≤ q.jobs.length || 16 ≤ e.nd.entries then .wait
                else .go { a := e.av, curs := curs, acc := [{ a with phase := .finished }, { b with phase := .finished }],
                           eff := fun s => s.count e.l.nd.row 3 1 })

/-- A request enters its request segment when its firing completes (R226, R251). -/
def State.requestDone (s : State) (n : NodeId) (f : Firing) (job : EngineJob) (l : StreamLit) : Fin :=
  match s.engine n.row l with
  | .error c => .fault c (f.info (BitVec.ofNat 32 ((f.acc.head?.map fun a => a.sm).getD 0)))
  | .ok (b, q, a, _) =>
    if a.depth ≤ a.jobs.length then .wait
    else
      .ok (((s.release n.row .package).setSegJobs n.row.die n.row.cl b q fun js => js ++ [job]).pushEntry n.row.die n.row.cl b q
        (Config.entryBytes s.tick)) f

/-- The home of an engine's access, or why it stops (R251, R301); cause 0 where it waits for a rebuild (R396). -/
def State.engineHome (s : State) (j : EngineJob) (a : Nat) (bank wr : Bool) : Except JobErr Home :=
  if bank then
    if !s.holdsBank j.n.row (a / 2 ^ 20) then .error { cause := 0x081, addr1 := a, addr2 := a }
    else if (s.bankOf j.n.row.die j.n.row.cl (a / 2 ^ 20)).mode ≠ .scratch then .error { cause := 0x082, addr1 := a, addr2 := a }
    else .ok (.sram j.n.row.die j.n.row.cl (a / 2 ^ 20) (a % 2 ^ 20))
  else
    match s.xlate j.owner a wr with
    | .error x => .error { cause := x.cause, level := x.level, addr1 := a, addr2 := if x.cause = 0x080 then a else x.entry }
    | .ok pa => .ok (.hbm pa)

/-- The single-bit errors of the tables that an engine's access walks are corrected (R212). -/
def State.fixJob (s : State) (j : EngineJob) (a : Nat) (bank wr : Bool) : State := if bank then s else s.fixWalk j.owner a 0 wr

/-- The errors that an engine meets in a block that it reads: a plain copy carries its check value unread (R213). -/
def State.jobErr (s : State) (h : Home) (n addr : Nat) (carry : Bool) : Option JobErr :=
  let c := if s.unrebuilt h n then some 0 else if carry then (s.eccErr h n).orElse fun _ => if s.rebuiltBad h n then some 0x169 else none else s.homeErr h n
  c.map fun x => { cause := x, addr1 := addr / 64 * 64 }

/-- A block of a reduction: y becomes y op x, element by element (R252). -/
def reduceBlock (op : CpyOp) (x y : List Byte) : List Byte :=
  let xs := bytesNat x
  let ys := bytesNat y
  let go := fun (w : Nat) (f : Nat → Nat → Nat) =>
    natBytes' 64 (packNat w (List.zipWith f (elems w (512 / w) xs) (elems w (512 / w) ys)))
  match op with
  | .cpy => x
  | .addF32 => go 32 fun a b => (f32Add .rne (BitVec.ofNat 32 b) (BitVec.ofNat 32 a)).toNat
  | .addBf16 => go 16 fun a b => fBF16.add .rne b a
  | .maxF32 => go 32 fun a b => (f32MinMax true (BitVec.ofNat 32 b) (BitVec.ofNat 32 a)).toNat

/-- Block i of a copy or reduction. -/
def State.cpyBlock (s : State) (j : EngineJob) (i : Nat) : Except JobErr State :=
  let a := j.src + 64 * i
  let b := j.dst + 64 * i
  if a % 64 ≠ 0 || b % 64 ≠ 0 then
    .error (if a % 64 ≠ 0 then { cause := 0x083, addr1 := a, addr2 := a } else { cause := 0x083, addr1 := b, addr2 := b })
  else
    match s.engineHome j a j.sbank false, s.engineHome j b j.dbank true with
    | .error c, _ => .error c
    | _, .error c => .error c
    | .ok h, .ok k =>
      let dst := if j.op = .cpy then ((s.wholeErr k 64).map fun c => { cause := c, addr1 := b }) else s.jobErr k 64 b false
      match s.jobErr h 64 a (j.op = .cpy), dst with
      | some c, _ => .error c
      | _, some c => .error c
      | _, _ =>
        let s := (s.fixJob j a j.sbank false).fixJob j b j.dbank true
        if j.op = .cpy then .ok (s.copyBlock h k)
        else .ok (((s.correct h 64).correct k 64).writeHome k (reduceBlock j.op (s.readHome h 64) (s.readHome k 64)))

/-- The blocks of a copy, in ascending order: how far it came, and the cause that stopped it. -/
def State.cpyBlocks (s : State) (j : EngineJob) : Nat → State × Option JobErr
  | 0 => (s, none)
  | k + 1 =>
    match State.cpyBlocks s j k with
    | (x, some c) => (x, some c)
    | (x, none) =>
      match x.cpyBlock j k with
      | .error c => (x, some c)
      | .ok y => (y, none)

/-- An engine performs a request (R226, R251, R252). -/
def State.perform (s : State) (j : EngineJob) : State × EngineJob :=
  if j.gath then
    match s.engineHome j j.src j.sbank false with
    | .error c => (s, { j with err := some c })
    | .ok h =>
      match s.jobErr h j.len (j.src + s.errOff h j.len) (j.len = 128) with
      | some c => (s, { j with err := some c })
      | none =>
        let s1 := (s.fixJob j j.src j.sbank false).correctRead h j.len
        let out := if j.len = 128 then s1.readBeat h else s1.readHome h j.len
        (s1, { j with out := out ++ List.replicate (128 - j.len) 0,
                      syns := if j.len = 128 then [s1.synAt h, s1.synAt (h.plus 64)] else [] })
  else
    let (s1, c) := s.cpyBlocks j (j.len / 64)
    (s1.awaitDeltas s.hub.deltas.length j.n j.fid, { j with err := c, out := natBytes' 4 j.len ++ List.replicate 124 0 })

/-- Whether a request has met a block still to be rebuilt, and waits (R396). -/
def EngineJob.waits (j : EngineJob) : Bool := j.err.map JobErr.cause = some 0

/-- Whether a region that asked is frozen, or the freeze token has reached the row that did (R334). -/
def State.askerStops (s : State) (j : EngineJob) : Bool := s.genOf j.n.row = j.gen && !s.rowRuns j.n.row

/-- ENGINE_REQUEST_ACCEPT (R226): an engine takes the oldest request of a stream, whose entry it verifies (R212, R213), and
performs it. During a freeze it completes
the copies and reductions that have started, a gather being left for after RESUME; of a frozen region it takes none (R334). -/
def State.engineRequestAccept (s : State) (die cl b q : Nat) : State :=
  match ((s.bankOf die cl b).segs[q]?).bind fun g => g.jobs.head? with
  | none => s
  | some j =>
    let k := s.bankOf die cl b
    let frozen := s.askerStops j && ((s.regionOf j.n.row).map fun x => x.2.st) = some .frozen
    if k.mode ≠ .queue || ((k.segs[q]?).map fun g => g.esz) ≠ some 64 || frozen then s
    else
      let h := s.headEntry die cl b q ((k.segs[q]?).getD { esz := 64 })
      let s1 := (s.correct h 64).setSegJobs die cl b q fun js => js.drop 1
      let (s2, j2) := if s.askerStops j && j.gath then (s1, { j with again := true })
        else
          match s.homeErr h 64 with
          | some c => (s1, { j with err := some { cause := c, addr1 := h.bankAddr } })
          | none => s1.perform j
      let c := s2.cluster die cl
      if j2.waits then s
      else s2.setCluster die cl { c with jobs := tset c.jobs (16 * b + q) (tgetD c.jobs (16 * b + q) [] ++ [j2]) }

/-- ENGINE_RESPONSE (R226, R252): the oldest performed request's response enters the response segment once it has
room and, of a copy, once the parity deltas of its writes are acknowledged (R395); a stale one is dropped and counted (R255). A region that freezes takes none, and a gather that a freeze cancelled is
performed again first (R334, R335). -/
def State.engineResponse (s : State) (die cl b q : Nat) : State :=
  let c := s.cluster die cl
  let key := 16 * b + q
  match tgetD c.jobs key [] with
  | [] => s
  | j :: t =>
    let s1 := s.setCluster die cl { c with jobs := tset c.jobs key t }
    if s.askerStops j then s
    else if s.genOf j.n.row ≠ j.gen then
      match s.regionOf j.n.row with
      | none => s1
      | some (k, g) =>
        let w := tgetD g.gw 2 {}
        s1.setRegion die k { g with gw := tset g.gw 2 { w with drops := min 0xFFFF (w.drops + 1) } }
    else
      match (s.bankOf die cl b).segs[q + 1]? with
      | none => s1
      | some z =>
        if min 4096 z.depth ≤ z.jobs.length then s
        else
          let (s2, j2) := if j.again then s1.perform { j with again := false } else (s1, j)
          if j2.waits || s2.owes j2.n j2.fid then s
          else (s2.setSegJobs die cl b (q + 1) fun js => js ++ [j2]).pushEntry die cl b (q + 1) j2.out j2.syns

/-- RSP waits for a response of its own (R253). -/
def execRsp (o : Ops) (sm : BitVec 2) (s : State) : Out :=
  let r : FireReq := { ops := o }
  .next (fire s s.locus (.rsp o sm) r (fun e =>
    e.withStream sm fun st =>
      match e.s.engine e.l.nd.row st.lit with
      | .error c => .fault c (e.smInfo sm)
      | .ok (_, _, _, z) =>
        let waiting := (e.nd.fly.filter fun f => match f.ins with | .rsp _ k => k = sm | _ => false).length
        if z.jobs.length ≤ waiting || 16 ≤ e.nd.entries then .wait
        else .go { o1 := doneTok1 (r.doneTag e.nd), acc := [idleAcc sm.toNat st .package] })
    (nullDone r false true))

/-- RSP pops its response when it completes, with the beat that the bank holds and its check value (R212, R214); an error response
is popped and faults with its cause (R253, R304). -/
def State.rspDone (s : State) (n : NodeId) (f : Firing) (sm : Nat) (l : StreamLit) : Fin :=
  match s.engine n.row l with
  | .error c => .fault c { tag := f.tag, aux := BitVec.ofNat 32 sm }
  | .ok (b, q, _, z) =>
    match z.jobs with
    | [] => .wait
    | j :: _ =>
      let h := s.headEntry n.row.die n.row.cl b (q + 1) (((s.bankOf n.row.die n.row.cl b).segs[q + 1]?).getD z)
      let s1 := (s.correctRead h 128).setSegJobs n.row.die n.row.cl b (q + 1) fun js => js.drop 1
      match j.err with
      | some x =>
        let aux := if x.cause.toNat / 16 = 8 then sm else x.level
        .faultIn s1 x.cause { tag := f.tag, addr1 := x.addr1, addr2 := x.addr2, aux := BitVec.ofNat 32 aux }
      | none =>
        match s.eccErr h 128 with
        | some c => .faultIn s1 c { f.info with addr1 := (h.bankAddr + s.errOff h 128) / 64 * 64 }
        | none => .ok (s1.release n.row .package) { f with o0 := [.beat (bytesBits 1024 (s1.readBeat h)) (s1.beatChk h)] }

/-! ## SPILL and FILL (R254) -/

/-- SPILL from a queue pops its beats in its steps (R254). -/
def spillReq (o : Ops) (q : Bool) : FireReq :=
  if q then { ops := { o with a := .zero }, first := popQs [o.a] } else { ops := o }

def execSpill (o : Ops) (q : Bool) (off : BitVec 17) (t : Tile) (s : State) : Out :=
  let r : FireReq := spillReq o q
  .next (fire s s.locus (.spill o q off t) r (fun e =>
    if 16 ≤ e.nd.entries then .wait else .go { o0 := doneTok1 (r.doneTag e.nd), await := .steps })
    (fun e => { nullDone r true false e with pops := some ((popQs [o.a]).map fun q => (q, 1)) }))

def execFill (o : Ops) (q : Bool) (off : BitVec 17) (t : Tile) (s : State) : Out :=
  let r : FireReq := { ops := o }
  .next (fire s s.locus (.fill o q off t) r (fun e =>
    let d := doneTok1 (r.doneTag e.nd)
    if 16 ≤ e.nd.entries then .wait
    else .go { o0 := if q then [] else d, o1 := if q then d else [], n0 := if q then 0 else 1, await := .steps })
    (nullDone r (!q) q))

/-- A step of SPILL or FILL is done: each step of SPILL that is a release by the row's default scope is one (R219, R220), of FILL
its last. -/
def State.homeStep (s : State) (n : NodeId) (f : Firing) : State :=
  let last : Bool := f.step + 1 = portSteps f.ins
  let rel := last || (match f.ins with
    | .spill _ _ _ _ => true
    | _ => false)
  let s1 := if rel then (s.release n.row (s.row n.row).dflt).awaitDeltas s.hub.deltas.length n f.id else s
  s1.setFiring n { f with step := f.step + 1, await := if last then s1.ackAwait n f.id else f.await }

/-- A beat of SPILL at its home: it supersedes what the row's buffers hold of its bytes (R220, R221). -/
def State.storeHome (s : State) (n : NodeId) (h : Home) (bs : List Byte) : State :=
  let cs := cutBlocks h bs
  (cs.foldl (fun x c =>
    (x.supersede n c.1 c.2.1 c.2.2.length).supersede (otherPort n) c.1 c.2.1 c.2.2.length)
    (cs.foldl (fun x c => (x.flushIf { n with node := 34 } fun b => b.home = c.1).flushIf { n with node := 35 } fun b => b.home = c.1) s)).storeBytes h bs

/-- Whether the bank of a home is in SCRATCH mode (R204). -/
def State.scratchHome (s : State) (h : Home) : Bool :=
  match h with
  | .sram d c b _ => (s.bankOf d c b).mode = .scratch
  | .hbm _ => true

/-- Why a step of SPILL or FILL may not access its home: the bank is not in SCRATCH mode (R204), or another port owns the range
(R225, R233). With the ownership entry. -/
def State.homeRefused (s : State) (n : NodeId) (f : Firing) (h : Home) : Option (Cause × Nat) :=
  if !s.scratchHome h then some (0x082, 0) else (s.ownedBad n h.bankAddr 128 true f.id).map fun k => (0x0C0, k)

/-- A step of SPILL or FILL meets a home that it may not access. -/
def State.homeFault (s : State) (n : NodeId) (f : Firing) (h : Home) (c : Cause × Nat) : State :=
  s.faultStep n f c.1 ((f.info (BitVec.ofNat 32 c.2)).atAddr c.1 h.bankAddr)

/-- FIRING_STEP of SPILL: one beat to the home. -/
def State.spillStep (s : State) (n : NodeId) (f : Firing) (q : Option Nat) (off : BitVec 17) (t : Tile) : State :=
  match s.homeAt n.row (s.node n).stage (128 * (off.toNat + f.step)) with
  | none => s
  | some h =>
    match s.homeRefused n f h with
    | some c => s.homeFault n f h c
    | none =>
    match q with
    | some q =>
      match (s.node n).stepBeat f.id q with
      | .wait => s
      | .bad c =>
        s.faultStep n f c { f.info (if c = 0x046 then BitVec.ofNat 32 f.step else nodeQueue n f.ins.ops.a) with
          a := (s.node n).headWord q }
      | .ok v =>
        ((s.setNode n ((s.node n).dropHeads [q])).storeHome n h (natBytes' 128 v.toNat)).homeStep n f
    | none =>
      let j := t.start.toNat + f.step
      match s.tileErr n.row t.tile.toNat j with
      | some c => s.faultStep n f c (f.info (BitVec.ofNat 32 t.tile.toNat))
      | none =>
        ((s.correctTile n.row t.tile.toNat j).storeHome n h (natBytes' 128 (s.readTile n.row t.tile.toNat j).toNat)).homeStep n f

/-- FIRING_STEP of FILL: one beat from the home, the row's buffers in front of it (R214, R218, R254). -/
def State.fillStep (s : State) (n : NodeId) (f : Firing) (q : Bool) (off : BitVec 17) (t : Tile) : State :=
  match s.homeAt n.row (s.node n).stage (128 * (off.toNat + f.step)) with
  | none => s
  | some h =>
    let it := (f.tag.extractLsb' 16 8).toNat
    match s.homeRefused n f h with
    | some c => s.homeFault n f h c
    | none =>
    match s.readErr h 128 q (s.bufHolds n it) with
    | some (c, o) => s.faultStep n f c { f.info with addr1 := (h.bankAddr + o) / 64 * 64 }
    | none =>
      let s1 := s.correctRead h 128
      let v : Beat := bytesBits 1024 (s1.bufRead n it h 128)
      if q then
        if s.destFree f.t0.dst = 0 || !(s.node n).portTurn { f with n0 := 1 } then s
        else (s1.push f.t0 (.beat v (s1.beatChk h))).homeStep n f
      else (s1.writeTile n.row t.tile.toNat (t.start.toNat + f.step) v).homeStep n f

/-- FIRING_STEP of a port firing. -/
def State.portStep1 (s : State) (n : NodeId) (f : Firing) : State :=
  match f.ins with
  | .spill o q off t =>
    if s.rowRuns n.row then s.spillStep n f (if q then some (selQ o.a) else none) off t else s
  | .fill _ q off t => if s.rowRuns n.row then s.fillStep n f q off t else s
  | _ => s.portStep n f

/-! ## TLBINV (R305) -/

/-- Remove an owner's entries and look-ahead translations of the pages that `hit` names by size and number. -/
def State.invalidate (s : State) (o : BitVec 12) (hit : Nat → Nat → Bool) : State :=
  let dies := s.dies.map fun d =>
    (d.1, { d.2 with tlb := d.2.tlb.map fun e => (e.1, e.2.filter fun x => !(x.owner = o && hit x.psz x.vpn)) })
  let rows := s.rows.map fun r =>
    let id : RowId := ⟨r.1 / 336, r.1 / 28 % 12, r.1 % 28⟩
    if s.ownerOf id ≠ o then r
    else (r.1, { r.2 with ports := r.2.ports.map fun p => (p.1, { p.2 with streams := p.2.streams.map fun t =>
      (t.1, { t.2 with look := t.2.look.filter fun x => !hit (StreamLit.psz t.2.lit) x.1 }) }) })
  { s with dies := dies, rows := rows }

/-- The pages of TLBINV: those that hold a VA, or all. -/
def invHit (va : Option Nat) (psz vpn : Nat) : Bool :=
  match va with
  | none => true
  | some v => v / 2 ^ psz = vpn

def execTlbinvVa (o : Ops) (s : State) : Out :=
  let r : FireReq := { ops := o }
  .next (fire s s.locus (.tlbinvVa o) r (fun e =>
    let va := e.bv.toNat * 2 ^ 32 + e.av.toNat
    if 2 ^ 55 ≤ va then .fault 0x080 { e.info with addr1 := va, addr2 := va }
    else .go { storePlan e r with a := e.av, b := e.bv, lat := 100,
                                  eff := fun s => s.invalidate (s.ownerOf e.l.nd.row) (invHit (some va)) })
    (nullDone r true true))

def execTlbinvCtx (o : Ops) (s : State) : Out :=
  let r : FireReq := { ops := o }
  .next (fire s s.locus (.tlbinvCtx o) r (fun e =>
    .go { storePlan e r with lat := 400, eff := fun s => s.invalidate (s.ownerOf e.l.nd.row) (invHit none) })
    (nullDone r true true))

/-- The rows of an owner. -/
def State.rowsOf (s : State) (o : BitVec 12) : List RowId :=
  (s.rows.map fun r => (⟨r.1 / 336, r.1 / 28 % 12, r.1 % 28⟩ : RowId)).filter fun id => s.ownerOf id = o

/-- Whether a buffered block was stored at a translated address before a step. -/
def CBlock.oldHbm (b : CBlock) (born : Nat) : Bool :=
  b.born ≤ born && (match b.home with | .hbm _ => true | .sram _ _ _ _ => false)

/-- Whether an access of the owner that used a removed translation and started before has not taken effect at home: one in
progress, or a speculative store that a port holds (its page is not known: any such counts). -/
def State.usesOld (s : State) (o : BitVec 12) (va : Option Nat) (n : NodeId) (f : Firing) : Bool :=
  (s.rowsOf o).any fun id =>
    ((s.row id).nodes.any fun e => e.2.fly.any fun g =>
      g.born ≤ f.born && !(e.1 = n.node && id = n.row && g.id = f.id) && g.acc.any fun a =>
        invHit va a.psz (a.addr / 2 ^ a.psz) && (match a.phase with | .home (.hbm _) => true | _ => false)) ||
    (s.row id).ports.any fun p => p.2.buf.any fun b => b.spec.isSome && b.oldHbm f.born

/-- What the owner's ports accepted at translated addresses before a step goes to its home. -/
def State.flushOld (s : State) (o : BitVec 12) (born : Nat) : State :=
  (s.rowsOf o).foldl (fun s r => (s.flushIf ⟨r, 34⟩ fun b => b.oldHbm born).flushIf ⟨r, 35⟩ fun b => b.oldHbm born) s

/-- TLBINV completes once those accesses have, as a release at SYSTEM scope; buffered ones are written out for it. -/
def State.tlbinvDone (s : State) (n : NodeId) (f : Firing) (va : Option Nat) : Fin :=
  if s.usesOld (s.ownerOf n.row) va n f then .wait
  else .ok ((s.flushOld (s.ownerOf n.row) f.born).release n.row .system) f

/-! ## Completions of port firings -/

/-- The effects that a port firing has at its completion. -/
def State.portDone (s : State) (n : NodeId) (f : Firing) : Fin :=
  match f.ins with
  | .sdef _ sm sl => s.sdefDone n f sm.toNat sl
  | .srun _ sm sl => s.srunDone n f sm.toNat sl
  | .fence _ msk sc => s.fenceDone n f msk sc
  | .ownRel _ _ sc => s.ownRelDone n f sc
  | .ownAcq _ => s.ownAcqDone n f
  | .win _ _ _ => s.winDone n f
  | .pref _ _ => s.prefDone n f
  | .tlbinvVa _ => s.tlbinvDone n f (some (f.b.toNat * 2 ^ 32 + f.a.toNat))
  | .tlbinvCtx _ => s.tlbinvDone n f none
  | .gath _ sm =>
    match f.acc, tget (s.port n).streams sm.toNat with
    | a :: _, some st =>
      s.requestDone n f
        { n := n, fid := f.id, cls := [a.cls], gen := s.genOf n.row, owner := s.ownerOf n.row, gath := true, op := .cpy, src := a.addr, sbank := a.bank,
          len := a.size, scope := .package } st.lit
    | _, _ => .fault 0x084 (f.info (BitVec.ofNat 32 sm.toNat))
  | .cpy _ sa op _ sc =>
    match f.acc, tget (s.port n).streams sa.toNat with
    | [a, b], some st =>
      s.requestDone n f
        { n := n, fid := f.id, cls := [a.cls, b.cls], gen := s.genOf n.row, owner := s.ownerOf n.row, gath := false, op := op, src := a.addr, sbank := a.bank,
          dst := b.addr, dbank := b.bank, len := f.a.toNat, scope := sc.scope (s.row n.row).dflt } st.lit
    | _, _ => .fault 0x084 (f.info (BitVec.ofNat 32 sa.toNat))
  | .rsp _ sm =>
    match tget (s.port n).streams sm.toNat with
    | some st => s.rspDone n f sm.toNat st.lit
    | none => .fault 0x084 { tag := f.tag, aux := BitVec.ofNat 32 sm.toNat }
  | _ => s.hubDone n f

end Sys2Proof.Machine
end

