-- ==== Sys2Proof/Machine/Loops.lean ====
section
/-!
DEFINITION. The loops (R185-R187): LOOPIN and LOOPOUT, the loop link between them, and what confirmations and
squashes do to speculative stores (R245).
-/
namespace Sys2Proof.Machine

/-! ## LOOPIN and LOOPOUT in their slots -/

def State.setProg (s : State) (l : Loc) (p : Prog) : State := s.setNode l.nd ((s.node l.nd).setProg l.slot p)

/-- LOOPOUT's exit reaches LOOPIN: one record fewer in the loop (R186). -/
def State.loopExit (s : State) (i : Option Loc) : State :=
  match i with
  | none => s
  | some i =>
    let p := (s.node i.nd).prog i.slot
    s.setProg i (.loopin ((loopinSt p).1 - 1) (loopinSt p).2 (loopinSince p))

/-- The squash that a LOOPOUT has in force ends once nothing is left to discard: no record is in the loop (R187). -/
def State.loopDrained (s : State) (i : Option Loc) (x : LoopSt) : State :=
  if x.dv = 0 && x.dc = 0 then
    match i with
    | none => s
    | some i => s.setProg i (.loopin 0 none (loopinSince ((s.node i.nd).prog i.slot)))
  else s

/-! ## Speculative stores (R187, R245) -/

/-- The iteration of a held store's firing. -/
def Firing.specIter (f : Firing) : Option Nat :=
  if f.await ≠ .hub 1 then none
  else
    match (f.acc.head?.map fun a => a.op) with
    | some (AccOp.store _ (some i)) => some i
    | _ => some (f.tag.extractLsb' 16 8).toNat

/-- A block held for a window is stored there, or in memory where its line lies below the tail or the window is gone: at once, or
once no rebuild is due there (R206, R245, R396). -/
def State.confirmWin (s : State) (n : NodeId) (b : CBlock) (bank w va : Nat) : State :=
  let k := s.bankOf n.row.die n.row.cl bank
  let x := if k.mode = .window then (k.wins[w]?).bind fun x => if va < x.t then none else some x else none
  match x with
  | none =>
    if s.unrebuilt b.home 64 then b.bytes.foldl (fun y e => (y.buffer n b.home e.1 [e.2] (b.cls.headD 0) none va b.born).getD y) s
    else (byteRuns b.bytes).foldl (fun y e => y.storeDirect n (b.home.plus e.1) e.2) (s.merging n b.home va b.bytes.length)
  | some x =>
    let h := winHome n.row.die n.row.cl bank w k.lines va
    (byteRuns b.bytes).foldl (fun y e => y.winStore n.row bank w x (va + e.1) e.2) (s.merging n h va b.bytes.length)

/-- The held blocks of an iteration become ordinary blocks (R245). -/
def State.confirmBlocks (s : State) (n : NodeId) (it : Nat) : State :=
  let p := s.port n
  let mine := p.buf.filter fun b => b.spec = some it
  let s1 := s.setPort n { p with buf := p.buf.filter fun b => b.spec ≠ some it }
  mine.foldl (fun x b =>
    match b.win with
    | none => b.bytes.foldl (fun y e => ((y.buffer n b.home e.1 [e.2] (b.cls.headD 0) none b.va b.born).getD y)) x
    | some (k, w, va) => x.confirmWin n b k w va) s1

/-- A port's held stores of an iteration are confirmed, and their done tokens follow R244. -/
def State.confirmPort (s : State) (n : NodeId) (it : Nat) : State :=
  let s1 := s.confirmBlocks n it
  ((s.node n).fly.filter fun f => f.specIter = some it).foldl (fun x f =>
    (x.release n.row ((f.acc.head?.map fun a => a.scope).getD .row)).wake n f.id fun g => g) s1

/-- A port's held stores of every iteration above one are discarded and deliver null dones. -/
def State.squashPort (s : State) (n : NodeId) (it : Nat) : State :=
  let p := s.port n
  let gone := fun (i : Nat) => !iterLe i it
  let s1 := s.setPort n { p with buf := p.buf.filter fun b => match b.spec with | some i => !gone i | none => true }
  ((s.node n).fly.filter fun f => match f.specIter with | some i => gone i | none => false).foldl
    (fun x f => x.wake n f.id fun g => g) s1

/-- A LOOPOUT confirms an iteration, or squashes those above it, at the ports of every row of its loop (R187). -/
def State.confirm (s : State) (l : Loc) (d0 : Slot) (it : Nat) : State :=
  (s.loopRows l d0).foldl (fun s r => (s.confirmPort ⟨r, 34⟩ it).confirmPort ⟨r, 35⟩ it) s

def State.squash (s : State) (l : Loc) (d0 : Slot) (it : Nat) : State :=
  (s.loopRows l d0).foldl (fun s r => (s.squashPort ⟨r, 34⟩ it).squashPort ⟨r, 35⟩ it) s

/-! ## LOOPIN (R185) -/

/-- A record token with the iteration number in its tag. -/
def withIter (t : Tok) (f : BitVec 8 → BitVec 8) : Tok :=
  match t with
  | .word v g _ => wordTok v (f (g.extractLsb' 16 8) ++ g.extractLsb' 0 16)
  | t => t

/-- The head token of a queue, if it is no marker. -/
def Node.record (nd : Node) (q : Nat) : Option Tok := if nd.offers q then (nd.head q).map QTok.tok else none

/-- LOOPIN drops a back-edge token of a squashed iteration and reports it to the LOOPOUT (R187). -/
def State.reportDrop (s : State) (me lo : Loc) : State :=
  let x := loopSt ((s.node lo.nd).prog lo.slot)
  let y := { x with dv := x.dv - 1, dc := x.dc - 1 }
  (s.setProg lo (.loopout y)).loopDrained (some me) y

def execLoopin (o : Ops) (k : BitVec 3) (s : State) : Out :=
  .next (fire s s.locus (.loopin o k) { ops := o, verify := false, serial := true, own := true } fun e =>
    let (infl, sq) := loopinSt e.prog
    let qa := selQ o.a
    let qb := selQ o.b
    match e.nd.record qb with
    | some t =>
      match sq with
      | some lo => .go { pops := some [(qb, 1)], eff := fun s => s.reportDrop e.l lo }
      | none =>
        let r := [withIter t (· + 1)]
        .go { o0 := r, o1 := r, pops := some [(qb, 1)] }
    | none =>
      match e.nd.record qa with
      | none => .wait
      | some t =>
        if k ≠ 0 && infl ≠ 0 then .wait
        else
          let r := [withIter t fun _ => 0]
          .go { o0 := r, o1 := r, pops := some [(qa, 1)], prog := some (.loopin (infl + 1) sq e.s.tick) })

/-! ## LOOPOUT (R186, R187) -/

/-- LOOPOUT with k = 0. -/
def loopoutPlain (e : Env) (o : Ops) : Res :=
  let t := reemit [e.a]
  .go { o0 := if e.ctl then [] else t, o1 := if e.ctl then t else [], eff := fun s =>
          if e.ctl then s.loopExit (s.loopPartner e.l o.d0) else s }

/-- What LOOPOUT does next with k > 0. -/
inductive LoopMove where
  | dropValue
  | dropCtl
  | resolve (c : Bool) (h : Held)
  | hold (t : Tok)

def loopMove (x : LoopSt) (v : Option Tok) (c : Option Bool) : Option LoopMove :=
  match v, c with
  | some _, _ =>
    if x.dv ≠ 0 then some .dropValue
    else
      match c, x.held with
      | some c, h :: _ => if x.dc ≠ 0 then some .dropCtl else some (.resolve c h)
      | some _, [] => if x.dc ≠ 0 then some .dropCtl else v.map LoopMove.hold
      | none, _ => if x.dc ≠ 0 then none else v.map LoopMove.hold
  | none, some c =>
    if x.dc ≠ 0 then some .dropCtl
    else
      match x.held with
      | h :: _ => some (.resolve c h)
      | [] => none
  | none, none => none

/-- Values received so far, counted as iterations. -/
def LoopSt.got (x : LoopSt) : Nat := x.oldest + x.held.length

/-- The value held last, where it may now be issued and has not been (R187). -/
def LoopSt.issue (x : LoopSt) (k : Nat) : Option Held :=
  match x.held.getLast? with
  | none => none
  | some h => if x.next = x.got && x.got - 1 - x.oldest < k then some h else none

def heldTok (h : Held) : Tok := wordTok h.v h.tag

/-- The firing that takes a move; `k` is the speculation depth. -/
def loopPlan (e : Env) (o : Ops) (k : Nat) (x0 : LoopSt) (mv : LoopMove) : Plan :=
  let q := selQ o.a
  match mv with
  | .dropValue =>
    let x := { x0 with dv := x0.dv - 1 }
    { pops := some [(q, 1)], prog := some (.loopout x), eff := fun s => s.loopDrained (s.loopPartner e.l o.d0) x }
  | .dropCtl =>
    let x := { x0 with dc := x0.dc - 1 }
    { pops := some [], ctls := 1, prog := some (.loopout x), eff := fun s => s.loopDrained (s.loopPartner e.l o.d0) x }
  | .hold t =>
    let x := x0.fresh
    let x1 := { x with held := x.held ++ [Held.mk x.got t.word32 t.tag] }
    match x1.issue k with
    | some h => { o0 := [heldTok h], pops := some [(q, 1)], prog := some (.loopout { x1 with next := x1.next + 1 }) }
    | none => { pops := some [(q, 1)], prog := some (.loopout x1) }
  | .resolve false _ =>
    let x1 := { x0 with held := x0.held.drop 1, oldest := x0.oldest + 1 }
    let done := fun (s : State) => s.confirm e.l o.d0 (x0.oldest % 256)
    match x1.issue k with
    | some h =>
      { o0 := [heldTok h], pops := some [], ctls := 1, prog := some (.loopout { x1 with next := x1.next + 1 }), eff := done }
    | none => { pops := some [], ctls := 1, prog := some (.loopout x1), eff := done }
  | .resolve true h =>
    let x1 : LoopSt := { held := [], oldest := x0.oldest + 1, next := x0.next, out := true, dv := x0.next - x0.got,
                         dc := x0.next - 1 - x0.oldest, last := x0.last }
    { o1 := [heldTok h], pops := some [], ctls := 1, prog := some (.loopout x1), eff := fun s =>
        let i := s.loopPartner e.l o.d0
        let s1 := (s.confirm e.l o.d0 (x0.oldest % 256)).squash e.l o.d0 (x0.oldest % 256)
        let s2 := match i with
          | none => s1
          | some i =>
            let p := (s1.node i.nd).prog i.slot
            s1.setProg i (.loopin (loopinSt p).1 (some e.l) (loopinSince p))
        s2.loopDrained i x1 }

def execLoopout (o : Ops) (k : BitVec 3) (s : State) : Out :=
  if k = 0 then
    .next (fire s s.locus (.loopout o k) { ops := o, ctl := true, verify := false, serial := true } fun e => loopoutPlain e o)
  else
    .next (fire s s.locus (.loopout o k) { ops := o, verify := false, serial := true, own := true } fun e =>
      let x := loopSt e.prog
      match loopMove x (e.nd.record (selQ o.a)) ((firstFree e.nd.ctl.toks).map fun t => t.tok.ctlVal) with
      | none => .wait
      | some mv => .go (loopPlan e o k.toNat x mv))

end Sys2Proof.Machine
end

