-- ==== Sys2Proof/Machine/Tree.lean ====
section
/-!
DEFINITION. The summary tree (R258-R279): records and their checks, references and the free list, the arithmetic of
sealing and merging, append, seal, lift, fork, evict and prune, as operations over memory reached through port pa.
-/
namespace Sys2Proof.Machine

/-! ## Access to records (R259, R283) -/

/-- Why a tree operation stops: an access is not ready, or a fault. -/
inductive TErr where
  | wait
  | bad (c : Cause) (x : FInfo)
  | stop (x : XFault) (va cls : Nat)                -- a translation that an access of a class needs faulted (R304)
  | record (c : Cause) (sm j : Nat) (x : FInfo)     -- a class-7 fault at record j of a pool stream

/-- The firing that a tree operation belongs to: its row, the firing, the pool stream. -/
structure TreeCtx where
  row : RowId
  f   : Firing
  sm  : Nat
  at_ : Nat := 0           -- the record whose mask is read

def TreeCtx.pa (c : TreeCtx) : NodeId := ⟨c.row, 34⟩

/-- The operands that the record of a fault of the descent node names: words, or element 0 of its first beat (R422). -/
def Firing.treeInfo (f : Firing) (aux : Word := 0) : FInfo :=
  let el := fun (k : Nat) => (f.data.getD k 0).extractLsb' 0 32
  match f.ins with
  | .tapp _ _ => { f.info aux with b := el 0 }
  | .troot _ _ _ _ => { f.info aux with b := el 0 }
  | .tacc _ => { f.info aux with a := el 0, b := el (f.data.length / 2) }
  | _ => f.info aux

/-- The record of a class-7 fault names the record's index and its address (R422). -/
def TreeCtx.err (c : TreeCtx) (k : Cause) (j : Nat) : TErr := .record k c.sm j (c.f.treeInfo (BitVec.ofNat 32 j))

/-- The record of a fault of an access (R422). -/
def TreeCtx.accErr (c : TreeCtx) (k : Cause) (va entry aux : Nat) : TErr :=
  .bad k { c.f.treeInfo (BitVec.ofNat 32 aux) with addr1 := va, addr2 := entry }

/-- A stream of the port moved on by some bytes. -/
def Stream.shift (st : Stream) (k : Nat) : Stream :=
  { st with base := st.base + k, runs := st.runs.map fun r => (r.1 + k, r.2.1, r.2.2) }

/-- The access of element `el` of a stream of pa, moved on by `off` bytes, with its home, through its slice where the stream has no
translation of its page (R242, R283, R303). While pa's generator is stopped nothing new is translated (R304). `wr` asks for a page
that may be written. -/
def State.elAcc (s : State) (c : TreeCtx) (sm : Nat) (st : Stream) (op : AccOp) (el off : Nat) (wr : Bool) :
    Except TErr (State × Access × Home) :=
  match s.mkAcc c.pa sm (st.shift off) op el 0 (s.node c.pa).nid with
  | .error x => .error (c.accErr x.cause x.addr (if x.cause = 0x0C0 then 0 else x.addr) (if x.cause = 0x0C0 then x.aux else sm))
  | .ok a =>
    match a.phase with
    | .home h => .ok (s, a, h)
    | _ =>
      if (s.port c.pa).stopped then .error .wait
      else
        match s.lookNow c.row a.addr a.psz wr with
        | .error x =>
          .error (if x.waits then .wait else if x.walks then .stop x a.addr a.cls else c.accErr x.cause a.addr x.entry x.level)
        | .ok (s1, pa, w) => .ok (s1.keepLook c.pa sm (a.addr / 2 ^ a.psz) (pa - a.addr % 2 ^ a.psz) w, a, .hbm pa)

/-- The pool stream: a run list with ESZ 7 (R283). -/
def State.poolStream (s : State) (c : TreeCtx) : Except TErr Stream :=
  match tget (s.port c.pa).streams c.sm with
  | none => .error (c.accErr 0x084 0 0 c.sm)
  | some st => if !st.run || st.lit.esz ≠ 7 then .error (c.accErr 0x086 0 0 c.sm) else .ok st

/-- The outcome of an access of pa. The record of a block's error names the block alone, any other the stream (R422). -/
def State.treeAcc (s : State) (c : TreeCtx) (a : Access) (h : Home) : Except TErr (State × List Byte) :=
  match s.accAt c.pa c.f a h with
  | .wait => .error .wait
  | .fault k off =>
    let blk : Bool := k = 0x162 || 0x165 ≤ k.toNat
    .error (if blk then c.accErr k ((a.addr + off) / 64 * 64) 0 0 else c.accErr k a.addr a.addr c.sm)
  | .ok s1 d _ => .ok (s1, d)

/-- Read one 128-byte unit of a record. -/
def State.unitRead (s : State) (c : TreeCtx) (j u : Nat) : Except TErr (State × List Byte) := do
  let st ← s.poolStream c
  let (s1, a, h) ← s.elAcc c c.sm st .load j (128 * u) false
  s1.treeAcc c a h

/-- Write bytes of one unit of a record. `chk` asks for a page that may be written; read-modify-writes have scope
PACKAGE (R276, R283). -/
def State.unitWrite (s : State) (c : TreeCtx) (chk pkg : Bool) (j u o : Nat) (bs : List Byte) : Except TErr State := do
  let st ← s.poolStream c
  let (s1, a, h) ← s.elAcc c c.sm st (if chk then .store bs none else .load) j (128 * u) chk
  let a1 := { a with op := .store bs none, addr := a.addr + o, size := bs.length, scope := if pkg then .package else a.scope }
  let (s2, _) ← s1.treeAcc c a1 (h.plus o)
  .ok s2

/-- Bytes [off, off + n) of a record, over the units from u on. -/
def State.unitsRead (s : State) (c : TreeCtx) (j : Nat) : Nat → Nat → Except TErr (State × List Byte)
  | _, 0 => .ok (s, [])
  | u, k + 1 =>
    match s.unitRead c j u with
    | .error e => .error e
    | .ok (s1, bs) =>
      match State.unitsRead s1 c j (u + 1) k with
      | .error e => .error e
      | .ok (s2, t) => .ok (s2, bs ++ t)

def State.recRead (s : State) (c : TreeCtx) (j off n : Nat) : Except TErr (State × List Byte) :=
  let u := off / 128
  match s.unitsRead c j u ((off + n + 127) / 128 - u) with
  | .error e => .error e
  | .ok (s1, bs) => .ok (s1, (bs.drop (off - 128 * u)).take n)

/-- Write bytes from offset `off` of a record, unit by unit; the fuel is the number of units. -/
def State.recWrite (s : State) (c : TreeCtx) (chk pkg : Bool) (j : Nat) : Nat → Nat → List Byte → Except TErr State
  | 0, _, _ => .ok s
  | k + 1, off, bs =>
    let room := 128 - off % 128
    match s.unitWrite c chk pkg j (off / 128) (off % 128) (bs.take room) with
    | .error e => .error e
    | .ok s1 => if bs.length ≤ room then .ok s1 else State.recWrite s1 c chk pkg j k (off + room) (bs.drop room)

/-- The words of a list of bytes. -/
def bytesW32 : Nat → List Byte → List Nat
  | 0, _ => []
  | n + 1, bs => bytesNat (bs.take 4) :: bytesW32 n (bs.drop 4)

def w32Bytes (ws : List Nat) : List Byte := ws.flatMap (natBytes' 4)

/-- Header and child table of a record (R260). -/
structure Rec where
  w : List Nat
  deriving DecidableEq, Repr

def Rec.word (r : Rec) (k : Nat) : Nat := r.w.getD k 0
def Rec.kind (r : Rec) : Nat := r.word 0 / 2 ^ 29
def Rec.level (r : Rec) : Nat := r.word 0 / 2 ^ 24 % 32
def Rec.cnt (r : Rec) : Nat := r.word 0 / 2 ^ 17 % 128
def Rec.gen (r : Rec) : Nat := r.word 0 % 2 ^ 16
def Rec.n (r : Rec) : Nat := r.word 1
def Rec.rad (r : Rec) : Word := BitVec.ofNat 32 (r.word 2)
def Rec.first (r : Rec) : Nat := r.word 3
def Rec.last (r : Rec) : Nat := r.word 4
def Rec.ref (r : Rec) : Nat := r.word 5
def Rec.parent (r : Rec) : Nat := r.word 6
def Rec.next (r : Rec) : Nat := r.word 7
def Rec.kids (r : Rec) : List Nat := (r.w.drop 16).take r.cnt

def kFree : Nat := 0
def kInner : Nat := 1
def kSealed : Nat := 2
def kTail : Nat := 3
def kDesc : Nat := 4
def kPool : Nat := 5

/-- Word 0 of a record. -/
def word0 (kind level cnt gen : Nat) : Nat := kind * 2 ^ 29 + level * 2 ^ 24 + cnt * 2 ^ 17 + gen

/-- Header and child table without the checks of a reference; an index at or above SIZE faults (R259). -/
def State.rawRec (s : State) (c : TreeCtx) (j : Nat) : Except TErr (State × Rec) :=
  match s.recRead c 0 0 16 with
  | .error e => .error e
  | .ok (s1, h) =>
    if j ≠ 0 && bytesNat ((h.drop 4).take 4) ≤ j then .error (c.err 0x0E8 j)
    else
      match s1.recRead c j 0 128 with
      | .error e => .error e
      | .ok (s2, bs) => .ok (s2, ⟨bytesW32 32 bs⟩)

/-- What a reference requires of the record it reaches (R260). -/
def Rec.suits (r : Rec) (kinds : List Nat) (level : Option Nat) : Bool :=
  let radBad := match fF32.decode r.rad.toNat with
    | .nan => true
    | .inf n => n
    | .fin d => d.neg && d.m ≠ 0
  let node := r.kind = kInner || r.kind = kSealed || r.kind = kTail
  let lvlOk := match level with
    | some l => r.level = l
    | none => true
  kinds.contains r.kind && lvlOk && (r.kind ≠ kInner || r.level ≠ 0) && (!(r.kind = kSealed || r.kind = kTail) || r.level = 0) &&
    r.word 0 / 2 ^ 16 % 2 = 0 && ((r.w.drop 8).take 8).all (· = 0) && !(node && radBad)

/-- The pool header (R259). -/
def State.poolHdr (s : State) (c : TreeCtx) : Except TErr (State × Rec) :=
  match s.rawRec c 0 with
  | .error e => .error e
  | .ok (s1, r) => if r.kind = kPool then .ok (s1, r) else .error (c.err 0x0E0 0)

/-- A record that a reference reaches, checked. -/
def State.refRec (s : State) (c : TreeCtx) (j : Nat) (kinds : List Nat) (level : Option Nat) : Except TErr (State × Rec) :=
  match s.rawRec c j with
  | .error e => .error e
  | .ok (s1, r) => if r.suits kinds level then .ok (s1, r) else .error (c.err 0x0E0 j)

/-! ## References and the free list (R276) -/

/-- A read-modify-write of words of a record at PACKAGE scope. -/
def State.rmw (s : State) (c : TreeCtx) (chk : Bool) (j k : Nat) (ws : List Nat) : Except TErr State :=
  s.recWrite c chk true j 2 (4 * k) (w32Bytes ws)

/-- A record goes to the head of the free list. -/
def State.pushFree (s : State) (c : TreeCtx) (chk : Bool) (j : Nat) : Except TErr State := do
  let (s1, h) ← s.poolHdr c
  let (s2, r) ← s1.rawRec c j
  let s3 ← s2.rmw c chk j 0 [word0 kFree r.level r.cnt ((r.gen + 1) % 2 ^ 16)]
  let s4 ← s3.rmw c chk j 6 [0, h.word 2]
  s4.rmw c chk 0 2 [j, h.word 3 + 1]

/-- The head of the free list is taken; none when the pool is empty. -/
def State.popFree (s : State) (c : TreeCtx) (chk : Bool) : Except TErr (State × Nat × Nat) := do
  let (s1, h) ← s.poolHdr c
  let j := h.word 2
  if j = 0 || h.word 3 = 0 then .error (c.err 0x0E2 0)
  else do
    let (s2, r) ← s1.refRec c j [kFree] none
    let s3 ← s2.rmw c chk 0 2 [r.next, h.word 3 - 1]
    .ok (s3, j, r.gen)

def State.popMany (s : State) (c : TreeCtx) (chk : Bool) : Nat → Except TErr State
  | 0 => .ok s
  | k + 1 =>
    match s.popFree c chk with
    | .error e => .error e
    | .ok (s1, _, _) => State.popMany s1 c chk k

def State.incRef (s : State) (c : TreeCtx) (chk : Bool) (j : Nat) : Except TErr State := do
  let (s1, r) ← s.rawRec c j
  if 2 ^ 32 ≤ r.ref + 1 then .error (c.err 0x0E7 j) else s1.rmw c chk j 5 [r.ref + 1]

/-- The kinds of the children of a node at a level. -/
def kidKinds (level : Nat) : List Nat := if level = 1 then [kSealed] else [kInner]

/-- Writes done in order: the state with those that could be done, the writes left, and what stopped them (R284). -/
structure TDone where
  s    : State
  left : List TreeOp
  err  : Option TErr

/-- A write that is done as a whole or not at all. -/
def TDone.atomic (s : State) (op : TreeOp) (r : Except TErr State) : TDone :=
  match r with
  | .ok s1 => ⟨s1, [], none⟩
  | .error e => ⟨s, [op], some e⟩

/-- The next write, left for later once one has stopped. -/
def TDone.andThen (d : TDone) (op : TreeOp) (f : State → TDone) : TDone :=
  match d.err with
  | some _ => { d with left := d.left ++ [op] }
  | none => f d.s

/-- A reference is released; a record that loses its last one releases its children in order and is freed. The fuel
bounds the height of a tree. -/
def State.decRef (c : TreeCtx) (chk : Bool) : Nat → State → Nat → TDone
  | 0, s, j => ⟨s, [.dec j], some (c.err 0x0E0 j)⟩
  | k + 1, s, j =>
    match s.rawRec c j with
    | .error e => ⟨s, [.dec j], some e⟩
    | .ok (s1, r) =>
      if r.ref = 0 then ⟨s, [.dec j], some (c.err 0x0E7 j)⟩
      else
        match s1.rmw c chk j 5 [r.ref - 1] with
        | .error e => ⟨s, [.dec j], some e⟩
        | .ok s2 =>
          if r.ref ≠ 1 then ⟨s2, [], none⟩
          else
            ((if r.kind = kInner then r.kids else []).foldl (fun (d : TDone) i => d.andThen (.dec i) fun x =>
              match x.refRec c i (kidKinds r.level) (some (r.level - 1)) with
              | .error e => ⟨x, [.dec i], some e⟩
              | .ok (x1, _) => State.decRef c chk k x1 i) (TDone.mk s2 [] none)).andThen (.free j) fun x =>
                .atomic x (.free j) (x.pushFree c chk j)

/-- Word 5 of a descriptor (R261). -/
def heldOf (w : Nat) : Bool := w / 2 ^ 31 % 2 = 1
def waitOf (w : Nat) : Bool := w / 2 ^ 30 % 2 = 1
def readersOf (w : Nat) : Nat := w % 2 ^ 30
def word5 (held wait : Bool) (readers : Nat) : Nat :=
  (if held then 2 ^ 31 else 0) + (if wait then 2 ^ 30 else 0) + readers % 2 ^ 30

/-- Bytes of a record written unit by unit, the units before one that stops staying written. -/
def State.putUnits (c : TreeCtx) (chk : Bool) (j : Nat) : Nat → State → Nat → List Byte → TDone
  | 0, s, _, _ => ⟨s, [], none⟩
  | k + 1, s, off, bs =>
    let room := 128 - off % 128
    match s.unitWrite c chk false j (off / 128) (off % 128) (bs.take room) with
    | .error e => ⟨s, [.put j off bs], some e⟩
    | .ok s1 => if bs.length ≤ room then ⟨s1, [], none⟩ else State.putUnits c chk j k s1 (off + room) (bs.drop room)

/-- Word 5 of a descriptor, read and written at once. -/
def State.rmw5 (s : State) (c : TreeCtx) (chk : Bool) (j : Nat) (f : Nat → Nat) : Except TErr State :=
  match s.rawRec c j with
  | .error e => .error e
  | .ok (s1, r) => s1.rmw c chk j 5 [f (r.word 5)]

/-- One write of a tree operation, as far as it could be done. A put is released at the stream's scope by the firing's
completion; the others are releases of their own (R276, R283). -/
def State.treeWrite (s : State) (c : TreeCtx) (chk : Bool) (op : TreeOp) : TDone :=
  let r := s.release c.row .package
  match op with
  | .put j off bs => State.putUnits c chk j (bs.length / 128 + 2) s off bs
  | .alloc k => .atomic s op (r.popMany c chk k)
  | .inc j => .atomic s op (r.incRef c chk j)
  | .dec j => State.decRef c chk 40 r j
  | .free j => .atomic s op (r.pushFree c chk j)
  | .unhold j => .atomic s op (r.rmw5 c chk j fun w => word5 false (waitOf w) (readersOf w))
  | .leave j => .atomic s op (r.rmw5 c chk j fun w => word5 (heldOf w) (waitOf w) (readersOf w - 1))

/-- One write of a tree operation, done as a whole. -/
def State.treeOp (s : State) (c : TreeCtx) (chk : Bool) (op : TreeOp) : Except TErr State :=
  match s.treeWrite c chk op with
  | ⟨s1, _, none⟩ => .ok s1
  | ⟨_, _, some e⟩ => .error e

/-! ## The descriptor (R258, R261, R262) -/

/-- A tree: its parameters and the fields of its descriptor. -/
structure TreeD where
  j     : Nat
  d     : Nat
  leafn : Nat
  fan   : Nat
  kf    : Fmt
  vf    : Fmt
  level : Nat
  nt    : Nat
  low   : Nat
  root  : Nat
  tail  : Nat
  gen   : Nat
  w5    : Nat
  w6    : Nat

/-- Key and value row bytes (R262). -/
def TreeD.rb (t : TreeD) : Nat := 128 * ((t.d * t.vf.width + 1023) / 1024)
def TreeD.keyAt (t : TreeD) (k : Nat) : Nat := 128 + 8 * t.d + t.rb * k
def TreeD.valAt (t : TreeD) (k : Nat) : Nat := 128 + 8 * t.d + t.rb * (t.leafn + k)
def TreeD.leafSize (t : TreeD) : Nat := 128 + 8 * t.d + 2 * t.leafn * t.rb
def TreeD.innerSize (t : TreeD) : Nat := 128 + 8 * t.d

/-- The key and value formats of codes (R72). -/
def fmtOf (k : Nat) : Fmt :=
  match k with
  | 0 => .f32
  | 1 => .f16
  | 2 => .bf16
  | 3 => .e4m3
  | _ => .e5m2

def TreeD.ofRec (j : Nat) (r : Rec) : TreeD :=
  let w := r.word 6
  { j := j, d := 64 * 2 ^ (w / 2 ^ 30), leafn := w / 2 ^ 24 % 64 + 1, fan := w / 2 ^ 19 % 32, kf := fmtOf (w / 2 ^ 15 % 16),
    vf := fmtOf (w / 2 ^ 11 % 16), level := r.level, nt := r.word 1, low := r.word 2, root := r.word 3, tail := r.word 4,
    gen := r.gen, w5 := r.word 5, w6 := w }

/-- The limits of R258. -/
def descBad (w : Nat) : Bool :=
  w / 2 ^ 30 = 3 || w / 2 ^ 24 % 64 = 0 || w / 2 ^ 19 % 32 < 2 || 16 < w / 2 ^ 19 % 32 || 4 < w / 2 ^ 15 % 16 ||
    2 < w / 2 ^ 11 % 16 || (fmtOf (w / 2 ^ 11 % 16)).width < (fmtOf (w / 2 ^ 15 % 16)).width

/-- The descriptor of a tree, checked (R258, R260). -/
def State.descRec (s : State) (c : TreeCtx) (j : Nat) : Except TErr (State × TreeD) := do
  let (s1, r) ← s.refRec c j [kDesc] none
  if r.word 6 % 2 ^ 11 ≠ 0 then .error (c.err 0x0E0 j)
  else if descBad (r.word 6) then .error (c.err 0x0E3 j)
  else .ok (s1, TreeD.ofRec j r)

/-- The descriptor's words 0 to 4. -/
def TreeD.words (t : TreeD) : List Nat := [word0 kDesc t.level 0 t.gen, t.nt, t.low, t.root, t.tail]

/-! ## Arithmetic (R265-R268) -/

abbrev Vec := List Word

def vecBytes (v : Vec) : List Byte := v.flatMap fun w => natBytes' 4 w.toNat

/-- `n` elements of width `w` from bytes. -/
def rowElems (w n : Nat) (bs : List Byte) : List Nat := elems w n (bytesNat bs)

/-- A value widened exactly to FP32. -/
def widenTo32 (f : Fmt) (x : Nat) : Word := BitVec.ofNat 32 (convert ⟨false, .rne, .f32, f⟩ x)

/-- Groups of 32 elements: beats. -/
def beatsOf (k : Nat) (xs : Vec) : List Vec :=
  match k with
  | 0 => []
  | k + 1 => xs.take 32 :: beatsOf k (xs.drop 32)

/-- DOT(x, y) with one rounding mode, by the tree and beat order of R85 (R268). -/
def dot (r : Rnd) (xs ys : Vec) : Word :=
  let n := xs.length / 32
  let bs := List.zipWith (fun a b => beatDot .f32 r (a.map BitVec.toNat) (b.map BitVec.toNat)) (beatsOf n xs) (beatsOf n ys)
  match bs with
  | [] => 0
  | b :: t => t.foldl (fun a x => f32Add r a x) b

/-- |a − b| rounded up (R266). -/
def rupDiff (a b : Word) : Word := f32MinMax true (f32Sub .rup a b) (f32Sub .rup b a)

def absW (a : Word) : Word := a &&& 0x7FFFFFFF

/-- NORMUP of magnitudes (R265). -/
def normUp (xs : Vec) : Word := f32Sqrt .rup (dot .rup xs xs)

/-- NORMUP(a − b). -/
def normUpDiff (a b : Vec) : Word := normUp (List.zipWith rupDiff a b)

/-- 1/n with one rounding. -/
def recip (n : Nat) : Word :=
  if n = 0 then f32PosInf else let (m, e, st) := rcpOf (Dy.ofInt n); BitVec.ofNat 32 (roundTo fF32 .rne false false m e st)

/-- A count as FP32. -/
def countW (r : Rnd) (n : Nat) : Word := BitVec.ofNat 32 (convFp fF32 r false (.fin (Dy.ofInt n)))

def finiteW (w : Word) : Bool :=
  match fF32.decode w.toNat with
  | .fin _ => true
  | _ => false

def vzero (d : Nat) : Vec := List.replicate d 0

/-- The mean of rows, every step RNE (R265). -/
def meanOf (d n : Nat) (rows : List Vec) : Vec :=
  (rows.foldl (fun s r => List.zipWith (f32Add .rne) s r) (vzero d)).map fun x => f32Mul .rne x (recip n)

/-- The weighted mean of children (R266). -/
def mergeMean (d n : Nat) (rows : List (Nat × Vec)) : Vec :=
  (rows.foldl (fun s r => List.zipWith (fun x y => f32Fma .rne (countW .rne r.1) x y) r.2 s) (vzero d)).map
    fun x => f32Mul .rne x (recip n)

/-- A key's residual in KF and the key that scoring rebuilds (R265). -/
def residual (t : TreeD) (k c : Word) : Nat × Word :=
  let r := convert ⟨false, .rne, t.kf, .f32⟩ (f32Sub .rne k c).toNat
  (r, f32Add .rne c (widenTo32 t.kf r))

/-- A row of elements packed from byte 0, the bytes beyond them zero (R262). -/
def packRow (size w : Nat) (xs : List Nat) : List Byte := natBytes' size (packNat w xs)

/-! ## Operations: the check phase (R284) -/

/-- What the check phase of a mutation has found so far: the state as it would be, records taken, writes to do and
references to release after them. -/
structure TS where
  s    : State
  news : List Nat := []
  seen : List Nat := []             -- the records that it has read, those that it took apart
  ops  : List TreeOp := []
  decs : List TreeOp := []

/-- A computation of the check phase. -/
abbrev TreeM := StateT TS (Except TErr)

def tfail {α : Type} (e : TErr) : TreeM α := fun _ => .error e

/-- Run a read. -/
def tget1 {α : Type} (f : State → Except TErr (State × α)) : TreeM α := fun t =>
  match f t.s with
  | .error e => .error e
  | .ok (s1, a) => .ok (a, { t with s := s1 })

/-- A record is read. -/
def tsee (j : Nat) : TreeM Unit := fun t =>
  .ok ((), if t.news.contains j || t.seen.contains j then t else { t with seen := t.seen ++ [j] })

def tref (c : TreeCtx) (j : Nat) (kinds : List Nat) (level : Option Nat) : TreeM Rec := do
  tsee j
  tget1 fun s => s.refRec c j kinds level

def tbytes (c : TreeCtx) (j off n : Nat) : TreeM (List Byte) := do
  tsee j
  tget1 fun s => s.recRead c j off n

/-- A write, done in the state of the check phase and remembered. -/
def temit (c : TreeCtx) (op : TreeOp) : TreeM Unit := fun t =>
  match t.s.treeOp c false op with
  | .error e => .error e
  | .ok s1 => .ok ((), { t with s := s1, ops := t.ops ++ [op] })

def tput (c : TreeCtx) (j off : Nat) (bs : List Byte) : TreeM Unit := temit c (.put j off bs)
def tputw (c : TreeCtx) (j k : Nat) (ws : List Nat) : TreeM Unit := tput c j (4 * k) (w32Bytes ws)

/-- A record is taken from the pool; its index and GEN. -/
def talloc (c : TreeCtx) : TreeM (Nat × Nat) := fun t =>
  match t.s.popFree c false with
  | .error e => .error e
  | .ok (s1, j, g) => .ok ((j, g), { t with s := s1, news := j :: t.news })

/-- A release that takes place after the other writes. -/
def tdefer (op : TreeOp) : TreeM Unit := fun t => .ok ((), { t with decs := t.decs ++ [op] })

/-- The vectors of a record: centroid and value mean. -/
def tvec (c : TreeCtx) (t : TreeD) (j off : Nat) : TreeM Vec := do
  let bs ← tbytes c j off (4 * t.d)
  return (bytesW32 t.d bs).map (BitVec.ofNat 32)

def TreeD.centroid : Nat := 128
def TreeD.meanAt (t : TreeD) : Nat := 128 + 4 * t.d

/-- The descriptor's new fields. -/
def tdesc (c : TreeCtx) (t : TreeD) : TreeM Unit := tputw c t.j 0 t.words

/-- TAPP's check and writes (R264): row CNT of the tail leaf. -/
def tappend (c : TreeCtx) (t : TreeD) (key val : List Nat) : TreeM Nat := do
  let r ← tref c t.tail [kTail] (some 0)
  if t.leafn ≤ r.cnt || t.nt + 1 = 2 ^ 32 then tfail (c.err 0x0E4 t.tail)
  else if key.any fun x => !finiteW (widenTo32 t.vf x) then tfail (c.err 0x0E9 t.tail)
  else do
    tput c t.tail (t.keyAt r.cnt) (packRow t.rb t.vf.width key)
    tput c t.tail (t.valAt r.cnt) (packRow t.rb t.vf.width val)
    tputw c t.tail 0 [r.word 0 + 2 ^ 17, r.n + 1]
    tputw c t.tail 4 [t.nt]
    tdesc c { t with nt := t.nt + 1 }
    return t.nt

/-- Rows of a leaf, widened: `fmt` is their format, `at_` their offsets. -/
def trows (c : TreeCtx) (t : TreeD) (j n : Nat) (fmt : Fmt) (at_ : Nat → Nat) : TreeM (List Vec) :=
  (upFrom 0 n).mapM fun k => do
    let bs ← tbytes c j (at_ k) t.rb
    return (rowElems fmt.width t.d bs).map (widenTo32 fmt)

/-- A new, empty tail leaf (R265). -/
def tnewTail (c : TreeCtx) (t : TreeD) : TreeM Nat := do
  let (j, g) ← talloc c
  tputw c j 0 ([word0 kTail 0 0 g, 0, f32PosInf.toNat, t.nt, (t.nt + 2 ^ 32 - 1) % 2 ^ 32, 1] ++ List.replicate 26 0)
  tput c j 128 (List.replicate (8 * t.d) 0)
  return j

/-- Seal the tail leaf (R265); the tree with its new tail, and the sealed leaf, 0 where it holds no token (R287). -/
def tseal (c : TreeCtx) (t : TreeD) : TreeM (TreeD × Nat) := do
  let r ← tref c t.tail [kTail] (some 0)
  let n := r.cnt
  if n = 0 then return (t, 0)
  else do
    let keys ← trows c t t.tail n t.vf t.keyAt
    let vals ← trows c t t.tail n t.vf t.valAt
    let cen := meanOf t.d n keys
    let vb := meanOf t.d n vals
    let res := keys.map fun k => List.zipWith (residual t) k cen
    let rad := res.foldl (fun a x => f32MinMax true a (normUpDiff (x.map Prod.snd) cen)) 0
    let diff := keys.all fun k => (List.zipWith (f32Sub .rne) k cen).all finiteW
    if !(cen ++ vb ++ [rad]).all finiteW || !diff || !res.all (fun x => x.all fun y => finiteW y.2) then
      tfail (c.err 0x0E9 t.tail)
    else do
      (res.zip (upFrom 0 n)).forM fun x => tput c t.tail (t.keyAt x.2) (packRow t.rb t.kf.width (x.1.map Prod.fst))
      tput c t.tail 128 (vecBytes (cen ++ vb))
      tputw c t.tail 0 [word0 kSealed 0 n r.gen, r.n, rad.toNat]
      let j ← tnewTail c t
      let t1 := { t with tail := j }
      tdesc c t1
      return (t1, t.tail)

/-- Merge a node again from its children (R266). -/
def tmerge (c : TreeCtx) (t : TreeD) (j level : Nat) : TreeM Unit := do
  let r ← tref c j [kInner] (some level)
  let kids ← r.kids.mapM fun k => do
    let x ← tref c k (kidKinds level) (some (level - 1))
    let cv ← tvec c t k TreeD.centroid
    let vv ← tvec c t k t.meanAt
    return (x, cv, vv)
  let n := (kids.map fun x => x.1.n).sum
  if 2 ^ 32 ≤ n then tfail (c.err 0x0E4 j)
  else do
    let cp := mergeMean t.d n (kids.map fun x => (x.1.n, x.2.1))
    let vp := mergeMean t.d n (kids.map fun x => (x.1.n, x.2.2))
    let rad := kids.foldl (fun a x => f32MinMax true a (f32Add .rup x.1.rad (normUpDiff x.2.1 cp))) 0
    if !(cp ++ vp ++ [rad]).all finiteW then tfail (c.err 0x0E9 j)
    else do
      tputw c j 1 [n, rad.toNat, (kids.head?.map fun x => x.1.first).getD 0, (kids.getLast?.map fun x => x.1.last).getD 0]
      tput c j 128 (vecBytes (cp ++ vp))

/-- A new inner node over children, whose PARENT fields name it (R267). -/
def tnode (c : TreeCtx) (level : Nat) (kids : List Nat) : TreeM Nat := do
  let (j, g) ← talloc c
  tputw c j 0 ([word0 kInner level kids.length g, 0, 0, 0, 0, 1] ++ List.replicate 10 0 ++ kids ++ List.replicate (16 - kids.length) 0)
  kids.forM fun k => tputw c k 6 [j]
  return j

/-- The right edge from a node at a level down to level 1 (R263), top first. -/
def tedge (c : TreeCtx) : Nat → Nat → TreeM (List (Nat × Rec))
  | 0, _ => return []
  | l + 1, j => do
    let r ← tref c j [kInner] (some (l + 1))
    let rest ← tedge c l (r.kids.getLast?.getD 0)
    return (j, r) :: rest

/-- Attach a node to the right edge, from its lowest node upward; the tree with its new root (R267). `lv` is the level
of the node that should take it. -/
def tattach (c : TreeCtx) (t : TreeD) : List (Nat × Rec) → Nat → Nat → TreeM TreeD
  | [], lv, x =>
    if 31 < lv then tfail (c.err 0x0E5 t.root)
    else do
      let j ← tnode c lv [t.root, x]
      return { t with root := j, level := lv }
  | (a, r) :: up, lv, x =>
    if r.cnt < t.fan then do
      tputw c a (16 + r.cnt) [x]
      tputw c a 0 [r.word 0 + 2 ^ 17]
      tputw c x 6 [a]
      return t
    else do
      let j ← tnode c lv [x]
      tattach c t up (lv + 1) j

/-- Merge the right edge, lowest node first. -/
def tmergeEdge (c : TreeCtx) (t : TreeD) : TreeM Unit := do
  let e ← tedge c t.level t.root
  e.reverse.forM fun x => tmerge c t x.1 x.2.level

/-- Attach a sealed leaf and merge the right edge again (R267). -/
def traise (c : TreeCtx) (t : TreeD) (leaf : Nat) : TreeM TreeD := do
  if t.root = 0 then do
    let t1 := { t with root := leaf }
    tdesc c t1
    return t1
  else do
    let e ← tedge c t.level t.root
    let t1 ← tattach c t e.reverse 1 leaf
    tmergeEdge c t1
    tdesc c t1
    return t1

/-- TLIFT: the leaf is checked before it is attached (R287). -/
def tlift (c : TreeCtx) (t : TreeD) (leaf : Nat) : TreeM TreeD := do
  let r ← tref c leaf [kSealed] (some 0)
  if r.parent ≠ 0 then tfail (c.err 0x0E0 leaf)
  else do
    let want ← if t.root = 0 then pure t.low else do
      let x ← tref c t.root (if t.level = 0 then [kSealed] else [kInner]) (some t.level)
      pure ((x.last + 1) % 2 ^ 32)
    if r.first ≠ want then tfail (c.err 0x0EC leaf) else traise c t leaf

/-- Copy a record into a new one with REF 1 and a parent (R275); `kid` replaces its last child. -/
def tcopy (c : TreeCtx) (j size parent : Nat) (swap : List Nat → List Nat) : TreeM Nat := do
  let (k, _) ← talloc c
  let body ← tbytes c j 128 (size - 128)
  let r ← tget1 fun s => s.rawRec c j
  tputw c k 0 ([r.word 0, r.word 1, r.word 2, r.word 3, r.word 4, 1, parent, 0] ++ (r.w.drop 8).take 8 ++
    swap (r.w.drop 16))
  tput c k 128 body
  return k

/-- Copy the right edge from the root down, sharing the other children (R275). -/
def tforkEdge (c : TreeCtx) (t : TreeD) : Nat → Nat → Nat → TreeM Nat
  | 0, _, _ => return 0
  | l + 1, j, parent => do
    let r ← tref c j [kInner] (some (l + 1))
    let k ← tcopy c j t.innerSize parent id
    let share := fun (x : Nat) => do
      let _ ← tref c x (kidKinds (l + 1)) (some l)
      temit c (.inc x)
    if l = 0 then do
      r.kids.forM share
      return k
    else do
      r.kids.dropLast.forM share
      let low ← tforkEdge c t l (r.kids.getLast?.getD 0) k
      tputw c k (16 + (r.cnt - 1)) [low]
      return k

/-- Fork (R275, R293); the index of B's descriptor. -/
def tfork (c : TreeCtx) (t : TreeD) : TreeM Nat := do
  let (b, _) ← talloc c
  let _ ← tref c t.tail [kTail] (some 0)
  let tail ← tcopy c t.tail t.leafSize 0 id
  let root ←
    if t.root = 0 then pure 0
    else if t.level = 0 then do
      let _ ← tref c t.root [kSealed] (some 0)
      tcopy c t.root t.leafSize 0 id
    else tforkEdge c t t.level t.root 0
  tputw c b 0 ([word0 kDesc t.level 0 t.gen, t.nt, t.low, root, tail, 0, t.w6] ++ List.replicate 25 0)
  return b

/-- Evict (R277). -/
def tevict (c : TreeCtx) (t : TreeD) : TreeM Unit := do
  if t.root ≠ 0 then do
    let _ ← tref c t.root (if t.level = 0 then [kSealed] else [kInner]) (some t.level)
    tdefer (.dec t.root)
  let _ ← tref c t.tail [kTail] (some 0)
  tdefer (.dec t.tail)
  tdefer (.free t.j)

/-- Prune the subtree of a node on the left edge to position p (R278); its index, and whether it changed. `parent` is
the node or 0 that names it. The left edge ends at a first child whose FIRST is p or more, which is not copied (DESIGN CHOICE, log
entry 107). -/
def tprune (c : TreeCtx) (t : TreeD) (p : Nat) : Nat → Nat → Nat → TreeM (Nat × Bool)
  | 0, j, _ => return (j, false)
  | l + 1, j, parent => do
    let r ← tref c j [kInner] (some (l + 1))
    let kids ← r.kids.mapM fun k => do
      let x ← tref c k (kidKinds (l + 1)) (some l)
      return (k, x)
    let gone := kids.takeWhile fun x => x.2.last < p
    let rest := kids.drop gone.length
    let shared := r.ref > 1
    let j1 ← if shared then do
        let k ← tcopy c j t.innerSize parent id
        r.kids.forM fun x => temit c (.inc x)
        tdefer (.dec j)
        pure k
      else pure j
    gone.forM fun x => tdefer (.dec x.1)
    let (low, changed) ← match rest with
      | [] => pure (0, false)
      | x :: _ => if x.2.first < p then tprune c t p l x.1 j1 else pure (x.1, false)
    let keep := match rest with
      | [] => []
      | _ :: xs => low :: xs.map Prod.fst
    if !gone.isEmpty || changed then do
      tputw c j1 0 [word0 kInner (l + 1) keep.length (← tref c j1 [kInner] (some (l + 1))).gen]
      tputw c j1 16 (keep ++ List.replicate (16 - keep.length) 0)
      tmerge c t j1 (l + 1)
      return (j1, true)
    else return (j1, shared)

/-- TPRUNE (R278, R293). -/
def tpruneTo (c : TreeCtx) (t : TreeD) (p : Nat) : TreeM Unit := do
  if t.nt < p then tfail (c.err 0x0ED t.j)
  else if p ≤ t.low then return ()
  else do
    let root ← if t.root = 0 || t.level = 0 then pure t.root else do
      let (j, _) ← tprune c t p t.level t.root 0
      pure j
    tdesc c { t with root := root, low := p }

/-- The writes of a check phase in their order: records taken, records written and references counted, references
released, the tree let go. The check phase has tried every one. -/
def TS.writes (t : TS) (last : List TreeOp) : List TreeOp :=
  (if t.news.isEmpty then [] else [TreeOp.alloc t.news.length]) ++ t.ops ++ t.decs ++ last

/-- Run a check phase: its result and its writes. -/
def State.checkPhase {α : Type} (s : State) (c : TreeCtx) (m : TreeM α) (last : List TreeOp) : Except TErr (α × List TreeOp) :=
  match m { s := s } with
  | .error e => .error e
  | .ok (a, t) =>
    match (t.decs ++ last).foldlM (fun x op => x.treeOp c false op) t.s with
    | .error e => .error e
    | .ok _ => .ok (a, t.writes last)

/-- Writes done one by one: the state after those that could be done, those left, and the fault that stopped them; none is
done twice and none skipped (R284). -/
def State.writePhase (c : TreeCtx) : List TreeOp → State → State × List TreeOp × Option TErr
  | [], s => (s, [], none)
  | op :: t, s =>
    match s.treeWrite c true op with
    | ⟨s1, left, some e⟩ => (s1, left ++ t, some e)
    | ⟨s1, _, none⟩ => State.writePhase c t s1

/-! ## The second look at a header (R279) -/

/-- KIND and GEN of a record, or why they cannot be read. -/
def State.headOf (s : State) (c : TreeCtx) (j : Nat) : Except TErr Nat :=
  match s.rawRec c j with
  | .ok (_, r) => .ok (r.kind * 2 ^ 16 + r.gen)
  | .error e => .error e

/-- The headers of records. -/
def State.headsOf (s : State) (c : TreeCtx) : List Nat → Except TErr (List (Nat × Nat))
  | [] => .ok []
  | j :: t =>
    match s.headOf c j, State.headsOf s c t with
    | .error e, _ => .error e
    | _, .error e => .error e
    | .ok h, .ok hs => .ok ((j, h) :: hs)

/-- The headers of the records that a computation reads. -/
def State.firstHeads {α : Type} (s : State) (c : TreeCtx) (m : TreeM α) : Except TErr (List (Nat × Nat)) :=
  match m { s := s } with
  | .error e => .error e
  | .ok (_, t) => s.headsOf c t.seen

/-- The second read of some headers: the access's own error, or the fault of the first record whose KIND or GEN has changed
(R279, R280). -/
def State.changed (s : State) (c : TreeCtx) : List (Nat × Nat) → Option TErr
  | [] => none
  | (j, h) :: t =>
    match s.headOf c j with
    | .error e => some e
    | .ok k => if k ≠ h then some (c.err 0x0E1 j) else State.changed s c t

/-- An effect that reads records, in two steps: the first reads their headers, the second faults where KIND or GEN of one has
changed since (R279), and has the effect. -/
def State.reread {α : Type} (s : State) (c : TreeCtx) (n : NodeId) (f : Firing) (m : TreeM α) (bad : Firing → TErr → State)
    (go : Firing → State) : State :=
  match f.heads with
  | none =>
    match s.firstHeads c m with
    | .error e => bad f e
    | .ok hs => s.setFiring n { f with heads := some hs }
  | some hs =>
    match s.changed c hs with
    | some .wait => s
    | some e => bad { f with heads := none } e
    | none => go { f with heads := none }

end Sys2Proof.Machine
end

