-- ==== Sys2Proof/Machine/Descent.lean ====
section
/-!
DEFINITION. The descent node's instructions (R268-R274, R281-R296): scoring, the frontier, masks, the steps of a
firing, and TREE_GRANT (R279).
-/
namespace Sys2Proof.Machine

/-! ## The bound and the running sums (R269-R273) -/

/-- m becomes max(m, s) and the running sums are rescaled (R269). -/
def Desc.raise (x : Desc) (s : Word) : Desc :=
  let m1 := f32MinMax true x.m s
  let up := match f32Cmp m1 x.m with
    | some k => decide (0 < k)
    | none => false
  if x.m ≠ f32NegInf && up then
    let f := f32Exp2 .rne (f32Sub .rne x.m m1)
    let g := f32Exp2 .rup (f32Sub .rup x.m m1)
    { x with m := m1, z := f32Mul .rne x.z f, o := x.o.map fun v => f32Mul .rne v f, eret := f32Mul .rup x.eret g }
  else { x with m := m1 }

/-- The exact contribution of a token (R272). -/
def Desc.token (x : Desc) (k v : Vec) : Desc :=
  let s := dot .rne x.q k
  let y := x.raise s
  let u := f32Exp2 .rne (f32Sub .rne s y.m)
  { y with z := f32Add .rne y.z u, o := List.zipWith (fun vi oi => f32Fma .rne u vi oi) v y.o }

/-- A_j under a maximum (R270). -/
def Cand.a (c : Cand) (m : Word) : Word := f32Mul .rne (countW .rne c.n) (f32Exp2 .rne (f32Sub .rne c.s m))

/-- M_j under a maximum (R270). -/
def Cand.m (c : Cand) (m : Word) : Word :=
  let e := f32Exp2 .rup (f32Sub .rup (f32Add .rup c.sh c.rho) m)
  f32MinMax true 0 (f32Sub .rup (f32Mul .rup (countW .rup c.n) e) (c.a m))

/-- The frontier's order (R271) on candidates with their M. -/
def frontBefore (x y : Cand × Word) : Bool :=
  if x.1.frc ≠ y.1.frc then x.1.frc
  else if x.1.frc then x.1.first < y.1.first
  else
    let k := f32Rank x.2 y.2
    if k ≠ 0 then 0 < k else x.1.first < y.1.first

def Desc.sorted (x : Desc) : List Cand :=
  (sortBy frontBefore (x.front.map fun c => (c, if c.frc then 0 else c.m x.m))).map Prod.fst

/-- Add A_j · v̄_j to a sum, element by element and fused (R271, R273). -/
def addMean (a : Word) (vb o : Vec) : Vec := List.zipWith (fun v y => f32Fma .rne a v y) vb o

/-- Z with the candidates that are not forced (R272, R273). -/
def Desc.zAll (x : Desc) (fs : List Cand) : Word :=
  fs.foldl (fun z c => if c.frc then z else f32Add .rne z (c.a x.m)) x.z

/-! ## Masks (R274, R294) -/

/-- How the mask covers a range. -/
inductive Cover where
  | skip | full | part
  deriving DecidableEq, Repr

/-- An element of a mask stream of an element size. -/
def State.maskRead (s : State) (c : TreeCtx) (sm esz el : Nat) : Except TErr (State × List Byte) :=
  match tget (s.port c.pa).streams sm with
  | none => .error (c.accErr 0x084 0 0 sm)
  | some st =>
    if st.lit.esz.toNat ≠ esz then .error (c.accErr 0x086 0 0 sm)
    else
      match s.elAcc c sm st .load el 0 false with
      | .error e => .error e
      | .ok (s1, a, h) => s1.treeAcc c a h

/-- The code of a block (R274). -/
def State.blockCode (s : State) (c : TreeCtx) (m : MaskBind) (b : Nat) : Except TErr (State × Cover) :=
  if m.len ≤ b then .ok (s, .full)
  else
    match s.maskRead c m.c 0 (b / 4) with
    | .error e => .error e
    | .ok (s1, bs) =>
      match bytesNat bs / 4 ^ (b % 4) % 4 with
      | 0 => .ok (s1, .skip)
      | 1 => .ok (s1, .full)
      | 2 => .ok (s1, .part)
      | _ => .error (c.err 0x0E6 c.at_)

/-- What the blocks from b on say together with what is known. -/
def State.cover (s : State) (c : TreeCtx) (m : MaskBind) (acc : Option Cover) : Nat → Nat → Except TErr (State × Cover)
  | _, 0 => .ok (s, acc.getD .full)
  | b, k + 1 =>
    match s.blockCode c m b with
    | .error e => .error e
    | .ok (s1, x) =>
      let y := match acc with
        | none => x
        | some z => if z = x then x else .part
      State.cover s1 c m (some y) (b + 1) k

/-- How the mask covers a range of positions: full without a mask (R274). -/
def State.classify (s : State) (c : TreeCtx) (mask : Option MaskBind) (first last : Nat) : Except TErr (State × Cover) :=
  match mask with
  | none => .ok (s, .full)
  | some m => if last < first then .ok (s, .full) else s.cover c m none (first / 64) (min (last / 64) (max m.len (first / 64)) + 1 - first / 64)

/-- Whether a position is kept (R274). -/
def State.keeps (s : State) (c : TreeCtx) (mask : Option MaskBind) (p : Nat) : Except TErr (State × Bool) :=
  match mask with
  | none => .ok (s, true)
  | some m =>
    match s.blockCode c m (p / 64) with
    | .error e => .error e
    | .ok (s1, .skip) => .ok (s1, false)
    | .ok (s1, .full) => .ok (s1, true)
    | .ok (s1, .part) =>
      match s1.maskRead c m.e 3 (p / 64) with
      | .error e => .error e
      | .ok (s2, bs) => .ok (s2, bytesNat bs / 2 ^ (p % 64) % 2 = 1)

/-! ## Scoring, opening, selecting (R270-R273, R289, R290) -/

/-- A candidate with its scores (R270). -/
def scored (x : Desc) (r : Rec) (j : Nat) (cv : Vec) (frc : Bool) : Cand :=
  { ix := j, first := r.first, n := r.n, s := dot .rne x.q cv, sh := dot .rup x.q cv, rho := f32Mul .rup x.qn r.rad, frc := frc }

/-- Score a candidate's record, its score raising m, and put it into the frontier; one that the mask skips stays out, and one
that it covers in part is forced: its A and M are not used (R269, R270, R271, R274, log entry 40). -/
def dcand (c : TreeCtx) (t : TreeD) (x : Desc) (j : Nat) (level : Option Nat) : TreeM (Desc × Cover) := do
  let kinds := match level with
    | some 0 => [kSealed]
    | some _ => [kInner]
    | none => [kInner, kSealed]
  let r ← tref c j kinds level
  let cov ← tget1 fun s => s.classify { c with at_ := j } x.mask r.first r.last
  match cov with
  | .skip => return (x, .skip)
  | cov => do
    let cv ← tvec c t j TreeD.centroid
    let new := scored x r j cv (decide (cov = .part))
    let x1 := x.raise new.s
    let x2 := { x1 with front := x1.front ++ [new] }
    if x2.front.length ≤ 64 then return (x2, cov)
    else
      let fs := x2.sorted
      match fs.getLast? with
      | none => return (x2, cov)
      | some z =>
        if z.frc then tfail (c.err 0x0EA j)
        else do
          let vb ← tvec c t z.ix t.meanAt
          let a := z.a x2.m
          return ({ x2 with front := fs.dropLast, z := f32Add .rne x2.z a, o := addMean a vb x2.o,
                            eret := f32Add .rup x2.eret (z.m x2.m) }, cov)

/-- One token of a leaf, if the mask keeps it. -/
def dtoken (c : TreeCtx) (t : TreeD) (x : Desc) (j first k : Nat) (cen : Option Vec) : TreeM (Desc × Bool) := do
  let keep ← tget1 fun s => s.keeps { c with at_ := j } x.mask (first + k)
  if !keep then return (x, false)
  else do
    let kb ← tbytes c j (t.keyAt k) t.rb
    let vb ← tbytes c j (t.valAt k) t.rb
    let key := match cen with
      | none => (rowElems t.vf.width t.d kb).map (widenTo32 t.vf)
      | some cv => List.zipWith (fun ci r => f32Add .rne ci (widenTo32 t.kf r)) cv (rowElems t.kf.width t.d kb)
    return (x.token key ((rowElems t.vf.width t.d vb).map (widenTo32 t.vf)), true)

/-- Open a leaf (R272): the tail leaf's keys as stored, a sealed leaf's as rebuilt; the number of tokens scored. -/
def dopen (c : TreeCtx) (t : TreeD) (x : Desc) (j : Nat) (tail : Bool) : TreeM (Desc × Nat) := do
  let r ← tref c j (if tail then [kTail] else [kSealed]) (some 0)
  let cen ← if tail then pure none else do
    let v ← tvec c t j TreeD.centroid
    pure (some v)
  (upFrom 0 r.cnt).foldlM (fun (a : Desc × Nat) k => do
    let (y, hit) ← dtoken c t a.1 j r.first k cen
    return (y, if hit then a.2 + 1 else a.2)) (x, 0)

/-- One examination of the frontier's head (R272, R290): whether the head was descended. Leaves that the mask forces open count neither
against the budget nor in the number that TSEL.ALL delivers (DESIGN CHOICE, log entry 109). -/
def dselect (c : TreeCtx) (t : TreeD) (x : Desc) : TreeM (Desc × Bool) := do
  let fs := x.sorted
  match fs with
  | [] => return (x, false)
  | h :: rest =>
    let lim := f32Mul .rdn x.tau (x.zAll fs)
    let above := match f32Cmp (h.m x.m) lim with
      | some k => decide (0 < k)
      | none => false
    if h.frc || (above && decide (x.nopen < x.bud)) then do
      let x1 := { x with front := rest }
      let r ← tref c h.ix [kInner, kSealed] none
      if r.kind = kInner then do
        let y ← r.kids.foldlM (fun (d : Desc) k => do
          let (e, _) ← dcand c t d k (some (r.level - 1))
          return e) x1
        return (y, true)
      else do
        let (y, _) ← dopen c t x1 h.ix false
        return (if h.frc then y else { y with nopen := y.nopen + 1 }, true)
    else return ({ x with front := fs }, false)

/-- Whether a node lies within the positions of the tree (R289). -/
def TreeD.holds (t : TreeD) (r : Rec) : Bool := t.low ≤ r.first && r.last < t.nt

/-- TSCORE (R289); the word it delivers. -/
def dscore (c : TreeCtx) (t : TreeD) (x : Desc) (j : Nat) : TreeM (Desc × Word) := do
  let r ← tref c j [kInner, kSealed] none
  if !t.holds r then tfail (c.err 0x0ED j)
  else do
    let (y, cov) ← dcand c t x j none
    match cov with
    | .skip => return (y, 0)
    | .part => return (y, f32PosInf)
    | .full => do
      let cv ← tvec c t j TreeD.centroid
      return (y, (scored x r j cv false).m y.m)

/-- TOPEN (R289). -/
def dopenLeaf (c : TreeCtx) (t : TreeD) (x : Desc) (j : Nat) : TreeM (Desc × Nat) := do
  let r ← tref c j [kSealed] (some 0)
  if !t.holds r then tfail (c.err 0x0ED j)
  else do
    let cov ← tget1 fun s => s.classify { c with at_ := j } x.mask r.first r.last
    let (y, n) ← dopen c t { x with front := x.front.filter fun k => k.ix ≠ j } j false
    return (if cov = .part then y else { y with nopen := y.nopen + 1 }, n)

/-- The quadruple of R273: m, Z, ε, o. -/
def dend (c : TreeCtx) (t : TreeD) (x : Desc) : TreeM (Word × Word × Word × Vec) := do
  let fs := x.sorted.filter fun k => !k.frc
  let z := x.zAll fs
  let sum := fs.foldl (fun a k => f32Add .rup a (k.m x.m)) x.eret
  let o ← fs.foldlM (fun (o : Vec) k => do
    let vb ← tvec c t k.ix t.meanAt
    return addMean (k.a x.m) vb o) x.o
  let zero := fun (w : Word) => w &&& 0x7FFFFFFF = 0
  return (x.m, z, if zero sum then 0 else if zero z then f32PosInf else f32Div .rup sum z, o)

/-- A descent as TROOT starts it (R288): the tail leaf opened, the root scored. -/
def droot (c : TreeCtx) (t : TreeD) (q : Vec) (tau : Word) (bud : Nat) (mask : Option MaskBind) : TreeM Desc := do
  let x0 : Desc := { live := true, sm := c.sm, desc := t.j, q := q, qn := normUp (q.map absW), tau := tau, bud := bud,
                     o := vzero t.d, mask := mask }
  let (x1, _) ← dopen c t x0 t.tail true
  if t.root = 0 then return x1
  else do
    let (x2, _) ← dcand c t x1 t.root (some t.level)
    return x2

/-! ## Starts of firings -/

def State.setDesc (s : State) (r : RowId) (d : Desc) : State := s.setRow r { s.row r with desc := d }

/-- The place of a record in the address space of a pool stream. -/
def State.recPlace (s : State) (row : RowId) (sm j : Nat) : Option (Bool × Nat) :=
  match tget (s.port ⟨row, 34⟩).streams sm with
  | none => none
  | some st =>
    match st.elemAt j with
    | .ok a => some (st.isBank, a)
    | .error _ => none

/-- The record of a fault at the record of a pool stream that the first operand names (R422). -/
def Env.recInfo (e : Env) (sm : BitVec 2) : FInfo :=
  { e.info e.av with addr1 := ((e.s.recPlace e.l.nd.row sm.toNat e.av.toNat).map Prod.snd).getD 0 }

/-- Whether a mutation or fork names the tree that the node's own descent reads (R284). -/
def Env.ownTree (e : Env) (sm : BitVec 2) (j : Nat) : Bool :=
  let d := (e.s.row e.l.nd.row).desc
  d.live && (e.s.recPlace e.l.nd.row sm.toNat j).isSome &&
    e.s.recPlace e.l.nd.row sm.toNat j = e.s.recPlace e.l.nd.row d.sm d.desc

/-- One firing at a time, its word sources popped at its start (R281). -/
def descReq (o : Ops) (first : List Nat := []) : FireReq :=
  { ops := o, serial := true, first := first, hold := fun nd _ => !nd.fly.isEmpty }

/-- A guarded-off firing delivers a done word to its done slot (R282). -/
def descOff (r : FireReq) (d0 d1 : Bool) (e : Env) : Plan := nullDone r d0 d1 e

/-- The start of an operation on a tree; what it delivers has the tag of its first popped token (R282). -/
def treeStart (o : Ops) (e : Env) (sm : BitVec 2) (b : Word) : Res :=
  if e.ownTree sm e.av.toNat then .fault 0x0EB (e.recInfo sm)
  else .go { await := .steps, a := e.av, b := b, tag := some ((descReq o).doneTag e.nd) }

/-- The start of an operation of the descent in progress. -/
def descStart (o : Ops) (e : Env) (p : Plan) : Res :=
  if (e.s.row e.l.nd.row).desc.live then
    .go { p with await := .steps, a := e.av, tag := some ((descReq o).doneTag e.nd) }
  else .fault 0x0EB (e.info e.av)

def execTapp (o : Ops) (sm : BitVec 2) (s : State) : Out :=
  .next (fire s s.locus (.tapp o sm) (descReq { o with b := .zero } (popQs [o.b])) fun e => treeStart o e sm 0)

def execTseal (o : Ops) (sm : BitVec 2) (s : State) : Out :=
  .next (fire s s.locus (.tseal o sm) (descReq o) (fun e => treeStart o e sm 0) (descOff (descReq o) false true))

def execTsealLift (o : Ops) (sm : BitVec 2) (s : State) : Out :=
  .next (fire s s.locus (.tsealLift o sm) (descReq o) (fun e => treeStart o e sm 0) (descOff (descReq o) false true))

def execTlift (o : Ops) (sm : BitVec 2) (s : State) : Out :=
  .next (fire s s.locus (.tlift o sm) (descReq o) (fun e => treeStart o e sm e.bv) (descOff (descReq o) true true))

def execTroot (o : Ops) (sm : BitVec 2) (tau : BitVec 32) (bud : BitVec 12) (s : State) : Out :=
  .next (fire s s.locus (.troot o sm tau bud) (descReq { o with b := .zero } (popQs [o.b])) fun e =>
    if (e.s.row e.l.nd.row).desc.live then .fault 0x0EB (e.recInfo sm)
    else .go { await := .steps, a := e.av, tag := some ((descReq o).doneTag e.nd) })

def execTscore (o : Ops) (s : State) : Out :=
  .next (fire s s.locus (.tscore o) (descReq o) (fun e => descStart o e {}) (descOff (descReq o) false true))

def execTselOne (o : Ops) (s : State) : Out :=
  .next (fire s s.locus (.tselOne o) (descReq o) (fun e => descStart o e {}) (descOff (descReq o) false true))

def execTselAll (o : Ops) (s : State) : Out :=
  .next (fire s s.locus (.tselAll o) (descReq o) (fun e => descStart o e {}) (descOff (descReq o) false true))

def execTopen (o : Ops) (s : State) : Out :=
  .next (fire s s.locus (.topen o) (descReq o) (fun e => descStart o e {}) (descOff (descReq o) false true))

def execTacc (o : Ops) (s : State) : Out :=
  .next (fire s s.locus (.tacc o) (descReq { o with a := .zero, b := .zero } (popQs [o.a])) fun e => descStart o e {})

def execTend (o : Ops) (s : State) : Out :=
  .next (fire s s.locus (.tend o) (descReq o) fun e => descStart o e { n0 := 3, n1 := 0 })

def execTfork (o : Ops) (sm : BitVec 2) (s : State) : Out :=
  .next (fire s s.locus (.tfork o sm) (descReq o) (fun e => treeStart o e sm 0) (descOff (descReq o) false true))

def execTevict (o : Ops) (sm : BitVec 2) (s : State) : Out :=
  .next (fire s s.locus (.tevict o sm) (descReq o) (fun e => treeStart o e sm 0) (descOff (descReq o) true true))

def execTprune (o : Ops) (sm : BitVec 2) (s : State) : Out :=
  .next (fire s s.locus (.tprune o sm) (descReq o) (fun e => treeStart o e sm e.bv) (descOff (descReq o) true true))

/-- TMASK installs a mask, outside a descent (R294). -/
def maskRes (e : Env) (m : Option MaskBind) : Res :=
  let d := (e.s.row e.l.nd.row).desc
  if d.live then .fault 0x0EB e.info
  else .go { o0 := doneTok1 0, eff := fun s => s.setDesc e.l.nd.row { (s.row e.l.nd.row).desc with mask := m } }

def execTmask (o : Ops) (sm : BitVec 2) (el : BitVec 2) (len : BitVec 32) (s : State) : Out :=
  .next (fire s s.locus (.tmask o sm el len) (descReq o) (fun e => maskRes e (some ⟨sm.toNat, el.toNat, len.toNat⟩))
    (descOff (descReq o) true false))

def execTmaskNone (o : Ops) (s : State) : Out :=
  .next (fire s s.locus (.tmaskNone o) (descReq o) (fun e => maskRes e none) (descOff (descReq o) true false))

/-! ## Readers and mutations (R279) -/

/-- How an instruction takes its tree: its pool stream, and whether it is a mutation. -/
def Instr.takesTree (i : Instr) : Option (Nat × Bool) :=
  match i with
  | .tapp _ sm => some (sm.toNat, true)
  | .tseal _ sm => some (sm.toNat, true)
  | .tsealLift _ sm => some (sm.toNat, true)
  | .tlift _ sm => some (sm.toNat, true)
  | .tevict _ sm => some (sm.toNat, true)
  | .tprune _ sm => some (sm.toNat, true)
  | .troot _ sm _ _ => some (sm.toNat, false)
  | .tfork _ sm => some (sm.toNat, false)
  | _ => none

def Firing.ctx (f : Firing) (row : RowId) (sm : Nat) : TreeCtx := { row := row, f := f, sm := sm }

/-- A fault of a descent firing: its steps stay (R243), or the firing is undone (R9). -/
def State.treeFault (s : State) (n : NodeId) (f : Firing) (keep : Bool) (e : TErr) : State :=
  match e with
  | .wait => s
  | .bad c x => if keep then s.faultStep n f c x else s.faultFiring n f c x
  | .stop x va k => s.stopGen n f x va k
  | .record c sm j x =>
    let va := match s.recPlace n.row sm j with
      | some (_, a) => a
      | none => 0
    let y := { x with addr1 := va }
    if keep then s.faultStep n f c y else s.faultFiring n f c y

/-- Whether an instruction has popped beats in its steps, which a fault leaves popped. -/
def Firing.hasSteps (f : Firing) : Bool := !f.data.isEmpty

/-- The home of record `j` of a pool stream. -/
def State.poolHome (s : State) (o : BitVec 12) (r : RowId) (p : Port) (sm j : Nat) : Option Home :=
  match tget p.streams sm with
  | none => none
  | some st =>
    match st.elemAt j with
    | .error _ => none
    | .ok a =>
      if st.isBank then some (.sram r.die r.cl (a / 2 ^ 20) (a % 2 ^ 20))
      else
        match s.walk o a (StreamLit.psz st.lit) false with
        | .ok l => some (.hbm (l.pa + a % 2 ^ l.log))
        | .error _ => none

/-- The home of the descriptor that a firing of a row names. -/
def State.descHome (s : State) (o : BitVec 12) (row : RowId) (r : Row) (f : Firing) : Option Home :=
  (Instr.takesTree f.ins).bind fun x => s.poolHome o row (tgetD r.ports 34 {}) x.1 f.a.toNat

/-- The mutations of a row's descent node that wait for a descriptor, by arrival. -/
def State.mutationsIn (s : State) (h : Home) (o : BitVec 12) (row : RowId) (r : Row) : List Nat :=
  (tgetD r.nodes 37 {}).fly.filterMap fun f =>
    if f.await = .tree && (Instr.takesTree f.ins).any (fun x => x.2) && s.descHome o row r f = some h then some f.at_ else none

/-- The work that YIELDs have set aside: the die, owner and image of each (R338). -/
def State.setAside (s : State) : List (Nat × BitVec 12 × Image) :=
  s.dies.flatMap fun d =>
    ((d.2.pq ++ d.2.placing.map fun e => e.2.req).filterMap fun q => q.image.map fun i => (d.1, (q.words.getD 0 0).extractLsb' 52 12, i))

/-- The mutations that wait for a descriptor, by arrival: those of frozen rows too, and of work that a YIELD has set aside, whose
banks hold no pool then (R279, R296). -/
def State.mutationsAt (s : State) (h : Home) : List Nat :=
  (s.rows.flatMap fun r =>
    let row : RowId := ⟨r.1 / 336, r.1 / 28 % 12, r.1 % 28⟩
    s.mutationsIn h (s.ownerOf row) row r.2) ++
  (match h with
    | .sram _ _ _ _ => []
    | .hbm _ => s.setAside.flatMap fun y => y.2.2.rows.flatMap fun r => s.mutationsIn h y.2.1 ⟨y.1, y.2.2.cl, 0⟩ r)

/-- A firing's request reaches its descriptor: a mutation sets WAIT (R279). -/
def State.treeRequest (s : State) (n : NodeId) (f : Firing) (sm : Nat) (mtn : Bool) : State :=
  let c := f.ctx n.row sm
  let go := fun (x : State) => x.setFiring n { f with await := .tree, at_ := s.tick }
  if !mtn then go s
  else
    match s.rawRec c f.a.toNat with
    | .error e => s.treeFault n f f.hasSteps e
    | .ok (s1, r) =>
      if r.kind ≠ kDesc then s.treeFault n f f.hasSteps (c.err 0x0E0 f.a.toNat)
      else
        match s1.rmw c true f.a.toNat 5 [word5 (heldOf (r.word 5)) true (readersOf (r.word 5))] with
        | .error e => s.treeFault n f f.hasSteps e
        | .ok s2 => go s2

/-- TREE_GRANT (R279): a reader enters while HELD and WAIT are 0; the mutation whose request came first takes a tree
that nobody holds or reads. A descriptor that has been freed faults (R293). The request and the grant, which write word 5, are no
release; what leaves the tree is (DESIGN CHOICE, log entry 108). -/
def State.treeGrant (s : State) (n : NodeId) : State :=
  match (s.node n).fly.find? fun f => f.await = .tree && !f.xstopped with
  | none => s
  | some f =>
    match Instr.takesTree f.ins with
    | none => s
    | some (sm, mtn) =>
      if !s.rowRuns n.row then s
      else
        let c := f.ctx n.row sm
        let j := f.a.toNat
        let back := { f with await := Await.steps }
        match s.rawRec c j with
        | .error .wait => s
        | .error (.stop x va k) => s.stopGen n f x va k
        | .error e => (s.setFiring n back).treeFault n back f.hasSteps e
        | .ok (s1, r) =>
          if r.kind ≠ kDesc then (s.setFiring n back).treeFault n back f.hasSteps (c.err 0x0E0 j)
          else
            let w := r.word 5
            let take := fun (w : Nat) =>
              match s1.rmw c true j 5 [w] with
              | .error .wait => s
              | .error (.stop x va k) => s.stopGen n f x va k
              | .error e => (s.setFiring n back).treeFault n back f.hasSteps e
              | .ok s2 => s2.setFiring n { f with await := .steps, held := true }
            if mtn then
              let others := match s.descHome (s.ownerOf n.row) n.row (s.row n.row) f with
                | none => []
                | some h => (s.mutationsAt h).erase f.at_
              if heldOf w || readersOf w ≠ 0 || others.any (fun k => k < f.at_) then s
              else take (word5 true (!others.isEmpty) 0)
            else if heldOf w || waitOf w then s
            else take (word5 false false (readersOf w + 1))

/-! ## Steps of a firing (R281, R284, R290, R292) -/

/-- The beats that a firing pops in its steps: how many, and the queue of beat k. -/
def State.beatPlan (s : State) (n : NodeId) (f : Firing) : Except TErr (Nat × (Nat → Nat)) :=
  let q := fun (x : Sel) => selQ x
  match f.ins with
  | .tapp o sm =>
    match s.descRec (f.ctx n.row sm.toNat) f.a.toNat with
    | .error e => .error e
    | .ok (_, t) => .ok (2 * (t.rb / 128), fun k => if k < t.rb / 128 then q o.b else 5 - q o.b)
  | .troot o sm _ _ =>
    match s.descRec (f.ctx n.row sm.toNat) f.a.toNat with
    | .error e => .error e
    | .ok (_, t) => .ok (t.d / 32, fun _ => q o.b)
  | .tacc o =>
    let d := (s.row n.row).desc
    match s.descRec (f.ctx n.row d.sm) d.desc with
    | .error e => .error e
    | .ok (_, t) => .ok (2 * (t.rb / 128), fun k => if k < t.rb / 128 then q o.a else q o.b)
  | _ => .ok (0, fun _ => 2)

/-- The bytes of beats. -/
def beatBytes (bs : List Beat) : List Byte := bs.flatMap fun b => natBytes' 128 b.toNat

/-- The elements of key and value beats (R286). -/
def keyVal (t : TreeD) (bs : List Beat) : List Nat × List Nat :=
  let k := t.rb / 128
  (rowElems t.vf.width t.d (beatBytes (bs.take k)), rowElems t.vf.width t.d (beatBytes (bs.drop k)))

def TreeD.widened (t : TreeD) (xs : List Nat) : Vec := xs.map (widenTo32 t.vf)

/-- The query of TROOT's beats (R288). -/
def queryOf (t : TreeD) (bs : List Beat) : Vec := (rowElems 32 t.d (beatBytes bs)).map (BitVec.ofNat 32)

/-- A firing has its results: it completes once its time has come. -/
def State.treeDone (s : State) (n : NodeId) (f : Firing) (o0 o1 : List Word) : State :=
  s.setFiring n { f with await := .nothing, o0 := o0.map fun w => wordTok w f.otag, o1 := o1.map fun w => wordTok w f.otag,
                         tree := [] }

/-- The write phase of a mutation or fork from a list of writes on (R284): a fault keeps the tree held, and the firing
goes on from the write that faulted. A phase that has written nothing starts again with its check. -/
def State.runWrites (s : State) (c : TreeCtx) (n : NodeId) (f : Firing) (ops : List TreeOp) : State :=
  match State.writePhase c ops s with
  | (s1, _, none) =>
    let sc := ((tget (s.port c.pa).streams c.sm).map fun st => st.lit.scope.scope (s.row n.row).hdr.scope).getD .package
    let s2 := (s1.release n.row sc).awaitDeltas s.hub.deltas.length n f.id
    s2.setFiring n { f with await := s2.ackAwait n f.id, tree := [] }
  | (s1, left, some e) =>
    let f1 := { f with tree := if left = ops && f.tree.isEmpty then [] else left }
    (s1.setFiring n f1).treeFault n f1 true e

/-- What a mutation or fork computes: its deliveries. -/
def treeProg (c : TreeCtx) (t : TreeD) (f : Firing) : TreeM (List Word × List Word) :=
  let w := fun (k : Nat) => BitVec.ofNat 32 k
  match f.ins with
  | .tapp _ _ => do
    let kv := keyVal t f.data
    let p ← tappend c t kv.1 kv.2
    return ([w p], [1])
  | .tseal _ _ => do
    let (_, l) ← tseal c t
    return ([w l], [1])
  | .tsealLift _ _ => do
    let (t1, l) ← tseal c t
    if l ≠ 0 then
      let _ ← traise c t1 l
    return ([w l], [1])
  | .tlift _ _ => do
    let _ ← tlift c t f.b.toNat
    return ([1], [1])
  | .tprune _ _ => do
    tpruneTo c t f.b.toNat
    return ([1], [1])
  | .tevict _ _ => do
    tevict c t
    return ([1], [1])
  | .tfork _ _ => do
    let b ← tfork c t
    return ([w b], [1])
  | _ => return ([], [])

/-- How it lets the tree go with its last write. -/
def treeLast (f : Firing) : List TreeOp :=
  let j := f.a.toNat
  match f.ins with
  | .tfork _ _ => [.leave j]
  | .tevict _ _ => []
  | _ => [.unhold j]

/-- The check phase of a mutation or fork: its deliveries and its writes. -/
def State.treeCheck (s : State) (c : TreeCtx) (f : Firing) : Except TErr ((List Word × List Word) × List TreeOp) := do
  let (s0, t) ← s.descRec c f.a.toNat
  s0.checkPhase c (treeProg c t f) (treeLast f)

/-- A computation on the tree that a descriptor names. -/
def onTree {α : Type} (c : TreeCtx) (j : Nat) (m : TreeD → TreeM α) : TreeM α := do
  let t ← tget1 fun s => s.descRec c j
  m t

/-- A granted mutation or fork takes its step: what is left of its write phase, or check and writes. A fault of the
check leaves every record as it was, the tree let go (R284). -/
def State.treeStep (s : State) (c : TreeCtx) (n : NodeId) (f : Firing) (mtn : Bool) : State :=
  let stop := fun (f : Firing) (e : TErr) =>
    match e with
    | .wait => s
    | .stop x va k => s.stopGen n f x va k
    | e =>
      let s1 := match s.treeOp c true (if mtn then .unhold f.a.toNat else .leave f.a.toNat) with
        | .ok x => x
        | .error _ => s
      let f1 := { f with held := false }
      (s1.setFiring n f1).treeFault n f1 f.hasSteps e
  if !f.tree.isEmpty then s.runWrites c n f f.tree
  else
    s.reread c n f (onTree c f.a.toNat fun t => treeProg c t f) stop fun f =>
      match s.treeCheck c f with
      | .error e => stop f e
      | .ok (out, ops) =>
        let f1 := { f with o0 := out.1.map fun w => wordTok w f.otag, o1 := out.2.map fun w => wordTok w f.otag }
        s.runWrites c n f1 ops

/-- What a step of the descent computes: the new descent and the deliveries, or none where an examination goes on. -/
def descProg (c : TreeCtx) (f : Firing) (x : Desc) (t : TreeD) : TreeM (Desc × Option (List Word × List Word)) :=
  match f.ins with
  | .troot _ _ tau bud => do
    let y ← droot c t (queryOf t f.data) tau (bud.toNat + 1) x.mask
    return (y, some ([y.qn], [BitVec.ofNat 32 t.root]))
  | .tscore _ => do
    let (y, w) ← dscore c t x f.a.toNat
    return (y, some ([w], [1]))
  | .topen _ => do
    let (y, k) ← dopenLeaf c t x f.a.toNat
    return (y, some ([BitVec.ofNat 32 k], [1]))
  | .tselOne _ => do
    let (y, b) ← dselect c t x
    return (y, some ([boolWord b], [1]))
  | .tselAll _ => do
    let (y, b) ← dselect c t x
    return (y, if b then none else some ([BitVec.ofNat 32 y.nopen], [1]))
  | .tacc _ => do
    let kv := keyVal t f.data
    return (x.token (t.widened kv.1) (t.widened kv.2), some ([1], [1]))
  | _ => return (x, none)

/-- The descent's own steps. -/
def State.descEffect (s : State) (c : TreeCtx) (n : NodeId) (f : Firing) (x : Desc) : State :=
  let m := onTree c (match f.ins with | .troot _ _ _ _ => f.a.toNat | _ => x.desc) (descProg c f x)
  let bad := fun (f : Firing) (e : TErr) => s.treeFault n f (f.hasSteps || f.held || f.step ≠ 0) e
  s.reread c n f m bad fun f =>
    match m { s := s } with
    | .error e => bad f e
    | .ok ((y, out), ts) =>
      let s2 := ts.s.setDesc n.row y
      match out with
      | some (a, b) => s2.treeDone n f a b
      | none => s2.setFiring n { f with step := f.step + 1 }

/-- The beats of o. -/
def outBeats (o : Vec) : List Beat := (beatsOf (o.length / 32) o).map fun xs => packBeat 32 (xs.map BitVec.toNat)

/-- A step of TEND (R292): the three words, then a beat for each step; with the last the node leaves the readers. -/
def State.endStep (s : State) (c : TreeCtx) (n : NodeId) (f : Firing) (x : Desc) : State :=
  if f.step = 0 then
    let p := onTree c x.desc fun t => dend c t x
    let bad := fun (f : Firing) (e : TErr) => s.treeFault n f false e
    s.reread c n f p bad fun f =>
      match p { s := s } with
      | .error e => bad f e
      | .ok ((m, z, ep, o), ts) =>
        let s2 := (ts.s.unreserve f.t0.dst f.n0).pushAll f.t0 [wordTok m f.otag, wordTok z f.otag, wordTok ep f.otag]
        s2.setFiring n { f with step := 1, n0 := 0, data := outBeats o }
  else if f.step ≤ f.data.length then
    if s.destFree f.t1.dst = 0 then s
    else (s.push f.t1 (beatTok (f.data.getD (f.step - 1) 0))).setFiring n { f with step := f.step + 1 }
  else
    match s.treeOp c true (.leave x.desc) with
    | .error e => s.treeFault n f true e
    | .ok s1 => (s1.setDesc n.row { mask := x.mask }).setFiring n { f with await := .nothing }

/-- A beat of a firing in steps. -/
def State.popBeat (s : State) (n : NodeId) (f : Firing) (q : Nat) : State :=
  let nd := s.node n
  match nd.stepBeat f.id q with
  | .wait => s
  | .bad c => s.faultStep n f c (f.treeInfo (BitVec.ofNat 32 (if c = 0x046 then f.step else n.node * 4 + q)))
  | .ok v => (s.setNode n (nd.dropHeads [q])).setFiring n { f with step := f.step + 1, data := f.data ++ [v] }

/-- FIRING_STEP of a descent firing: its next beat, its request for the tree, or its effect. The record accesses need
an in-flight entry of port pa (R283). -/
def State.descStep (s : State) (n : NodeId) (f : Firing) : State :=
  let x := (s.row n.row).desc
  if f.await ≠ .steps || f.xstopped || !s.rowRuns n.row || 16 ≤ (s.node ⟨n.row, 34⟩).entries then s
  else
    match s.beatPlan n f with
    | .error e => s.treeFault n f f.hasSteps e
    | .ok (k, q) =>
      let beats := match f.ins with
        | .tend _ => false
        | _ => decide (f.data.length < k)
      if beats then s.popBeat n f (q f.data.length)
      else
        match Instr.takesTree f.ins, f.ins with
        | some (sm, mtn), i =>
          let c := f.ctx n.row sm
          let isRoot := match i with
            | .troot _ _ _ _ => true
            | _ => false
          if !f.held then
            let bad := isRoot && (rowElems 32 (32 * f.data.length) (beatBytes f.data)).any fun e => !finiteW (BitVec.ofNat 32 e)
            if bad then s.treeFault n f true (c.err 0x0E9 f.a.toNat) else s.treeRequest n f sm mtn
          else if isRoot then s.descEffect c n f x
          else s.treeStep c n f mtn
        | none, .tend _ => s.endStep (f.ctx n.row x.sm) n f x
        | none, _ => s.descEffect (f.ctx n.row x.sm) n f x

end Sys2Proof.Machine
end

