-- ==== Sys2Proof/Machine/Complete.lean ====
section
/-!
DEFINITION. The completion of a firing (R166, R236, R237) and a step of a firing that runs in steps (R148, R243,
R254, R281), whatever its node.
-/
namespace Sys2Proof.Machine

/-- Whether a row's region runs, a freeze that has begun included (R327), or is idle. -/
def State.regionRuns (s : State) (r : RowId) : Bool :=
  match s.regionOf r with
  | none => false
  | some (_, g) => g.st = .running || g.st = .idle

/-- A load, store, gather or engine read does not complete once the freeze token has reached its row; every other
firing that has started may (R334). -/
def State.completes (s : State) (n : NodeId) (f : Firing) : Bool :=
  let cancels := f.acc.any fun a => match a.op with
    | .atom _ _ _ => false
    | _ => true
  if cancels then s.rowRuns n.row else s.regionRuns n.row

/-- Whether the free slots that a firing's deliveries need beyond those it reserved are there (R359, R292). -/
def State.lateRoom (s : State) (f : Firing) : Bool :=
  s.room f.t0 f.t1 (need f.t0 0 f.o0 - f.n0) (need f.t1 0 f.o1 - f.n1) (some (s.cyc f.t0.dst.die))

/-- The effect of a firing at its completion; none where it is guarded off or has had it. -/
def State.effectOf (s : State) (n : NodeId) (f : Firing) : Fin := if f.off || f.acted then Fin.ok s f else s.portDone n f

/-- A firing whose effect sent parity deltas waits for them with the effect done (R395); any other completes. -/
def State.completeWith (s : State) (k : Nat) (n : NodeId) (f : Firing) : State :=
  if s.hub.deltas.length ≤ k then s.complete n f
  else (s.awaitDeltas k n f.id).setFiring n { f with await := .hub 2, acted := true }

/-- A firing that has its results completes, with the effect that its entry gives its completion. -/
def State.finish (s : State) (n : NodeId) (f : Firing) : State :=
  let fin := s.effectOf n f
  match fin with
  | .wait => s
  | .fault c x => s.faultFiring n f c x
  | .faultIn s1 c x => s1.faultFiring n f c x
  | .stop x va => s.stopGen n f x va
  | .ok s1 f1 => if s1.lateRoom f1 then s1.completeWith s.hub.deltas.length n f1 else s

/-- FIRING_COMPLETION (R166). -/
def State.firingCompletion (s : State) (n : NodeId) (id : Nat) : State :=
  match (s.node n).firing id with
  | none => s
  | some f => if f.await = .nothing && !f.xstopped && s.mayComplete n f && s.completes n f then s.finish n f else s

/-- FIRING_STEP: the next step of a firing of the matrix node, a port node or the descent node. -/
def State.firingStep (s : State) (n : NodeId) (id : Nat) : State :=
  match (s.node n).firing id with
  | none => s
  | some f =>
    if f.await ≠ .steps then s
    else if n.node = 33 then s.mxStep n f
    else if n.node = 37 then s.descStep n f
    else s.portStep1 n f

end Sys2Proof.Machine
end

