-- ==== Sys2Proof/Machine/Loader.lean ====
section
/-!
DEFINITION. The loader (R52-R55, R66-R69): reading a block from memory, and the checks on it in their order.
-/
namespace Sys2Proof.Machine

/-- Why a block is not installed: the failing check's cause with its instruction, or a read that faulted with its
address (R66, R69). -/
structure LErr where
  cause : Cause
  slot  : Nat := 255
  addr  : Nat := 0
  fetch : Bool := false
  deriving DecidableEq, Repr

/-- A read that meets a block still to be rebuilt waits (R396); a refusal's cause 0x000 is VOID's. -/
def LErr.waits (e : LErr) : Bool := e.fetch && e.cause = 0

/-- What the loader knows of the block's place: owner, descriptor, band size, stage, and its row in the cluster. After a
re-forming the ENDBAND flag is ignored (R382). -/
structure LoadCtx where
  owner  : BitVec 12
  desc   : PlDesc
  b      : Nat
  stage  : Nat
  row    : Nat
  reform : Bool := false

/-- The words of a block as they lie in memory (R52): header words, instructions with their literals, table bytes. -/
structure RawBlock where
  h0  : DWord
  h1  : DWord
  ins : List (DWord × Option DWord)
  tab : List Byte

/-! ## Reading (R52, R69) -/

/-- One word of a block. -/
def State.blockWord (s : State) (o : BitVec 12) (va : Nat) : Except LErr DWord :=
  match s.readVa1 o va with
  | .error x => .error { cause := x.cause, addr := va, fetch := true }
  | .ok w => .ok w

/-- `n` instruction words with their literals, and the address after them. -/
def State.readInsns (s : State) (o : BitVec 12) : Nat → Nat → Except LErr (List (DWord × Option DWord) × Nat)
  | 0, va => .ok ([], va)
  | n + 1, va => do
    let w ← s.blockWord o va
    let l ← if w.getLsbD 51 then (do let x ← s.blockWord o (va + 8); pure (some x)) else pure none
    let r ← State.readInsns s o n (if l.isSome then va + 16 else va + 8)
    return ((w, l) :: r.1, r.2)

/-- `n` words. -/
def State.readWords (s : State) (o : BitVec 12) : Nat → Nat → Except LErr (List DWord)
  | 0, _ => .ok []
  | n + 1, va => do
    let w ← s.blockWord o va
    let r ← State.readWords s o n (va + 8)
    return w :: r

/-- The instruction count that the header gives. -/
def insnCount (h0 : DWord) : Nat := (h0.extractLsb' 33 7).toNat + 1

/-- The body of a block whose header has been read. -/
def State.readBody (s : State) (o : BitVec 12) (va : Nat) (h0 h1 : DWord) : Except LErr RawBlock := do
  let n := insnCount h0
  let r ← s.readInsns o n (va + 16)
  let t ← s.readWords o ((n + 7) / 8) r.2
  return { h0 := h0, h1 := h1, ins := r.1, tab := wordsBytes t }

/-- The header's fields (R54). -/
def hdrOf (h0 h1 : DWord) : Hdr :=
  { banks := (h0.extractLsb' 20 6).toNat, detect := h0.extractLsb' 18 2 = 1,
    scope := match (h0.extractLsb' 16 2).toNat with | 0 => .row | 1 => .cluster | 2 => .die | _ => .package,
    stage := (h0.extractLsb' 0 16).toNat, shadow := h1.getLsbD 31, state := h1.getLsbD 30, paired := h1.getLsbD 29,
    endband := h1.getLsbD 28, homesz := (h1.extractLsb' 0 24).toNat }

/-- Node and slot of each instruction, by the placement table (R53). -/
def placesOf (n : Nat) (tab : List Byte) : List (Nat × Nat) := (tab.take n).map fun b => (b.toNat / 4, b.toNat % 4)

def RawBlock.code (r : RawBlock) : List (Nat × Nat × DWord × Option DWord) :=
  (placesOf r.ins.length r.tab).zip r.ins |>.map fun x => (x.1.1, x.1.2, x.2)

/-- A block read without any check, where every word of it can be read: what placement knows of blocks it does not
fetch, and what a check needs of other stages' blocks (R55, R316, R368, R379). -/
def State.peekBlock (s : State) (o : BitVec 12) (va : Nat) : Option Block :=
  if va % 8 ≠ 0 then none
  else
    match (do
      let h0 ← s.blockWord o va
      let h1 ← s.blockWord o (va + 8)
      s.readBody o va h0 h1 : Except LErr RawBlock) with
    | .error _ => none
    | .ok r => some { hdr := hdrOf r.h0 r.h1, code := r.code, va := va }

/-- Whether some word of a block stands in a memory block still to be rebuilt (R396). -/
def State.blockWaits (s : State) (o : BitVec 12) (va : Nat) : Bool :=
  !s.hub.parity.isEmpty && (match (do
      let h0 ← s.blockWord o va
      let h1 ← s.blockWord o (va + 8)
      s.readBody o va h0 h1 : Except LErr RawBlock) with
    | .error e => e.waits
    | .ok _ => false)

/-- The header of a stage's block, where it can be read. -/
def State.peekHdr (s : State) (o : BitVec 12) (d : PlDesc) (stage : Nat) : Option Hdr :=
  (d.stages[stage]?).bind fun e =>
    if e.block % 8 ≠ 0 then none
    else
      match s.readVa o 2 e.block with
      | .ok [a, b] => some (hdrOf a b)
      | _ => none

/-- Whether a stage's block is flagged as one half of a pair; a block whose header cannot be read counts as not flagged (DESIGN
CHOICE, log entry 77). -/
def State.pairFlag (s : State) (o : BitVec 12) (d : PlDesc) (stage : Nat) : Bool :=
  match s.peekHdr o d stage with
  | none => false
  | some h => h.paired

/-- Flagged stages just below a stage, one after another. -/
def State.pairRun (s : State) (o : BitVec 12) (d : PlDesc) : Nat → Nat
  | 0 => 0
  | k + 1 => if s.pairFlag o d k then State.pairRun s o d k + 1 else 0

/-- Whether a flagged stage is the upper half of its pair: pairs are taken in ascending stage order (R55). -/
def State.pairUpper (s : State) (o : BitVec 12) (d : PlDesc) (stage : Nat) : Bool := s.pairRun o d stage % 2 = 1

/-! ## Header, CRC and placement table (R66 steps 2 to 4) -/

def hdrBad (stage : Nat) (h0 h1 : DWord) : Option Cause :=
  let h := hdrOf h0 h1
  if h0.extractLsb' 48 16 ≠ 0x4C4E then some 0x010
  else if h0.extractLsb' 40 8 ≠ 1 then some 0x011
  else if 2 ≤ (h0.extractLsb' 18 2).toNat then some 0x014
  else if (if h.detect then 9 else 8) < h.banks then some 0x015
  else if h.stage ≠ stage then some 0x01A
  else if h1.extractLsb' 24 4 ≠ 0 then some 0x016
  else if h.homesz % 64 ≠ 0 then some 0x017
  else none

/-- The words of a body as bytes. -/
def RawBlock.bytes (r : RawBlock) : List Byte :=
  wordsBytes (r.ins.flatMap fun x => x.1 :: x.2.toList) ++ r.tab

/-- Code of a header's scope (R54). -/
def Scope.code : Scope → Nat
  | .row => 0
  | .cluster => 1
  | .die => 2
  | _ => 3

/-- A block's words as they lie in memory (R52-R54). -/
def Block.raw (b : Block) : RawBlock :=
  let n := b.code.length
  let ins := b.code.map fun e => e.2.2
  let tab := b.code.map (fun e => BitVec.ofNat 8 (4 * e.1 + e.2.1)) ++ List.replicate ((8 - n % 8) % 8) 0
  let lits := (ins.filter fun x => x.2.isSome).length % 128
  let h := b.hdr
  let h0 : DWord := BitVec.ofNat 64 (0x4C4E * 2 ^ 48 + 1 * 2 ^ 40 + (n - 1) * 2 ^ 33 + lits * 2 ^ 26 + h.banks * 2 ^ 20 +
    (if h.detect then 2 ^ 18 else 0) + h.scope.code * 2 ^ 16 + h.stage)
  let r : RawBlock := { h0 := h0, h1 := 0, ins := ins, tab := tab }
  { r with h1 := BitVec.ofNat 64 ((crc32c r.bytes).toNat * 2 ^ 32 + (if h.shadow then 2 ^ 31 else 0) +
      (if h.state then 2 ^ 30 else 0) + (if h.paired then 2 ^ 29 else 0) + (if h.endband then 2 ^ 28 else 0) + h.homesz) }

/-- A block as in memory. -/
def Block.bytes (b : Block) : List Byte := wordsBytes [b.raw.h0, b.raw.h1] ++ b.raw.bytes

/-- Instruction words with their literals. -/
def insnsFrom : Nat → List DWord → List (DWord × Option DWord) × List DWord
  | 0, ws => ([], ws)
  | _, [] => ([], [])
  | n + 1, w :: ws =>
    let r := insnsFrom n (if w.getLsbD 51 then ws.drop 1 else ws)
    ((w, if w.getLsbD 51 then some (ws.headD 0) else none) :: r.1, r.2)

/-- A block's words from its bytes. -/
def rawFrom (bs : List Byte) : RawBlock :=
  let ws := bytesWords (bs.length / 8) bs
  let n := insnCount (ws.getD 0 0)
  let r := insnsFrom n (ws.drop 2)
  { h0 := ws.getD 0 0, h1 := ws.getD 1 0, ins := r.1, tab := wordsBytes (r.2.take ((n + 7) / 8)) }

/-- A node outside the row, two instructions in one slot, a gap, or padding that is not zero. -/
def tabBad (n : Nat) (tab : List Byte) : Bool :=
  let ps := (tab.take n).map BitVec.toNat
  ps.any (fun x => 37 < x / 4) || (dedup ps).length ≠ n || ps.any (fun x => x % 4 ≠ 0 && !ps.contains (x - 1)) ||
    (tab.drop n).any (fun b => b ≠ 0)

/-- Steps 2 to 4 after the header. -/
def RawBlock.bad (r : RawBlock) : Option Cause :=
  let lits := (r.ins.filter fun x => x.2.isSome).length
  if (r.h0.extractLsb' 26 7).toNat ≠ lits % 128 then some 0x013
  else if r.h1.extractLsb' 32 32 ≠ crc32c r.bytes then some 0x012
  else if tabBad r.ins.length r.tab then some 0x009
  else none

/-! ## Instructions in their place (R66 step 5) -/

/-- The occupied slots of a node. -/
def occOf (code : List (Nat × Nat × DWord × Option DWord)) (node : Nat) : BitVec 4 :=
  code.foldl (fun m x => if x.1 = node then m ||| BitVec.ofNat 4 (2 ^ x.2.1) else m) 0

/-- The slots of a node as its store will hold them. -/
def storeOf (code : List (Nat × Nat × DWord × Option DWord)) (node : Nat) : Tbl (DWord × Option DWord) :=
  code.foldl (fun t x => if x.1 = node then tset t x.2.1 x.2.2 else t) []

/-- The longest bypass of a stage, in rows beyond the next, that stays inside the band (R378); CHOICE has its own rule (R379). -/
def LoadCtx.reach (x : LoadCtx) : Option Nat :=
  if x.desc.choice then none else some (min (x.b - 2 - x.stage % x.b) (x.desc.d - 2 - x.stage))

/-- The opcode of an instruction. -/
def opcOf (i : Instr) : Nat := ((partsOf i).map fun p => p.opc.toNat).getD 0

/-- The instruction in the slot that NXT = 00 names after a slot of a node. -/
def afterSlot (st : Tbl (DWord × Option DWord)) (slot : Nat) : Option Instr := (tget st (nextSlot st slot)).bind slotInstr

/-- The queue that a LOOPIN of a node takes its back edge from, with its k. -/
def loopinOf (st : Tbl (DWord × Option DWord)) (q : Nat) : Option (BitVec 3) :=
  st.findSome? fun e =>
    match slotInstr e.2 with
    | some (.loopin o k) => if (o.b.queue?.map BitVec.toNat) = some q then some k else none
    | _ => none

/-- The block of a stage of the descriptor, unchecked. -/
def State.stageBlock (s : State) (x : LoadCtx) (stage : Nat) : Option Block :=
  (x.desc.stages[stage]?).bind fun e => s.peekBlock x.owner e.block

/-- The LOOPIN that a LOOPOUT's back edge reaches: in its own block, or by a feedback channel (R185, R380). -/
def State.backEdge (s : State) (x : LoadCtx) (code : List (Nat × Nat × DWord × Option DWord)) (d0 : Slot) :
    Option (BitVec 3) :=
  match d0 with
  | .queue n q _ => loopinOf (storeOf code n.toNat) q.toNat
  | .lane d _ l =>
    if d ≠ 0 then none
    else
      (x.desc.stages[x.stage]?).bind fun e => (fbOf l.toNat e.fb 0).bind fun f =>
        if x.stage < f.2 then none
        else
          (x.desc.stages[x.stage - f.2]?).bind fun t =>
            (imapQueue ((t.imap[15 + f.1]?).getD 0xFF)).bind fun nq =>
              (s.stageBlock x (x.stage - f.2)).bind fun b => loopinOf (storeOf b.code nq.1) nq.2
  | _ => none

/-- Beats of SPILL and FILL against the home (R254). -/
def homeBad (h : Hdr) (off : BitVec 17) (t : Tile) : Bool := !h.state || h.homesz < 128 * (off.toNat + t.count.toNat + 1)

/-- The distance from a stage back to the LOOPIN of one of its LOOPOUTs: 0 in its own block, else its channel's DELTA. -/
def loopBack (x : LoadCtx) (stage : Nat) (code : List (Nat × Nat × DWord × Option DWord)) : List Nat :=
  code.filterMap fun e =>
    match slotInstr e.2.2 with
    | some (.loopout o _) =>
      match o.d0 with
      | .lane _ _ l => (x.desc.stages[stage]?).bind fun st => (fbOf l.toNat st.fb 0).map Prod.snd
      | _ => some 0
    | _ => none

/-- Whether a LOOPOUT's loop link reaches a stage's block: some loop runs from it or a stage before it to it or a stage after
(R185, R245, log entry 76). -/
def State.loopReach (s : State) (x : LoadCtx) (code : List (Nat × Nat × DWord × Option DWord)) : Bool :=
  !(loopBack x x.stage code).isEmpty || (upFrom (x.stage + 1) (x.b - 1)).any fun st =>
    match s.stageBlock x st with
    | some b => (loopBack x st b.code).any fun d => st - d ≤ x.stage
    | none => false

/-- A speculative store (R245). -/
def specStore (i : Instr) : Bool :=
  match i with
  | .st _ _ sp => sp
  | .stt _ _ sp _ => sp
  | .scat _ _ sp => sp
  | _ => false

/-- What an instruction's own entry asks of the block around it; a REP whose target is malformed has no legal target (R116,
DEDUCED, log entry 78). -/
def State.entryBad (s : State) (x : LoadCtx) (h : Hdr) (code : List (Nat × Nat × DWord × Option DWord)) (node slot : Nat)
    (i : Instr) : Option Cause :=
  match i with
  | .rep _ _ =>
    match afterSlot (storeOf code node) slot with
    | some t => if 0x01 ≤ opcOf t && opcOf t ≤ 0x24 then none else some 0x003
    | none => some 0x003
  | .loopout o k =>
    match s.backEdge x code o.d0 with
    | some k2 => if k2 = k then none else some 0x003
    | none => some 0x003
  | .spill _ _ off t => if homeBad h off t then some 0x003 else none
  | .fill _ _ off t => if homeBad h off t then some 0x003 else none
  | .mpair _ => if h.paired then none else some 0x003
  | i => if specStore i && !s.loopReach x code then some 0x003 else none

/-- The check of one instruction. -/
def State.insnBad (s : State) (x : LoadCtx) (h : Hdr) (code : List (Nat × Nat × DWord × Option DWord))
    (e : Nat × Nat × DWord × Option DWord) : Option Cause :=
  match decodeWord { own := some e.1, desc := x.row % 4 = 0, trail := h.trail, occ := some (occOf code e.1), reach := x.reach } e.2.2.1
    (e.2.2.2.getD 0) with
  | .error c => some c
  | .ok i => s.entryBad x h code e.1 e.2.1 i

/-- The first instruction that fails, with its index. -/
def State.insnsBad (s : State) (x : LoadCtx) (h : Hdr) (code : List (Nat × Nat × DWord × Option DWord)) :
    List (Nat × Nat × DWord × Option DWord) → Nat → Option (Cause × Nat)
  | [], _ => none
  | e :: t, k =>
    match s.insnBad x h code e with
    | some c => some (c, k)
    | none => State.insnsBad s x h code t (k + 1)

/-! ## Checks that span the block (R66 step 6) -/

/-- The flags of R55. -/
def State.flagsBad (s : State) (x : LoadCtx) (h : Hdr) : Option Cause :=
  if x.b ≤ x.stage && !h.shadow then some 0x01C
  else if h.state ≠ (h.homesz ≠ 0) then some 0x017
  else if !x.reform && h.endband ≠ (x.stage % x.b = x.b - 1 || x.stage + 1 = x.desc.d) then some 0x018
  else if h.paired && !h.trail && (x.stage % x.b = x.b - 1 || !s.pairFlag x.owner x.desc (x.stage + 1)) then some 0x019
  else none

/-- The instructions of a node of a block. -/
def instrsOf (code : List (Nat × Nat × DWord × Option DWord)) (node : Nat) : List Instr :=
  (code.filter fun e => e.1 = node).filterMap fun e => slotInstr e.2.2

def poppedOf (is : List Instr) : List Nat := dedup (is.flatMap fun i => popQs i.popSels ++ i.morePops)
def peekedOf (is : List Instr) : List Nat := dedup (is.flatMap fun i => peekQs i.popSels)
def arcsOf (is : List Instr) : List Slot := is.flatMap Instr.arcs

/-- Nodes from which a marker reaches the row's egress or its control cell, by paths of at most some arcs (R35). -/
def markPaths (code : List (Nat × Nat × DWord × Option DWord)) : Nat → List Nat
  | 0 => []
  | k + 1 =>
    let good := markPaths code k
    (upFrom 0 38).filter fun n =>
      let is := instrsOf code n
      !(poppedOf is).isEmpty && ((arcsOf is).isEmpty || (arcsOf is).any fun a =>
        match a with
        | .lane _ _ _ => true
        | .queue m q _ =>
          let ms := instrsOf code m.toNat
          good.contains m.toNat && ((poppedOf ms).contains q.toNat || (peekedOf ms).contains q.toNat)
        | _ => false)

/-- Whether a node receives records: by a slot of the block or by the ingress map. -/
def receives (code : List (Nat × Nat × DWord × Option DWord)) (imap : List Byte) (n : Nat) : Bool :=
  imap.any (fun b => (imapQueue b).map Prod.fst = some n) ||
    (upFrom 0 38).any fun m => (arcsOf (instrsOf code m)).any fun a =>
      match a with
      | .queue k _ _ => k.toNat = n
      | _ => false

/-- A node whose marker has no path; of the nodes that pop nothing one that receives records without peeking at any, or feeds a
consumer that waits for a marker (R35). -/
def markersBad (code : List (Nat × Nat × DWord × Option DWord)) (imap : List Byte) : Bool :=
  let good := markPaths code 38
  (upFrom 0 38).any fun n =>
    let is := instrsOf code n
    if (poppedOf is).isEmpty then
      (receives code imap n && (peekedOf is).isEmpty) || (arcsOf is).any fun a =>
        match a with
        | .lane _ _ _ => true
        | .queue m q _ => (poppedOf (instrsOf code m.toNat)).contains q.toNat
        | _ => false
    else receives code imap n && !good.contains n

/-- X registers that an instruction names, as sources or as register slots. -/
def xRegs (i : Instr) : List Nat :=
  ([i.ops.a, i.ops.b, i.third.getD .zero].filterMap selReg) ++
    [i.ops.d0, i.ops.d1].filterMap fun d => match d with | .reg _ k => some k.toNat | _ => none

/-- REP's count where its selector shows it (R116). -/
def visibleCount (o : Ops) : Option Nat :=
  match o.a with
  | .litLo => some ((o.lit.getD 0).extractLsb' 0 32).toNat
  | .litHi => some ((o.lit.getD 0).extractLsb' 32 32).toNat
  | .zero => some 0
  | .konst c => some (Konst.value c).toNat
  | _ => none

/-- A REP whose stride walks past X7 visibly (R116). -/
def repBad (code : List (Nat × Nat × DWord × Option DWord)) : Bool :=
  code.any fun e =>
    match slotInstr e.2.2 with
    | some (.rep o st) =>
      match afterSlot (storeOf code e.1) e.2.1 with
      | none => false
      | some t =>
        match visibleCount o with
        | some 0 => false
        | some (n + 1) => (xRegs t).any fun j => 7 < j + n * st.toNat
        | none => st ≠ 0 && (xRegs t).any fun j => 7 < j + st.toNat
    | _ => false

/-- An ingress map byte: its node stands in the row and its queue takes the lane's tokens (R369). -/
def imapBad (row l : Nat) (x : Byte) : Bool :=
  match imapQueue x with
  | none => false
  | some (n, q) => l = 19 || 37 < n || (n = 37 && row % 4 ≠ 0) || queueIsBeat n q ≠ laneIsBeat l

/-- The same of the channel or lane that the byte belongs to: feedback channels carry words or beats by their lane. -/
def LoadCtx.byteBad (x : LoadCtx) (l : Nat) (b : Byte) : Bool :=
  if 15 ≤ l && l < 19 then
    match imapQueue b with
    | none => false
    | some (n, _) => 37 < n || (n = 37 && x.row % 4 ≠ 0)
  else imapBad x.row l b

/-- The stage's map against the row (R369). -/
def LoadCtx.mapBad (x : LoadCtx) (e : StageEnt) : Bool :=
  (x.stage = 0 && (e.imap[0]?).getD 0xFF = 0xFF) || ((upFrom 0 20).zip e.imap).any fun p => x.byteBad p.1 p.2

/-- The bytes of the stage's map that name a queue: one that R369 refuses names none. -/
def LoadCtx.imapHere (x : LoadCtx) : List Byte :=
  (((upFrom 0 20).zip (((x.desc.stages[x.stage]?).map fun e => e.imap).getD [])).filter fun p => !x.byteBad p.1 p.2).map Prod.snd

/-- Step 6. -/
def State.spanBad (s : State) (x : LoadCtx) (h : Hdr) (code : List (Nat × Nat × DWord × Option DWord)) : Option Cause :=
  match s.flagsBad x h with
  | some c => some c
  | none =>
    if markersBad code x.imapHere then some 0x00C
    else if code.any fun e => match (slotInstr e.2.2).bind tileOf with | some t => h.banks ≤ t / 4 | none => false then some 0x015
    else if repBad code then some 0x00B
    else none

/-! ## The stage's entry of the descriptor (R369, R380, R381) -/

/-- Feedback channels out of the stage (R380). -/
def State.fbBad (s : State) (x : LoadCtx) (e : StageEnt) : Option Cause :=
  ((upFrom 0 4).zip e.fb).findSome? fun p =>
    let (used, dl, ln) := p.2
    if !used then none
    else if dl = 0 || x.b ≤ dl then some 0x12A
    else if x.stage < dl then some 0x129
    else
      let t := x.stage - dl
      match (x.desc.stages[t]?).bind fun te => imapQueue ((te.imap[15 + p.1]?).getD 0xFF) with
      | none => some 0x129
      | some (n, q) =>
        if queueIsBeat n q ≠ (16 ≤ ln) then some 0x127
        else
          match (s.stageBlock x t).bind fun b => loopinOf (storeOf b.code n) q with
          | none => some 0x129
          | some _ => none

/-- What the Reel asks of a block and its stage entry. -/
def State.reelBad (s : State) (x : LoadCtx) (code : List (Nat × Nat × DWord × Option DWord)) : Option Cause :=
  match x.desc.stages[x.stage]? with
  | none => some 0x01A
  | some e =>
    if x.mapBad e then some 0x127
    else if x.desc.choice && code.any fun c => match slotInstr c.2.2 with
        | some i => [i.ops.d0, i.ops.d1].any fun d => match d with | .lane k _ _ => k ≠ 0 | _ => false
        | none => false then some 0x128
    else s.fbBad x e

/-! ## A whole block -/

/-- The checks of R66 on a block whose words have been read. -/
def State.checkRaw (s : State) (x : LoadCtx) (va : Nat) (r : RawBlock) : Except LErr Block :=
  match r.bad with
  | some c => .error { cause := c }
  | none =>
    let h0 := hdrOf r.h0 r.h1
    let h := { h0 with trail := h0.paired && s.pairUpper x.owner x.desc x.stage }
    match s.insnsBad x h r.code r.code 0 with
    | some (c, k) => .error { cause := c, slot := k }
    | none =>
      match s.spanBad x h r.code with
      | some c => .error { cause := c }
      | none =>
        match s.reelBad x r.code with
        | some c => .error { cause := c }
        | none => .ok { hdr := h, code := r.code, va := va }

/-- The fetch of a block and its checks (R66, R69). -/
def State.loadBlock (s : State) (x : LoadCtx) (va : Nat) : Except LErr Block :=
  if va % 8 ≠ 0 then .error { cause := 0x01B }
  else do
    let h0 ← s.blockWord x.owner va
    let h1 ← s.blockWord x.owner (va + 8)
    match hdrBad x.stage h0 h1 with
    | some c => .error { cause := c }
    | none =>
      let r ← s.readBody x.owner va h0 h1
      s.checkRaw x va r

/-- The context of a load into a row of a band. -/
def loadCtx (owner : BitVec 12) (b : Band) (row stage : Nat) (reform : Bool) : LoadCtx :=
  { owner := owner, desc := b.desc, b := b.be, stage := stage, row := row, reform := reform }

/-- Body words of a block, for the time its shadow load takes (R373). -/
def Block.words (b : Block) : Nat :=
  b.code.length + (b.code.filter fun e => e.2.2.2.isSome).length + (b.code.length + 7) / 8

/-- Register banks that a block needs present in its row (R309). -/
def Hdr.fits (h : Hdr) (r : Row) : Bool :=
  (upFrom 0 h.banks).all (fun l => (r.ent l).pres) && (h.detect || (r.ent 8).pres)

/-- Register banks that a block needs, the check bank included (R316); a header that asks for more than a row has is
refused when the block is checked, and needs none here. -/
def Hdr.rbanks (h : Hdr) : Nat :=
  let n := if h.detect then h.banks else h.banks + 1
  if 9 < n then 1 else n

end Sys2Proof.Machine
end

