-- ==== Sys2Proof/Machine/Region.lean ====
section
/-!
DEFINITION. Capacity (R308-R311), the stage state homes (R254, R368, R374), fault records that no firing gives
(R340, R341), and what leaves with a region's work: its rows, banks, controllers and band (R326, R348, R374).
-/
namespace Sys2Proof.Machine

/-! ## Capacity -/

def Cluster.stat (c : Cluster) (p : Nat) : BankStatus := tgetD c.status p (if p < 24 then .service else .spare)
def Cluster.spare (c : Cluster) (i : Nat) : Bool × Nat := tgetD c.spares i (true, 24 + i)
def Row.stat (r : Row) (p : Nat) : BankStatus := tgetD r.rstat p .service

/-- Present logical banks. -/
def Cluster.count (c : Cluster) : Nat := ((upFrom 0 24).filter fun l => (c.ent l).pres).length
def Row.banksIn (r : Row) : Nat := ((upFrom 0 9).filter fun l => (r.ent l).pres).length

def Cluster.evac (c : Cluster) : Bool := (upFrom 0 24).any fun l => (c.ent l).evac
def Row.evac (r : Row) : Bool := (upFrom 0 9).any fun l => (r.ent l).evac

/-- Bit L for each logical bank that holds. -/
def maskOf (n : Nat) (f : Nat → Bool) : Nat := (upFrom 0 n).foldl (fun m l => if f l then m + 2 ^ l else m) 0

/-- CAPACITY (R310). -/
def Cluster.capacity (c : Cluster) : Word :=
  BitVec.ofNat 32 ((if c.evac then 2 ^ 31 else 0) + ((upFrom 0 2).filter fun i => (c.spare i).1).length * 2 ^ 29 +
    c.count * 2 ^ 24 + maskOf 24 fun l => (c.ent l).pres)

/-- ROWCAP (R310). -/
def Row.rowcap (r : Row) : Word :=
  BitVec.ofNat 32 ((if r.evac then 2 ^ 31 else 0) + (if (upFrom 0 9).any fun l => (r.ent l).pend then 2 ^ 30 else 0) +
    r.banksIn * 2 ^ 9 + maskOf 9 fun l => (r.ent l).pres)

/-- A pending retirement of a logical SRAM bank completes (R311, R313). -/
def Cluster.endPend (c : Cluster) (l : Nat) : Cluster :=
  let e := c.ent l
  if !e.pend then c
  else
    { c with map := tset c.map l { pres := false, phys := e.phys },
             status := tset c.status e.phys (if e.dark then .dark else .retired) }

/-- Every pending retirement of a row's register banks completes (R311). -/
def Row.endPends (r : Row) : Row :=
  (upFrom 0 9).foldl (fun r l =>
    let e := r.ent l
    if !e.pend then r
    else { r with regmap := tset r.regmap l { pres := false, phys := e.phys }, rstat := tset r.rstat e.phys .retired }) r

/-- The logical banks of a mask. -/
def banksOf (m : BitVec 24) : List Nat := (upFrom 0 24).filter fun l => m.getLsbD l

/-- Logical SRAM banks that regions other than one hold, or that placements in them have taken. -/
def State.heldBanks (s : State) (die cl k : Nat) : List Nat :=
  let d := s.die die
  (d.regions.flatMap fun e => if e.2.valid && e.2.cl = cl && e.1 ≠ k then banksOf e.2.sbanks else []) ++
    d.placing.flatMap fun e => if e.2.region ≠ k && (s.region die e.2.region).cl = cl then banksOf e.2.banks else []

/-- Banks that launches of a region have, or that placements in it have taken. -/
def State.usedBanks (s : State) (die k : Nat) : List Nat :=
  ((s.bandsOf die k).flatMap fun e => e.2.banks) ++
    (s.die die).placing.flatMap fun e => if e.2.region = k then banksOf e.2.banks else []

/-- The `n` lowest-numbered present banks that no other region holds (R404) and no other launch of the region has; none
where there are fewer. -/
def State.freeBanks (s : State) (die cl k n : Nat) : Option (List Nat) :=
  let h := s.heldBanks die cl k ++ s.usedBanks die k
  let free := (upFrom 0 24).filter fun l => ((s.cluster die cl).ent l).pres && !((s.cluster die cl).ent l).pend && !h.contains l
  if n ≤ free.length then some (free.take n) else none

/-! ## Zeroing (R89, R90, R199) -/

/-- A granted bank reads as zero, with valid check values. -/
def State.zeroBank (s : State) (die cl l : Nat) : State :=
  let e := (s.cluster die cl).ent l
  let clear := fun (s : State) (p : Nat) =>
    let a := sramBase die cl p
    { s with sram := Memory.clear s.sram a (a + 2 ^ 20), ssyn := clearSyn s.ssyn a (a + 2 ^ 20),
             ecc := clearEcc s.ecc eccSram a (2 ^ 20) }
  let s1 := clear s e.phys
  if e.evac then clear s1 e.tgt else s1

/-- Every tile slot of a row is zero. -/
def State.zeroTiles (s : State) (r : RowId) : State :=
  let a := regfBase r 0
  { s with regf := Memory.clear s.regf a (a + 9 * 2 ^ 15), ecc := clearEcc s.ecc eccReg a (9 * 2 ^ 15) }

/-- A row that passes to another context is zeroed before that context's first block (R90). -/
def State.passRow (s : State) (r : RowId) (o : BitVec 12) : State :=
  if (s.row r).owner = o then s
  else
    let s1 := s.zeroTiles r
    s1.setRow r { s1.row r with owner := o }

/-! ## Homes (R254, R368, R373, R374) -/

/-- Bytes of X registers in a stage's home. -/
def Hdr.regb (h : Hdr) : Nat := if h.state then min h.homesz 1024 else 0

/-- What stops an access of the row's memory network to a home: the mode of its bank, or the bytes (R204, R213). -/
def State.regErr (s : State) (a : Home) (n : Nat) : Option Cause := if !s.scratchHome a then some 0x082 else s.homeErr a n

/-- The X registers of a scalar node as a stage's home holds them; those beyond REGB are 0 (R373). -/
def State.homeRegs (s : State) (r : RowId) (stage node : Nat) (h : Hdr) : Tbl Word :=
  if 32 ≤ node then []
  else
    (upFrom 0 8).filterMap fun k =>
      let o := 32 * node + 4 * k
      if h.regb < o + 4 then none
      else (s.homeAt r stage o).map fun a => (k, bytesBits 32 (s.readHome a 4))

/-- The bank address of a home's block; an HBM home's own address (R422). -/
def Home.block : Home → Nat
  | .hbm pa => pa / 64 * 64
  | .sram _ _ b off => b * 2 ^ 20 + off / 64 * 64

/-- What stops the restore of a stage's X registers: the scalar node whose word meets an error, the cause, and the block's address
(R212, R215, R373). -/
def State.restoreErr (s : State) (r : RowId) (stage : Nat) (h : Hdr) : Option (NodeId × Cause × Nat) :=
  (upFrom 0 (h.regb / 8)).findSome? fun i =>
    (s.homeAt r stage (8 * i)).bind fun a => (s.regErr a 8).map fun c => (⟨r, i / 4⟩, c, a.block)

/-- The single-bit errors that the restore of a stage's X registers meets are corrected (R212). -/
def State.fixRegs (s : State) (r : RowId) (stage : Nat) (h : Hdr) : State :=
  (upFrom 0 (h.regb / 8)).foldl (fun s i =>
    match s.homeAt r stage (8 * i) with
    | some a => s.correct a 8
    | none => s) s

/-- A scalar node writes its X registers into its stage's home (R374); a block whose check value disagrees freezes the region
instead (R203, R215, log entry 92). -/
def State.spillX (s : State) (n : NodeId) (h : Hdr) : State :=
  let nd := s.node n
  if 32 ≤ n.node then s
  else
    (upFrom 0 8).foldl (fun s k =>
      let o := 32 * n.node + 4 * k
      if h.regb < o + 4 then s
      else
        match s.homeAt n.row nd.stage o with
        | none => s
        | some a =>
          match s.regErr a 4 with
          | some c => s.raise n 255 c { addr1 := a.block }
          | none => (s.correct a 4).writeHome a (natBytes' 4 (nd.x k).toNat)) s

/-- Every scalar node of a row that still hosts its stage spills (R374). -/
def State.spillRow (s : State) (r : RowId) : State :=
  match (s.row r).reel.block with
  | none => s
  | some b =>
    (upFrom 0 32).foldl (fun s j =>
      if (s.node ⟨r, j⟩).stage = (s.row r).reel.hosted then s.spillX ⟨r, j⟩ b.hdr else s) s

/-- The live rows of a band that its launch holds. -/
def State.bandRows (s : State) (die : Nat) (b : Band) : List RowId :=
  let g := s.region die b.region
  (b.live.filter fun i => b.spans (b.base + i)).map fun i => ⟨die, g.cl, b.base + i⟩

/-- Whether a live row of a band is leaving (R382). -/
def State.anyLeaving (s : State) (die : Nat) (b : Band) : Bool :=
  b.live.any fun i => (s.row ⟨die, (s.region die b.region).cl, b.base + i⟩).reel.leaving

def State.spillBand (s : State) (die : Nat) (b : Band) : State :=
  (s.bandRows die b).foldl (fun s r => if (s.row r).reel.hosts then s.spillRow r else s) s

/-- The homes of a list of stages go to HOME, word by word; the first write that faults ends it (R374). -/
def State.writeHomes (s : State) (owner : BitVec 12) (die cl home : Nat) (b : Band) : List (Nat × Nat) → Except (XFault × Nat) State
  | [] => .ok s
  | (st, sz) :: t =>
    if sz = 0 then State.writeHomes s owner die cl home b t
    else
      match b.desc.stages[st]? with
      | none => State.writeHomes s owner die cl home b t
      | some e =>
        let a := 64 * e.hoff
        let bs := (upFrom 0 (sz / 8)).map fun i =>
          match b.homes[(a + 8 * i) / 2 ^ 20]? with
          | none => (0 : DWord)
          | some k => bytesBits 64 (s.readHome (.sram die cl k ((a + 8 * i) % 2 ^ 20)) 8)
        let at_ := fun (i : Nat) => (b.homes[(a + 8 * i) / 2 ^ 20]?).map fun k => (k, (a + 8 * i) % 2 ^ 20)
        let bad := (upFrom 0 (sz / 8)).findSome? fun i => (at_ i).bind fun x =>
          (s.regErr (.sram die cl x.1 x.2) 8).map fun c => (c, x.1 * 2 ^ 20 + x.2 / 64 * 64)
        let fixed := (upFrom 0 (sz / 8)).foldl (fun s i =>
          match at_ i with
          | some x => s.correct (.sram die cl x.1 x.2) 8
          | none => s) s
        match bad, fixed.writeVa owner bs (home + a) with
        | some x, _ => .error (⟨x.1, 0, 0, some x.2⟩, x.2)
        | _, .error x => .error (x, x.va.getD (home + a))
        | none, .ok s1 => State.writeHomes s1 owner die cl home b t

/-- The homes of a band are written back (R374). -/
def State.writeBackHomes (s : State) (die k : Nat) (b : Band) : Except (XFault × Nat) State :=
  let g := s.region die k
  s.writeHomes g.owner die g.cl (b.launch.getD 3 0).toNat b ((upFrom 0 b.hsz.length).zip b.hsz)

/-- The homes of every band of a list are written back; the first write that faults ends it, with its band. -/
def State.writeBackBands (s : State) (die k : Nat) : List (Nat × Band) → Except (XFault × Nat × Band) State
  | [] => .ok s
  | e :: t =>
    match s.writeBackHomes die k e.2 with
    | .error (x, va) => .error (x, va, e.2)
    | .ok s1 => State.writeBackBands s1 die k t

/-! ## Records of the die (R340, R341) -/

/-- A record joins its owner's records: the hub delivers them in order (R341). -/
def State.putRecord (s : State) (fr : FaultRec) : State :=
  let h := s.hub
  let q := tgetD h.faults fr.owner.toNat {}
  s.setHub { h with faults := tset h.faults fr.owner.toNat { q with pend := q.pend ++ [fr] } }

/-- The record of the launch that a region's work runs: of its first band, and of the launch that found it idle where it has no
band (R42, R326). -/
def State.regionLaunch (s : State) (die k : Nat) : List DWord :=
  match s.bandsOf die k with
  | e :: _ => e.2.launch
  | [] => (s.region die k).launch

/-- A record of a region that no firing gives (R338, R364, R421). -/
def State.regionRec (s : State) (die k : Nat) (c : Cause) (aux : Word) : FaultRec :=
  let g := s.region die k
  { cause := c, die := die, cl := g.cl, row := g.first, owner := g.owner, region := k, gen := g.gen,
    cookie := (s.regionLaunch die k).getD 6 0, cyc := s.cyc die, aux := aux }

/-- The same for one of its launches, at an address (R42, R422). -/
def State.bandRec (s : State) (die : Nat) (b : Band) (x : XFault) (va : Nat) : FaultRec :=
  { s.regionRec die b.region x.cause (BitVec.ofNat 32 x.level) with
      addr1 := x.va.getD va, addr2 := x.entry, cookie := b.launch.getD 6 0 }

/-! ## What leaves with a region's work -/

/-- A row that hosts nothing keeps its counters, its register-bank map and its owner's mark. -/
def Row.emptied (r : Row) : Row :=
  { pmc := r.pmc, regmap := r.regmap, rstat := r.rstat, owner := r.owner }

/-- Firings of a row. -/
def Row.firings (r : Row) (id : RowId) : List (NodeId × Firing) :=
  r.nodes.flatMap fun e => e.2.fly.map fun f => (⟨id, e.1⟩, f)

/-- Whether a reply to an access is still to come. -/
def Access.awaited (a : Access) : Bool :=
  match a.phase with
  | .home _ => true
  | .walking => true
  | _ => false

/-- What a row's firings asked of the hub is withdrawn, and the replies they await are stale (R255). -/
def State.dropFirings (s : State) (r : RowId) : State :=
  ((s.row r).firings r).foldl (fun s x =>
    let s1 := s.disown x.1 x.2.id
    let late := (x.2.acc.filter Access.awaited).map fun a => (x.1, a.gen)
    s1.setDie r.die { s1.die r.die with stale := (s1.die r.die).stale ++ late }) s

/-- What the coalescing buffers of a row's ports hold goes to its home (R221, R244). -/
def State.flushRow (s : State) (r : RowId) : State := (s.flushIf ⟨r, 34⟩ fun _ => true).flushIf ⟨r, 35⟩ fun _ => true

/-- A row gives up all it holds. -/
def State.emptyRow (s : State) (r : RowId) : State :=
  let s1 := (s.flushRow r).dropFirings r
  s1.setRow r (s1.row r).emptied

/-- What is on its way to an unarmed controller goes with it, but for a root's final word, which goes to the slot that its
arming named (R349). -/
def Transit.dies (t : Transit) (gone : List Nat) : Bool :=
  match t with
  | .enable k _ _ _ => gone.contains k
  | .done k _ _ _ => gone.contains k
  | .final _ _ _ _ _ => false

/-- The controllers of `n` rows are unarmed, and what they have in transit goes (R348). -/
def State.unarm (s : State) (die cl first n : Nat) : State :=
  let c := s.cluster die cl
  let mine := fun (k : Nat) => 2 * first ≤ k && k < 2 * (first + n)
  s.setCluster die cl
    { c with ctls := c.ctls.filter (fun e => !mine e.1),
             transit := c.transit.filter fun t => match t with
               | .enable k _ _ _ => !mine k
               | .done k _ _ _ => !mine k
               | .final k _ _ _ _ => !mine k }

/-- The controllers armed by slots of some rows are unarmed: the blocks of those slots have left (R348). -/
def State.unarmRows (s : State) (die cl : Nat) (rows : List Nat) : State :=
  let c := s.cluster die cl
  let gone := (c.ctls.filter fun e => rows.contains e.2.arm.nd.row.row).map Prod.fst
  s.setCluster die cl
    { c with ctls := c.ctls.filter (fun e => !gone.contains e.1), transit := c.transit.filter fun t => !t.dies gone }

/-- A bank leaves its region: its mode and queues go, and a pending retirement of it completes (R199, R311). -/
def State.ungrant (s : State) (die cl l : Nat) : State :=
  let c := s.cluster die cl
  let c1 := { c with banks := tdel c.banks l, jobs := c.jobs.filter fun e => e.1 / 16 ≠ l }
  s.setCluster die cl (c1.endPend l)

def State.ungrantAll (s : State) (die : Nat) (g : Region) : State :=
  (banksOf g.sbanks).foldl (fun s l => s.ungrant die g.cl l) s

/-- Rows end a pending retirement when their launch leaves them (R311). -/
def State.rowsLeave (s : State) (rows : List RowId) : State :=
  rows.foldl (fun s r => s.setRow r (s.row r).endPends) s

/-- The region after its work has left: idle, with the next generation (R326). -/
def Region.idled (g : Region) : Region :=
  { g with st := .idle, yld := false, gen := g.gen + 1, sbanks := 0, launch := [], pkill := [], ovc := false,
           own := [], bars := [], frz := none, ovst := 0, fired := false }

/-- Fetches that serve rows go. -/
def Die.dropBuffers (d : Die) (rows : List RowId) : Die :=
  { d with fetches := d.fetches.filter fun e =>
      match e.2.what with
      | .place _ => true
      | .buffer r => !rows.contains r }

/-- The last launch leaves its region: banks, controllers, bands and fetches, and the region is idle (R326). The rows keep
what they hold until they are given anew (R89, R345). -/
def State.leaveRegion (s : State) (die k : Nat) : State :=
  let g := s.region die k
  let rows := g.rowIds die
  let s2 := ((s.rowsLeave rows).unarm die g.cl g.first g.nrows).ungrantAll die g
  let d := (s2.die die).dropBuffers rows
  let s3 := s2.setDie die { d with bands := d.bands.filter fun e => e.2.region ≠ k }
  s3.setRegion die k g.idled

/-- A launch leaves its rows while others of its region go on: what it held leaves with it, but the banks stay granted to
the region (log entry 69). -/
def State.leaveBand (s : State) (die j : Nat) (b : Band) : State :=
  let cl := (s.region die b.region).cl
  let rows : List RowId := ((upFrom b.base b.b).filter b.spans).map fun r => ⟨die, cl, r⟩
  let s1 := (s.rowsLeave rows).unarmRows die cl (rows.map RowId.row)
  let d := (s1.die die).dropBuffers rows
  s1.setDie die { d with bands := tdel d.bands j }

/-- Entries of completed bands are VALID no more: their region is released, or a later placement takes one of their rows (R367, log
entry 101). -/
def State.dropPast (s : State) (die : Nat) (gone : Band → Bool) : State :=
  let d := s.die die
  s.setDie die { d with past := d.past.filter fun e => !gone e.2 }

/-- The work of a region leaves with what its rows hold, and the region is idle (R326, R327). -/
def State.releaseRegion (s : State) (die k : Nat) : State :=
  ((((s.region die k).rowIds die).foldl State.emptyRow s).leaveRegion die k).dropPast die fun b => b.region = k

/-! ## Over-capacity events (R318) -/

/-- The region is told to reach its over-capacity point. -/
def State.overCap (s : State) (die k : Nat) : State :=
  let g := s.region die k
  s.setRegion die k { g with ovc := true }

end Sys2Proof.Machine
end

