-- ==== Sys2Proof/Machine/Reel.lean ====
section
/-!
DEFINITION. The Reel (R366-R382, R400): hosting and switching, shadow loads, triggers, the wrap, feedback channels,
stage choice, the re-forming of a band, and the end of a launch.
-/
namespace Sys2Proof.Machine

/-! ## Hosting -/

/-- The stage that a slot hosts after a stage (R370). -/
def nextStage (s be d : Nat) : Nat := if s + be < d then s + be else s % max 1 be

/-- The nodes a row has (R13, R14). -/
def rowNodes (r : RowId) : List Nat := if r.row % 4 = 0 then upFrom 0 38 else upFrom 0 37

/-- A node with a block's instructions just installed (R89, R165, R345). -/
def Node.installed (code : List (Nat × Nat × DWord × Option DWord)) (node stage : Nat) (xs : Tbl Word) : Node :=
  { store := storeOf code node, stage := stage, xs := xs }

/-- A row takes a block: every node its instructions, its X registers from the stage's home or 0 (R375). -/
def State.hostRow (s : State) (r : RowId) (stage : Nat) (b : Block) : State :=
  let rw := s.row r
  let ns := (rowNodes r).map fun j => (j, Node.installed b.code j stage (s.homeRegs r stage j b.hdr))
  s.setRow r { rw with nodes := ns, lanes := [], mat := {}, ports := [], cell := {}, desc := {},
                       reel := { hosts := true, hosted := stage, nxt := stage, block := some b } }

/-- A fetch of a stage's block for a row's buffers (R373). -/
def State.fetchBuffer (s : State) (r : RowId) (d : PlDesc) (stage : Nat) : State :=
  match d.stages[stage]? with
  | none => s
  | some e =>
    let x := s.die r.die
    s.setDie r.die { x with fetches := tset x.fetches x.nfetch { what := .buffer r, va := e.block, stage := stage },
                            nfetch := x.nfetch + 1 }

def State.setReel (s : State) (r : RowId) (f : Reel → Reel) : State :=
  let rw := s.row r
  s.setRow r { rw with reel := f rw.reel }

/-! ## Block buffers (R368) -/

/-- Where a block buffer of a row lies: the one that the next shadow load reads, or the other. A home bank that BMODE has taken out
of SCRATCH mode holds none (log entry 103). -/
def State.bufferHome (s : State) (r : RowId) (other : Bool) : Option Home :=
  match s.bandOf r with
  | none => none
  | some (_, b) =>
    match b.slotOf r.row, b.homes with
    | some i, l :: _ =>
      if (s.bankOf r.die r.cl l).mode = .scratch then
        some (.sram r.die r.cl l (4608 * i + if (s.row r).reel.half = other then 0 else 2304))
      else none
    | _, _ => none

/-- Bytes at a home, line by line, for an evacuation may divide them (R314). -/
def State.readLines (s : State) (h : Home) : Nat → Nat → List Byte
  | 0, _ => []
  | k + 1, n => s.readHome h (min 128 n) ++ State.readLines s (h.plus 128) k (n - 128)

def State.writeLines (s : State) (h : Home) : Nat → List Byte → State
  | 0, _ => s
  | k + 1, bs => if bs.isEmpty then s else State.writeLines (s.writeHome h (bs.take 128)) (h.plus 128) k (bs.drop 128)

/-- A fetched block enters a block buffer of a row. -/
def State.fillBuffer (s : State) (r : RowId) (other : Bool) (b : Block) : State :=
  let s1 := match s.bufferHome r other with
    | none => s
    | some h => s.writeLines h 18 b.bytes
  s1.setReel r fun x => if other then { x with buf2 := some b } else { x with buf := some b }

/-- The block that a shadow load takes from its buffer: the one fetched, with the words that have since been written there. -/
def State.inBuffer (s : State) (r : RowId) (b : Block) : Block :=
  match s.bufferHome r false with
  | none => b
  | some h =>
    let bs := s.readLines h 18 b.bytes.length
    if bs = b.bytes then b else { b with code := (rawFrom bs).code }

/-- What is wrong with the bytes of that buffer (R212, R213). -/
def State.bufferErr (s : State) (r : RowId) (b : Block) : Option Cause :=
  (s.bufferHome r false).bind fun h => (upFrom 0 18).findSome? fun i =>
    if 128 * i < b.bytes.length then s.homeErr (h.plus (128 * i)) (min 128 (b.bytes.length - 128 * i)) else none

/-- A freeze with the record of a load refusal or fetch fault of the Reel (R68, R69, R422). -/
def State.reelFault (s : State) (die k row : Nat) (va stage : Nat) (e : LErr) : State :=
  let fr := s.regionRec die k e.cause (BitVec.ofNat 32 stage)
  let cookie := (s.launchAt ⟨die, (s.region die k).cl, row⟩).getD 6 0
  s.startFreeze die k row (some { fr with row := row, cookie := cookie, slot := e.slot, addr1 := va, addr2 := e.addr }) .record

/-! ## Shadow loads (R373, R375) -/

/-- The shadow store and registers of a row from a block. -/
def State.loadShadow (s : State) (r : RowId) (b : Block) : State :=
  let rw := s.row r
  let ns := rw.nodes.map fun e =>
    (e.1, { e.2 with shadow := storeOf b.code e.1, sxs := s.homeRegs r rw.reel.nxt e.1 b.hdr })
  s.setRow r { rw with nodes := ns, reel := { rw.reel with shadow := some b, sh := .ready } }

/-- SHADOW_LOAD (R373): the block in the buffer is the row's next configuration; an error in the buffer or in its stage's home
freezes the region instead, and the load starts again after RESUME (log entry 92). -/
def State.shadowLoad (s : State) (r : RowId) : State :=
  let x := (s.row r).reel
  match x.buf with
  | none => s
  | some b =>
    if x.hosts && x.sh = .loading && b.hdr.stage = x.nxt && s.rowRuns r then
      match s.bufferErr r b, s.restoreErr r x.nxt b.hdr with
      | some c, _ => match s.regionOf r with
        | some (k, _) => if c = 0 then s else s.reelFault r.die k r.row b.va x.nxt { cause := c }
        | none => s
      | none, some (n, c, a) => s.raise n 255 c { addr1 := a }
      | none, none => (s.fixRegs r x.nxt b.hdr).loadShadow r (s.inBuffer r b)
    else s

/-! ## Switching (R372, R374, R400) -/

/-- A control column's controllers whose arming slot stands on a node are unarmed (R348). -/
def State.unarmSlot (s : State) (n : NodeId) : State :=
  if n.node ≠ 36 then s
  else
    let c := s.cluster n.row.die n.row.cl
    s.setCluster n.row.die n.row.cl { c with ctls := c.ctls.filter fun e => e.2.arm.nd ≠ n }

/-- The node's instruction store and registers become the shadow's; its queues stay. `w` is the wave that it leaves behind. -/
def Node.switched (n : Node) (stage : Nat) (w : Option (BitVec 16)) : Node :=
  let m := n.dropHeads n.deadMarks
  { qs := m.qs, ctl := m.ctl, nid := m.nid, store := m.shadow, xs := m.sxs, stage := stage, prev := w.map fun v => (m.stage, v) }

/-- The wave whose marker a node passes as it switches: the one it forwarded, or where it forwards none the one that another
node of its row did at the same stage (R171). -/
def Row.waveLeft (r : Row) (n : Node) : Option (BitVec 16) :=
  n.fwd.orElse fun _ => r.nodes.findSome? fun e =>
    if e.2.stage = n.stage then e.2.fwd else (e.2.prev.filter fun p => p.1 = n.stage).map Prod.snd

/-- The part of the row's state that belongs to the node's instructions resets with them (R89, R345). -/
def Row.nodeReset (r : Row) (n : Nat) : Row :=
  if n = 33 then { r with mat := {} }
  else if n = 34 || n = 35 then { r with ports := tdel r.ports n }
  else if n = 36 then { r with cell := {} }
  else if n = 37 then { r with desc := {} }
  else r

/-- A node switches to the row's next stage; what a port's buffer holds goes home first (R221). -/
def State.switchNode (s : State) (n : NodeId) (h : Hdr) : State :=
  let s0 := if n.node = 34 || n.node = 35 then s.flushIf n fun _ => true else s
  let s1 := (s0.spillX n h).unarmSlot n
  let s2 := s1.setRow n.row ((s1.row n.row).nodeReset n.node)
  s2.setNode n ((s2.node n).switched (s2.row n.row).reel.nxt ((s.row n.row).waveLeft (s.node n)))

/-- Whether every forwarding node of a row has switched from a stage. -/
def State.allPassed (s : State) (r : RowId) : Bool :=
  let rw := s.row r
  !rw.owesMark (s.rowMap r) fun e => decide (e.stage ≠ rw.reel.hosted)

/-- Nodes that forward no markers start nothing more once the others have switched (R372). -/
def State.stopOthers (s : State) (r : RowId) : State :=
  let rw := s.row r
  if s.allPassed r then
    s.setRow r { rw with nodes := rw.nodes.map fun e =>
      if e.2.stage = rw.reel.hosted then (e.1, { e.2 with dry := true }) else e }
  else s

/-- Whether a node may switch now, its row's shadow being ready. -/
def State.maySwitch (s : State) (n : NodeId) : Bool :=
  let rw := s.row n.row
  let nd := s.node n
  nd.stage = rw.reel.hosted && nd.fly.isEmpty &&
    (nd.store.isEmpty || nd.dry || s.allPassed n.row)

/-- A marker of a stage still stands in an egress lane that leads to the next slot. -/
def State.markOut (s : State) (r : RowId) (b : Band) (stage : Nat) : Bool :=
  match (b.slotOf r.row).bind fun i => b.live[i + 1]? with
  | none => false
  | some j => (s.row { r with row := b.base + j }).lanes.any fun l =>
      l.1 < 10 && l.2.toks.any fun t => t.tok.isMark && t.stage = stage + 1

/-- Whether every node has switched and the marker has left the row's lanes (R372). -/
def State.rowSwitched (s : State) (r : RowId) (b : Band) : Bool :=
  let rw := s.row r
  rw.reel.hosts && rw.reel.nxt ≠ rw.reel.hosted && rw.reel.sh = .ready &&
    rw.nodes.all (fun e => e.2.stage = rw.reel.nxt) && !s.markOut r b rw.reel.hosted

/-- A live row of a band becomes leaving when its present banks fall below what the variant in force needs (R382). -/
def State.checkLeaving (s : State) (r : RowId) : State :=
  match s.regionOf r with
  | none => s
  | some (k, _) =>
    if (s.bandsOf r.die k).any fun e => e.2.base ≤ r.row && (e.2.slotOf r.row).isSome && (s.row r).banksIn < e.2.rbanks then
      s.setReel r fun x => { x with leaving := true }
    else s

/-- The longest wait of a record of a stage for a row to host it, in the row's lanes and, at slot 0, in the wrap, from which it would
have come 4 cycles after it entered (R376, R384). A wait counts from the cycle on which the row has drained: R401 counts none for the
trigger, which stands in the wrap while slot 0 drains (DEDUCED, log entry 101). -/
def State.scrollWait (s : State) (r : RowId) (b : Band) (stage : Nat) : Nat :=
  let wrapped := if b.slotOf r.row = some 0 then b.wrap.map fun e => { e.tok with at_ := e.tok.at_ + 4 } else []
  ((((s.row r).lanes.flatMap fun l => l.2.toks) ++ wrapped).filter fun t => !t.tok.isMark && t.stage = stage).foldl
    (fun m t => max m (s.cyc r.die - max t.at_ (s.row r).reel.drain)) 0

/-- The row's switch is complete: it hosts the next stage, and the loads for the one after start (R373). -/
def State.endSwitch (s : State) (r : RowId) (k : Nat) (b : Band) : State :=
  let x := (s.row r).reel
  let st := x.nxt
  let nx := nextStage st b.be b.desc.d
  let w := BitVec.ofNat 32 (min 0xFFFFFFFF (s.scrollWait r b st))
  let s1 := s.setReel r fun x =>
    { x with hosted := st, nxt := nx, block := x.shadow, shadow := none, buf := x.buf2, buf2 := none, half := !x.half,
             sh := if nx = st then .empty else .loading }
  let s2 := s1.setBand r.die k { b with smax := if b.smax.ult w then w else b.smax,
                                         gone := if st = 0 && b.slotOf r.row = some 0 then b.gone + 1 else b.gone }
  let s3 := s2.setRow r (s2.row r).endPends
  (s3.checkLeaving r).fetchBuffer r b.desc (nextStage nx b.be b.desc.d)

/-- Complete the row's switch if it is due. -/
def State.rowSwitch (s : State) (r : RowId) : State :=
  match s.bandOf r with
  | none => s
  | some (k, b) => if s.rowSwitched r b then s.endSwitch r k b else s

/-- The block that a switch takes up no longer fits the row: an over-capacity event at once (R382). -/
def State.switchFits (s : State) (r : RowId) : Bool :=
  match (s.row r).reel.shadow with
  | none => true
  | some b => b.hdr.fits (s.row r)

/-- NODE_SWITCH (R372, R400). -/
def State.nodeSwitch (s : State) (n : NodeId) : State :=
  match s.regionOf n.row, (s.row n.row).reel.block with
  | some (k, _), some b =>
    if !s.rowRuns n.row || !s.scrolls n.row then s
    else if (s.row n.row).reel.sh = .ready && s.maySwitch n then
      if s.switchFits n.row then ((s.switchNode n b.hdr).stopOthers n.row).rowSwitch n.row else s.overCap n.row.die k
    else s.rowSwitch n.row
  | _, _ => s

/-! ## Ingress (R165, R369) -/

/-- Whether a row's ingress map for a stage is loaded (R369). -/
def Reel.mapLoaded (x : Reel) (stage : Nat) : Bool := x.hosts && (stage = x.hosted || (stage = x.nxt && x.sh = .ready))

/-- The slot before a row's in its band. -/
def Band.before (b : Band) (r : RowId) : Option RowId :=
  match b.slotOf r.row with
  | some (i + 1) => (b.live[i]?).map fun j => { r with row := b.base + j }
  | _ => none

/-- INGRESS_FORWARD (R165, R369): a lane's token goes to the queue that the map of its stage names. -/
def State.ingressForward (s : State) (r : RowId) (lane : Nat) : State :=
  match s.bandOf r, ((s.row r).lane lane).toks with
  | some (_, b), t :: ts =>
    match b.imap t.stage lane with
    | none => s
    | some (n, q) =>
      let d : Dest := .queue ⟨r, n⟩ q
      if !s.rowRuns r || !(s.row r).reel.mapLoaded t.stage || s.destFree d = 0 || t.claim ≠ 0 || s.cyc r.die < t.at_ then s
      else
        let rw := s.row r
        let s1 := s.setRow r (rw.setLane lane { rw.lane lane with toks := ts })
        let s2 := s1.push ⟨d, t.last, t.stage⟩ t.tok
        match b.before r with
        | none => s2
        | some p => s2.rowSwitch p
  | _, _ => s

/-! ## Triggers (R371, R381) -/

/-- Whether the marker of the last wave injected has left the row that hosts stage 0. -/
def State.firstFree (s : State) (r : RowId) (b : Band) : Bool :=
  let rw := s.row r
  let w := BitVec.ofNat 16 (b.wave - 1)
  !(rw.lanes.any fun l => l.2.toks.any fun t => t.tok.isMark) && !rw.owesMark (s.rowMap r) fun e => decide (e.fwd = some w)

/-- Where the trigger goes: lane 0 of slot 0, or stage 0's entry queue; none while the wave before is there. -/
def State.triggerAt (s : State) (die k : Nat) (b : Band) (cl : Nat) : Option Target :=
  match b.live[0]? with
  | none => none
  | some i =>
    let r : RowId := ⟨die, cl, b.base + i⟩
    if b.mode then
      let host := s.rowOfStage die cl b 0
      let free := (tgetD b.stageq 0 []).isEmpty && (match host with
        | none => true
        | some h => b.wave ≤ b.gone || s.firstFree h b)
      if free then some ⟨.stageQ die k 0 0, false, b.desc.d⟩ else none
    else
      let x := (s.row r).reel
      let free := x.hosts && x.hosted = 0 && (b.wave ≤ b.gone || (x.nxt = 0 && s.firstFree r b))
      if free && s.rowRuns r then some ⟨.lane r 0 1, false, 0⟩ else none

/-- TRIGGER_INJECT (R371): the next wave's trigger and marker, unless the region admits no new wave. -/
def State.triggerInject (s : State) (die k : Nat) : State :=
  match tget (s.die die).bands k with
  | none => s
  | some b =>
    let g := s.region die b.region
    if g.st ≠ .running || g.frz.isSome || g.yld || g.ovc || s.anyLeaving die b || b.waves = 0 then s
    else
      match s.triggerAt die k b g.cl with
      | none => s
      | some t =>
        if s.destFree t.dst < 2 then s
        else
          let s1 := s.setBand die k { b with waves := b.waves - 1, wave := b.wave + 1 }
          (s1.push t (wordTok (BitVec.ofNat 32 b.wave) 0)).push t (.mark (BitVec.ofNat 16 b.wave) (b.waves = 1))

/-! ## The wrap and the feedback channels (R376, R380) -/

/-- WRAP_DEPARTURE (R376): an entry that could not leave when it came enters slot 0's ingress. -/
def State.wrapDeparture (s : State) (die k lane : Nat) : State := s.wrapLeave die k lane

/-- FEEDBACK_DELIVERY (R380): a channel's oldest token enters the queue its target stage's map names. -/
def State.feedbackDelivery (s : State) (die k ch : Nat) : State :=
  match tget (s.die die).bands k with
  | none => s
  | some b =>
    match tgetD b.fbq ch [] with
    | [] => s
    | t :: ts =>
      match s.rowOfStage die (s.region die b.region).cl b t.stage, b.imap t.stage (15 + ch) with
      | some r, some (n, q) =>
        let d : Dest := .queue ⟨r, n⟩ q
        if !s.rowRuns r || s.destFree d = 0 || s.cyc die < t.at_ + 4 then s
        else (s.setBand die k { b with fbq := tset b.fbq ch ts }).push ⟨d, t.last, t.stage⟩ t.tok
      | _, _ => s

/-! ## CHOICE mode (R47, R381) -/

/-- Whether every node of a row holds no token. -/
def Row.tokenless (r : Row) : Bool :=
  r.lanes.all (fun l => l.2.toks.isEmpty) &&
    r.nodes.all fun e => e.2.ctl.toks.isEmpty && e.2.fly.isEmpty && e.2.qs.all fun q => q.2.toks.isEmpty

/-- Whether a row has forwarded a marker: every node that forwards markers has. -/
def State.forwardedMark (s : State) (r : RowId) : Bool :=
  (s.row r).nodes.any (fun e => e.2.fwd.isSome) && !(s.row r).owesMark (s.rowMap r) fun e => e.fwd.isSome

/-- ROW_FREE (R381): a row that forwarded a marker, or has been idle for 16 cycles with its queue empty, spills and
hosts nothing; a pending retirement of its banks completes (R311). -/
def State.rowFree (s : State) (r : RowId) : State :=
  match s.bandOf r with
  | none => s
  | some (_, b) =>
    let rw := s.row r
    let x := rw.reel
    let busy := rw.nodes.any fun e => !e.2.fly.isEmpty
    let idle := (tgetD b.stageq x.hosted []).isEmpty && rw.tokenless && x.idle16 + 16 ≤ s.cyc r.die
    if !b.mode || !x.hosts || !s.rowRuns r || busy || !(s.forwardedMark r || idle) then s
    else
      let s1 := ((s.spillRow r).unarmRows r.die r.cl [r.row]).flushRow r
      let s2 := s1.setRow r (s1.row r).endPends
      (s2.setRow r { (s2.row r).emptied with reel := { freed := true, leaving := x.leaving } }).checkLeaving r

/-- The age of a stage entry queue's oldest entry: one token, a marker among them (R47, R381). -/
def ageOf (cyc : Nat) (q : List WrapEnt) : Nat :=
  match q with
  | [] => 0
  | e :: _ => cyc - e.tok.at_

/-- Stages that a freed row may take (R47, R381): a record waits, the block fits, and no row hosts it. -/
def State.candidates (s : State) (r : RowId) (b : Band) : List Nat :=
  (upFrom 0 b.desc.d).filter fun st =>
    let o := s.ownerOf r
    !(waitingRecords (tgetD b.stageq st [])).isEmpty && (s.rowOfStage r.die r.cl b st).isNone &&
      (match s.peekHdr o b.desc st with
       | some h => h.fits (s.row r)
       | none => true)

/-- The best of a list by a measure, the lowest stage among equals. -/
def bestBy (f : Nat → Nat) : List Nat → Option Nat
  | [] => none
  | x :: t =>
    match bestBy f t with
    | none => some x
    | some y => if f y ≤ f x then some x else some y

/-- The stage choice of R47, with SCHED.BOOST's mark between its rules (R384). -/
def State.chooseStage (s : State) (r : RowId) (b : Band) : Option Nat :=
  let cs := s.candidates r b
  let q := fun (st : Nat) => tgetD b.stageq st []
  let old := cs.filter fun st => 4096 ≤ ageOf (s.cyc r.die) (q st)
  if !old.isEmpty then bestBy (fun st => ageOf (s.cyc r.die) (q st)) old
  else
    match b.boost.find? fun st => cs.contains st with
    | some st => some st
    | none => bestBy (fun st => (waitingRecords (q st)).length) cs

/-- The markers that a stage's queue waits for: source stage and lane of every arc of a block that leads to it. -/
def State.markSources (s : State) (o : BitVec 12) (b : Band) (st : Nat) : List (Nat × Nat) :=
  if st = 0 then [(b.desc.d, 0)]
  else
    (upFrom 0 st).flatMap fun a =>
      match b.desc.stages[a]? with
      | none => []
      | some e =>
        match s.peekBlock o e.block with
        | none => []
        | some blk =>
          ((upFrom 0 38).flatMap fun n => arcsOf (instrsOf blk.code n)).filterMap fun sl =>
            match sl with
            | .lane d _ l =>
              if d = 0 && (e.exit[if l.toNat ≥ 16 then l.toNat - 8 else l.toNat]?).getD 0xFFFF = st then
                some (a, laneNo 0 l.toNat)
              else none
            | _ => none

/-- The first entry of a stage entry queue that no marker of its own source and lane stands before, if it is a record: with one behind
such a marker it would enter the wave before its own. -/
def nextRecord (seen : List (Nat × Nat)) : List WrapEnt → Option (WrapEnt × List WrapEnt)
  | [] => none
  | e :: t =>
    if e.tok.tok.isMark then (nextRecord ((e.tok.stage, e.l) :: seen) t).map fun x => (x.1, e :: x.2)
    else if seen.contains (e.tok.stage, e.l) then (nextRecord seen t).map fun x => (x.1, e :: x.2)
    else some (e, t)

/-- Remove the first marker of each source and lane. -/
def dropMarks (seen : List (Nat × Nat)) : List WrapEnt → List WrapEnt
  | [] => []
  | e :: t =>
    if e.tok.tok.isMark && !seen.contains (e.tok.stage, e.l) then dropMarks ((e.tok.stage, e.l) :: seen) t
    else e :: dropMarks seen t

/-- The wave number and flag of the first marker of a queue. -/
def firstMark : List WrapEnt → Option Tok
  | [] => none
  | e :: t => if e.tok.tok.isMark then some e.tok.tok else firstMark t

/-- A row that hosts a stage takes the next entry of its queue: a record, or the wave's marker once every source has
sent it (R381). After the marker it takes no more: the row frees when it has forwarded it. -/
def State.takeEntry (s : State) (r : RowId) (k : Nat) (b : Band) : State :=
  let st := (s.row r).reel.hosted
  let q := tgetD b.stageq st []
  let put := fun (s : State) (l : Nat) (t : QTok) => s.push ⟨.lane r l 1, t.last, st⟩ t.tok
  match nextRecord [] q with
  | some (e, rest) =>
    if s.destFree (.lane r e.l 1) = 0 then s
    else put (s.setBand r.die k { b with stageq := tset b.stageq st rest }) e.l e.tok
  | none =>
    let src := s.markSources (s.ownerOf r) b st
    let here := (q.filter fun e => e.tok.tok.isMark).map fun e => (e.tok.stage, e.l)
    let lanes := dedup (src.map Prod.snd)
    match firstMark q with
    | none => s
    | some m =>
      if (src.all fun x => here.contains x) && lanes.all fun l => s.destFree (.lane r l 1) ≠ 0 then
        (lanes.foldl (fun s l => s.push ⟨.lane r l 1, false, st⟩ m)
          (s.setBand r.die k { b with stageq := tset b.stageq st (dropMarks [] q) })).setReel r fun x => { x with marked := true }
      else s

/-- STAGE_CHOICE (R47, R381): a freed row takes a stage; a row that hosts one takes its next entry. A leaving row does so too until
the wave in flight has ended (R382). -/
def State.stageChoice (s : State) (r : RowId) : State :=
  match s.regionOf r, s.bandOf r with
  | some (g, _), some (k, b) =>
    let x := (s.row r).reel
    if !b.mode || !s.rowRuns r || (b.slotOf r.row).isNone then s
    else if x.hosts then (if x.marked then s else s.takeEntry r k b)
    else
      match s.chooseStage r b with
      | none => s
      | some st =>
        match b.desc.stages[st]? with
        | none => s
        | some e =>
          match s.loadBlock (loadCtx (s.ownerOf r) b r.row st (b.be ≠ b.b)) e.block with
          | .error err => if err.waits then s else s.reelFault r.die g r.row e.block st err
          | .ok blk =>
            match s.restoreErr r st blk.hdr with
            | some (n, c, a) => s.raise n 255 c { addr1 := a }
            | none => ((s.fixRegs r st blk.hdr).hostRow r st blk).setBand r.die k { b with boost := b.boost.erase st }
  | _, _ => s

/-! ## Re-forming a band (R379, R382) -/

/-- The track segments that a block's bypass lanes occupy at a slot: track and boundary (R379). -/
def segments (blk : Block) (slot : Nat) : List (Nat × Nat) :=
  let arcs := blk.code.flatMap fun e => match slotInstr e.2.2 with
    | some i => [i.ops.d0, i.ops.d1]
    | none => []
  let ts := arcs.filterMap fun a => match a with
    | .lane d _ l => if d = 0 then none else some (d.toNat, l.toNat)
    | _ => none
  let once := ts.foldl (fun l x => if l.contains x then l else l ++ [x]) []
  once.flatMap fun x => (upFrom slot (x.1 + 1)).map fun i => (x.2, i)

/-- Whether a list names something twice. -/
def twice : List (Nat × Nat) → Bool
  | [] => false
  | x :: t => t.contains x || twice t

/-- Whether stages that can be hosted at once share a track segment on a band of `be` slots (R379). -/
def State.tracksBad (s : State) (o : BitVec 12) (d : PlDesc) (be : Nat) : Bool :=
  if d.choice then false
  else
    let segs := d.stages.map fun e => s.peekBlock o e.block
    let at_ := (upFrom 0 segs.length).zip segs |>.map fun x => match x.2 with
      | none => []
      | some blk => segments blk (x.1 % max 1 be)
    (upFrom 0 segs.length).any fun i => twice ((at_.drop i |>.take be).flatten)

/-- The loads of a band's slots under R375: each slot's stage, its shadow, and the fetch of the block after that. -/
def State.reloadSlot (s : State) (r : RowId) (b : Band) (i : Nat) (blks : List Block) : State :=
  match blks.find? fun x => x.hdr.stage = i with
  | none => s
  | some blk =>
    let nx := nextStage i b.be b.desc.d
    let s1 := s.hostRow r i blk
    if b.mode || nx = i then s1
    else
      match blks.find? fun x => x.hdr.stage = nx with
      | none => s1
      | some sh =>
        let s2 := ((s1.setReel r fun x => { x with nxt := nx, sh := .loading }).fillBuffer r false sh).loadShadow r sh
        match blks.find? fun x => x.hdr.stage = nextStage nx b.be b.desc.d with
        | none => s2.fetchBuffer r b.desc (nextStage nx b.be b.desc.d)
        | some z => s2.fillBuffer r true z

/-- Every block of the pipeline checked for a band, or the first that fails (R382). -/
def State.checkAll (s : State) (o : BitVec 12) (b : Band) (rowOf : Nat → Nat) : List Nat → Except (LErr × Nat) (List Block)
  | [] => .ok []
  | st :: t =>
    match b.desc.stages[st]? with
    | none => .error ({ cause := 0x01A }, st)
    | some e =>
      match s.loadBlock (loadCtx o b (rowOf st) st true) e.block with
      | .error x => .error (x, st)
      | .ok blk =>
        match State.checkAll s o b rowOf t with
        | .error x => .error x
        | .ok l => .ok (blk :: l)

/-- The live rows that a band has for itself when it re-forms: those it holds, and those of its slots from D on that no
other work has taken. -/
def State.ownRows (s : State) (die : Nat) (b : Band) : List Nat :=
  b.live.filter fun i => b.spans (b.base + i) || s.rowFreeAt die b.region (b.base + i)

/-- BAND_REFORM (R382): the band goes on without its leaving rows once no wave is in flight. -/
def State.bandReform (s : State) (die k : Nat) : State :=
  match tget (s.die die).bands k with
  | none => s
  | some b =>
    let g := s.region die b.region
    let row := fun (i : Nat) => (⟨die, g.cl, b.base + i⟩ : RowId)
    let own := s.ownRows die b
    let stay := own.filter fun i => !(s.row (row i)).reel.leaving
    if g.st ≠ .running || g.frz.isSome || g.ovc || !s.anyLeaving die b || b.ended ≠ b.wave then s
    else
      let b1 := { b with be := stay.length, live := stay }
      let rowOf := fun (st : Nat) => b.base + (stay[st % max 1 stay.length]?).getD 0
      if stay.length < 2 || s.tracksBad g.owner b.desc stay.length then s.overCap die b.region
      else
        match s.checkAll g.owner b1 rowOf (upFrom 0 b.desc.d) with
        | .error (e, st) =>
          if e.waits then s
          else if e.fetch then
            s.reelFault die b.region (rowOf st) (((b.desc.stages[st]?).map fun x => x.block).getD 0) st e
          else s.overCap die b.region
        | .ok blks =>
          let load := blks.filter fun x => x.hdr.stage < 2 * stay.length
          let host := row (stay.headD 0)
          match load.findSome? fun x => s.restoreErr host x.hdr.stage x.hdr with
          | some (n, c, a) => s.raise n 255 c { addr1 := a }
          | none =>
            let s0 := load.foldl (fun s x => s.fixRegs host x.hdr.stage x.hdr) s
            let s1 := (s0.spillBand die b).unarmRows die g.cl (own.map fun i => b.base + i)
            let s2 := own.foldl (fun s i =>
              let s1 := s.emptyRow (row i)
              if stay.contains i then s1 else s1.setReel (row i) fun x => { x with relay := true }) s1
            let d := s2.die die
            let gone := own.map row
            let s3 := (s2.setDie die { d with fetches := d.fetches.filter fun e => match e.2.what with
              | .buffer r => !gone.contains r
              | _ => true }).setBand die k { b1 with gone := b.wave }
            ((upFrom 0 stay.length).zip stay).foldl (fun s x => s.reloadSlot (row x.2) b1 x.1 blks) s3

/-! ## The end of a launch (R36, R374, R400, R402) -/

/-- A launch's notify register counts its end (R42, R402). -/
def State.launchNotify (s : State) (b : Band) : State :=
  let w := b.launch.getD 5 0
  let n := (w.extractLsb' 0 12).toNat
  if w.getLsbD 12 then s.setNotify n (s.notifyVal n + 1) else s

/-- LAUNCH_COMPLETE: homes are written back, the notify register counts, and the region is idle once its last launch has
ended (R326). The band's entry stays VALID (R367, log entry 101). -/
def State.launchComplete (s : State) (die k : Nat) : State :=
  match tget (s.die die).bands k with
  | none => s
  | some b =>
    let g := s.region die b.region
    if !b.fin || b.waves ≠ 0 || g.st ≠ .running || g.frz.isSome then s
    else
      match ((s.release ⟨die, g.cl, b.base⟩ .system).spillBand die b).writeBackHomes die b.region b with
      | .error (x, va) =>
        if x.waits then s
        else s.startFreeze die b.region g.first (some (s.bandRec die b x va)) .record
      | .ok s1 =>
        let s2 := if (s1.bandsOf die b.region).length ≤ 1 then s1.leaveRegion die b.region else s1.leaveBand die k b
        let d := s2.die die
        (s2.setDie die { d with past := tset d.past k ((tget (s1.die die).bands k).getD b) }).launchNotify b

end Sys2Proof.Machine
end

