-- ==== Sys2Proof/Machine/Launch.lean ====
section
/-!
DEFINITION. How work arrives (R42-R44, R232, R316, R331, R333, R368): launch windows and their checks, task graphs,
and the reading of pipeline descriptors and variant tables.
-/
namespace Sys2Proof.Machine

/-! ## Launch records (R42, R43) -/

def recOwner (ws : List DWord) : BitVec 12 := (ws.getD 0 0).extractLsb' 52 12
def recPrio (ws : List DWord) : Nat := ((ws.getD 0 0).extractLsb' 49 3).toNat
def recBand (ws : List DWord) : Nat := ((ws.getD 0 0).extractLsb' 44 5).toNat
def recWaves (ws : List DWord) : Nat := ((ws.getD 0 0).extractLsb' 0 32).toNat

/-- Reserved fields, BAND and WAVES of a launch record. -/
def recBad (ws : List DWord) : Bool :=
  (ws.getD 0 0).extractLsb' 32 12 ≠ 0 || (ws.getD 5 0).extractLsb' 13 51 ≠ 0 || (ws.getD 7 0).extractLsb' 32 32 ≠ 0 ||
    recBand ws < 2 || 28 < recBand ws || recWaves ws = 0

/-- Whether the CRC of a record of eight words disagrees (R42, R333). -/
def crcBad (ws : List DWord) : Bool := (ws.getD 7 0).extractLsb' 0 32 ≠ crc32c (wordsBytes (ws.take 7))

/-- Reserved fields and ranges of a graph record (R333). -/
def graphBad (ws : List DWord) : Bool :=
  let w0 := ws.getD 0 0
  let w4 := ws.getD 4 0
  let n := (w0.extractLsb' 0 16).toNat
  let p := (w4.extractLsb' 0 20).toNat
  w0.extractLsb' 48 1 ≠ 0 || w0.extractLsb' 16 16 ≠ 0 || w0.extractLsb' 32 16 = 0 || n = 0 || 256 < n ||
    w4.extractLsb' 20 44 ≠ 0 || p % 8 ≠ 0 || 2 ^ 19 < p || ws.getD 5 0 ≠ 0 || (ws.getD 7 0).extractLsb' 32 32 ≠ 0

/-- Whether a writer may submit for an owner: its HOSTNODE, or the monitor for a core bound to it (R43). -/
def State.entitled (s : State) (who : Agent) (o : BitVec 12) : Bool :=
  o ≠ 0 && (match who with
    | .node n => (s.owner o).valid && (s.owner o).hostnode = n
    | .core h => h < 16 && (tget s.hub.cores h).map Machine.Core.owner = some o
    | .firmware => false)

/-- Requests that hold one of the 256 entries: all but relaunches and resumes (R44). -/
def PReq.entry (r : PReq) : Bool :=
  match r.kind with
  | .relaunch _ => false
  | .resume _ => false
  | _ => true

/-- Requests that count among the 256: a request's entry frees when its placement ends, not at the choice of its rows (DESIGN
CHOICE, log entry 100). -/
def Die.queued (d : Die) : Nat :=
  (d.pq.filter PReq.entry).length + (d.placing.filter fun e => PReq.entry e.2.req).length

/-- The checks of R43, in order; `bad` judges the reserved fields. -/
def State.submitCause (s : State) (die : Nat) (who : Agent) (ws : List DWord) (bad : Bool) : Option Cause :=
  let o := recOwner ws
  if !s.hub.ready then some 0x14A
  else if !s.entitled who o then some 0x149
  else if !(s.owner o).valid then some 0x14D
  else if bad then some 0x01D
  else if crcBad ws then some 0x16A
  else if 256 ≤ (s.die die).queued then some 0x066
  else none

/-- The words of a window's record or graph record. -/
def windowWords (t : Tbl DWord) : List DWord := (upFrom 0 8).map fun i => tgetD t i 0

/-- LAUNCH_WORD_WRITE (R42): words 0 to 6; a write of word 0 discards the words before it. A window of a device that is
not ready refuses writes (R27). -/
def State.launchWordWrite (s : State) (die : Nat) (graph : Bool) (w : BitVec 3) (v : DWord) : State :=
  let d := s.die die
  if !s.hub.ready then s
  else
  let put := fun (t : Tbl DWord) => if w = 0 then [(0, v)] else tset t w.toNat v
  s.setDie die { d with win := if graph then { d.win with gwords := put d.win.gwords } else { d.win with words := put d.win.words } }

/-- The answer of a window to a submission. -/
def State.answer (s : State) (die : Nat) (c : Option Cause) : State :=
  let d := s.die die
  s.setDie die { d with win := { d.win with acc := c.isNone, cause := c.getD 0 } }

/-- LAUNCH_SUBMIT (R43): a write of word 7 submits the record; words not written since the last submission are as they were
(DESIGN CHOICE, log entry 81). -/
def State.launchSubmit (s : State) (die : Nat) (v : DWord) (who : Agent) : State :=
  let d := s.die die
  let t := tset d.win.words 7 v
  let ws := windowWords t
  let s1 := s.setDie die { d with win := { d.win with words := t } }
  match s1.submitCause die who ws (recBad ws) with
  | some c => s1.answer die (some c)
  | none =>
    let d1 := s1.die die
    (s1.setDie die { d1 with pq := d1.pq ++ [{ kind := .launch, words := ws, entered := s.cyc die }] }).answer die none

/-- The status word of a launch window (R388). -/
def State.winStatus (s : State) (die : Nat) : DWord :=
  let w := (s.die die).win
  BitVec.ofNat 64 ((if s.hub.ready then 2 ^ 31 else 0) + w.cause.toNat * 2 ^ 16 + if w.acc then 1 else 0)

/-- Whether a node of a graph waits for its placement: it has entered the queue and is not dispatched yet. -/
def Die.graphWaits (d : Die) (k : Nat) : Bool :=
  let mine := fun (r : PReq) => match r.kind with
    | .graph j _ => j = k
    | _ => false
  d.pq.any mine || d.placing.any fun e => mine e.2.req

/-- Whether a graph has a replay to start or nodes to dispatch. -/
def Die.graphRuns (d : Die) (e : Nat × Graph) : Bool := e.2.busy || e.2.replays ≠ 0 || d.graphWaits e.1

/-- GRAPH_SUBMIT (R333): a task graph joins the die's graphs. -/
def State.graphSubmit (s : State) (die : Nat) (v : DWord) (who : Agent) : State :=
  let d := s.die die
  let t := tset d.win.gwords 7 v
  let ws := windowWords t
  let s1 := s.setDie die { d with win := { d.win with gwords := t } }
  match s1.submitCause die who ws (graphBad ws) with
  | some c => s1.answer die (some c)
  | none =>
    let d1 := s1.die die
    let g := ((d1.graphs.map Prod.fst).foldl max 0) + 1
    let x : Graph := { words := ws, replays := ((ws.getD 0 0).extractLsb' 32 16).toNat }
    (s1.setDie die { d1 with graphs := tset (d1.graphs.filter d1.graphRuns) g x }).answer die none

/-- A record that the placement engine gives with no region. -/
def State.dieRec (s : State) (die : Nat) (o : BitVec 12) (c : Cause) (cookie : DWord) (addr1 addr2 : Nat) : FaultRec :=
  { cause := c, die := die, owner := o, res := false, img := false, addr1 := addr1, addr2 := addr2, cookie := cookie,
    cyc := s.cyc die }

/-- Take eight words at a time. -/
def chunk8 : Nat → List DWord → List (List DWord)
  | 0, _ => []
  | n + 1, ws => ws.take 8 :: chunk8 n (ws.drop 8)

/-- An earlier graph with the same owner and node table still runs: replays of one graph start in order (R232). -/
def Die.graphBefore (d : Die) (k : Nat) (g : Graph) : Bool :=
  d.graphs.any fun e => e.1 < k && recOwner e.2.words = recOwner g.words && e.2.words.getD 1 0 = g.words.getD 1 0 && d.graphRuns e

/-- REPLAY_START (R232, R333): the parameter block is copied to the snapshot area and the nodes are read, once every node of the
replay before has been placed. The copy is one step, so a racing patch is seen in all words or in none (DESIGN CHOICE, log entry
79). -/
def State.replayStart (s : State) (die k : Nat) : State :=
  let d := s.die die
  match tget d.graphs k with
  | none => s
  | some g =>
    if g.busy || g.replays = 0 || d.graphWaits k || d.graphBefore k g then s
    else
      let o := recOwner g.words
      let w := fun (i : Nat) => (g.words.getD i 0).toNat
      let n := ((g.words.getD 0 0).extractLsb' 0 16).toNat
      let p := ((g.words.getD 4 0).extractLsb' 0 20).toNat / 8
      let fail := fun (x : XFault) (va : Nat) =>
        if x.waits then s
        else (s.setDie die { d with graphs := tdel d.graphs k }).putRecord (s.dieRec die o x.cause (g.words.getD 6 0) va x.entry)
      match s.readVa o p (w 2), s.readVa o (8 * n) (w 1) with
      | .error x, _ => fail x (w 2)
      | _, .error x => fail x (w 1)
      | .ok ps, .ok ns =>
        match ((s.fixVa o false p (w 2)).fixVa o false (8 * n) (w 1)).writeVa o ps (w 3) with
        | .error x => fail x (w 3)
        | .ok s1 =>
          let d1 := s1.die die
          s1.setDie die { d1 with graphs := tset d1.graphs k { g with busy := true, nodes := chunk8 n ns, replays := g.replays - 1 } }

/-- The next node of a graph enters the placement queue, or is refused as a launch (R43, R333). -/
def State.dispatchNode (s : State) (die k : Nat) (g : Graph) : State :=
  let d := s.die die
  match g.nodes with
  | [] => s
  | ws :: rest =>
    let g1 : Graph := { g with nodes := rest, busy := !rest.isEmpty }
    let d1 := { d with graphs := tset d.graphs k g1 }
    let o := recOwner g.words
    let bad : Option Cause :=
      if recOwner ws ≠ o then some 0x149 else if recBad ws then some 0x01D else if crcBad ws then some 0x16A else none
    match bad with
    | some c => (s.setDie die d1).putRecord (s.dieRec die o c (ws.getD 6 0) (g.words.getD 1 0).toNat 0)
    | none => s.setDie die { d1 with pq := d1.pq ++ [{ kind := .graph k rest.length, words := ws, entered := s.cyc die }] }

/-! ## Pipeline descriptors (R37, R368, R381) -/

/-- Why a placement is refused or held: the loader's error, the block's or descriptor's address, the stage. -/
structure PErr where
  e     : LErr
  va    : Nat
  stage : Nat := 0

/-- The header of a descriptor, or why it is refused. -/
def descHdr (ws : List DWord) (band : Nat) : Except Cause PlDesc :=
  let w0 := ws.getD 0 0
  let w1 := ws.getD 1 0
  let d := (w0.extractLsb' 48 16).toNat
  let b := (w0.extractLsb' 43 5).toNat
  let m := w0.getLsbD 42
  let wr := (w1.extractLsb' 0 13).toNat
  let nfb := (w1.extractLsb' 13 3).toNat
  let fbn := (w1.extractLsb' 16 12).toNat
  let hb := (w1.extractLsb' 28 3).toNat
  if d = 0 then .error 0x01A
  else if w0.extractLsb' 0 42 ≠ 0 || w1.extractLsb' 31 33 ≠ 0 || (ws.drop 2).any (· ≠ 0) then .error 0x126
  else if b < 2 || 28 < b || b ≠ band then .error 0x126
  else if (if d ≤ b || m then wr ≠ 0 else wr < 15) then .error 0x126
  else if 4 < nfb || (if nfb = 0 then fbn ≠ 0 else fbn < 15) then .error 0x126
  else if hb = 0 || 4 < hb then .error 0x126
  else .ok { d := d, b := b, choice := m, wrapN := wr, nfb := nfb, fbN := fbn, homeb := hb, stages := [] }

/-- The 16-bit fields of a word. -/
def halves (w : DWord) : List Nat := elems 16 4 w.toNat

/-- A stage entry. -/
def stageEnt (ws : List DWord) : StageEnt :=
  { block := (ws.getD 0 0).toNat,
    imap := (natBytes' 8 (ws.getD 1 0).toNat ++ natBytes' 8 (ws.getD 2 0).toNat ++ natBytes' 4 (ws.getD 3 0).toNat),
    hoff := ((ws.getD 3 0).extractLsb' 32 32).toNat,
    fb := (halves (ws.getD 4 0)).map fun x => (x / 2 ^ 15 = 1, x / 2 ^ 10 % 32, x % 32),
    exit := (halves (ws.getD 5 0) ++ halves (ws.getD 6 0) ++ halves (ws.getD 7 0)).take 10 }

/-- Reserved bits of a stage entry, and its feedback fields (R368). -/
def stageEntBad (ws : List DWord) (nfb : Nat) : Bool :=
  (ws.getD 7 0).extractLsb' 32 32 ≠ 0 ||
    ((upFrom 0 4).zip (halves (ws.getD 4 0))).any fun x =>
      x.2 / 32 % 32 ≠ 0 ||
        (x.2 / 2 ^ 15 = 1 && (nfb ≤ x.1 || !(x.2 % 32 < 8 || x.2 % 32 = 16 || x.2 % 32 = 17)))

/-- EXIT targets that a CHOICE pipeline may not name (R381). -/
def exitsBad (d : PlDesc) : Bool :=
  d.choice && ((upFrom 0 d.stages.length).zip d.stages).any fun x =>
    x.2.exit.any fun t => t ≠ 0xFFFF && (t ≤ x.1 || d.d ≤ t)

/-- A descriptor read from memory (R37, R368). -/
def State.readDesc (s : State) (o : BitVec 12) (va band : Nat) : Except PErr PlDesc :=
  match s.readWords o 8 va with
  | .error e => .error ⟨e, va, 0⟩
  | .ok ws =>
    match descHdr ws band with
    | .error c => .error ⟨{ cause := c }, va, 0⟩
    | .ok d =>
      match s.readWords o (8 * d.d) (va + 64) with
      | .error e => .error ⟨e, va, 0⟩
      | .ok es =>
        let ents := chunk8 d.d es
        let d1 := { d with stages := ents.map stageEnt }
        if ents.any fun e => stageEntBad e d.nfb then .error ⟨{ cause := 0x126 }, va, 0⟩
        else if exitsBad d1 then .error ⟨{ cause := 0x12B }, va, 0⟩
        else .ok d1

/-- Two homes share a byte. -/
def homesMeet (x y : Nat × Nat) : Bool := x.2 ≠ 0 && y.2 ≠ 0 && x.1 < y.1 + y.2 && y.1 < x.1 + x.2

def anyMeet : List (Nat × Nat) → Bool
  | [] => false
  | x :: t => t.any (homesMeet x) || anyMeet t

/-- Homes against the home area (R368): offsets in bytes with sizes. -/
def homesBad (d : PlDesc) (hsz : List Nat) : Bool :=
  let hs := (d.stages.map fun e => 64 * e.hoff).zip hsz
  hs.any (fun x => x.2 ≠ 0 && (x.1 < 4608 * d.b || d.homeb * 2 ^ 20 < x.1 + x.2)) || anyMeet hs

/-! ## Variants (R316) -/

/-- A variant: its descriptor's address, band, and what its table entry declares. -/
structure VarEnt where
  desc : Nat
  band : Nat
  need : Option (Nat × Nat) := none                 -- SBANKS, RBANKS
  deriving DecidableEq, Repr

/-- The number of words of a variant table, from its first. -/
def varWords (w : DWord) : Nat := 2 * ((w.extractLsb' 0 3).toNat + 1)

/-- The variants of a table's words after the first. -/
def varEnts : List DWord → List VarEnt
  | p :: w :: t =>
    { desc := p.toNat, band := (w.extractLsb' 0 5).toNat,
      need := some ((w.extractLsb' 16 5).toNat, (w.extractLsb' 12 4).toNat) } :: varEnts t
  | _ => []

/-- SBANKS does not increase. -/
def sbanksFall : List VarEnt → Bool
  | a :: b :: t => decide ((b.need.getD (0, 0)).1 ≤ (a.need.getD (0, 0)).1) && sbanksFall (b :: t)
  | _ => true

/-- The limits of the table. -/
def varTabBad (ws : List DWord) : Bool :=
  let es := varEnts (ws.drop 1)
  (ws.getD 0 0).extractLsb' 3 61 ≠ 0 ||
    ((upFrom 0 es.length).any fun v =>
      let w := ws.getD (2 + 2 * v) 0
      w.extractLsb' 21 43 ≠ 0 || w.extractLsb' 5 7 ≠ 0) ||
    es.any (fun e => e.band < 2 || 28 < e.band || 24 < (e.need.getD (0, 0)).1 || (e.need.getD (0, 0)).2 = 0 ||
      9 < (e.need.getD (0, 0)).2) || !sbanksFall es

/-- The words of the variant table at an address, checked, its descriptors' D among the checks. -/
def State.readVars (s : State) (o : BitVec 12) (va : Nat) : Except PErr (List DWord) :=
  match s.readWords o 1 va with
  | .error e => .error ⟨e, va, 0⟩
  | .ok w =>
    match s.readWords o (varWords (w.getD 0 0)) (va + 8) with
    | .error e => .error ⟨e, va, 0⟩
    | .ok ws =>
      let t := w ++ ws
      if varTabBad t then .error ⟨{ cause := 0x103 }, va, 0⟩
      else
        let ds := (varEnts ws).map fun e => s.readWords o 1 e.desc
        match ds.findSome? fun r => match r with | .error e => some e | .ok _ => none with
        | some e => .error ⟨e, va, 0⟩
        | none =>
          if ds.any fun r => match r with | .ok x => (x.getD 0 0).extractLsb' 48 16 = 0 | .error _ => false then
            .error ⟨{ cause := 0x103 }, va, 0⟩
          else .ok t

/-- The variants of a request: of its copy of the table, of the table it names, or the launch's own. -/
def State.variants (s : State) (r : PReq) : Except PErr (List VarEnt × List DWord) :=
  let va := (r.words.getD 4 0).toNat
  if !r.vtab.isEmpty then .ok (varEnts (r.vtab.drop 1), r.vtab)
  else if va = 0 then .ok ([{ desc := (r.words.getD 1 0).toNat, band := recBand r.words }], [])
  else
    match s.readVars (recOwner r.words) va with
    | .error e => .error e
    | .ok t => .ok (varEnts (t.drop 1), t)

/-! ## Queue banks (R165, R207, R316) -/

/-- A queue that placement makes: entry size and entries. -/
def segOf (esz depth : Nat) : Seg := { esz := esz, placed := true, depth := depth }

/-- The order stores of a block, with their nodes and slots. -/
def Block.orders (b : Block) : List (Nat × Nat × Seg) :=
  b.code.filterMap fun e => match slotInstr e.2.2 with
    | some (.rmerge _ size g) => some (e.1, e.2.1, segOf (if g = 0 then 8 else 128) (size.toNat + 1))
    | _ => none

/-- The order stores of a launch's blocks: stage, node, slot. -/
def ordersOf (blks : List (Option Block)) : List (Nat × Nat × Nat) :=
  ((upFrom 0 blks.length).zip blks).flatMap fun x => match x.2 with
    | some b => b.orders.map fun e => (x.1, e.1, e.2.1)
    | none => []

/-- Every queue of a launch, in the order that placement packs them. -/
def queueSegs (d : PlDesc) (blks : List (Option Block)) : List Seg :=
  List.replicate d.wraps (segOf 128 (d.wrapN + 1)) ++
    List.replicate d.nfb (segOf 128 (d.fbN + 1)) ++
    (d.entered.map fun _ => segOf 128 stageQDepth) ++ blks.flatMap fun b => match b with
      | some b => b.orders.map fun e => e.2.2
      | none => []

/-- Pack segments into banks, in order, up to 16 segments and 1 MiB in each. -/
def packSegs (bank : List Seg) (used : Nat) : List Seg → List (List Seg)
  | [] => if bank.isEmpty then [] else [bank]
  | g :: t =>
    let n := g.esz * g.depth
    if bank.length < 16 && used + n ≤ 2 ^ 20 then packSegs (bank ++ [g]) (used + n) t
    else (if bank.isEmpty then [] else [bank]) ++ packSegs [g] n t

end Sys2Proof.Machine
end

