-- ==== Sys2Proof/Machine/ImageFmt.lean ====
section
/-!
DEFINITION. What moves with a region's work, the chunks of its freeze image in memory (R336), and what a RESUME takes from them
(R339): blocks, tokens, row steps of a pair link and tile slots lie there as R336 lays them out; the bodies and flags without a
layout are bytes whose meaning is free (log entry 10).
-/
namespace Sys2Proof.Machine

/-! ## What moves with a region's work -/

/-- The bytes of a logical bank, from offset 0. -/
def bankBytes (m : Memory) (e : MapEnt) (base : Nat → Nat) (size : Nat) : Memory :=
  let w := if e.evac then min size (128 * e.wmark) else 0
  Memory.slice m (base e.tgt) (base e.tgt + w) ++
    (Memory.slice m (base e.phys + w) (base e.phys + size)).map fun c => (c.1 + w, c.2)

/-- The offset in a logical bank of a flat address of its physical banks. -/
def offIn (e : MapEnt) (base : Nat → Nat) (a : Nat) : Option Nat :=
  let at_ := fun (p : Nat) =>
    if base p ≤ a && a < base p + 2 ^ 20 && e.physAt ((a - base p) / 128) = p then some (a - base p) else none
  (at_ e.phys).orElse fun _ => if e.evac then at_ e.tgt else none

/-- The errors of a logical bank's words, by word (R212). -/
def bankErrs (t : Tbl Bool) (e : MapEnt) (base : Nat → Nat) : Tbl Bool :=
  t.filterMap fun x => if x.1 % 4 = 1 then (offIn e base (8 * (x.1 / 4))).map fun o => (o / 8, x.2) else none

/-- A region's controllers, by their entries of the control column (R348). -/
def Region.ctlIn (g : Region) (k : Nat) : Bool := 2 * g.first ≤ k && k < 2 * (g.first + g.nrows)

def Transit.ctl : Transit → Nat
  | .enable c _ _ _ => c
  | .done c _ _ _ => c
  | .final c _ _ _ _ => c

/-- The tile slots that a row's block covers (R90). -/
def Row.tileSlots (r : Row) : List Nat :=
  match r.reel.block with
  | none => []
  | some b => upFrom 0 (4 * b.hdr.banks)

/-- What moves with a region's work. -/
def State.capture (s : State) (die k : Nat) : Image :=
  let g := s.region die k
  let c := s.cluster die g.cl
  let rows := g.rowIds die
  { gen := g.gen, own := g.own, rows := rows.map s.row,
    tiles := rows.flatMap fun r => (upFrom 0 9).filterMap fun l =>
      let e := (s.row r).ent l
      if e.pres && (s.row r).tileSlots.contains (4 * l) then some (r.row - g.first, l, bankBytes s.regf e (regfBase r) (2 ^ 15)) else none,
    syns := (banksOf g.sbanks).map fun l =>
      (l, s.ssyn.filterMap fun x => (offIn (c.ent l) (sramBase die g.cl) (64 * x.1)).map fun o => (o / 64, x.2)),
    errs := (banksOf g.sbanks).map fun l => (l, bankErrs s.ecc (c.ent l) (sramBase die g.cl)),
    banks := (banksOf g.sbanks).map fun l => (l, c.bank l, bankBytes s.sram (c.ent l) (sramBase die g.cl) (2 ^ 20)),
    jobs := c.jobs.filter fun e => g.sbanks.getLsbD (e.1 / 16),
    ctls := c.ctls.filter fun e => g.ctlIn e.1,
    transit := c.transit.filter fun t => g.ctlIn t.ctl,
    bars := g.bars, regscr := g.regscr, wdog := g.wdog, wdlim := g.wdlim, bands := s.bandsOf die k,
    nrows := g.nrows, first := g.first, cl := g.cl, imgptr := g.imgptr }

def Image.row (x : Image) (i : Nat) : Row := x.rows.getD i {}
def Image.setRow (x : Image) (i : Nat) (r : Row) : Image := { x with rows := x.rows.set i r }

def Row.node (r : Row) (n : Nat) : Node := tgetD r.nodes n {}
def Row.setNode (r : Row) (n : Nat) (x : Node) : Row := { r with nodes := tset r.nodes n x }

/-! ## Tokens as bytes -/

/-- How a queue's tokens lie in an image: in 16 bytes, or in 144. -/
inductive TokForm where
  | word | beat | ctl
  deriving DecidableEq

def TokForm.size (f : TokForm) : Nat := if f = .beat then 144 else 16

/-- The form of a node's queue, 4 being the control input queue, and of a lane. -/
def formOfQueue (n q : Nat) : TokForm := if q = 4 then .ctl else if queueIsBeat n q then .beat else .word
def formOfLane (l : Nat) : TokForm := if laneIsBeat l then .beat else .word

/-- A word token's check field as it stands (R213). -/
def wordField (v : Word) (t : RTag) (chk : Byte) : Byte :=
  (crc32c (natBytes' 4 v.toNat ++ natBytes' 3 t.toNat)).setWidth 8 ^^^ chk

/-- A beat as an image holds it: data, CRC-32C, flags and padding. -/
def beatCell (v : Beat) (chk : BitVec 32) (fl : BitVec 64) : List Byte :=
  natBytes' 128 v.toNat ++ natBytes' 4 (crc32c (natBytes' 128 v.toNat) ^^^ chk).toNat ++ natBytes' 8 fl.toNat ++ List.replicate 4 0

/-- Marker, last-read, final, wave number. -/
def QTok.marks (q : QTok) : Bool × Bool × Bool × BitVec 16 :=
  match q.tok with
  | .mark w f => (true, q.last, f, w)
  | _ => (false, q.last, false, 0)

def QTok.flags (q : QTok) : BitVec 64 := Config.tokenFlags q.marks.1 q.marks.2.1 q.marks.2.2.1 q.marks.2.2.2

/-- A token as an image holds it (R336). -/
def QTok.bytes (f : TokForm) (q : QTok) : List Byte :=
  match f, q.tok with
  | .beat, .beat v c => beatCell v c q.flags
  | .beat, _ => beatCell 0 0 q.flags
  | _, .word v t c => natBytes' 4 v.toNat ++ natBytes' 3 t.toNat ++ [wordField v t c] ++ natBytes' 8 q.flags.toNat
  | _, .ctl b => natBytes' 8 (if b then 1 else 0) ++ natBytes' 8 q.flags.toNat
  | _, _ => List.replicate 8 0 ++ natBytes' 8 q.flags.toNat

/-- The value of a token's bytes. -/
def tokFrom (f : TokForm) (bs : List Byte) : Tok :=
  match f with
  | .word =>
    let v : Word := bytesBits 32 (bs.take 4)
    let t : RTag := bytesBits 24 ((bs.drop 4).take 3)
    .word v t (wordField v t ((bs.drop 7).headD 0))
  | .beat =>
    let v : Beat := bytesBits 1024 (bs.take 128)
    .beat v (crc32c (natBytes' 128 v.toNat) ^^^ bytesBits 32 ((bs.drop 128).take 4))
  | .ctl => .ctl (decide ((bs.headD 0).toNat % 2 = 1))

/-- A token with what its bytes in an image say. -/
def QTok.from (f : TokForm) (q : QTok) (bs : List Byte) : QTok :=
  if bs = q.bytes f then q
  else
    let fl : BitVec 64 := bytesBits 64 ((bs.drop (if f = .beat then 132 else 8)).take 8)
    let m := if fl = q.flags then q.marks else Config.flagsOf fl
    { q with tok := if m.1 then .mark m.2.2.2 m.2.2.1 else tokFrom f bs, last := m.2.1 }

/-- `n` tokens from the bytes of a queue that held some. -/
def toksFrom (f : TokForm) (stage : Nat) : Nat → List QTok → List Byte → List QTok
  | 0, _, _ => []
  | n + 1, old, bs =>
    (old.headD { tok := tokFrom f [], stage := stage }).from f (bs.take f.size) :: toksFrom f stage n (old.drop 1) (bs.drop f.size)

def Queue.bytes (f : TokForm) (q : Queue) : List Byte := q.toks.flatMap (QTok.bytes f)

def Queue.from (f : TokForm) (stage : Nat) (q : Queue) (bs : List Byte) : Queue :=
  { q with toks := toksFrom f stage (bs.length / f.size) q.toks bs }

/-- The row steps of a pair link: the beat, and the scale beat of a step that has one; their flags say no marker. -/
def linkBytes (l : List (Beat × Option Beat × Nat × Nat)) : List Byte :=
  let fl := Config.tokenFlags false false false 0
  l.flatMap fun x => beatCell x.1 0 fl ++ ((x.2.1.map fun y => beatCell y 0 fl).getD [])

def linkFrom : List (Beat × Option Beat × Nat × Nat) → List Byte → List (Beat × Option Beat × Nat × Nat)
  | [], _ => []
  | x :: t, bs =>
    let r := bs.drop 144
    (bytesBits 1024 (bs.take 128), x.2.1.map fun _ => bytesBits 1024 (r.take 128), x.2.2) ::
      linkFrom t (if x.2.1.isSome then r.drop 144 else r)

/-! ## Chunks (R336) -/

/-- A chunk of a region's image: its type, row in the region, node, and which of the chunks that have these three in common: the
queue, the lane, the tile slot. -/
structure Chunk where
  typ  : Nat
  row  : Nat
  node : Nat
  ix   : Nat
  deriving DecidableEq

def Queue.holds (q : Queue) : Bool := !q.toks.isEmpty

/-- The node's queue of a chunk. -/
def Node.queueAt (n : Node) (q : Nat) : Queue := if q = 4 then n.ctl else n.queue q
def Node.setQueueAt (n : Node) (q : Nat) (x : Queue) : Node := if q = 4 then { n with ctl := x } else n.setQueue q x

/-- The chunks of a row: everything of one that hosts a block, the queues and lanes alone of one that hosts none. -/
def Row.chunks (r : Row) (i : Nat) : List Chunk :=
  let many := fun (typ n k : Nat) => (upFrom 0 k).map (Chunk.mk typ i n)
  let lanes := if r.reel.block.isSome || r.lanes.any (fun e => e.2.holds) then many 5 0 20 else []
  match r.reel.block with
  | none => (r.nodes.filter fun e => e.2.ctl.holds || e.2.qs.any fun q => q.2.holds).flatMap (fun e => many 4 e.1 5) ++ lanes
  | some b =>
    many 1 0 1 ++ (if r.reel.shadow.isSome then many 2 0 1 else []) ++
      r.nodes.flatMap (fun e => many 3 e.1 1 ++ many 4 e.1 5) ++ lanes ++ many 6 0 (4 * b.hdr.banks) ++
      many 7 33 1 ++ (if b.hdr.paired then many 8 33 1 else []) ++ many 9 34 1 ++ many 9 35 1 ++
      (if (tget r.nodes 37).isSome then many 10 37 1 else []) ++ many 11 36 1

/-- Every chunk of an image but the last. -/
def Image.chunks (x : Image) : List Chunk := ((upFrom 0 x.rows.length).zip x.rows).flatMap fun e => e.2.chunks e.1

/-- The part that a chunk without a layout holds. -/
def Image.part (x : Image) (c : Chunk) : Option Part :=
  let r := x.row c.row
  match c.typ with
  | 3 => some (.node { r.node c.node with store := [], shadow := [], qs := [], ctl := {}, fly := [] })
  | 7 => some (.mat { r.mat with link := [] } ((r.node 33).fly.map fun f => (f.id, f.step)))
  | 9 => some (.port (tgetD r.ports c.node {}) (r.node c.node).fly)
  | 10 => some (.desc r.desc)
  | 11 => some (.cell r.cell (x.ctls.filter fun e => e.1 / 2 = x.first + c.row))
  | _ => none

/-- The length in bytes of a chunk's body, and the body. -/
def Image.body (x : Image) (c : Chunk) : Nat × Memory :=
  let r := x.row c.row
  let plain := fun (bs : List Byte) => (bs.length, Memory.writeN [] 0 bs)
  match c.typ with
  | 1 => plain ((r.reel.block.map Block.bytes).getD [])
  | 2 => plain ((r.reel.shadow.map Block.bytes).getD [])
  | 4 => plain (((r.node c.node).queueAt c.ix).bytes (formOfQueue c.node c.ix))
  | 5 => plain ((r.lane c.ix).bytes (formOfLane c.ix))
  | 6 => (8192, ((x.tiles.find? fun e => e.1 = c.row && e.2.1 = c.ix / 4).map fun e =>
      Memory.slice e.2.2 (c.ix % 4 * 8192) (c.ix % 4 * 8192 + 8192)).getD [])
  | 8 => plain (linkBytes r.mat.link)
  | _ => plain (((x.part c).map fun p => (Config.partBytes p).take (2 ^ 16)).getD [])

/-- A body's length, padded to 16 bytes. -/
def pad16 (n : Nat) : Nat := (n + 15) / 16 * 16

/-- The head of a chunk. -/
def Chunk.head (c : Chunk) (len : Nat) : List Byte := natBytes' 16 (c.typ + c.row * 2 ^ 8 + c.node * 2 ^ 16 + len * 2 ^ 32)

/-- The chunks with their places, from a place on, and the end. -/
def Image.places (x : Image) : List Chunk → Nat → List (Chunk × Nat) × Nat
  | [], a => ([], a)
  | c :: t, a =>
    let (l, e) := Image.places x t (a + 16 + pad16 (x.body c).1)
    ((c, a) :: l, e)

/-- Bytes of a memory in a canonical form, by place, those of [lo, hi) replaced. -/
def State.writeCells (s : State) (pa len : Nat) (cells : Memory) : State :=
  State.parityOut
    { s with hbm := Memory.paste (Memory.clear s.hbm pa (pa + len)) pa cells, hsyn := clearSyn s.hsyn pa (pa + len),
             ecc := clearEcc (clearEcc s.ecc eccHbm pa len) eccLlc pa len } s.hbm pa len

/-- The image's chunks, written one by one, and the End chunk. -/
def State.writeChunks (s : State) (x : Image) (l : List (Chunk × Nat) × Nat) : State :=
  let p := x.imgptr
  let s1 := l.1.foldl (fun s e =>
    let b := x.body e.1
    (s.writeHome (.hbm (p + e.2)) (e.1.head b.1)).writeCells (p + e.2 + 16) (pad16 b.1) b.2) s
  s1.writeHome (.hbm (p + l.2)) ((Chunk.mk 0xFF 0 0 0).head 0)

/-! ## What RESUME takes from memory (R339) -/

/-- A chunk found in memory, with the place and the length of its body. -/
structure Found where
  chunk : Chunk
  pa    : Nat
  len   : Nat

/-- The chunks that lie in memory from a place on, up to the End or a head of no type; `seen` are those before it. -/
def State.findChunks (s : State) (seen : List Chunk) : Nat → Nat → List Found
  | 0, _ => []
  | n + 1, pa =>
    let w : DWord := bytesBits 64 (Memory.readN s.hbm pa 8)
    let f := fun (lo k : Nat) => (w.extractLsb' lo k).toNat
    let c : Chunk := ⟨f 0 8, f 8 5, f 16 6, 0⟩
    if c.typ = 0 || 11 < c.typ then []
    else
      let c1 := { c with ix := (seen.filter fun y => { y with ix := 0 } = c).length }
      ⟨c1, pa + 16, f 32 24⟩ :: State.findChunks s (c1 :: seen) n (pa + 16 + pad16 (f 32 24))

/-- A block of an image in memory: one that has been changed is checked as a fetch checks it (R66, log entry 10). -/
def State.blockFrom (s : State) (x : Image) (i : Nat) (old : Block) (bs : List Byte) : Except Cause Block :=
  if bs = old.bytes then .ok old
  else
    match x.bands.find? fun e => e.2.base ≤ x.first + i && x.first + i < e.2.base + e.2.b with
    | none => .ok old
    | some (_, b) =>
      let r := rawFrom bs
      match hdrBad old.hdr.stage r.h0 r.h1 with
      | some c => .error c
      | none => (s.checkRaw (loadCtx (x.row i).owner b (x.first + i) old.hdr.stage true) old.va r).mapError LErr.cause

/-- The instruction stores of a row's nodes with its active block, or with its shadow block (R372, R373). -/
def Row.withBlock (r : Row) (b : Block) : Row :=
  { r with reel := { r.reel with block := some b },
           nodes := r.nodes.map fun e => (e.1, if e.2.stage = b.hdr.stage then { e.2 with store := storeOf b.code e.1 } else e.2) }

def Row.withShadow (r : Row) (b : Block) : Row :=
  { r with reel := { r.reel with shadow := some b },
           nodes := r.nodes.map fun e => (e.1, if e.2.stage = r.reel.hosted then { e.2 with shadow := storeOf b.code e.1 }
             else { e.2 with store := storeOf b.code e.1 }) }

/-- A row with what a part says. -/
def Row.withPart (r : Row) (n : Nat) (p : Part) : Row :=
  let nd := r.node n
  match p with
  | .node y => r.setNode n { nd with xs := y.xs, sxs := y.sxs, seq := y.seq, wait := y.wait, rep := y.rep, progs := y.progs,
                                     marks := y.marks, outs := y.outs }
  | .mat m st =>
    let m33 := r.node 33
    { r.setNode 33 { m33 with fly := m33.fly.map fun f => { f with step := tgetD st f.id f.step } } with
      mat := { m with link := r.mat.link } }
  | .port y recs => { r.setNode n { nd with fly := recs } with ports := tset r.ports n y }
  | .desc d => { r with desc := d }
  | .cell y _ => { r with cell := y }

/-- An image with what a part in memory says; bytes that encode none leave what stands. -/
def Image.withPart (x : Image) (c : Chunk) (bs : List Byte) : Image :=
  if bs = Memory.readN (x.body c).2 0 (x.body c).1 then x
  else
    match Config.partOf c.typ bs with
    | none => x
    | some p =>
      let y := x.setRow c.row ((x.row c.row).withPart c.node p)
      match p with
      | .cell _ cs => { y with ctls := cs.foldl (fun t e => tset t e.1 e.2) y.ctls }
      | _ => y

/-- A tile slot of an image takes the bytes of its chunk. -/
def Image.withTile (x : Image) (c : Chunk) (cells : Memory) : Image :=
  let a := c.ix % 4 * 8192
  { x with tiles := x.tiles.map fun e =>
      if e.1 = c.row && e.2.1 = c.ix / 4 && Memory.slice e.2.2 a (a + 8192) ≠ cells then
        (e.1, e.2.1, Memory.paste (Memory.clear e.2.2 a (a + 8192)) a cells)
      else e }

/-- An image with what one of its chunks in memory says. -/
def State.chunkFrom (s : State) (x : Image) (f : Found) : Except Cause Image :=
  let c := f.chunk
  let r := x.row c.row
  let bs := Memory.readN s.hbm f.pa f.len
  let put := fun (y : Row) => (.ok (x.setRow c.row y) : Except Cause Image)
  match c.typ, r.reel.block, r.reel.shadow with
  | 1, some b, _ => (s.blockFrom x c.row b bs).map fun y => if y = b then x else x.setRow c.row (r.withBlock y)
  | 2, _, some b => (s.blockFrom x c.row b bs).map fun y => if y = b then x else x.setRow c.row (r.withShadow y)
  | 4, _, _ =>
    let nd := r.node c.node
    put (r.setNode c.node (nd.setQueueAt c.ix ((nd.queueAt c.ix).from (formOfQueue c.node c.ix) nd.stage bs)))
  | 5, _, _ => put (r.setLane c.ix ((r.lane c.ix).from (formOfLane c.ix) r.reel.hosted bs))
  | 6, _, _ => .ok (x.withTile c (Memory.slice s.hbm f.pa (f.pa + 8192)))
  | 8, _, _ => put { r with mat := { r.mat with link := linkFrom r.mat.link bs } }
  | _, _, _ => .ok (x.withPart c bs)

def State.chunksFrom (s : State) : Image → List Found → Except Cause Image
  | x, [] => .ok x
  | x, f :: t =>
    match s.chunkFrom x f with
    | .error c => .error c
    | .ok y => State.chunksFrom s y t

/-- Started matrix firings go on with the control tokens that the image holds (R148, R163). -/
def Row.reclaim (r : Row) : Row :=
  let n := r.node 33
  let again := fun (f : Firing) =>
    match (n.queue 3).toks.find? fun q => q.claim = f.id with
    | some ⟨.word v _ _, _, _, _, _, _⟩ =>
      let done := fun (l : List Tok) => if l.isEmpty then [] else [Tok.word (v ||| 1) 0 0]
      if v = f.a then f else { f with a := v, o0 := done f.o0, o1 := done f.o1 }
    | _ => f
  if n.fly.isEmpty then r else r.setNode 33 { n with fly := n.fly.map again }

/-- REGSCR as the header in memory holds it: words 11 to 14 (log entry 10). -/
def State.regscrFrom (s : State) (x : Image) : Tbl Word :=
  (upFrom 0 8).foldl (fun t i =>
    let v : Word := bytesBits 32 (Memory.readN s.hbm (x.imgptr + 88 + 4 * i) 4)
    if v = tgetD t i 0 then t else tset t i v) x.regscr

/-- An image with what its chunks in memory say; a double-bit error or a bad block there stops the load, and cause 0 says that it
waits for a rebuild (R396). -/
def State.loadImage (s : State) (x : Image) : Except Cause Image :=
  let l := s.findChunks [] 16384 (x.imgptr + 256)
  let len := l.foldl (fun a f => max a (f.pa + pad16 f.len + 16 - x.imgptr)) 272
  match s.homeErr (.hbm x.imgptr) len with
  | some c => .error c
  | none => (s.chunksFrom x l).map fun y => { y with regscr := s.regscrFrom x, rows := y.rows.map Row.reclaim }

/-! ## Into the rows again -/

/-- Bytes written into a logical bank, from offset 0. -/
def pasteBank (m : Memory) (e : MapEnt) (base : Nat → Nat) : Memory → Memory
  | [] => m
  | (k, v) :: t => pasteBank (Memory.write m (base (e.physAt (k / 128)) + k) v) e base t

/-- A tile bank of a row, by its logical number, takes its bytes. -/
def State.putTile (s : State) (r : RowId) (l : Nat) (m : Memory) : State :=
  let e := (s.row r).ent l
  let wipe := fun (t : Memory) (p : Nat) => Memory.clear t (regfBase r p) (regfBase r p + 2 ^ 15)
  let t := wipe s.regf e.phys
  { s with regf := pasteBank (if e.evac then wipe t e.tgt else t) e (regfBase r) m }

/-- A frozen region with what its image in memory says. -/
def State.restore (s : State) (die k : Nat) (old x : Image) : State :=
  let g := s.region die k
  let s1 := ((g.rowIds die).zip x.rows).foldl (fun s e => s.setRow e.1 e.2) s
  let s2 := (x.tiles.filter fun t => !old.tiles.contains t).foldl (fun s t => s.putTile ⟨die, g.cl, g.first + t.1⟩ t.2.1 t.2.2) s1
  let c := s2.cluster die g.cl
  let s3 := s2.setCluster die g.cl { c with ctls := x.ctls.foldl (fun t e => tset t e.1 e.2) c.ctls }
  s3.setRegion die k { s3.region die k with regscr := x.regscr }

end Sys2Proof.Machine
end

