-- ==== Sys2Proof/Machine/Merge.lean ====
section
/-!
DEFINITION. In-flight merges (R335, R392-R394): contributions and voids, their acceptance at the root, the folding of
a round and its result.
-/
namespace Sys2Proof

/-- Bytes of a contribution record (R392). -/
def MergeCfg.recBytes (c : MergeCfg) : Nat := if c.argmax then 8 else 64 + 4 * c.d

/-- Members of the mask. -/
def MergeCfg.members (c : MergeCfg) : List Nat := (Machine.upFrom 0 16).filter fun i => c.mask.getLsbD i

end Sys2Proof

namespace Sys2Proof.Machine

def Merge.cfg (m : Merge) : MergeCfg := Config.mergeCfg ((upFrom 0 16).map fun i => tgetD m.words i 0)
def Merge.valid (m : Merge) : Bool := !m.words.isEmpty
def Merge.mem (m : Merge) (i : Nat) : Member := tgetD m.mems i {}

/-! ## Folding (R393) -/

/-- The word at a byte of a record. -/
def wordAt (bs : List Byte) (o : Nat) : Word := bytesBits 32 ((bs.drop o).take 4)

/-- The exact product of three FP32 values, rounded up once. -/
def mulUp3 (a b c : Word) : Word :=
  BitVec.ofNat 32 ((((fF32.decode a.toNat).mul (fF32.decode b.toNat)).mul (fF32.decode c.toNat)).round fF32 .rup)

/-- A triple with its vector. -/
structure Triple where
  m : Word
  z : Word
  e : Word
  o : List Word

def tripleOf (d : Nat) (bs : List Byte) : Triple :=
  ⟨wordAt bs 0, wordAt bs 4, wordAt bs 8, (upFrom 0 d).map fun i => wordAt bs (64 + 4 * i)⟩

/-- One step of a TRIPLE round (R393). -/
def Triple.fold (a b : Triple) : Triple :=
  let m := f32MinMax true a.m b.m
  let f1 := f32Exp2 .rne (f32Sub .rne a.m m)
  let f2 := f32Exp2 .rne (f32Sub .rne b.m m)
  let comb := fun (x y : Word) => f32Add .rne (f32Mul .rne x f1) (f32Mul .rne y f2)
  let z := comb a.z b.z
  let up := fun (t : Triple) => mulUp3 t.e t.z (f32Exp2 .rup (f32Sub .rup t.m m))
  ⟨m, z, f32Div .rup (f32Add .rup (up a) (up b)) z, List.zipWith comb a.o b.o⟩

/-- The result of a TRIPLE round from its contributions in arrival order. -/
def foldTriples (d : Nat) : List Triple → Triple
  | [] => ⟨f32NegInf, 0, 0, List.replicate d 0⟩
  | t :: ts => ts.foldl Triple.fold t

/-- The better of two ARGMAX contributions: the higher rank, the lower index among equals (R81, R393). -/
def argBetter (a b : Word × Word) : Word × Word :=
  let r := f32Rank a.1 b.1
  if 0 < r then a else if r < 0 then b else if b.2.ult a.2 then b else a

/-- The result record: words 0 to 2 in bytes 0-11, the void mask in bytes 12-13, o from byte 64 (R393). -/
def resultBytes (w0 w1 w2 : Word) (void : BitVec 16) (o : List Word) : List Byte :=
  natBytes' 4 w0.toNat ++ natBytes' 4 w1.toNat ++ natBytes' 4 w2.toNat ++ natBytes' 2 void.toNat ++
    List.replicate 50 0 ++ o.flatMap fun w => natBytes' 4 w.toNat

/-- The result of round k. An ARGMAX round of voids alone has no value that the spec states: free words. -/
def Merge.result (m : Merge) (tick k : Nat) : List Byte :=
  let c := m.cfg
  let got := m.got.filter fun g => g.1 = k
  let data := (got.filter fun g => !g.2.2.1).map fun g => g.2.2.2
  let void : BitVec 16 := BitVec.ofNat 16 ((got.filter fun g => g.2.2.1).foldl (fun a g => a + 2 ^ g.2.1) 0)
  if c.argmax then
    let r := match data.map fun b => (wordAt b 0, wordAt b 4) with
      | [] => (Config.freeWord (2 * tick), Config.freeWord (2 * tick + 1))
      | x :: t => t.foldl argBetter x
    resultBytes r.1 r.2 0 void []
  else
    let t := foldTriples c.d (data.map (tripleOf c.d))
    resultBytes t.m t.z t.e void t.o

/-- Whether every member has contributed round k or a void. -/
def Merge.complete (m : Merge) (k : Nat) : Bool := m.cfg.members.all fun i => m.got.any fun g => g.1 = k && g.2.1 = i

def State.merge (s : State) (mid : Nat) : Merge := tgetD s.hub.merges mid {}
def State.setMerge (s : State) (mid : Nat) (m : Merge) : State := s.setHub { s.hub with merges := tset s.hub.merges mid m }

/-- A request waits for the rebuild of a block. -/
def State.park (s : State) (i : Instr) : State := s.setHub { s.hub with parked := s.hub.parked ++ [i] }

/-- A complete round writes its result and fires NOTIFY.SET of RNTFY (R393). -/
def State.endRound (s : State) (mid k : Nat) : State :=
  let m := s.merge mid
  if !m.complete k then s
  else
    let s1 := s.setMerge mid { m with got := m.got.filter (fun g => g.1 ≠ k), round := max m.round k }
    let s2 := s1.writeHome (.hbm m.cfg.rpa) (m.result s.tick k)
    (s2.setNotify m.cfg.rntfy (BitVec.ofNat 32 k)).triggerMerges m.cfg.rntfy k

/-- MERGE_CONTRIBUTION (R393, R394): accepted at the root when its generation is the member's and its round is above
the last accepted; else dropped and counted. While the result record's block is to be rebuilt it waits (R396). -/
def State.mergeContribution (s : State) (p : MergePkt) : State :=
  let m := s.merge p.mid
  if !m.valid || m.cfg.root ≠ Config.node then s
  else
    let x := m.mem p.member
    let k := p.k.toNat
    if p.member < 16 && m.cfg.mask.getLsbD p.member && x.gen = p.gen && x.last < k then
      let x1 := { x with last := k, voids := x.voids + if p.void then 1 else 0 }
      if s.unrebuilt (.hbm m.cfg.rpa) m.cfg.recBytes then s.park (.mergeContribution p)
      else
        (s.setMerge p.mid
          { m with mems := tset m.mems p.member x1, got := m.got ++ [(k, p.member, p.void, p.data)] }).endRound p.mid k
    else s.setMerge p.mid { m with drops := m.drops + 1 }

/-- A contribution leaves the member's hub for the root's. -/
def State.sendContribution (s : State) (mid mem k : Nat) (void : Bool) (data : List Byte) : State :=
  let m := s.merge mid
  let p : MergePkt := { mid := mid, member := mem, k := BitVec.ofNat 32 k, gen := (m.mem mem).gen, void := void, data := data }
  if m.cfg.root = Config.node then s.mergeContribution p
  else s.setHub { s.hub with outbox := s.hub.outbox ++ [.contribution p] }

/-- MERGE_CONTRIBUTION_SEND (R392): the member's hub reads the record, verified, and sends it. A record whose check value disagrees
or that SECDED cannot correct is not sent, and its round stays due: the spec names no firing that faults (R213, R215; DESIGN
CHOICE, log entry 97). -/
def State.mergeContributionSend (s : State) (mid mem : Nat) : State :=
  let m := s.merge mid
  let x := m.mem mem
  match x.due, m.cfg.mems[mem]? with
  | k :: t, some y =>
    let s1 := s.setMerge mid { m with mems := tset m.mems mem { x with due := t } }
    if (s.homeErr (.hbm y.cpa) m.cfg.recBytes).isSome then s
    else (s1.correct (.hbm y.cpa) m.cfg.recBytes).sendContribution mid mem k false (s.readHome (.hbm y.cpa) m.cfg.recBytes)
  | _, _ => s

/-- The rounds that a frozen member of this device voids, up to the highest that any member has contributed: from its last accepted
on where the root is here; else those that it has not sent, the highest being what the root's device tells (R335, R394). -/
def Merge.voidRounds (m : Merge) (i top : Nat) : List Nat :=
  let x := m.mem i
  if m.cfg.root = Config.node then
    let top := (m.mems.map fun e => e.2.last).foldl max x.begun
    upFrom (x.last + 1) (top - x.last)
  else x.due ++ upFrom (x.begun + 1) (top - x.begun)

/-- Members on this device whose trigger register belongs to an owner. -/
def State.ownMembers (s : State) (o : BitVec 12) (m : Merge) : List Nat :=
  m.cfg.members.filter fun i =>
    match m.cfg.mems[i]? with
    | some y => y.node = Config.node && s.granted y.trig o
    | none => false

/-- The voids of a region that freezes on a fault (R335). -/
def State.mergeVoids (s : State) (o : BitVec 12) : State :=
  s.hub.merges.foldl (fun s e =>
    if !e.2.valid then s
    else
      (s.ownMembers o e.2).foldl (fun s i =>
        let m := s.merge e.1
        let x := m.mem i
        let ks := m.voidRounds i (Config.mergeTop s.tick e.1)
        let s1 := s.setMerge e.1 { m with mems := tset m.mems i { x with due := [], begun := ks.foldl max x.begun } }
        ks.foldl (fun s k => s.sendContribution e.1 i k true []) s1) s) s

end Sys2Proof.Machine
end

