-- ==== Sys2Proof/Machine/Freeze.lean ====
section
/-!
DEFINITION. Freezes from their beginning to the image and the record (R334-R341), the moments that stop a region
(R304, R318, R338, R364), and the relaunch rule (R317, R318).
-/
namespace Sys2Proof.Machine

/-! ## Records as bytes (R340, R341) -/

/-- The eight words of a record. -/
def FaultRec.words (f : FaultRec) (seq : BitVec 16) : List DWord :=
  let b := fun (x : Bool) => if x then 1 else 0
  let ws : List DWord :=
    [BitVec.ofNat 64 (f.cause.toNat * 2 ^ 55 + f.die % 4 * 2 ^ 53 + f.cl % 16 * 2 ^ 49 + f.row % 32 * 2 ^ 44 +
       f.node % 64 * 2 ^ 38 + f.slot % 256 * 2 ^ 30 + f.owner.toNat * 2 ^ 18 + f.region % 512 * 2 ^ 9 +
       b f.res * 2 ^ 8 + b f.img * 2 ^ 7),
     BitVec.ofNat 64 (f.tag.toNat * 2 ^ 40 + f.gen.toNat * 2 ^ 16 + seq.toNat),
     BitVec.ofNat 64 (f.a.toNat * 2 ^ 32 + f.b.toNat),
     BitVec.ofNat 64 f.addr1, BitVec.ofNat 64 f.addr2, f.cookie, BitVec.ofNat 64 f.cyc]
  ws ++ [BitVec.ofNat 64 (f.aux.toNat * 2 ^ 32 + (crc32c (wordsBytes ws)).toNat)]

/-- Records that a fault queue holds. -/
def Owner.fqSize (o : Owner) : Nat := 2 ^ (o.fqlog + 4)

/-- What the hub sends after a record: an interrupt on each core in HARTS, or a message to HOSTNODE. -/
def Owner.signals (o : Owner) (k : BitVec 12) : List OutMsg :=
  if o.hosth then [.faultMsg o.hostnode k]
  else (upFrom 0 16).filterMap fun h => if o.harts.getLsbD h then some (.interrupt h k) else none

/-- FAULT_RECORD_DELIVERY (R341): the owner's next record, if its queue has room. -/
def State.faultRecordDelivery (s : State) (owner : BitVec 12) : State :=
  let q := tgetD s.hub.faults owner.toNat {}
  let o := s.owner owner
  match q.pend with
  | [] => s
  | fr :: t =>
    let h0 := Home.hbm (o.fqbase + 64 * (q.seq.toNat % o.fqSize))
    if !o.valid || o.fqSize ≤ q.outs.length || s.unrebuilt h0 64 then s
    else
      let s1 := s.writeHome h0 (wordsBytes (fr.words q.seq))
      let h := s1.hub
      s1.setHub { h with faults := tset h.faults owner.toNat 
                             { seq := q.seq + 1, outs := if fr.acked then q.outs else q.outs ++ [(q.seq, fr)], pend := t },
                         outbox := h.outbox ++ o.signals owner }

/-! ## What a freeze waits for, and what it leaves (R334, R335) -/

/-- Firings that the image keeps as started: those in steps or past them, those that wait for a tree, and an MPAIR that
waits for its partner (R9, R161, R162). -/
def Firing.kept (f : Firing) : Bool :=
  f.await = .steps || f.await = .tree || f.underway || (match f.ins with
    | .mpair _ => f.await = .hub 0
    | _ => false)

/-- Whether a firing has all it needs to complete. -/
def State.canFinish (s : State) (n : NodeId) (f : Firing) : Bool :=
  f.await = .nothing && !f.xstopped && s.completes n f && (match s.effectOf n f with
    | .ok s1 f1 => s1.lateRoom f1
    | _ => false)

/-- Firings left to complete at home: an ATOM on its way, a KILL, and one whose effect has taken place (R334, R395). -/
def Node.atHome (nd : Node) (f : Firing) : Bool :=
  f.acted || match f.ins with
  | .atom _ _ _ _ =>
    f.await = .access && f.acc.all fun a => !nd.storeBehind f a && (match a.phase with | .faulted _ _ _ => false | _ => true)
  | .kill _ _ => f.await ≠ .nothing
  | _ => false

/-- Whether an earlier firing's completion comes before another's (R103, R149, R237, R346). -/
def firingAfter (node : Nat) (g f : Firing) : Bool :=
  g.id < f.id && ((node ≠ 34 && node ≠ 35) || (f.cls.isSome && g.cls = f.cls) || g.feeds.any fun d => f.feeds.contains d)

/-- Whether a node has a firing that the freeze waits for; `held` are earlier ones that it does not. -/
def State.busyIn (s : State) (n : NodeId) : List Firing → List Firing → Bool
  | [], _ => false
  | f :: t, held =>
    if (s.canFinish n f || (s.node n).atHome f) && !held.any fun g => firingAfter n.node g f then true
    else State.busyIn s n t (f :: held)

def State.rowBusy (s : State) (r : RowId) : Bool := (rowNodes r).any fun j => s.busyIn ⟨r, j⟩ (s.node ⟨r, j⟩).fly []

/-- An access that the image records: it starts again after RESUME (R256). -/
def Access.stopped (a : Access) : Access := { a with op := .other, phase := .finished, data := [] }

def Firing.stopped (f : Firing) : Firing :=
  { f with heads := none, acc := f.acc.map fun a => if portSteps f.ins ≠ 0 || f.xstopped then a.stopped else a }

/-- A port's generator at a freeze: it goes again after RESUME, and its look-ahead translations are gone (R242, R298). -/
def Port.stop (p : Port) : Port :=
  { p with stopped := false, streams := p.streams.map fun e => (e.1, { e.2 with look := [] }) }

/-- A node stops: its started firings are cancelled but for those the image keeps, and replies to them are stale. -/
def State.stopNode (s : State) (n : NodeId) : State :=
  let nd := s.node n
  let late := nd.fly.flatMap fun f => (f.acc.filter Access.awaited).map fun a => (n, a.gen)
  let d := s.die n.row.die
  let s1 := (s.setDie n.row.die { d with stale := d.stale ++ late }).cancelAll n (nd.fly.filter fun f => !f.kept)
  let n1 := s1.node n
  let s2 := s1.setNode n { n1 with fly := n1.fly.map Firing.stopped }
  if n.node = 34 || n.node = 35 then s2.setPort n (s2.port n).stop else s2

/-- Whether a block's home is a bank of the cluster. -/
def CBlock.inBank (b : CBlock) : Bool :=
  match b.home with
  | .sram _ _ _ _ => true
  | .hbm _ => false

/-- A port's buffer is written out, but for held speculative blocks (R256); at an over-capacity point the blocks of
the region's banks are discarded (R318). -/
def State.stopBuffer (s : State) (n : NodeId) (bank : Bool) : State :=
  let p := s.port n
  let s1 := if bank then s.setPort n { p with buf := p.buf.filter fun b => !b.inBank } else s
  s1.flushIf n fun _ => true

def State.stopRow (s : State) (bank : Bool) (r : RowId) : State :=
  (rowNodes r).foldl (fun s j => s.stopNode ⟨r, j⟩) ((s.stopBuffer ⟨r, 34⟩ bank).stopBuffer ⟨r, 35⟩ bank)

/-! ## The image (R336) -/

/-- The header of an image. -/
def State.imageHeader (s : State) (die k : Nat) (fr : Option FaultRec) (len : Nat) : List Byte :=
  let g := s.region die k
  let base := match s.bandsOf die k with
    | (_, b) :: _ => b.base
    | [] => g.first
  let w0 : DWord := BitVec.ofNat 64 (0x465A * 2 ^ 48 + 1 * 2 ^ 40 + g.nrows * 2 ^ 35 + (4 - base % 4) % 4 * 2 ^ 30 + g.sbanks.toNat)
  let w2 : DWord := match fr with
    | some f => (f.words 0).getD 0 0
    | none => 0
  let scr := (upFrom 0 8).map fun i => tgetD g.regscr i 0
  wordsBytes ([w0, BitVec.ofNat 64 len, w2] ++ (upFrom 0 8).map (fun i => g.launch.getD i 0)) ++
    (scr.flatMap fun w => natBytes' 4 w.toNat) ++ List.replicate 136 0

/-- The image is written at IMGPTR: header, chunks, End. -/
def State.writeImage (s : State) (die k : Nat) (fr : Option FaultRec) : State :=
  let img := s.capture die k
  let l := img.places img.chunks 256
  (s.writeHome (.hbm img.imgptr) (s.imageHeader die k fr (l.2 + 16))).writeChunks img l

/-- Whether an enable or done of a region's controllers is on its way: it is delivered before the image (R353). -/
def State.sending (s : State) (die : Nat) (g : Region) : Bool :=
  (s.cluster die g.cl).transit.any fun t =>
    g.ctlIn t.ctl && (match t with | .final _ _ _ _ _ => false | _ => true)

/-- Whether an engine still has a copy or reduction of a region to perform: it is left to complete (R334). -/
def State.copying (s : State) (die : Nat) (g : Region) : Bool :=
  (banksOf g.sbanks).any fun b => (s.bankOf die g.cl b).segs.any fun x => x.esz = 64 && x.jobs.any fun j => !j.gath && j.gen = g.gen

/-- The gathers of a region that an engine has performed and not answered are cancelled (R334). -/
def State.cancelGathers (s : State) (die : Nat) (g : Region) : State :=
  let c := s.cluster die g.cl
  s.setCluster die g.cl { c with jobs := c.jobs.map fun e => (e.1, e.2.map fun j =>
    if j.gath && j.gen = g.gen && g.sbanks.getLsbD (e.1 / 16) then { j with again := true } else j) }

/-! ## Over-capacity points and relaunches (R317, R318) -/

/-- What each variant of a band's launch needs: index, BAND, SBANKS, RBANKS. -/
def varNeeds (b : Band) : List (Nat × Nat × Nat × Nat) :=
  if b.vtab.isEmpty then [(0, b.b, b.banks.length, b.rbanks)]
  else
    let es := varEnts (b.vtab.drop 1)
    ((upFrom 0 es.length).zip es).map fun x => (x.1, x.2.band, x.2.need.getD (0, 0))

/-- Whether a variant fits a cluster, the region's own rows and banks counting as free (R317). -/
def State.varFits (s : State) (die cl k : Nat) (v : Nat × Nat × Nat × Nat) : Bool :=
  let c := s.cluster die cl
  let taken := (dedup (s.heldBanks die cl k)).filter fun l => (c.ent l).pres
  v.2.2.1 ≤ c.count - taken.length &&
    v.2.1 ≤ ((upFrom 0 28).filter fun r => v.2.2.2 ≤ (s.row ⟨die, cl, r⟩).banksIn).length

/-- The variant that the relaunch rule takes: the one that VARSEL asked for, else the lowest that fits (R318, R321). -/
def State.nextVariant (s : State) (die k : Nat) (b : Band) : Option Nat :=
  let fits := (varNeeds b).filter fun v => s.varFits die (s.region die k).cl k v
  match b.reqVar with
  | some v => if fits.any fun x => x.1 = v then some v else (fits.head?).map fun x => x.1
  | none => (fits.head?).map fun x => x.1

/-- Every pending retirement of a region completes, and its banks lose their contents (R318). -/
def State.retirePending (s : State) (die : Nat) (g : Region) : State :=
  let s1 := (banksOf g.sbanks).foldl (fun s l => s.setCluster die g.cl ((s.cluster die g.cl).endPend l)) s
  s1.rowsLeave (g.rowIds die)

/-- The relaunch's record: its WAVES are those not yet complete (R318). -/
def relaunchWords (b : Band) : List DWord :=
  let w := b.launch.getD 0 0
  (w / 2 ^ 32 * 2 ^ 32 + BitVec.ofNat 64 (b.waves + (b.wave - b.ended))) :: b.launch.drop 1

/-- Whether every wave of a band's launch is complete. -/
def Band.done (b : Band) : Bool := b.fin && b.waves = 0

/-- The relaunch of a band's launch with a variant. -/
def Band.relaunch (b : Band) (k cyc : Nat) (regscr : Tbl Word) (v : Nat) : PReq :=
  { kind := .relaunch k, words := relaunchWords b, entered := cyc, waves0 := b.ended, var := some v, vtab := b.vtab,
    regscr := regscr, reln := b.reln + 1 }

/-- The relaunches of a region's launches, or the first launch that has no variant that fits. -/
def State.relaunches (s : State) (die k : Nat) : List Band → Except Band (List PReq)
  | [] => .ok []
  | b :: t =>
    match s.nextVariant die k b, State.relaunches s die k t with
    | some v, .ok l => .ok (b.relaunch k (s.cyc die) (s.region die k).regscr v :: l)
    | none, _ => .error b
    | _, .error x => .error x

/-- The relaunch rule (R318), the homes having been written back; a launch that has no wave left ends. -/
def State.relaunch (s : State) (die k : Nat) : State :=
  let g := s.region die k
  let s1 := s.retirePending die g
  let bs := (s1.bandsOf die k).map Prod.snd
  match s1.relaunches die k (bs.filter fun b => !b.done) with
  | .error b =>
    let fr := s1.regionRec die k 0x100 (BitVec.ofNat 32 (s1.cluster die g.cl).count)
    (s1.setRegion die k { g with ovst := 2 }).putRecord { fr with img := false, point := true, cookie := b.launch.getD 6 0 }
  | .ok qs =>
    let s2 := s1.releaseRegion die k
    let d := s2.die die
    (bs.filter Band.done).foldl State.launchNotify (s2.setDie die { d with pq := qs ++ d.pq })

/-- An over-capacity point of a frozen region (R318), its launches having one point together (log entry 69): `spill` unless the region starved with a wave in flight. -/
def State.overPoint (s : State) (die k : Nat) (spill : Bool) : State :=
  let g := s.region die k
  let bs := s.bandsOf die k
  if bs.isEmpty then s
  else if g.ovst = 2 then s.relaunch die k
  else
    let s1 := if spill && g.ovst = 0 then bs.foldl (fun s e => s.spillBand die e.2) s else s
    match s1.writeBackBands die k bs with
    | .ok s2 => s2.relaunch die k
    | .error (x, va, b) =>
      let s2 := s1.setRegion die k { g with ovst := 1 }
      if x.waits then s2 else s2.putRecord { s1.bandRec die b x va with point := true }

/-- A region takes an over-capacity event (R318): a frozen one is at its over-capacity point at once. -/
def State.overEvent (s : State) (die k : Nat) : State :=
  let s1 := s.overCap die k
  let g := s1.region die k
  if g.st = .frozen && !(s.region die k).ovc then s1.overPoint die k true else s1

/-! ## The end of a freeze -/

/-- The row of an index. -/
def rowOfIx (i : Nat) : RowId := ⟨i / 336, i / 28 % 12, i % 28⟩

/-- FRZ firings that wait for a region's image have it. -/
def State.wakeRegion (s : State) (die k : Nat) : State :=
  s.rows.foldl (fun s r => r.2.nodes.foldl (fun s e => e.2.fly.foldl (fun s f =>
    if f.await = .region die k then s.wake ⟨rowOfIx r.1, e.1⟩ f.id id else s) s) s) s

/-- Whether a freeze's record is one that voids merges: not of FRZ or TRAP (R335). -/
def voidsMerges (c : Cause) : Bool := c ≠ 0x148 && !(0x150 ≤ c.toNat && c.toNat ≤ 0x15F)

/-- YIELD's release (R338): the homes are written back, rows and banks go, and a resume request enters the queue. -/
def State.yieldRelease (s : State) (die k : Nat) : State :=
  let g := s.region die k
  let bs := s.bandsOf die k
  match (bs.foldl (fun s e => s.spillBand die e.2) s).writeBackBands die k bs with
  | .error (x, va, b) => (s.setRegion die k { g with yld := false }).putRecord (s.bandRec die b x va)
  | .ok s1 =>
    let q : PReq := { kind := .resume k, words := g.launch, entered := s.cyc die, image := some (s1.capture die k) }
    let s2 := s1.releaseRegion die k
    let s3 := s2.setRegion die k { s2.region die k with gen := g.gen }
    let d := s3.die die
    s3.setDie die { d with pq := d.pq ++ [q] }

/-- Whether what a freeze writes, its image or the homes, waits for a rebuild (R396). -/
def State.freezeWaits (s : State) (die k : Nat) (why : FrzWhy) : Bool :=
  let g := s.region die k
  let img := s.capture die k
  let l := img.places img.chunks 256
  let homes := match s.writeBackBands die k (s.bandsOf die k) with
    | .error (x, _) => x.waits
    | .ok _ => false
  !s.hub.parity.isEmpty && (s.unrebuilt (.hbm g.imgptr) (l.2 + 16) || ((why ≠ .record || g.ovc) && homes))

/-- FREEZE_COMPLETE (R334): every row has the freeze token and nothing is left to complete; the image is written, and
the record goes to the hub. -/
def State.freezeComplete (s : State) (die k : Nat) : State :=
  let g := s.region die k
  let rows := g.rowIds die
  match g.frz with
  | none => s
  | some f =>
    if g.st ≠ .running || !rows.all (fun r => f.reached r.row (s.cyc die)) || rows.any s.rowBusy || s.sending die g ||
      s.copying die g || s.freezeWaits die k f.why then s
    else
      let s1 := (rows.foldl (fun s r => s.stopRow g.ovc r) s).cancelGathers die g
      let s2 := match f.fr with
        | some fr => if voidsMerges fr.cause then s1.mergeVoids g.owner else s1
        | none => s1
      let s3 := s2.writeImage die k f.fr
      let s4 := (s3.setRegion die k { s3.region die k with st := .frozen, frz := none }).wakeRegion die k
      match f.why with
      | .record =>
        let s5 := match f.fr with
          | some fr => s4.putRecord fr
          | none => s4
        if g.ovc then s5.overPoint die k true else s5
      | .yield => if g.ovc then s4.overPoint die k ((s.bandsOf die k).all fun e => e.2.ended = e.2.wave) else s4.yieldRelease die k
      | .overCap => s4.overPoint die k ((s.bandsOf die k).all fun e => e.2.ended = e.2.wave)

/-! ## Starving, and what follows it -/

/-- Whether a queue of a row holds a token: a lane, a node's queue or control queue, an order store, the pair link (R165). -/
def Row.holdsToken (r : Row) : Bool :=
  r.lanes.any (fun l => !l.2.toks.isEmpty) || !r.mat.link.isEmpty || r.nodes.any fun e =>
    !e.2.ctl.toks.isEmpty || e.2.qs.any (fun q => !q.2.toks.isEmpty) ||
      e.2.progs.any fun p => match p.2 with | .rmerge _ st => !st.isEmpty | _ => false

/-- Whether a queue of a band holds a token: its wrap buffer, a feedback channel, a stage entry queue (R165). -/
def Band.holdsToken (b : Band) : Bool :=
  !b.wrap.isEmpty || b.fbq.any (fun e => !e.2.isEmpty) || b.stageq.any fun e => !e.2.isEmpty

/-- Whether a region's queues hold a token, its engine streams among them (R165, R364). -/
def State.holdsToken (s : State) (die k : Nat) : Bool :=
  let g := s.region die k
  (g.rowIds die).any (fun r => (s.row r).holdsToken) || (s.bandsOf die k).any (fun e => e.2.holdsToken) ||
    (banksOf g.sbanks).any fun b => (s.bankOf die g.cl b).segs.any fun x => !x.jobs.isEmpty

/-- Whether a firing of a row may still move on: an access on its way, or a step that changes something. -/
def State.rowMoves (s : State) (r : RowId) : Bool :=
  ((s.row r).firings r).any fun x =>
    x.2.acc.any (fun a => match a.phase with | .home _ => true | .walking => true | .translate => true | _ => false) ||
      decide (s.firingStep x.1 x.2.id ≠ s)

/-- A region has starved (R304, R318, R338): it runs, no firing has started since its clock last moved although it
holds tokens or it holds none, and nothing in it is still under way. -/
def State.starved (s : State) (die k : Nat) : Bool :=
  let g := s.region die k
  g.st = .running && g.frz.isNone && !g.fired && (g.wdog ≠ 0 || !s.holdsToken die k) &&
    (g.rowIds die).all fun r => !s.rowBusy r && !s.rowMoves r

/-- The first faulted access of a region's rows, lowest row and node first, with its firing (R335). -/
def State.faultedAccess (s : State) (die : Nat) (g : Region) : Option (NodeId × Firing × Access × Cause × Nat × Nat) :=
  (g.rowIds die).findSome? fun r => ((s.row r).firings r).findSome? fun x => x.2.acc.findSome? fun a =>
    match a.phase with
    | .faulted c l e => some (x.1, x.2, a, c, l, e)
    | _ => none

/-- TRANSLATION_FREEZE (R242, R304): the region that has starved freezes with the record of the access that faulted. -/
def State.translationFreeze (s : State) (die k : Nat) : State :=
  let g := s.region die k
  if !s.starved die k then s
  else
    match s.faultedAccess die g with
    | none => s
    | some (n, f, a, c, l, e) =>
      s.raise n f.slot c { f.accInfo a.op (BitVec.ofNat 32 l) with addr1 := a.addr, addr2 := e }

/-- Whether a region is at the point that ends its present work: every wave in flight has left, or it has starved. -/
def State.atPoint (s : State) (die k : Nat) : Bool :=
  let g := s.region die k
  let bs := s.bandsOf die k
  g.st = .running && g.frz.isNone && !bs.isEmpty && bs.all (fun e => !e.2.done) &&
    (bs.all (fun e => e.2.ended = e.2.wave) || s.starved die k)

/-- OVER_CAPACITY_POINT (R318). -/
def State.overCapacityPoint (s : State) (die k : Nat) : State :=
  let g := s.region die k
  if g.ovc && s.atPoint die k then s.startFreeze die k g.first none .overCap else s

/-- YIELD_POINT (R338); with an over-capacity event pending it is the over-capacity point. -/
def State.yieldPoint (s : State) (die k : Nat) : State :=
  let g := s.region die k
  if g.yld && s.atPoint die k then s.startFreeze die k g.first none (if g.ovc then .overCap else .yield) else s

/-- WATCHDOG_EXPIRY (R364). -/
def State.watchdogExpiry (s : State) (die k : Nat) : State :=
  let g := s.region die k
  if g.valid && g.wdue then
    (s.setRegion die k { g with wdue := false }).putRecord { s.regionRec die k 0x125 0 with img := false }
  else s

/-- FIRMWARE_FREEZE (R338): a freeze with 0x148 that the firmware asks for. -/
def State.firmwareFreeze (s : State) (die k : Nat) : State :=
  s.startFreeze die k (s.region die k).first (some (s.regionRec die k 0x148 0xFFFFFFFF)) .record

end Sys2Proof.Machine
end

