-- ==== Sys2Proof/Machine/Resume.lean ====
section
/-!
DEFINITION. RESUME (R335, R339) and the acknowledgement of records (R343): a region's work restarts in its own rows
or moves into others.
-/
namespace Sys2Proof.Machine

/-! ## Places that move -/

/-- A move of work: from rows of a cluster to rows of a cluster, with the bands' old and new entries. -/
structure Shift where
  fd : Nat
  fc : Nat
  ff : Nat
  td : Nat
  tc : Nat
  tf : Nat
  nrows : Nat
  bands : List (Nat × Nat)

def Shift.row (m : Shift) (r : RowId) : RowId :=
  if r.die = m.fd && r.cl = m.fc && m.ff ≤ r.row && r.row < m.ff + m.nrows then ⟨m.td, m.tc, r.row - m.ff + m.tf⟩ else r

def Shift.node (m : Shift) (n : NodeId) : NodeId := { n with row := m.row n.row }
def Shift.loc (m : Shift) (l : Loc) : Loc := { l with nd := m.node l.nd }

def Shift.band (m : Shift) (k : Nat) : Nat :=
  match m.bands.find? fun e => e.1 = k with
  | some e => e.2
  | none => k

def Shift.dest (m : Shift) : Dest → Dest
  | .none => .none
  | .queue n q => .queue (m.node n) q
  | .ctl n => .ctl (m.node n)
  | .reg n k => .reg (m.node n) k
  | .lane r l k => .lane (m.row r) l k
  | .foreign r => .foreign (m.row r)
  | .wrap _ k l => .wrap m.td (m.band k) l
  | .exit _ k => .exit m.td (m.band k)
  | .fb _ k ch => .fb m.td (m.band k) ch
  | .stageQ _ k s l => .stageQ m.td (m.band k) s l

def Shift.target (m : Shift) (t : Target) : Target := { t with dst := m.dest t.dst }

/-- A firing that the image keeps; its least completion time counts in its own die's cycles. -/
def Shift.firing (m : Shift) (f : Firing) : Firing :=
  { f with t0 := m.target f.t0, t1 := m.target f.t1, doneAt := if m.fd = m.td then f.doneAt else 0 }

def Shift.prog (m : Shift) (p : Prog) : Prog :=
  match p with
  | .loopin i (some l) t => .loopin i (some (m.loc l)) t
  | p => p

def Shift.nodeState (m : Shift) (n : Node) : Node :=
  { n with fly := n.fly.map m.firing, progs := n.progs.map fun e => (e.1, m.prog e.2) }

def Shift.home (m : Shift) (h : Home) : Home :=
  match h with
  | .sram d c b off => if d = m.fd && c = m.fc then .sram m.td m.tc b off else .sram d c b off
  | .hbm pa => .hbm pa

/-- A port rebound to its new node: its look-ahead translations go (R339). -/
def Shift.port (m : Shift) (p : Port) : Port :=
  { p with buf := p.buf.map (fun b => { b with home := m.home b.home }),
           streams := p.streams.map fun e => (e.1, { e.2 with look := [] }) }

def Shift.rowState (m : Shift) (r : Row) : Row :=
  { r with nodes := r.nodes.map (fun e => (e.1, m.nodeState e.2)), ports := r.ports.map fun e => (e.1, m.port e.2) }

/-- An entry of the control column. -/
def Shift.ctlNo (m : Shift) (c : Nat) : Nat := if c = 63 then 63 else c - 2 * m.ff + 2 * m.tf

def Shift.ctl (m : Shift) (c : Ctl) : Ctl :=
  { c with parent := m.ctlNo c.parent, arm := m.loc c.arm, dst := m.target c.dst }

/-- A word in transit; its time counts in its own die's cycles. -/
def Shift.transit (m : Shift) (t : Transit) : Transit :=
  let at_ := fun (a : Nat) => if m.fd = m.td then a else 0
  match t with
  | .enable c p i a => .enable (m.ctlNo c) p i (at_ a)
  | .done c p f a => .done (m.ctlNo c) p f (at_ a)
  | .final c d g r a => .final (m.ctlNo c) (m.target d) g r (at_ a)

/-! ## The image into rows -/

/-- The band entries of a die that hold no band, lowest first, those of completed bands last (R367, log entry 101). -/
def Die.freeBands (d : Die) : List Nat :=
  let l := (upFrom 0 168).filter fun k => (tget d.bands k).isNone
  (l.filter fun k => (tget d.past k).isNone) ++ l.filter fun k => (tget d.past k).isSome

/-- A band takes an entry of its die's table; what an earlier band left there, or in its rows, is gone. -/
def State.enterBand (s : State) (die k : Nat) (b : Band) : State :=
  let s1 := s.dropPast die fun x => x.region = b.region && (upFrom b.base b.b).any fun r => x.base ≤ r && r < x.base + x.b
  let d := s1.die die
  s1.setDie die { d with bands := tset d.bands k b, past := tdel d.past k }

/-- A moved bank's check values and errors come with its bytes (R212, R213). -/
def State.putChecks (s : State) (die cl : Nat) (img : Image) : State :=
  let s1 := img.syns.foldl (fun s x => x.2.foldl (fun s e => s.setSyn (.sram die cl x.1 (64 * e.1)) e.2) s) s
  img.errs.foldl (fun s x => x.2.foldl (fun s e => { s with ecc := tset s.ecc (eccSram (s.sramAt die cl x.1 (8 * e.1))) e.2 }) s) s1

def State.putBanks (s : State) (die cl : Nat) : List (Nat × Bank × Memory) → State
  | [] => s
  | (l, b, m) :: t =>
    let s1 := s.zeroBank die cl l
    let c := s1.cluster die cl
    let s2 := { s1 with sram := pasteBank s1.sram (c.ent l) (sramBase die cl) m }
    State.putBanks (s2.setCluster die cl { c with banks := tset c.banks l b }) die cl t

def State.putTiles (s : State) (die cl first : Nat) : List (Nat × Nat × Memory) → State
  | [] => s
  | (i, l, m) :: t =>
    let r : RowId := ⟨die, cl, first + i⟩
    State.putTiles (if ((s.row r).ent l).pres then s.putTile r l m else s) die cl first t

/-- The rows of an image stand in their new places; what belongs to the row's silicon stays. What the rows held before has left
them, and their pending retirements complete (R311). -/
def State.putRows (s : State) (o : BitVec 12) (m : Shift) (k : Nat) : List Row → State
  | [] => s
  | x :: t =>
    let r : RowId := ⟨m.td, m.tc, m.tf + k⟩
    let s1 := (s.zeroTiles r)
    let y := (s1.row r).endPends
    let z := { m.rowState x with regmap := y.regmap, rstat := y.rstat, pmc := y.pmc, owner := o }
    State.putRows (s1.setRow r z) o m (k + 1) t

/-- The fetches of a row's block buffers start again (R375). -/
def State.refetch (s : State) (r : RowId) : State :=
  match s.bandOf r with
  | none => s
  | some (_, b) =>
    let x := (s.row r).reel
    if b.mode || !x.hosts || x.nxt = x.hosted then s
    else
      let s1 := if x.sh = .loading && x.buf.isNone then s.fetchBuffer r b.desc x.nxt else s
      let nn := nextStage x.nxt b.be b.desc.d
      if x.buf2.isNone then s1.fetchBuffer r b.desc nn else s1

/-- Pending kills take effect at every KCHK slot of the restored rows; a ninth faults the region at once (R335). -/
def State.applyKills (s : State) (die k : Nat) (ks : List (BitVec 24 × BitVec 5)) : State :=
  let ls := ((s.region die k).rowIds die).flatMap fun r => (s.row r).kchks r
  let s1 := (ks.take 8).foldl (fun s x => ls.foldl (fun s l => s.addKey l x.1 x.2) s) s
  match ks[8]? with
  | none => s1
  | some x => s1.raiseRegion die k { s1.regionRec die k 0x063 0 with tag := x.1, a := x.1.setWidth 32 }

def Shift.job (m : Shift) (gen : BitVec 16) (j : EngineJob) : EngineJob := { j with n := m.node j.n, gen := gen }

/-- Work stands in a region's rows and runs (R339): `w` holds its launch, kills and generation. Banks that the region was granted
and the work does not have leave it (R311). -/
def State.putWork (s : State) (fd td tk : Nat) (img : Image) (w : Region) : State :=
  let t := s.region td tk
  let m : Shift := ⟨fd, img.cl, img.first, td, t.cl, t.first, img.nrows, (img.bands.map Prod.fst).zip (s.die td).freeBands⟩
  let gen := w.gen + 1
  let kept := img.banks.map fun x => x.1
  let s0 := ((banksOf t.sbanks).filter fun l => !kept.contains l).foldl (fun s l => s.ungrant td t.cl l) s
  let s1 := s0.putRows t.owner m 0 img.rows
  let moved := fun (b : Bank) => { b with segs := b.segs.map fun x => { x with jobs := x.jobs.map (m.job gen) } }
  let s2 := ((s1.putTiles td t.cl t.first img.tiles).putBanks td t.cl (img.banks.map fun x => (x.1, moved x.2.1, x.2.2))).putChecks td t.cl img
  let c := s2.cluster td t.cl
  let s3 := s2.setCluster td t.cl
    { c with ctls := img.ctls.foldl (fun x e => tset x (m.ctlNo e.1) (m.ctl e.2)) c.ctls,
             transit := c.transit ++ img.transit.map m.transit,
             jobs := img.jobs.foldl (fun x e => tset x e.1 (e.2.map (m.job gen))) c.jobs }
  let s4 := img.bands.foldl (fun s e =>
    s.enterBand td (m.band e.1) { e.2 with region := tk, base := e.2.base - img.first + t.first }) s3
  let s5 := s4.setRegion td tk
    { t with st := .running, yld := false, gen := gen, sbanks := BitVec.ofNat 24 (maskOf 24 fun l => kept.contains l),
             launch := w.launch, pkill := [], regscr := img.regscr, wdog := img.wdog, wdlim := img.wdlim, ovc := false, own := img.own,
             bars := img.bars.map fun e => (e.1, { e.2 with arr := e.2.arr.map fun a => (m.node a.1, a.2) }),
             frz := none, fired := false, ovst := 0 }
  let s6 := ((s5.region td tk).rowIds td).foldl State.refetch s5
  s6.applyKills td tk w.pkill

/-! ## Whether the rows suit (R327, R339) -/

/-- Whether a region is an idle one of an owner that no placement has taken. -/
def State.idleFor (s : State) (die k : Nat) (o : BitVec 12) : Bool :=
  let g := s.region die k
  g.valid && g.st = .idle && g.owner = o && (s.die die).placing.all fun e => e.2.region ≠ k

/-- Whether a region's rows suit an image: as many, with descent rows alike, and its banks free. -/
def State.suits (s : State) (img : Image) (die k : Nat) (freed : List Nat) : Bool :=
  let g := s.region die k
  let h := s.heldBanks die g.cl k
  img.nrows ≤ g.nrows && g.first % 4 = img.first % 4 && img.banks.all fun x =>
    let e := (s.cluster die g.cl).ent x.1
    e.pres && !e.pend && (!h.contains x.1 || freed.contains x.1)

/-- Whether a die has an entry of its band table for each band of an image (R367). -/
def State.bandsFit (s : State) (img : Image) (die : Nat) : Bool := img.bands.length ≤ (s.die die).freeBands.length

/-- Whether every hosted block fits its new row, whose pending retirements complete (R309, R311). -/
def State.imageFits (s : State) (img : Image) (die k : Nat) : Bool :=
  let g := s.region die k
  ((upFrom 0 img.nrows).zip img.rows).all fun x =>
    match x.2.reel.block with
    | some b => b.hdr.fits (s.row ⟨die, g.cl, g.first + x.1⟩).endPends
    | none => true

/-! ## Records acknowledged (R343) -/

def State.setOuts (s : State) (o : BitVec 12) (f : List (BitVec 16 × FaultRec) → List (BitVec 16 × FaultRec)) : State :=
  let q := tgetD s.hub.faults o.toNat {}
  s.setHub { s.hub with faults := tset s.hub.faults o.toNat { q with outs := f q.outs } }

/-- A region's unacknowledged records of one kind are acknowledged, those that are still to be delivered too. -/
def State.ackRegion (s : State) (o : BitVec 12) (die k : Nat) (gen : BitVec 16) (kind : FaultRec → Bool) : State :=
  let its := fun (x : FaultRec) => x.die = die && x.region = k && x.gen = gen && kind x
  let q := tgetD s.hub.faults o.toNat {}
  let pend := q.pend.map fun x => if its x then { x with acked := true } else x
  s.setHub { s.hub with faults := tset s.hub.faults o.toNat { q with outs := q.outs.filter fun e => !its e.2, pend := pend } }

/-- The record of a freeze, whose image RESUME takes. -/
def FaultRec.ofFreeze (x : FaultRec) : Bool := x.img && !x.point

/-- The record of an over-capacity point that could not be passed, which a RESUME tries again; the freeze's own record stays
outstanding (R404, R423). -/
def FaultRec.ofPoint (x : FaultRec) : Bool := x.point

/-! ## RESUME -/

/-- RESUME of a region into itself or another (R339); an error leaves it frozen, and cause 0 says that it waits,
for a rebuild or a free band entry. A region whose over-capacity point
found no variant, or could not write its homes back, takes that point again (R423, log entry 14). -/
def State.resume (s : State) (o : BitVec 12) (fd fk td tk : Nat) : Except Cause State :=
  let f := s.region fd fk
  if !f.valid || f.owner ≠ o || f.st ≠ .frozen then .error 0x147
  else if f.ovc then
    (if f.ovst ≠ 0 && fd = td && fk = tk then .ok ((s.ackRegion o fd fk f.gen FaultRec.ofPoint).overPoint fd fk false) else .error 0x147)
  else
    let img := s.capture fd fk
    let t := s.region td tk
    let own := if fd = td && f.cl = t.cl then banksOf f.sbanks else []
    let same := fd = td && fk = tk
    if !same && (!s.idleFor td tk o || !s.suits img td tk own) then .error 0x147
    else if !same && !s.imageFits img td tk then .error 0x101
    else if fd ≠ td && !s.bandsFit img td then .error 0
    else
      match s.loadImage img with
      | .error c => .error c
      | .ok x =>
        let s1 := s.ackRegion o fd fk f.gen FaultRec.ofFreeze
        if same then
          let s2 := s1.restore fd fk img x
          .ok ((s2.setRegion fd fk { s2.region fd fk with st := .running, pkill := [], fired := false }).applyKills fd fk f.pkill)
        else .ok ((s1.releaseRegion fd fk).putWork fd td tk x f)

end Sys2Proof.Machine
end

