-- ==== Sys2Proof/Machine/Place.lean ====
section
/-!
DEFINITION. The placement engine (R38, R45, R46, R68, R69, R232, R316, R331, R338): the order of its requests, the run
of rows that each takes, the fetches, refusals and held requests, and the installation of a placed request.
-/
namespace Sys2Proof.Machine

/-! ## The order of requests (R46) -/

def PReq.isRelaunch (r : PReq) : Bool :=
  match r.kind with
  | .relaunch _ => true
  | _ => false

def PReq.waited (r : PReq) (cyc : Nat) : Nat := cyc - r.entered
def PReq.eff (r : PReq) (cyc : Nat) : Nat := min 7 (recPrio r.words + r.waited cyc / 2 ^ 20)

/-- The order of requests that arrive on one cycle: the launch window first, then CFGREQ by cluster and row (R44). -/
def PReq.arrival (r : PReq) : Nat :=
  match r.kind with
  | .cfgreq n _ _ _ _ => 1 + 28 * n.row.cl + n.row.row
  | _ => 0

/-- Relaunches stand at the head (R318); then decreasing eff, then decreasing age. -/
def reqBefore (cyc : Nat) (a b : PReq) : Bool :=
  if a.isRelaunch ≠ b.isRelaunch then a.isRelaunch
  else if a.eff cyc ≠ b.eff cyc then b.eff cyc < a.eff cyc
  else if a.entered ≠ b.entered then a.entered < b.entered
  else a.arrival < b.arrival

/-- The requests that may be placed, in the engine's order: one that has eff 7 and has waited 2^22 cycles stops the
others. -/
def Die.candidates (d : Die) : List PReq :=
  let cyc := d.cyc.toNat
  let l := sortBy (reqBefore cyc) d.pq
  match l.find? fun r => r.eff cyc = 7 && 2 ^ 22 ≤ r.waited cyc with
  | some r => [r]
  | none => l

/-! ## What a request needs -/

/-- A variant as placement knows it: index, descriptor, SBANKS, RBANKS, the homes' sizes, the segments of its queue
banks, and the slots whose blocks hold a descent node's instructions. -/
structure Need where
  v     : Nat
  va    : Nat
  desc  : PlDesc
  sb    : Nat
  rb    : Nat
  hsz   : List Nat
  segs  : List (List Seg)
  ords  : List (Nat × Nat × Nat)
  short : Bool                      -- SBANKS are too few for its queues
  dslot : List Nat

/-- A block has instructions on node 37. -/
def Block.descends (b : Block) : Bool := b.code.any fun e => e.1 = 37

/-- A variant's needs, or why its descriptor is refused; cause 0 where its blocks wait for a rebuild (R396). -/
def State.need (s : State) (o : BitVec 12) (v : Nat) (x : VarEnt) : Except PErr Need :=
  match s.readDesc o x.desc x.band with
  | .error e => .error e
  | .ok d =>
    let blks := d.stages.map fun e => s.peekBlock o e.block
    let hsz := (upFrom 0 d.d).map fun i => ((s.peekHdr o d i).map fun h => h.homesz).getD 0
    let packs := packSegs [] 0 (queueSegs d blks)
    let own := (d.homeb + packs.length, blks.foldl (fun m b => max m ((b.map fun x => x.hdr.rbanks).getD 1)) 1)
    let n := x.need.getD own
    let bad := fun (c : Cause) => (.error ⟨{ cause := c }, x.desc, 0⟩ : Except PErr Need)
    if d.stages.any fun e => s.blockWaits o e.block then .error ⟨{ cause := 0, fetch := true }, x.desc, 0⟩
    else if homesBad d hsz then bad 0x126
    else if s.tracksBad o d d.b then bad 0x128
    else .ok { v := v, va := x.desc, desc := d, sb := n.1, rb := n.2, hsz := hsz, segs := packs, ords := ordersOf blks, short := n.1 < own.1,
               dslot := ((upFrom 0 d.d).zip blks).filterMap fun y => if (y.2.map Block.descends).getD false then some (y.1 % d.b) else none }

/-- The variants that a request may take: a relaunch the one chosen, others all. -/
def reqVars (r : PReq) (vs : List VarEnt) : List (Nat × VarEnt) :=
  let l := (upFrom 0 vs.length).zip vs
  match r.var with
  | none => l
  | some v => l.filter fun x => x.1 = v

/-! ## The run of rows (R45) -/

/-- Regions of a die that pass a test, by cluster and first row. -/
def State.regionsBy (s : State) (die : Nat) (ok : Nat → Bool) : List (Nat × Region) :=
  sortBy (fun (a b : Nat × Region) => a.2.cl * 28 + a.2.first < b.2.cl * 28 + b.2.first)
    ((s.die die).regions.filter fun e => ok e.1)

/-- Whether a region takes placements of an owner: it is the owner's, and idle or running, with no end of its present work
under way (R45, R327, log entry 69). -/
def State.takes (s : State) (die k : Nat) (o : BitVec 12) : Bool :=
  let g := s.region die k
  g.valid && g.owner = o && (g.st = .idle || (g.st = .running && g.frz.isNone && !g.ovc && !g.yld))

/-- Whether a run of rows suits a variant. -/
def State.runFits (s : State) (die cl base : Nat) (n : Need) : Bool :=
  (upFrom base n.desc.b).all (fun r => n.rb ≤ (s.row ⟨die, cl, r⟩).banksIn) && n.dslot.all fun i => (base + i) % 4 = 0

/-- The first base row of a run of `band` free rows in a list of regions that passes a test: region and base. -/
def State.findRun (s : State) (die band : Nat) (ok : Nat → Region → Nat → Bool) : List (Nat × Region) → Option (Nat × Nat)
  | [] => none
  | (k, g) :: t =>
    match (upFrom g.first (g.nrows + 1 - band)).find? fun base =>
        (upFrom base band).all (fun r => s.rowFreeAt die k r) && ok k g base with
    | some b => some (k, b)
    | none => State.findRun s die band ok t

/-- The run that a variant takes. -/
def State.runFor (s : State) (die : Nat) (o : BitVec 12) (n : Need) : Option (Nat × Nat) :=
  s.findRun die n.desc.b (fun k g base => s.runFits die g.cl base n && (s.freeBanks die g.cl k n.sb).isSome)
    (s.regionsBy die fun k => s.takes die k o)

/-- The first variant that fits, with its run (R316). A variant's descriptor is read, and can be refused, only where those before it
do not fit; one that fits and whose banks are too few for its queues is refused (R322). -/
def State.pick (s : State) (die : Nat) (o : BitVec 12) : List (Nat × VarEnt) → Except PErr (Option (Need × Nat × Nat))
  | [] => .ok none
  | (v, x) :: t =>
    match s.need o v x with
    | .error e => .error e
    | .ok n =>
      match s.runFor die o n with
      | some y => if n.short then .error ⟨{ cause := 0x102 }, x.desc, 0⟩ else .ok (some (n, y))
      | none => State.pick s die o t

/-! ## Refusals and held requests (R68, R69) -/

def Die.dropReq (d : Die) (r : PReq) : Die := { d with pq := d.pq.erase r }

/-- Whether a CFGREQ's requester can take a refusal now: its region runs. -/
def State.requester (s : State) (n : NodeId) (gen : BitVec 16) : Option (Nat × Region) :=
  match s.regionOf n.row with
  | some (k, g) => if g.gen = gen then some (k, g) else none
  | none => none

/-- A refusal (R68, R422), `k` the region of the chosen rows; none where the requester's region is frozen, so that the
request waits. A CFGREQ whose requesting region has gone, or has another generation, gives no record and freezes nothing
(DESIGN CHOICE, log entry 80). -/
def State.refuse (s : State) (die k : Nat) (r : PReq) (x : PErr) : Option State :=
  let o := recOwner r.words
  let cookie := r.words.getD 6 0
  match r.kind with
  | .cfgreq n gen idx _ _ =>
    match s.requester n gen with
    | none => some s
    | some (k, g) =>
      if g.st ≠ .running || g.frz.isSome then none
      else
        let fr := s.mkRec n x.e.slot x.e.cause { addr1 := x.va, addr2 := x.e.addr, aux := BitVec.ofNat 32 idx } k g
        some (s.startFreeze n.row.die k n.row.row (some fr) .record)
  | _ =>
    let fr := s.dieRec die o x.e.cause cookie x.va x.e.addr
    let h := s.region die k
    some (s.putRecord { fr with cl := h.cl, row := h.first, region := k, gen := h.gen, slot := x.e.slot, aux := BitVec.ofNat 32 x.stage })

/-- The record of a fetch of placement `j` that faulted: the placement is held (R69). -/
def State.holdRec (s : State) (die j : Nat) (p : Placing) (x : PErr) : State :=
  let d := s.die die
  let s1 := s.setDie die { d with placing := tset d.placing j { p with held := true } }
  let g := s.region die p.region
  let fr := s.dieRec die (recOwner p.req.words) x.e.cause (p.req.words.getD 6 0) x.va x.e.addr
  s1.putRecord { fr with cl := g.cl, row := g.first, region := p.region, gen := g.gen, slot := x.e.slot, aux := BitVec.ofNat 32 x.stage,
                         held := some j }

/-! ## Planning -/

/-- The fetches that a placement makes: for each slot its stage, and under SCROLL the next and the one after (R375). -/
def fetchStages (d : PlDesc) : List Nat :=
  (upFrom 0 (min d.d d.b)).flatMap fun i =>
    if d.choice || d.d ≤ d.b then [i]
    else
      let n := nextStage i d.b d.d
      let m := nextStage n d.b d.d
      [i] ++ (if n = i then [] else [n]) ++ (if m = i || m = n then [] else [m])

/-- A placement takes its rows: it enters the die's placements with the next number. -/
def Die.place (d : Die) (p : Placing) : Die := { d with placing := tset d.placing d.nplace p, nplace := d.nplace + 1 }

/-- Fetches of placement `j`. -/
def Fetch.serves (f : Fetch) (j : Nat) : Bool :=
  match f.what with
  | .place i => i = j
  | .buffer _ => false

def Die.dropFetches (d : Die) (j : Nat) : Die := { d with fetches := d.fetches.filter fun e => !e.2.serves j }

/-- A placement leaves the die's placements, its fetches with it. -/
def Die.unplace (d : Die) (j : Nat) : Die := { d.dropFetches j with placing := tdel d.placing j }

def Die.addFetches (d : Die) (k : Nat) (desc : PlDesc) : List Nat → Die
  | [] => d
  | st :: t =>
    let va := ((desc.stages[st]?).map fun e => e.block).getD 0
    Die.addFetches { d with fetches := tset d.fetches d.nfetch { what := .place k, va := va, stage := st }, nfetch := d.nfetch + 1 } k desc t

/-- A request takes its rows and banks, and its fetches start. -/
def State.plan (s : State) (die : Nat) (r : PReq) (n : Need) (k base : Nat) (vtab : List DWord) : State :=
  let g := s.region die k
  let banks := (s.freeBanks die g.cl k n.sb).getD []
  let p : Placing := { req := r, region := k, base := base, desc := n.desc, varn := n.v, vtab := vtab,
                       banks := BitVec.ofNat 24 (maskOf 24 fun l => banks.contains l), segs := n.segs, ords := n.ords, rb := n.rb, hsz := n.hsz }
  let d := (s.die die).dropReq r
  s.setDie die ((d.place p).addFetches d.nplace n.desc (dedup (fetchStages n.desc)))

/-- A refused request leaves the queue (R68). -/
def State.dropRefused (s : State) (die k : Nat) (r : PReq) (x : PErr) : Option State :=
  (s.refuse die k r x).map fun t => t.setDie die ((t.die die).dropReq r)

/-- A request whose descriptor or tables are refused or cannot be read takes the first run of its BAND: a read that
faulted holds the run (R69), a refusal ends the request (R68). One that waits for a rebuild is passed over (R396). -/
def State.stopReq (s : State) (die : Nat) (r : PReq) (x : PErr) : Option State :=
  if x.e.waits then none
  else
  match s.findRun die (recBand r.words) (fun _ _ _ => true) (s.regionsBy die fun k => s.takes die k (recOwner r.words)) with
  | none => none
  | some (k, base) =>
    if !x.e.fetch then s.dropRefused die k r x
    else
    let d0 : PlDesc := { d := 0, b := recBand r.words, choice := false, wrapN := 0, nfb := 0, fbN := 0, homeb := 1, stages := [] }
    let p : Placing := { req := r, region := k, base := base, desc := d0, planned := false }
    let d := (s.die die).dropReq r
    some ((s.setDie die (d.place p)).holdRec die d.nplace p x)

/-- The argument's target in a subgraph entry: node, queue of the row at band slot 0 (R331). -/
def argTarget (entry : List DWord) : Nat × Nat :=
  let w := entry.getD 2 0
  ((w.extractLsb' 10 6).toNat, (w.extractLsb' 8 2).toNat)

/-- A subgraph entry that breaks a check of R331. -/
def subgraphBad (entry : List DWord) : Bool :=
  recBad entry || recOwner entry ≠ 0 || (entry.getD 2 0).extractLsb' 16 48 ≠ 0 || (entry.getD 2 0).extractLsb' 0 8 ≠ 0 ||
    37 < (argTarget entry).1 || crcBad entry

/-- The check of an entry with the block of stage 0 that would take its argument. -/
def State.argBad (s : State) (o : BitVec 12) (entry : List DWord) (d : PlDesc) : Bool :=
  let t := argTarget entry
  match (d.stages[0]?).bind fun e => s.peekBlock o e.block with
  | none => false
  | some b => !(poppedOf (instrsOf b.code t.1)).contains t.2

/-- Why a CFGREQ's entry is refused before its needs are read, or once its variant's are (R331). -/
def State.entryErr (s : State) (r : PReq) (n : Option Need) : Option PErr :=
  match r.kind with
  | .cfgreq _ _ _ e _ =>
    if subgraphBad e || n.any fun n => s.argBad (recOwner r.words) e n.desc then some ⟨{ cause := 0x01D }, (e.getD 1 0).toNat, 0⟩ else none
  | _ => none

/-- The single-bit errors that reading a request's descriptor and its variant table meets are corrected (R212). -/
def State.fixTables (s : State) (o : BitVec 12) (r : PReq) (n : Need) (vtab : List DWord) : State :=
  let s1 := if r.vtab.isEmpty then s.fixVa o false vtab.length (r.words.getD 4 0).toNat else s
  s1.fixVa o false (8 + 8 * n.desc.d) n.va

/-- What placement does with a request that needs blocks: it is refused, held, planned, or passed over. -/
def State.tryLaunch (s : State) (die : Nat) (r : PReq) : Option State :=
  let o := recOwner r.words
  let stop := s.stopReq die r
  match s.entryErr r none with
  | some x => s.dropRefused die 0 r x
  | none =>
    match s.variants r with
    | .error x => stop x
    | .ok (vs, vtab) =>
      match s.pick die o (reqVars r vs) with
      | .error x => stop x
      | .ok none => none
      | .ok (some (n, k, base)) =>
        match s.entryErr r (some n) with
        | some x => stop x
        | none => some ((s.fixTables o r n vtab).plan die r n k base vtab)

/-- A resume request of YIELD takes the first rows that suit its image, and loads the image from memory as RESUME does (R338, R339): an
error there holds the request (R69). -/
def State.tryResume (s : State) (die : Nat) (r : PReq) (img : Image) : Option State :=
  let o := recOwner r.words
  match (s.regionsBy die fun k => s.idleFor die k o).find? fun e =>
      s.suits img die e.1 [] && s.imageFits img die e.1 && s.bandsFit img die with
  | none => none
  | some (k, _) =>
    let w : Region := { launch := r.words, gen := img.gen }
    match s.loadImage img with
    | .error c => s.stopReq die r ⟨{ cause := c, addr := img.imgptr, fetch := true }, img.imgptr, 0⟩
    | .ok x => some ((s.setDie die ((s.die die).dropReq r)).putWork die die k x w)

def State.tryReq (s : State) (die : Nat) (r : PReq) : Option State :=
  match r.image with
  | some img => s.tryResume die r img
  | none => s.tryLaunch die r

def State.firstReq (s : State) (die : Nat) : List PReq → State
  | [] => s
  | r :: t =>
    match s.tryReq die r with
    | some x => x
    | none => State.firstReq s die t

/-- The request of placement `j` leaves its rows and waits again, with its age. -/
def State.unplace (s : State) (die j : Nat) (p : Placing) : State :=
  let d := (s.die die).unplace j
  s.setDie die { d with pq := p.req :: d.pq }

/-- A held placement that was never planned goes back to the queue with its age, and is planned again in its rows
where it can be (R69). -/
def State.replan (s : State) (die j : Nat) (p : Placing) : State :=
  let s1 := s.unplace die j p
  match s1.tryReq die p.req with
  | some x => x
  | none => s1

/-- PLACEMENT: a graph's next node enters the queue, a restarted placement is planned, or the first request in the
engine's order that fits is placed (R45, R46, R232). -/
def State.placement (s : State) (die : Nat) : State :=
  let d := s.die die
  match d.graphs.find? fun e => !e.2.nodes.isEmpty && d.queued < 256 with
  | some (k, g) => s.dispatchNode die k g
  | none =>
    match d.placing.find? fun e => !e.2.planned && !e.2.held with
    | some (k, p) => s.replan die k p
    | none => s.firstReq die d.candidates

/-! ## Installation (R45, R68, R375) -/

/-- The homes that placement copies in, as words by stage, or the first read that faults. -/
def State.readHomes (s : State) (o : BitVec 12) (home : Nat) (d : PlDesc) : List (Nat × Nat) → Except PErr (List (Nat × List DWord))
  | [] => .ok []
  | (st, sz) :: t =>
    let off := 64 * (((d.stages[st]?).map fun e => e.hoff).getD 0)
    match if sz = 0 then .ok [] else s.readWords o (sz / 8) (home + off) with
    | .error e => .error ⟨e, home + off, st⟩
    | .ok ws =>
      match State.readHomes s o home d t with
      | .error e => .error e
      | .ok l => .ok ((off, ws) :: l)

/-- Whether a home that a placement copies in waits for a rebuild (R396). -/
def State.homesWait (s : State) (p : Placing) : Bool :=
  !s.hub.parity.isEmpty &&
    (match s.readHomes (recOwner p.req.words) (p.req.words.getD 3 0).toNat p.desc ((upFrom 0 p.hsz.length).zip p.hsz) with
     | .error x => x.e.waits
     | .ok _ => false)

/-- Words into the home area. -/
def State.fillHomes (s : State) (die cl : Nat) (banks : List Nat) : List (Nat × List DWord) → State
  | [] => s
  | (off, ws) :: t =>
    let s1 := (upFrom 0 ws.length).foldl (fun s i =>
      let a := off + 8 * i
      match banks[a / 2 ^ 20]? with
      | none => s
      | some l => s.writeHome (.sram die cl l (a % 2 ^ 20)) (natBytes' 8 (ws.getD i 0).toNat)) s
    State.fillHomes s1 die cl banks t

/-- The queue banks of a placement and their segments. -/
def State.setQueueBanks (s : State) (die cl : Nat) : List (Nat × List Seg) → State
  | [] => s
  | (l, gs) :: t =>
    let c := s.cluster die cl
    let b : Bank := { mode := .queue, segs := gs }
    State.setQueueBanks (s.setCluster die cl { c with banks := tset c.banks l b }) die cl t

/-- The band of a placed request. -/
def Placing.band (p : Placing) (banks : List Nat) : Band :=
  { mode := p.desc.choice, b := p.desc.b, be := p.desc.b, region := p.region, base := p.base, live := upFrom 0 p.desc.b,
    desc := p.desc, homes := banks.take p.desc.homeb, hsz := p.hsz, qbank := (banks.drop p.desc.homeb).take p.segs.length, ords := p.ords,
    waves := recWaves p.req.words, wave := p.req.waves0, gone := p.req.waves0, ended := p.req.waves0, rbanks := p.rb,
    launch := p.req.words, varn := p.varn, vtab := p.vtab, reln := p.req.reln, banks := banks }

/-- The argument of a CFGREQ, with tag 0, before wave 0's first record (R332). -/
def State.giveArg (s : State) (die : Nat) (p : Placing) (cl : Nat) : State :=
  match p.req.kind with
  | .cfgreq _ _ _ e (some v) =>
    let t := argTarget e
    s.push ⟨.queue ⟨⟨die, cl, p.base⟩, t.1⟩ t.2, false, 0⟩ (wordTok v 0)
  | _ => s

/-- Banks of a cluster are granted: they read as zero, and their mode is SCRATCH (R199). -/
def State.grant (s : State) (die cl : Nat) (banks : List Nat) : State :=
  banks.foldl (fun s l =>
    let t := s.zeroBank die cl l
    t.setCluster die cl { t.cluster die cl with banks := tdel (t.cluster die cl).banks l }) s

/-- The region runs a placed request: an idle one begins anew, with an over-capacity event of a bank granted to it still to be
served (R318); a running one goes on with one launch more (log entry 69). -/
def Region.placed (g : Region) (req : PReq) (varn : Nat) (banks : List Nat) : Region :=
  let mask := BitVec.ofNat 24 (maskOf 24 fun l => banks.contains l)
  if g.st = .running then { g with sbanks := g.sbanks ||| mask }
  else
    { g with st := .running, yld := false, sbanks := g.sbanks ||| mask, launch := req.words, pkill := [],
             regscr := if req.isRelaunch then req.regscr else g.regscr, own := [], bars := [], frz := none, fired := false,
             ovst := 0, varn := varn, reln := req.reln }

/-- Every block has passed: they are installed together, and the region runs. -/
def State.installAll (s : State) (die j : Nat) (p : Placing) (blks : List Block) : State :=
  let g := s.region die p.region
  let o := recOwner p.req.words
  let banks := banksOf p.banks
  if !(blks.all fun b => b.hdr.fits (s.row ⟨die, g.cl, p.base + b.hdr.stage % max 1 p.desc.b⟩)) ||
      banks.any (fun l => !((s.cluster die g.cl).ent l).pres || ((s.cluster die g.cl).ent l).pend) then s.unplace die j p
  else
    match s.readHomes o (p.req.words.getD 3 0).toNat p.desc ((upFrom 0 p.hsz.length).zip p.hsz) with
    | .error x => s.holdRec die j p x
    | .ok hs =>
      let rows : List RowId := (upFrom p.base p.desc.b).map fun r => ⟨die, g.cl, r⟩
      let d := (s.die die).unplace j
      let kb := d.freeBands.headD 0
      let b := p.band banks
      let s1 := (s.setDie die d).enterBand die kb b
      let s2 := rows.foldl (fun s r => (s.emptyRow r).passRow r o) (s1.unarmRows die g.cl (rows.map RowId.row))
      let s3 := s2.grant die g.cl banks
      let fixed := hs.foldl (fun s e => s.fixVa o false e.2.length ((p.req.words.getD 3 0).toNat + e.1)) s3
      let s4 := (fixed.setQueueBanks die g.cl (b.qbank.zip p.segs)).fillHomes die g.cl b.homes hs
      let s5 := s4.setRegion die p.region (g.placed p.req p.varn banks)
      let s6 := (upFrom 0 (min p.desc.d p.desc.b)).foldl (fun s i => s.reloadSlot ⟨die, g.cl, p.base + i⟩ b i blks) s5
      s6.giveArg die p g.cl

/-! ## BLOCK_FETCH (R66, R68, R69) -/

/-- The fetches of a placement: their blocks, where all have come. -/
def blocksOf : List Fetch → Option (List Block)
  | [] => some []
  | f :: t =>
    match f.blk, blocksOf t with
    | some b, some l => some (b :: l)
    | _, _ => none

def Die.placeFetches (d : Die) (j : Nat) : List Fetch := (d.fetches.filter fun e => e.2.serves j).map Prod.snd

/-- A placement whose block was refused is abandoned, and its rows are free (R68). -/
def State.abandon (s : State) (die j : Nat) : State := s.setDie die ((s.die die).unplace j)

/-- Whether a placement's block of stage 0 does not pop the queue that takes a CFGREQ's argument (R331). -/
def Placing.argBad (p : Placing) (stage : Nat) (b : Block) : Bool :=
  match p.req.kind with
  | .cfgreq _ _ _ e _ => stage = 0 && !(poppedOf (instrsOf b.code (argTarget e).1)).contains (argTarget e).2
  | _ => false

/-- The single-bit errors that a block's fetch meets are corrected (R212). -/
def State.fixBlock (s : State) (o : BitVec 12) (va : Nat) (b : Block) : State :=
  s.fixVa o false (2 + b.code.length + (b.code.filter fun e => e.2.2.2.isSome).length + (b.code.length + 7) / 8) va

/-- A block for placement `j`; the last one installs them all, once the region takes placements and the band table has an entry
free (R367). -/
def State.fetchPlaced (s : State) (die f j : Nat) (x : Fetch) (p : Placing) : State :=
  let g := s.region die p.region
  let o := recOwner p.req.words
  let row := p.base + x.stage % max 1 p.desc.b
  let c : LoadCtx := { owner := o, desc := p.desc, b := p.desc.b, stage := x.stage, row := row }
  let r : Except LErr Block := match s.loadBlock c x.va with
    | .error e => .error e
    | .ok b =>
      if p.argBad x.stage b then .error { cause := 0x01D }
      else if b.hdr.fits (s.row ⟨die, g.cl, row⟩) then .ok b else .error { cause := 0x101 }
  let d := s.die die
  match r with
  | .error e =>
    if e.waits then s
    else if e.fetch then s.holdRec die j p ⟨e, x.va, x.stage⟩
    else
      match s.refuse die p.region p.req ⟨e, x.va, x.stage⟩ with
      | some t => t.abandon die j
      | none => s
  | .ok b =>
    let s1 := (s.fixBlock o x.va b).setDie die { d with fetches := tset d.fetches f { x with blk := some b } }
    match blocksOf ((s1.die die).placeFetches j) with
    | none => s1
    | some blks => if s.takes die p.region o && !s.homesWait p && !d.freeBands.isEmpty then s1.installAll die j p blks else s

/-- A block for a row's buffers: a fault or refusal freezes the hosting region, and the fetch starts again with it. -/
def State.fetchBuffered (s : State) (die f : Nat) (r : RowId) (x : Fetch) : State :=
  match s.regionOf r, s.bandOf r with
  | some (k, g), some (_, b) =>
    if g.st ≠ .running || g.frz.isSome then s
    else
      match s.loadBlock (loadCtx g.owner b r.row x.stage (b.be ≠ b.b)) x.va with
      | .error e => if e.waits then s else s.reelFault die k r.row x.va x.stage e
      | .ok blk =>
        let d := s.die die
        let s1 := (s.fixBlock g.owner x.va blk).setDie die { d with fetches := tdel d.fetches f }
        s1.fillBuffer r (decide (x.stage ≠ (s.row r).reel.nxt)) blk
  | _, _ => s

/-- BLOCK_FETCH: a fetch completes its reads, and its block is checked. The whole fetch is one step, so a write that is not
ordered before it is seen in all words or in none (DESIGN CHOICE, log entry 79). -/
def State.blockFetch (s : State) (die f : Nat) : State :=
  match tget (s.die die).fetches f with
  | none => s
  | some x =>
    match x.what with
    | .buffer r => s.fetchBuffered die f r x
    | .place k =>
      match tget (s.die die).placing k with
      | none => s
      | some p => if p.held || x.blk.isSome then s else s.fetchPlaced die f k x p

/-! ## FAULTACK (R343) -/

/-- An acknowledged fetch fault restarts the placement's fetches from their first bytes. -/
def State.restart (s : State) (die j : Nat) : State :=
  let d := s.die die
  match tget d.placing j with
  | none => s
  | some p =>
    let d1 := d.dropFetches j
    let d2 := { d1 with placing := tset d.placing j { p with held := false } }
    s.setDie die (if p.planned then d2.addFetches j p.desc (dedup (fetchStages p.desc)) else d2)

/-- FAULTACK of record SEQ of an owner (R343). -/
def State.faultack (s : State) (o : BitVec 12) (seq : BitVec 16) (kill : Bool) : Except Cause State :=
  match (tgetD s.hub.faults o.toNat {}).outs.find? fun e => e.1 = seq with
  | none => .error 0x147
  | some (_, fr) =>
    let freed := s.setOuts o fun l => l.filter fun e => e.1 ≠ seq
    match fr.held with
    | some k => .ok (if kill then freed.abandon fr.die k else freed.restart fr.die k)
    | none =>
      if !kill || (!fr.res && !fr.img) then .ok freed
      else
        let g := s.region fr.die fr.region
        if g.valid && g.st = .frozen && g.gen = fr.gen then .ok (freed.releaseRegion fr.die fr.region) else .error 0x147

end Sys2Proof.Machine
end

