-- ==== Sys2Proof/Machine/Banks.lean ====
section
/-!
DEFINITION. Retirement of banks and Gavotte's evacuations (R307-R315, R382), and what BRET and the firmware ask of
them (R320).
-/
namespace Sys2Proof.Machine

/-! ## Requests (R311, R312) -/

/-- Whether an evacuation runs in a place. -/
def State.evacIn (s : State) (p : BankPlace) : Bool :=
  match p.row with
  | none => (s.cluster p.die p.cl).evac
  | some r => (s.row ⟨p.die, p.cl, r⟩).evac

/-- The logical bank in front of a physical one. -/
def State.logicalOf (s : State) (b : BankId) : Option Nat :=
  let p := b.place
  match p.row with
  | none => (upFrom 0 24).find? fun l => let e := (s.cluster p.die p.cl).ent l; e.pres && e.phys = b.phys
  | some r => (upFrom 0 9).find? fun l => let e := (s.row ⟨p.die, p.cl, r⟩).ent l; e.pres && e.phys = b.phys

def State.entOf (s : State) (p : BankPlace) (l : Nat) : MapEnt :=
  match p.row with
  | none => (s.cluster p.die p.cl).ent l
  | some r => (s.row ⟨p.die, p.cl, r⟩).ent l

def State.setEnt (s : State) (p : BankPlace) (l : Nat) (e : MapEnt) : State :=
  match p.row with
  | none =>
    let c := s.cluster p.die p.cl
    s.setCluster p.die p.cl { c with map := tset c.map l e }
  | some r =>
    let x := s.row ⟨p.die, p.cl, r⟩
    s.setRow ⟨p.die, p.cl, r⟩ { x with regmap := tset x.regmap l e }

def State.statusOf (s : State) (b : BankId) : BankStatus :=
  let p := b.place
  match p.row with
  | none => (s.cluster p.die p.cl).stat b.phys
  | some r => (s.row ⟨p.die, p.cl, r⟩).stat b.phys

def State.setStatus (s : State) (p : BankPlace) (phys : Nat) (x : BankStatus) : State :=
  match p.row with
  | none =>
    let c := s.cluster p.die p.cl
    s.setCluster p.die p.cl { c with status := tset c.status phys x }
  | some r =>
    let y := s.row ⟨p.die, p.cl, r⟩
    s.setRow ⟨p.die, p.cl, r⟩ { y with rstat := tset y.rstat phys x }

/-- Whether a bank's retirement is done, queued or running, a pending one included: a request for it is ignored. -/
def State.retiring (s : State) (b : BankId) : Bool :=
  s.statusOf b = .retired || (s.cluster b.place.die b.place.cl).fifo.any (fun q => q.bank = b) ||
    (match s.logicalOf b with
     | some l => let e := s.entOf b.place l; e.evac || e.pend
     | none => false)

/-- A request joins the line for its cluster's FIFO. -/
def State.askRetire (s : State) (q : RetReq) : State :=
  let p := q.bank.place
  let c := s.cluster p.die p.cl
  s.setCluster p.die p.cl { c with waitq := c.waitq ++ [q] }

/-- The answer to who asked: 1 queued, 0 ignored. -/
def State.answerRet (s : State) (src : RetSource) (r : Word) : State :=
  match src with
  | .firing n id => s.wake n id fun f => { f with o0 := [wordTok r f.tag], o1 := [wordTok r f.tag] }
  | .command => s
  | .device => s

/-- The bank of a request: of one that a power mode makes for a logical bank, the physical bank that stands behind it now, or
will when its evacuation is complete (R22, R311). -/
def State.bankNow (s : State) (q : RetReq) : RetReq :=
  match q.off with
  | none => q
  | some l =>
    let e := s.entOf q.bank.place l
    if e.pres then { q with bank := ⟨q.bank.place, if e.evac then e.tgt else e.phys⟩ } else q

/-- Whether a power mode's request for a logical bank waits: an earlier retirement of the bank behind it has still to run. -/
def State.waitsTurn (s : State) (q : RetReq) : Bool :=
  q.off.isSome && (s.cluster q.bank.place.die q.bank.place.cl).fifo.any fun x => x.bank = q.bank

/-- The line's first request enters the FIFO, or is ignored; none while the FIFO is full. `r` is the answer. -/
def State.enterFifo (s : State) (die cl : Nat) : Option (State × RetReq × Word) :=
  let c := s.cluster die cl
  match c.waitq with
  | [] => none
  | q0 :: t =>
    let q := s.bankNow q0
    if s.waitsTurn q then none
    else if s.retiring q.bank then some ((s.setCluster die cl { c with waitq := t }).answerRet q.src 0, q, 0)
    else if c.fifo.length < 32 then some ((s.setCluster die cl { c with waitq := t, fifo := c.fifo ++ [q] }).answerRet q.src 1, q, 1)
    else none

/-- RETIREMENT_THRESHOLD (R312): a bank whose corrected errors reach the threshold within a window. -/
def State.retirementThreshold (s : State) (b : BankId) : State :=
  let c := s.cluster b.place.die b.place.cl
  let n := match b.place.row with
    | none => (tgetD c.errs b.phys (0, 0)).1
    | some r => (tgetD c.rerrs (16 * r + b.phys) (0, 0)).1
  if s.hub.thresh ≤ n && !s.retiring b && !c.waitq.any fun q => q.bank = b then s.askRetire { bank := b, src := .device } else s

/-! ## Retirement (R311) -/

/-- The region that a logical SRAM bank is granted to. -/
def State.grantee (s : State) (die cl l : Nat) : Option Nat :=
  ((s.die die).regions.find? fun e => e.2.valid && e.2.cl = cl && e.2.sbanks.getLsbD l).map Prod.fst

/-- An SRAM bank leaves; `off` says that its logical bank goes with it, whatever spares there are (R22). -/
def State.retireSram (s : State) (p : BankPlace) (x : Nat) (dark off : Bool) : State :=
  let c := s.cluster p.die p.cl
  let gone : BankStatus := if dark then .dark else .retired
  match (upFrom 0 2).find? fun i => c.spare i = (true, x) with
  | some i => s.setCluster p.die p.cl { c with spares := tset c.spares i (false, x), status := tset c.status x gone }
  | none =>
    match s.logicalOf ⟨p, x⟩ with
    | none => s.setStatus p x gone
    | some l =>
      let e := c.ent l
      match if off then none else (upFrom 0 2).find? fun i => (c.spare i).1 with
      | some i =>
        let t := (c.spare i).2
        s.setCluster p.die p.cl
          { c with map := tset c.map l { e with evac := true, wmark := 0, tgt := t, dark := dark },
                   spares := tset c.spares i (false, t), status := tset c.status t .service }
      | none =>
        match s.grantee p.die p.cl l with
        | none => (s.setEnt p l { pres := false, phys := x }).setStatus p x gone
        | some k => (s.setEnt p l { e with pend := true, dark := dark }).overEvent p.die k

/-- The highest present register bank that the hosted block leaves unused. -/
def Row.unused (r : Row) (h : Hdr) : Option Nat :=
  (upFrom 0 9).reverse.find? fun l => (r.ent l).pres && !(r.ent l).pend && h.banks ≤ l && (h.detect || l ≠ 8)

/-- A register bank leaves. An unused bank that is the highest such needs no copy (R309, R311); a row that no launch holds hosts
no block. -/
def State.retireReg (s : State) (p : BankPlace) (r : RowId) (x : Nat) : State :=
  let rw := s.row r
  match s.logicalOf ⟨p, x⟩ with
  | none => s.setStatus p x .retired
  | some l =>
    let off := fun (s : State) => ((s.setEnt p l { pres := false, phys := x }).setStatus p x .retired).checkLeaving r
    match if s.idleAt r then none else rw.reel.block with
    | none => off s
    | some b =>
      match rw.unused b.hdr with
      | some h =>
        if h = l then off s
        else
          let s1 := s.setEnt p h { pres := false, phys := (rw.ent h).phys }
          (s1.setEnt p l { rw.ent l with evac := true, wmark := 0, tgt := (rw.ent h).phys }).checkLeaving r
      | none =>
        let s1 := s.setEnt p l { rw.ent l with pend := true }
        match s1.regionOf r with
        | some (k, _) => s1.overEvent r.die k
        | none => s1

/-- RETIREMENT (R311): the first request of a place in its cluster's FIFO, once no evacuation runs there. -/
def State.retirement (s : State) (p : BankPlace) : State :=
  let c := s.cluster p.die p.cl
  if s.evacIn p then s
  else
    match c.fifo.find? fun q => q.bank.place = p with
    | none => s
    | some q =>
      let s1 := s.setCluster p.die p.cl { c with fifo := c.fifo.erase q }
      match p.row with
      | none => s1.retireSram p q.bank.phys q.dark q.off.isSome
      | some r => s1.retireReg p ⟨p.die, p.cl, r⟩ q.bank.phys

/-! ## Gavotte (R314) -/

/-- The logical bank under evacuation in a place. -/
def State.evacuated (s : State) (p : BankPlace) : Option Nat :=
  (upFrom 0 (if p.row.isNone then 24 else 9)).find? fun l => (s.entOf p l).evac

/-- Lines of a bank: 8,192 of SRAM, 256 beats of a register bank. -/
def bankLines (p : BankPlace) : Nat := if p.row.isNone then 8192 else 256

/-- Entries of a table by address moved with the bytes they belong to. -/
def copyKeys {α : Type} (t : Tbl α) (from_ to_ n : Nat) : Tbl α :=
  (upFrom 0 n).foldl (fun t i => match tget t (from_ + i) with
    | some v => tset t (to_ + i) v
    | none => tdel t (to_ + i)) t

/-- Errors of 64-bit words moved with them: `kind` is the key function. -/
def copyEcc (t : Tbl Bool) (kind : Nat → Nat) (a b : Nat) : Tbl Bool :=
  (upFrom 0 16).foldl (fun t i => match tget t (kind (a + 8 * i)) with
    | some v => tset t (kind (b + 8 * i)) v
    | none => tdel t (kind (b + 8 * i))) t

/-- One line from a physical bank to another, with its check values and errors (R314). -/
def State.copyLine (s : State) (p : BankPlace) (l w : Nat) (e : MapEnt) : State :=
  match p.row with
  | none =>
    let s1 := s.correct (.sram p.die p.cl l (128 * w)) 128
    let a := sramBase p.die p.cl e.phys + 128 * w
    let b := sramBase p.die p.cl e.tgt + 128 * w
    { s1 with sram := Memory.writeN s1.sram b (Memory.readN s1.sram a 128), ssyn := copyKeys s1.ssyn (a / 64) (b / 64) 2,
              ecc := copyEcc s1.ecc eccSram a b }
  | some r =>
    let a := regfBase ⟨p.die, p.cl, r⟩ e.phys + 128 * w
    let b := regfBase ⟨p.die, p.cl, r⟩ e.tgt + 128 * w
    { s with regf := Memory.writeN s.regf b (Memory.readN s.regf a 128), ecc := copyEcc s.ecc eccReg a b }

/-- GAVOTTE_LINE_COPY: the line at the watermark. -/
def State.gavotteLineCopy (s : State) (p : BankPlace) : State :=
  match s.evacuated p with
  | none => s
  | some l =>
    let e := s.entOf p l
    if bankLines p ≤ e.wmark then s else (s.copyLine p l e.wmark e).setEnt p l { e with wmark := e.wmark + 1 }

/-- EVACUATION_COMPLETE: the entry moves to the target in one step, and the old bank is retired or dark. -/
def State.evacuationComplete (s : State) (p : BankPlace) : State :=
  match s.evacuated p with
  | none => s
  | some l =>
    let e := s.entOf p l
    if e.wmark < bankLines p then s
    else (s.setEnt p l { pres := true, phys := e.tgt }).setStatus p e.phys (if e.dark then .dark else .retired)

/-! ## Bank words (R320) -/

/-- The physical bank that a bank word names on a die, if the word is well formed. -/
def bankWord (die : Nat) (w : Word) : Option BankId :=
  let reg := w.getLsbD 31
  let cl := (w.extractLsb' 16 4).toNat
  let row := (w.extractLsb' 8 5).toNat
  let phys := (w.extractLsb' 0 5).toNat
  if w.extractLsb' 20 11 ≠ 0 || w.extractLsb' 13 3 ≠ 0 || w.extractLsb' 5 3 ≠ 0 then none
  else if 12 ≤ cl || (if reg then 28 ≤ row || 9 ≤ phys else row ≠ 0 || 26 ≤ phys) then none
  else some ⟨⟨die, cl, if reg then some row else none⟩, phys⟩

/-! ## The bank map's words (R308) -/

def BankStatus.code : BankStatus → Nat
  | .service => 0 | .spare => 1 | .retired => 2 | .dark => 3

def BankStatus.ofCode (k : Nat) : BankStatus :=
  if k = 0 then .service else if k = 1 then .spare else if k = 2 then .retired else .dark

def bitAt (b : Bool) (k : Nat) : Nat := if b then 2 ^ k else 0

/-- An SRAM entry, a register entry. -/
def MapEnt.sramWord (e : MapEnt) : Nat :=
  bitAt e.pres 31 + bitAt e.evac 30 + bitAt e.pend 29 + e.wmark % 2 ^ 13 * 2 ^ 14 + e.tgt % 32 * 2 ^ 5 + e.phys % 32

def MapEnt.regWord (e : MapEnt) : Nat :=
  bitAt e.pres 31 + bitAt e.evac 30 + bitAt e.pend 29 + e.wmark % 2 ^ 9 * 2 ^ 18 + e.tgt % 16 * 2 ^ 4 + e.phys % 16

/-- What an IDX of BANKMAP names. -/
inductive MapIdx where
  | logical (l : Nat)
  | spare (i : Nat)
  | status (p : Nat)
  | reg (row l : Nat)
  deriving DecidableEq, Repr

/-- The bits of IDX that R308's table leaves unnamed, [10:6] with [11] = 0, [10] and [4] with [11] = 1, are zero in every IDX
that it gives (DESIGN CHOICE, log entry 84). -/
def mapIdx (idx : BitVec 12) : Option MapIdx :=
  let lo := (idx.extractLsb' 0 6).toNat
  if idx.getLsbD 11 then
    let row := (idx.extractLsb' 5 5).toNat
    let l := (idx.extractLsb' 0 4).toNat
    if idx.extractLsb' 10 1 = 0 && idx.extractLsb' 4 1 = 0 && row < 28 && l < 9 then some (.reg row l) else none
  else if idx.extractLsb' 6 5 ≠ 0 then none
  else if lo < 24 then some (.logical lo)
  else if lo < 26 then some (.spare (lo - 24))
  else if 32 ≤ lo && lo < 58 then some (.status (lo - 32))
  else none

/-- A BANKMAP entry as it reads. -/
def State.mapRead (s : State) (die cl : Nat) (i : MapIdx) : Nat :=
  let c := s.cluster die cl
  match i with
  | .logical l => (c.ent l).sramWord
  | .spare i => bitAt (c.spare i).1 31 + (c.spare i).2 % 32
  | .status p => (c.stat p).code
  | .reg r l => ((s.row ⟨die, cl, r⟩).ent l).regWord

/-- The firmware writes a BANKMAP entry: PRES and PHYS of a bank, VALID and PHYS of a spare, a status (R308, R389). R308 codes
every field of an entry HW, whose writes R7 ignores, and R389 has the firmware write the entry: here it sets PRES and PHYS, and
EVAC, PEND, WMARK and TGT, which the state of a retirement makes, keep their values (DESIGN CHOICE, log entry 85). -/
def State.mapWrite (s : State) (die cl : Nat) (i : MapIdx) (v : Nat) : State :=
  let c := s.cluster die cl
  match i with
  | .logical l => s.setCluster die cl { c with map := tset c.map l { c.ent l with pres := v / 2 ^ 31 % 2 = 1, phys := v % 32 } }
  | .spare i => s.setCluster die cl { c with spares := tset c.spares i (v / 2 ^ 31 % 2 = 1, v % 32) }
  | .status p => s.setCluster die cl { c with status := tset c.status p (.ofCode (v % 4)) }
  | .reg r l =>
    let x := s.row ⟨die, cl, r⟩
    (s.setRow ⟨die, cl, r⟩ { x with regmap := tset x.regmap l { x.ent l with pres := v / 2 ^ 31 % 2 = 1, phys := v % 16 } }).checkLeaving
      ⟨die, cl, r⟩

/-- Whether a value names a physical bank that does not exist; reserved bits and fields of the hardware are ignored
(R7, R8). -/
def mapValueBad (i : MapIdx) (v : Nat) : Bool :=
  2 ^ 32 ≤ v || (match i with
    | .logical _ => 26 ≤ v % 32
    | .spare _ => 26 ≤ v % 32
    | .status _ => false
    | .reg _ _ => 9 ≤ v % 16)

end Sys2Proof.Machine
end

