-- ==== Sys2Proof/Machine/System.lean ====
section
/-!
DEFINITION. The system instructions of scalar nodes: SRD and SWR (R91-R100), capacity (R319-R321), gateways (R330),
subgraphs (R332), and stopping and restarting regions (R337-R343).
-/
namespace Sys2Proof.Machine

/-- The request of a system instruction: it acts on state at its start, once the node's earlier firings are done. -/
def sysReq (o : Ops) : FireReq := { ops := o, verify := false, serial := true }

/-- A word to both consumer slots, with an effect at the start. -/
def Res.act (lat : Nat) (v : Word) (tag : RTag) (eff : State → State) : Res :=
  .go { o0 := [wordTok v tag], o1 := [wordTok v tag], lat := lat, eff := eff }

/-! ## SRD and SWR (R91-R100) -/

/-- PWRMODE (R95). -/
def Power.word (p : Power) : Word :=
  let m := match p.mode with | .full => 0 | .balanced => 1 | .economy => 2
  BitVec.ofNat 32 ((if p.chg.isSome then 2 ^ 31 else 0) + p.clk % 256 * 2 ^ 16 + p.apclk % 256 * 2 ^ 8 + m)

/-- SELFLOC of a row (R93). SLOT of a row that stands in no band, or is not live in it, is a free value (log entry 90). -/
def State.selfloc (s : State) (r : RowId) : Word :=
  let sl := ((s.bandEntry r).bind fun b => b.slotOf r.row).getD (Config.noBand s.tick 0).toNat
  BitVec.ofNat 32 (sl % 32 * 2 ^ 16 + r.die % 4 * 2 ^ 9 + r.cl % 16 * 2 ^ 5 + r.row % 32)

/-- What a selector word names: a register with its value now, one that a context may not read, or nothing. -/
inductive SysReg where
  | bad
  | hidden
  | ro (v : Word)
  | scr (k : Nat)

def State.sysReg (s : State) (r : RowId) (sel : Word) : SysReg :=
  let rn := (sel.extractLsb' 12 8).toNat
  let ix := (sel.extractLsb' 0 12).toNat
  if sel.extractLsb' 20 12 ≠ 0 then .bad
  else if rn = 0x08 then (if ix < 8 then .scr ix else .bad)
  else if rn = 0x10 then (if ix < 12 then .ro (s.cluster r.die ix).capacity else .bad)
  else if rn = 0x11 then (if ix < 28 then .ro (s.row { r with row := ix }).rowcap else .bad)
  else if rn = 0x12 then (if (mapIdx (BitVec.ofNat 12 ix)).isSome then .hidden else .bad)
  else if ix ≠ 0 then .bad
  else if rn = 0x01 then .ro 0x9410B040
  else if rn = 0x02 then .ro (s.selfloc r)
  else if rn = 0x03 then .ro ((s.ownerOf r).setWidth 32)
  else if rn = 0x04 then .ro s.hub.pwr.word
  else if rn = 0x20 then .ro ((s.die r.die).cyc.setWidth 32)
  else .bad

/-- REGSCR[k] of a row's region. -/
def State.regscr (s : State) (r : RowId) (k : Nat) : Word :=
  match s.regionOf r with
  | some (_, g) => tgetD g.regscr k 0
  | none => 0

def State.setRegscr (s : State) (r : RowId) (k : Nat) (v : Word) : State :=
  match s.regionOf r with
  | some (j, g) => s.setRegion r.die j { g with regscr := tset g.regscr k v }
  | none => s

def execSrd (o : Ops) (s : State) : Out :=
  .next (fire s s.locus (.srd o) (sysReq o) fun e =>
    match e.s.sysReg e.l.nd.row e.av with
    | .bad => .fault 0x140 e.info
    | .hidden => .fault 0x141 e.info
    | .ro v => .word 1 v e.tag
    | .scr k => .word 1 (e.s.regscr e.l.nd.row k) e.tag)

def execSwr (o : Ops) (s : State) : Out :=
  .next (fire s s.locus (.swr o) (sysReq o) fun e =>
    match e.s.sysReg e.l.nd.row e.av with
    | .bad => .fault 0x140 e.info
    | .hidden => .fault 0x141 e.info
    | .ro _ => .fault 0x142 e.info
    | .scr k => .act 1 e.bv e.tag fun s => s.setRegscr e.l.nd.row k e.bv)

/-! ## CAPQ, BRET and VARSEL (R319-R321) -/

/-- CAPQ's status word (R319): a row that stands in no band has the region's variant and relaunch count (R307). -/
def State.capWord (s : State) (r : RowId) (g : Region) : Word :=
  let (n, v) := match s.bandOf r with
    | some (_, b) => (b.reln.toNat, b.varn)
    | none => (g.reln.toNat, g.varn)
  BitVec.ofNat 32 (n * 2 ^ 24 + v % 8 * 2 ^ 21 + (banksOf g.sbanks).length * 2 ^ 15 +
    (s.row r).banksIn * 2 ^ 11 + if g.ovc then 1 else 0)

def execCapq (o : Ops) (s : State) : Out :=
  .next (fire s s.locus (.capq o) (sysReq o) fun e =>
    match e.s.regionOf e.l.nd.row with
    | none => .wait
    | some (_, g) => .word 4 (e.s.capWord e.l.nd.row g) 0)

def execBret (o : Ops) (s : State) : Out :=
  .next (fire s s.locus (.bret o) (sysReq o) fun e =>
    if !(e.s.owner (e.s.ownerOf e.l.nd.row)).maint then .fault 0x146 e.info
    else
      match bankWord e.l.nd.row.die e.av with
      | none => .fault 0x105 e.info
      | some b =>
        .go { o0 := [wordTok 1 e.tag], o1 := [wordTok 1 e.tag], lat := 4, await := .fifo,
              eff := fun s => s.askRetire { bank := b, src := .firing e.l.nd e.id } })

/-- Whether VARSEL may ask for a variant. -/
def State.varOk (s : State) (r : RowId) (k : Nat) (v : Nat) : Bool :=
  match s.bandOf r with
  | none => false
  | some (_, b) => !b.vtab.isEmpty && (varNeeds b).any fun x => x.1 = v && s.varFits r.die r.cl k x

/-- VARSEL's variant is noted for the launch that asks (R321). -/
def State.askVar (s : State) (r : RowId) (v : Nat) : State :=
  match s.bandOf r with
  | none => s
  | some (j, b) => s.setBand r.die j { b with reqVar := some v }

def execVarsel (o : Ops) (s : State) : Out :=
  .next (fire s s.locus (.varsel o) (sysReq o) fun e =>
    let die := e.l.nd.row.die
    match e.s.regionOf e.l.nd.row with
    | none => .wait
    | some (k, _) =>
      if !e.s.varOk e.l.nd.row k e.av.toNat then .fault 0x104 e.info
      else .act 4 1 e.tag fun s => (s.askVar e.l.nd.row e.av.toNat).setRegion die k { s.region die k with ovc := true })

/-! ## GATECFG (R329, R330) -/

def gateBad (a : Word) : Bool := 3 ≤ a.toNat

def execGatecfgSet (o : Ops) (s : State) : Out :=
  .next (fire s s.locus (.gatecfgSet o) (sysReq o) fun e =>
    let die := e.l.nd.row.die
    match e.s.regionOf e.l.nd.row with
    | none => .wait
    | some (k, _) =>
      if gateBad e.av then .fault 0x14B e.info
      else .act 1 1 e.tag fun s =>
        let g := s.region die k
        let w := tgetD g.gw e.av.toNat {}
        s.setRegion die k { g with gw := tset g.gw e.av.toNat { w with maxsh := e.bv.extractLsb' 8 8 } })

def Gw.counts (w : Gw) : Word := BitVec.ofNat 32 (w.dropf % 2 ^ 16 * 2 ^ 16 + w.drops % 2 ^ 16)

def execGatecfgRead (o : Ops) (s : State) : Out :=
  .next (fire s s.locus (.gatecfgRead o) (sysReq o) fun e =>
    match e.s.regionOf e.l.nd.row with
    | none => .wait
    | some (_, g) => if gateBad e.av then .fault 0x14B e.info else .word 1 (tgetD g.gw e.av.toNat {}).counts e.tag)

/-! ## CFGREQ (R331, R332) -/

/-- The request of a subgraph: its entry with the requester's OWNER, COOKIE and SGTAB. -/
def subgraphReq (g : Region) (launch entry : List DWord) : List DWord :=
  [(entry.getD 0 0).setWidth 52 |>.setWidth 64 |>.or ((g.owner.setWidth 64) <<< 52), entry.getD 1 0, launch.getD 2 0,
    entry.getD 3 0, entry.getD 4 0, entry.getD 5 0, launch.getD 6 0, entry.getD 7 0]

/-- CFGREQ: every store whose done token it may follow goes home first, so that its fetches and the work that takes its
argument see it (R70, R219). -/
def execCfgreq (o : Ops) (arg : Bool) (s : State) : Out :=
  .next (fire s s.locus (.cfgreq o arg) (sysReq o) fun e =>
    let die := e.l.nd.row.die
    match e.s.regionOf e.l.nd.row with
    | none => .wait
    | some (_, g) =>
      let launch := e.s.launchAt e.l.nd.row
      let tab := (launch.getD 2 0).toNat
      match e.s.readVa1 g.owner tab with
      | .error x => if x.waits then .wait else .fault x.cause { xinfo x tab e.tag with a := e.av, b := e.bv }
      | .ok w =>
        if (w.extractLsb' 0 16).toNat ≤ e.av.toNat then .fault 0x065 (e.info (BitVec.ofNat 32 (selQ o.a)))
        else if 256 ≤ (e.s.die die).queued then .wait
        else
          let va := tab + 64 * (e.av.toNat + 1)
          match e.s.readVa g.owner 8 va with
          | .error x => if x.waits then .wait else .fault x.cause { xinfo x va e.tag with a := e.av, b := e.bv }
          | .ok ws =>
            let q : PReq := { kind := .cfgreq e.l.nd g.gen e.av.toNat ws (if arg then some e.bv else none),
                              words := subgraphReq g launch ws, entered := e.s.cyc die }
            .act 1 1 e.tag fun s =>
              let s1 := ((s.fixVa g.owner false 1 tab).fixVa g.owner false 8 va).release e.l.nd.row .system
              s1.setDie die { s1.die die with pq := (s1.die die).pq ++ [q] })

/-! ## YIELD, FRZ, TRAP, RESUME, FAULTACK (R337-R343) -/

def execYield (o : Ops) (s : State) : Out :=
  .next (fire s s.locus (.yield_ o) (sysReq o) fun e =>
    let die := e.l.nd.row.die
    match e.s.regionOf e.l.nd.row with
    | none => .wait
    | some (k, g) =>
      if g.st ≠ .running then .wait else .go { eff := fun s => s.setRegion die k { s.region die k with yld := true } })

/-- A region word: die and index; none where a reserved bit is set or the index names no region (R337). -/
def regionWord (w : Word) : Option (Nat × Nat) :=
  let k := (w.extractLsb' 0 9).toNat
  if w.extractLsb' 11 21 ≠ 0 || 336 ≤ k then none else some ((w.extractLsb' 9 2).toNat, k)

/-- A firing completes at once and its region freezes (R338, R342). -/
def State.stopAt (s : State) (l : Loc) (id : Nat) (c : Cause) (x : FInfo) : State :=
  match (s.node l.nd).firing id with
  | none => s
  | some f => (s.complete l.nd f).raise l.nd l.slot c x

/-- Whether a node may freeze its own running region: no freeze runs, or one of this cycle whose record it takes (R327, R335). -/
def Env.mayFreeze (e : Env) (g : Region) : Bool :=
  g.st = .running && (match g.frz with
    | none => true
    | some f => f.loses (e.s.cyc e.l.nd.row.die) e.l.nd.row.row e.l.nd.node)

def execTrap (o : Ops) (code : BitVec 4) (s : State) : Out :=
  .next (fire s s.locus (.trap o code) (sysReq o) fun e =>
    match e.s.regionOf e.l.nd.row with
    | none => .wait
    | some (_, g) =>
      if !e.mayFreeze g then .wait
      else .act 1 1 e.tag fun s => s.stopAt e.l e.id (BitVec.ofNat _ (0x150 + code.toNat)) (e.info (code.setWidth 32)))

/-- FRZ of another region: a freeze with 0x148, or its image is there already. -/
def frzOther (e : Env) (die k : Nat) (h : Region) : Res :=
  match h.st with
  | .frozen => .word 1 1 e.tag
  | .running =>
    if h.frz.isSome then .wait
    else
      .go { o0 := [wordTok 1 e.tag], o1 := [wordTok 1 e.tag], await := .region die k,
            eff := fun s => s.startFreeze die k h.first (some (s.regionRec die k 0x148 (BitVec.ofNat 32 e.l.nd.node))) .record }
  | _ => .wait

def execFrz (o : Ops) (s : State) : Out :=
  .next (fire s s.locus (.frz o) (sysReq o) fun e =>
    let die := e.l.nd.row.die
    match e.s.regionOf e.l.nd.row with
    | none => .wait
    | some (k, g) =>
      match if o.a = .zero then some (die, k) else regionWord e.av with
      | none => .fault 0x147 e.info
      | some (d, j) =>
        let h := e.s.region d j
        if !h.valid || h.owner ≠ g.owner then .fault 0x147 e.info
        else if d = die && j = k then
          (if !e.mayFreeze g then .wait
           else .act 1 1 e.tag fun s => s.stopAt e.l e.id 0x148 { tag := e.tag, aux := BitVec.ofNat 32 e.l.nd.node })
        else frzOther e d j h)

def execResume (o : Ops) (s : State) : Out :=
  .next (fire s s.locus (.resume o) (sysReq o) fun e =>
    let own := e.s.ownerOf e.l.nd.row
    match regionWord e.av, if o.b = .zero then regionWord e.av else regionWord e.bv with
    | some f, some t =>
      match e.s.resume own f.1 f.2 t.1 t.2 with
      | .error c => if c = 0 then .wait else .fault c e.info
      | .ok _ => .act 1 1 e.tag fun s => (match s.resume own f.1 f.2 t.1 t.2 with
        | .ok x => x
        | .error _ => s)
    | _, _ => .fault 0x147 e.info)

/-- FAULTACK of either kind. -/
def faultackRes (e : Env) (kill : Bool) : Res :=
  let own := e.s.ownerOf e.l.nd.row
  if 2 ^ 16 ≤ e.av.toNat then .fault 0x147 e.info
  else
    match e.s.faultack own (e.av.setWidth 16) kill with
    | .error c => .fault c e.info
    | .ok _ => .act 1 1 e.tag fun s => match s.faultack own (e.av.setWidth 16) kill with
      | .ok x => x
      | .error _ => s

def execFaultackAck (o : Ops) (s : State) : Out :=
  .next (fire s s.locus (.faultackAck o) (sysReq o) fun e => faultackRes e false)

def execFaultackKill (o : Ops) (s : State) : Out :=
  .next (fire s s.locus (.faultackKill o) (sysReq o) fun e => faultackRes e true)

end Sys2Proof.Machine
end

