-- ==== Sys2Proof/Machine/Power.lean ====
section
/-!
DEFINITION. The power controller (R21-R24, R313, R361), and the retirement events that its changes and the firmware's
commands wait for (R311).
-/
namespace Sys2Proof.Machine

/-! ## Answers of the firmware interface (R390) -/

/-- The response to a command: CODE, SUB and TAG as in it, STATUS, then the results. -/
def fwResponse (w : DWord) (status : Cause) (res : List DWord) : List DWord :=
  BitVec.ofNat 64 ((w.extractLsb' 0 16).toNat + status.toNat % 512 * 2 ^ 16 + (w.extractLsb' 32 32).toNat * 2 ^ 32) ::
    (upFrom 0 7).map fun i => res.getD i 0

/-- The command that a mailbox entry holds, if its CODE and SUB are listed. -/
def Mailbox.cmd (m : Mailbox) : Option Instr := decodeFw (m.w.getD 0 0)

def Mailbox.answer (m : Mailbox) (status : Cause) (res : List DWord) : OutMsg :=
  .fwResp m.node (fwResponse (m.w.getD 0 0) status res)

/-- Commands with no listed CODE and SUB at the head of the mailbox are answered with 0x14F: the answers, and what is
left. -/
def unlisted : List Mailbox → List OutMsg × List Mailbox
  | [] => ([], [])
  | m :: t =>
    if m.cmd.isSome then ([], m :: t)
    else
      let r := unlisted t
      (m.answer 0x14F [] :: r.1, r.2)

/-- The turn of the command at the head of the mailbox. -/
def headTurn : List Mailbox → List Turn
  | [] => []
  | m :: _ => m.cmd.toList.map Turn.event

/-- The oldest command of the mailbox is answered and leaves it, and the next one has its turn. -/
def State.fwReply (s : State) (status : Cause) (res : List DWord) : State :=
  match s.hub.mbox with
  | [] => s
  | m :: t =>
    let r := unlisted t
    { s with hub := { s.hub with mbox := r.2, outbox := s.hub.outbox ++ m.answer status res :: r.1 },
             turn := s.turn ++ headTurn r.2 }

/-- A command reaches the mailbox (R390). -/
def State.mail (s : State) (node : BitVec 16) (ws : List DWord) : State :=
  let r := unlisted [{ node := node, w := ws }]
  if s.hub.mbox.isEmpty then
    { s with hub := { s.hub with mbox := r.2, outbox := s.hub.outbox ++ r.1 }, turn := s.turn ++ headTurn r.2 }
  else s.setHub { s.hub with mbox := s.hub.mbox ++ [{ node := node, w := ws }] }

/-! ## Modes (R21) -/

def PMode.rank : PMode → Nat
  | .full => 0 | .balanced => 1 | .economy => 2

def PMode.limit : PMode → Nat
  | .full => 4200 | .balanced => 3000 | .economy => 2200

def PMode.clk : PMode → Nat
  | .full => 30 | .balanced => 24 | .economy => 18

def PMode.apclk : PMode → Nat
  | .full => 24 | .balanced => 24 | .economy => 16

def PMode.grant : PMode → Nat
  | .full => 1024 | .balanced => 512 | .economy => 0

/-- The lowest core clock of an excursion (R24). -/
def PMode.floor : PMode → Nat
  | .full => 24 | .balanced => 18 | .economy => 12

def State.setPwr (s : State) (p : Power) : State := s.setHub { s.hub with pwr := p }

/-- GRANT of every die (R361). -/
def State.setGrant (s : State) (k : Nat) : State :=
  (upFrom 0 4).foldl (fun s d => s.setDie d { s.die d with grant := k }) s

/-- Whether the withdrawal step has ended: the held permits fit, or 2^22 cycles have passed. -/
def State.withdrawn (s : State) : Bool :=
  ((upFrom 0 4).all fun d => (s.die d).heldsum ≤ (s.die d).grant) || s.hub.pwr.wstart + 2 ^ 22 ≤ s.cyc 0

/-! ## Banks of a mode (R22, R313) -/

/-- The in-service banks behind logical banks 0-21, the most corrected errors first, lower banks first among equals. -/
def Cluster.worst (c : Cluster) : List Nat :=
  let ls := (upFrom 0 22).filter fun l => (c.ent l).pres && !(c.ent l).pend && !(c.ent l).evac
  (sortBy (fun a b => (tgetD c.errs (c.ent b).phys (0, 0)).1 < (tgetD c.errs (c.ent a).phys (0, 0)).1) ls).map fun l => (c.ent l).phys

/-- The retirements that Economy asks of a cluster: as many as it has valid spares, then logical banks 22 and 23, with the
logical bank that becomes absent. -/
def Cluster.darkList (c : Cluster) : List (Nat × Option Nat) :=
  let n := ((upFrom 0 2).filter fun i => (c.spare i).1).length
  (c.worst.take n).map (fun x => (x, none)) ++ ([22, 23].filter fun l => (c.ent l).pres).map fun l => ((c.ent l).phys, some l)

def State.darkCluster (s : State) (die cl : Nat) : State :=
  (s.cluster die cl).darkList.foldl
    (fun s x => s.askRetire { bank := ⟨⟨die, cl, none⟩, x.1⟩, src := .device, dark := true, off := x.2 }) s

/-- Every cluster of the device. -/
def State.eachCluster (s : State) (f : State → Nat → Nat → State) : State :=
  (upFrom 0 4).foldl (fun s d => (upFrom 0 12).foldl (fun s c => f s d c) s) s

/-- Spare entries that name no valid spare take the banks that came back, the lower numbers first. -/
def fillSpares (c : Cluster) : List Nat → List Nat → Cluster
  | i :: is, p :: ps => fillSpares { c with spares := tset c.spares i (true, p) } is ps
  | _, _ => c

/-- Dark banks return as spares (R23, R313); a pending retirement of the mode ends with it. -/
def Cluster.relight (c : Cluster) : Cluster :=
  let back := (upFrom 0 26).filter fun p => c.stat p = .dark
  let c1 := { c with status := back.foldl (fun t p => tset t p .spare) c.status,
                     map := c.map.map fun e => if e.2.pend && e.2.dark then (e.1, { e.2 with pend := false, dark := false }) else e }
  fillSpares c1 ((upFrom 0 2).filter fun i => !(c1.spare i).1) back

/-- Whether a cluster still has work of a mode under way: a request in line or queued, or an evacuation. -/
def Cluster.darkening (c : Cluster) : Bool :=
  c.waitq.any RetReq.dark || c.fifo.any RetReq.dark || (upFrom 0 24).any fun l => (c.ent l).evac && (c.ent l).dark

def State.darkening (s : State) : Bool :=
  (upFrom 0 4).any fun d => (upFrom 0 12).any fun c => (s.cluster d c).darkening

/-! ## Mode changes (R23) -/

/-- A change has completed: PWRMODE shows the new mode, and the command that asked for it is answered. -/
def State.endChange (s : State) (m : PMode) : State :=
  let s1 := s.setPwr { s.hub.pwr with mode := m, chg := none, step := 0, who := none }
  s1.fwReply 0 [s1.hub.pwr.word.setWidth 64]

/-- The last step of a change to a lower mode ends once its banks are off. -/
def State.settle (s : State) : State :=
  match s.hub.pwr.chg with
  | some m => if s.hub.pwr.step = 3 && !s.darkening then s.endChange m else s
  | none => s

/-- A change to a lower mode begins with its permits. -/
def State.lowerMode (s : State) (m : PMode) : State :=
  (s.setGrant m.grant).setPwr { s.hub.pwr with chg := some m, step := 1, wstart := s.cyc 0, shed := 0 }

/-- A change to a higher mode: banks, clocks, permits. -/
def State.raiseMode (s : State) (m : PMode) : State :=
  let s1 := if s.hub.pwr.mode = .economy then s.eachCluster fun s d c => s.setCluster d c (s.cluster d c).relight else s
  let s2 := s1.setPwr { s1.hub.pwr with clk := m.clk, apclk := m.apclk, shed := 0 }
  (s2.setGrant m.grant).endChange m

/-- MODE_CHANGE_START: the oldest request, no other change being in progress. -/
def State.modeChangeStart (s : State) : State :=
  let p := s.hub.pwr
  match p.chg, p.want with
  | none, (m, n, t) :: rest =>
    let s1 := s.setPwr { p with want := rest, who := some (n, t) }
    if p.mode.rank < m.rank then s1.lowerMode m else if m.rank < p.mode.rank then s1.raiseMode m else s1.endChange m
  | _, _ => s

/-- PERMIT_WITHDRAWAL_END: the clocks go down, then banks go off. -/
def State.permitWithdrawalEnd (s : State) : State :=
  match s.hub.pwr.chg with
  | none => s
  | some m =>
    if s.hub.pwr.step ≠ 1 || !s.withdrawn then s
    else
      let s1 := s.setPwr { s.hub.pwr with clk := m.clk, apclk := m.apclk, step := 3 }
      (if m = .economy then s1.eachCluster State.darkCluster else s1).settle

/-! ## Power windows (R24) -/

/-- One step down: first the permits, then the clock. -/
def State.shedOne (s : State) : State :=
  let p := s.hub.pwr
  if p.shed = 0 then (s.setGrant 0).setPwr { p with shed := 1, wstart := s.cyc 0 }
  else if s.withdrawn && p.mode.floor < p.clk then s.setPwr { p with shed := p.shed + 1, clk := p.clk - 1 }
  else s

/-- One step back. -/
def State.unshedOne (s : State) : State :=
  let p := s.hub.pwr
  if 1 < p.shed then s.setPwr { p with shed := p.shed - 1, clk := p.clk + 1 }
  else if p.shed = 1 then (s.setGrant p.mode.grant).setPwr { p with shed := 0 }
  else s

/-- POWER_WINDOW: the end of a window of 3,000,000 cycles; none of its steps falls into a mode change. -/
def State.powerWindow (s : State) : State :=
  let p := s.hub.pwr
  if s.cyc 0 < p.wnd + 3000000 then s
  else
    let w := Config.power s.tick
    let s1 := s.setPwr { p with wnd := s.cyc 0 }
    if p.chg.isSome then s1
    else if p.mode.limit < w then s1.shedOne
    else if 100 * w ≤ 95 * p.mode.limit then s1.unshedOne
    else s1

/-! ## Events of retirement that a change or a command waits for -/

/-- RETIREMENT_REQUEST (R311): the line's first request enters the FIFO or is ignored, and its asker is answered. -/
def State.retirementRequest (s : State) (b : BankId) : State :=
  let p := b.place
  match s.enterFifo p.die p.cl with
  | none => s
  | some (s1, q, r) => if q.bank ≠ b then s else (if q.src = .command then s1.fwReply 0 [r.setWidth 64] else s1).settle

/-- RETIREMENT with the end of a mode change. -/
def State.retirementEvent (s : State) (p : BankPlace) : State := (s.retirement p).settle

/-- EVACUATION_COMPLETE with the end of a mode change. -/
def State.evacuationEvent (s : State) (p : BankPlace) : State := (s.evacuationComplete p).settle

end Sys2Proof.Machine
end

