-- ==== Sys2Proof/Machine/Sha.lean ====
section
/-!
DEFINITION. SHA-512 (R26, R28), as FIPS 180-4 defines it (PRESUMED, log entry 82). Its constants are computed from their definition:
the first 64 bits of the fractional parts of roots of primes.
-/
namespace Sys2Proof.Machine

/-! ## Constants -/

/-- The primes below a bound. -/
def primesBelow (n : Nat) : List Nat :=
  (upFrom 2 (n - 2)).filter fun p => (upFrom 2 (p - 2)).all fun d => p % d ≠ 0

/-- The largest number of `k` bits added to `r` whose power is at most `x`, bit by bit from the top. -/
def rootBits (pow : Nat → Nat) (x : Nat) : Nat → Nat → Nat
  | 0, r => r
  | k + 1, r => rootBits pow x k (if pow (r + 2 ^ k) ≤ x then r + 2 ^ k else r)

/-- The first 64 bits of the fractional part of the `e`-th root of `p`: the root of `p` scaled by `2 ^ 64`, modulo `2 ^ 64`. -/
def rootFrac (e p : Nat) : DWord := BitVec.ofNat 64 (rootBits (fun r => r ^ e) (p * 2 ^ (64 * e)) 70 0)

/-- One constant a round: of the cube roots of the first 80 primes, which are those below 410. -/
def shaK : List DWord := (primesBelow 410).map (rootFrac 3)

/-- The initial chaining value: of the square roots of the first 8 primes, those below 20. -/
def shaInit : List DWord := (primesBelow 20).map (rootFrac 2)

/-! ## Rounds -/

/-- The exclusive-or of a word's rotations to the right. -/
def rots (x : DWord) (ns : List Nat) : DWord := (ns.map x.rotateRight).foldl (fun a b => a ^^^ b) 0

/-- A round's message word, and the window of the last 16 message words, oldest first, for the rounds after it. -/
def shaWindow (ws : List DWord) : DWord × List DWord :=
  let at_ := fun (i : Nat) => (ws[i]?).getD 0
  let small := rots (at_ 1) [1, 8] ^^^ (at_ 1 >>> 7)
  let large := rots (at_ 14) [19, 61] ^^^ (at_ 14 >>> 6)
  (at_ 0, ws.drop 1 ++ [at_ 0 + small + at_ 9 + large])

/-- The eight working words after a round, first word first. -/
def shaStep (v : List DWord) (k m : DWord) : List DWord :=
  let at_ := fun (i : Nat) => (v[i]?).getD 0
  let choose := (at_ 4 &&& at_ 5) ||| (~~~at_ 4 &&& at_ 6)
  let most := (at_ 0 &&& at_ 1) ||| (at_ 2 &&& (at_ 0 ||| at_ 1))
  let x := at_ 7 + k + m + choose + rots (at_ 4) [14, 18, 41]
  [x + most + rots (at_ 0) [28, 34, 39], at_ 0, at_ 1, at_ 2, at_ 3 + x, at_ 4, at_ 5, at_ 6]

/-- The rounds of a block, one for each constant left. -/
def shaRounds : List DWord → List DWord → List DWord → List DWord
  | [], v, _ => v
  | k :: ks, v, ws => shaRounds ks (shaStep v k (shaWindow ws).1) (shaWindow ws).2

/-! ## Messages -/

/-- A 64-bit word of bytes, most significant first. -/
def beWord (bs : List Byte) : DWord := BitVec.ofNat 64 (bs.foldl (fun m b => 256 * m + b.toNat) 0)

/-- A number's bytes, most significant first. -/
def beBytes (n x : Nat) : List Byte := (natBytes' n x).reverse

/-- The chaining value after the blocks of 128 bytes of a padded message. -/
def shaBlocks : Nat → List DWord → List Byte → List DWord
  | 0, h, _ => h
  | n + 1, h, bs =>
    let ws := (upFrom 0 16).map fun i => beWord ((bs.drop (8 * i)).take 8)
    shaBlocks n (List.zipWith (fun a b => a + b) h (shaRounds shaK h ws)) (bs.drop 128)

/-- A message's padding: a one bit, zeros, and its length in bits as 16 bytes, up to whole blocks. -/
def shaPad (len : Nat) : List Byte := [0x80] ++ List.replicate ((239 - len % 128) % 128) 0 ++ beBytes 16 (8 * len)

/-- SHA-512 of bytes. -/
def sha512 (m : List Byte) : List Byte :=
  let p := m ++ shaPad m.length
  (shaBlocks (p.length / 128) shaInit p).flatMap fun w => beBytes 8 w.toNat

end Sys2Proof.Machine
end

