-- ==== Sys2Proof/Machine/Firmware.lean ====
section
/-!
DEFINITION. Reset and boot (R26-R28), and the commands of the firmware interface (R389, R390) on the tables they write
(R308, R324-R326, R329, R394, R397).
-/
namespace Sys2Proof.Machine

/-! ## Reset and readiness (R26, R27) -/

/-- The image of a firmware slot. -/
def Hub.slotImage (h : Hub) (i : Nat) : List Byte := tgetD h.fwSlots i (Config.firmware i)

/-- Banks whose retirement the firmware has recorded (R307). -/
def State.allRetired (s : State) : List BankId :=
  s.hub.retired ++ (upFrom 0 4).flatMap fun d => (upFrom 0 12).flatMap fun c =>
    (((s.cluster d c).status.filter fun e => e.2 = .retired).map fun e => ⟨⟨d, c, none⟩, e.1⟩) ++
      (upFrom 0 28).flatMap fun r =>
        ((s.row ⟨d, c, r⟩).rstat.filter fun e => e.2 = .retired).map fun e => ⟨⟨d, c, some r⟩, e.1⟩

/-- Whether an image verifies: its SHA-512, and its RSA-4096 signature (R26). -/
def verified (image : List Byte) : Bool := Config.verify (sha512 image) image

/-- RESET: all state takes its reset value but the firmware's stored images and its record of retirements; then the boot
ROM takes the first image that verifies, or the device enters recovery. -/
def State.boot (s : State) : State :=
  let h := State.reset.hub
  let k := if verified (s.hub.slotImage 0) then 1 else if verified (s.hub.slotImage 1) then 2 else 0
  { State.reset with tick := s.tick,
                     hub := { h with fwSlots := s.hub.fwSlots, retired := s.allRetired, boot := k, recovery := k = 0,
                                     running := if k = 0 then [] else s.hub.slotImage (k - 1),
                                     mgmt := Config.mgmt } }

/-- The firmware applies a recorded retirement to maps at their reset values: nothing is copied. -/
def State.applyRetired (s : State) (b : BankId) : State :=
  let p := b.place
  match p.row with
  | some r =>
    match s.logicalOf b with
    | some l => (s.setEnt p l { pres := false, phys := b.phys }).setStatus p b.phys .retired
    | none => (s.setStatus p b.phys .retired).setRow ⟨p.die, p.cl, r⟩ (s.row ⟨p.die, p.cl, r⟩)
  | none =>
    let c := s.cluster p.die p.cl
    match (upFrom 0 2).find? fun i => c.spare i = (true, b.phys) with
    | some i => s.setCluster p.die p.cl { c with spares := tset c.spares i (false, b.phys), status := tset c.status b.phys .retired }
    | none =>
      match s.logicalOf b, (upFrom 0 2).find? fun i => (c.spare i).1 with
      | some l, some i =>
        let t := (c.spare i).2
        s.setCluster p.die p.cl
          { c with map := tset c.map l { pres := true, phys := t }, spares := tset c.spares i (false, t),
                   status := tset (tset c.status t .service) b.phys .retired }
      | some l, none => (s.setEnt p l { pres := false, phys := b.phys }).setStatus p b.phys .retired
      | none, _ => s.setStatus p b.phys .retired

/-- FIRMWARE_READY: recorded retirements are applied, and the launch windows accept. -/
def State.firmwareReady (s : State) : State :=
  let h := s.hub
  if h.boot = 0 || h.recovery || h.ready then s
  else
    let s1 := h.retired.foldl State.applyRetired s
    let size := Nat.min (Config.sandbox.2) 1536
    s1.setHub { s1.hub with ready := true, sbase := 2 ^ 26 * Config.sandbox.1, ssize := 2 ^ 26 * size,
                            cores := (upFrom 0 16).map fun c => (c, { owner := Config.coreOwner c }) }

/-! ## The form of a command (R390) -/

/-- Bits of an operand word that the command does not name. -/
def unnamed : List DWord → List DWord → Bool
  | _, [] => false
  | [], w :: t => w ≠ 0 || unnamed [] t
  | m :: ms, w :: t => w &&& ~~~m ≠ 0 || unnamed ms t

/-- The command at the head of the mailbox, if it is of a code and still to be carried out. -/
def State.command (s : State) (code sub : Nat) : Option (List DWord) :=
  match s.hub.mbox with
  | [] => none
  | m :: _ =>
    let w := m.w.getD 0 0
    if m.sent || (w.extractLsb' 0 8).toNat ≠ code || (w.extractLsb' 8 8).toNat ≠ sub then none else some m.w

/-- Whether a command is malformed: reserved bits, operand bits it does not name, or one that recovery does not answer. -/
def State.malformed (s : State) (code : Nat) (masks : List DWord) (ws : List DWord) : Bool :=
  (ws.getD 0 0).extractLsb' 16 16 ≠ 0 || unnamed masks (ws.drop 1) || (s.hub.recovery && code ≠ 0x0C && code ≠ 0x0E)

/-- A command is carried out: it answers a cause and changes nothing, or its results; one that meets a block still to be rebuilt
waits (cause 0, R396). -/
def State.carryOut (s : State) (code sub : Nat) (masks : List DWord) (k : (Nat → DWord) → Except Cause (State × List DWord)) : State :=
  match s.command code sub with
  | none => s
  | some ws =>
    if s.malformed code masks ws then s.fwReply 0x14F []
    else
      match k (fun i => ws.getD i 0) with
      | .error c => if c = 0 then s else s.fwReply c []
      | .ok (s1, res) => s1.fwReply 0 res

/-- All bits of a word from 0 to n − 1. -/
def lowMask (n : Nat) : DWord := BitVec.ofNat 64 (2 ^ n - 1)

/-- A field of an operand word. -/
def fld (w : DWord) (lo n : Nat) : Nat := w.toNat / 2 ^ lo % 2 ^ n

/-- The command at the head has been carried out, and its answer is still to come. -/
def State.markSent (s : State) : State :=
  match s.hub.mbox with
  | [] => s
  | m :: t => s.setHub { s.hub with mbox := { m with sent := true } :: t }

/-! ## Power and banks -/

/-- A mode by its code. -/
def modeOf (k : Nat) : Option PMode := if k = 0 then some .full else if k = 1 then some .balanced else if k = 2 then some .economy else none

/-- SET_POWER_MODE: the answer comes when the change has completed. -/
def execSetPowerMode (s : State) : Out :=
  .next (match s.command 1 0 with
    | none => s
    | some ws =>
      match modeOf (fld (ws.getD 1 0) 0 2) with
      | none => s.fwReply 0x14F []
      | some m =>
        if s.malformed 1 [lowMask 2] ws then s.fwReply 0x14F []
        else
          let n := (s.hub.mbox.headD {}).node
          (s.setPwr { s.hub.pwr with want := s.hub.pwr.want ++ [(m, n, (ws.getD 0 0).extractLsb' 32 32)] }).markSent)

/-- Die, cluster and entry of a BANKMAP operand. -/
def mapPlace (w : DWord) : Option (Nat × Nat × MapIdx) :=
  if fld w 0 2 < 4 && fld w 4 4 < 12 then (mapIdx (w.extractLsb' 8 12)).map fun i => (fld w 0 2, fld w 4 4, i) else none

/-- The mask of a BANKMAP operand word. -/
def mapMask : DWord := 0x000FFFF3

def execReadBankmapEntry (s : State) : Out :=
  .next (s.carryOut 2 0 [mapMask] fun w =>
    match mapPlace (w 1) with
    | none => .error 0x14F
    | some (d, c, i) => .ok (s, [BitVec.ofNat 64 (s.mapRead d c i)]))

/-- The four words of a band entry (R367). -/
def Band.words (b : Band) : List DWord :=
  [BitVec.ofNat 64 (2 ^ 63 + bitAt b.mode 62 + b.b % 32 * 2 ^ 57 + b.be % 32 * 2 ^ 52 + b.region % 512 * 2 ^ 43 +
     b.base % 32 * 2 ^ 38 + b.desc.d % 2 ^ 16 * 2 ^ 16),
   BitVec.ofNat 64 (maskOf 28 fun i => b.live.contains i), b.exit, BitVec.ofNat 64 (b.wmax.toNat * 2 ^ 32 + b.smax.toNat)]

def execReadBandEntry (s : State) : Out :=
  .next (s.carryOut 2 1 [0xFF03] fun w =>
    let k := fld (w 1) 8 8
    if 168 ≤ k then .error 0x14F
    else
      let d := s.die (fld (w 1) 0 2)
      .ok (s, match (tget d.bands k).orElse fun _ => tget d.past k with | some b => b.words | none => []))

def execWriteBankmapEntry (s : State) : Out :=
  .next (s.carryOut 3 0 [mapMask, lowMask 64] fun w =>
    match mapPlace (w 1) with
    | none => .error 0x14F
    | some (d, c, i) =>
      let evac := match i with
        | .reg r _ => (s.row ⟨d, c, r⟩).evac
        | _ => (s.cluster d c).evac
      if mapValueBad i (w 2).toNat then .error 0x14F
      else if evac then .error 0x147
      else .ok (s.mapWrite d c i (w 2).toNat, []))

/-- RETIRE_BANK: the answer comes when the request has entered its FIFO or been ignored. -/
def execRetireBank (s : State) : Out :=
  .next (match s.command 3 1 with
    | none => s
    | some ws =>
      match bankWord (fld (ws.getD 1 0) 0 2) ((ws.getD 2 0).extractLsb' 0 32) with
      | none => s.fwReply 0x14F []
      | some b =>
        if s.malformed 3 [lowMask 2, lowMask 32] ws then s.fwReply 0x14F []
        else (s.askRetire { bank := b, src := .command }).markSent)

/-! ## Owners, slots and grants (R324, R325) -/

/-- The owner entry of four words, if its reserved bits are zero. -/
def ownerOf (w0 w1 w2 w3 : DWord) : Option Owner :=
  if w0.extractLsb' 52 8 ≠ 0 || w0.extractLsb' 0 20 ≠ 0 || w1.extractLsb' 52 12 ≠ 0 || w1.extractLsb' 0 12 ≠ 0 ||
      w2.extractLsb' 4 28 ≠ 0 || w3 ≠ 0 then none
  else some { valid := w0.getLsbD 63, sandbox := w0.getLsbD 62, maint := w0.getLsbD 61, hosth := w0.getLsbD 60,
              root := fld w0 0 52, fqbase := fld w1 0 52, hostnode := w2.extractLsb' 48 16, harts := w2.extractLsb' 32 16,
              fqlog := fld w2 0 4 }

/-- The TLB entries of an owner that is no longer VALID go (R298). -/
def State.dropTlb (s : State) (o : BitVec 12) : State :=
  (upFrom 0 4).foldl (fun s d =>
    let x := s.die d
    s.setDie d { x with tlb := x.tlb.map fun e => (e.1, e.2.filter fun t => t.owner ≠ o) }) s

def execWriteOwnerEntry (s : State) : Out :=
  .next (s.carryOut 4 0 [lowMask 12, lowMask 64, lowMask 64, lowMask 64, lowMask 64] fun w =>
    let k := (w 1).extractLsb' 0 12
    match ownerOf (w 2) (w 3) (w 4) (w 5) with
    | none => .error 0x14F
    | some x =>
      let s1 := s.setHub { s.hub with owners := tset s.hub.owners k.toNat x }
      .ok (if x.valid then s1 else s1.dropTlb k, []))

/-- A slot that is bound anew returns its held permits to each die's pool (R360). -/
def State.returnPermits (s : State) (slot : Nat) : State :=
  (upFrom 0 4).foldl (fun s die =>
    let d := s.die die
    s.setDie die { d with held := tdel d.held slot, heldsum := d.heldsum - tgetD d.held slot 0 }) s

/-- A bound slot or granted register names owner 0x000, which is never granted to a context: an operand outside its range (R20,
R390; DEDUCED, log entry 87). -/
def noContext (w : DWord) : Bool := w.getLsbD 12 && w.extractLsb' 0 12 = 0

def execWriteSequenceSlot (s : State) : Out :=
  .next (s.carryOut 4 1 [lowMask 12, lowMask 64, lowMask 64, lowMask 64, lowMask 64, lowMask 64, lowMask 64] fun w =>
    let k := fld (w 1) 0 12
    let w0 := w 2
    if w0.extractLsb' 13 3 ≠ 0 || (w 7).extractLsb' 55 9 ≠ 0 || (w 7).extractLsb' 0 6 ≠ 0 || noContext w0 then .error 0x14F
    else
      let old := tgetD s.hub.slots k {}
      let x : SeqSlot := { bound := w0.getLsbD 12, owner := w0.extractLsb' 0 12, slack := w0.extractLsb' 32 32,
                           e1 := w0.extractLsb' 16 16, seed := [w 3, w 4, w 5, w 6], rbase := (w 7).toNat,
                           tickets := old.tickets }
      .ok ((s.returnPermits k).setSlot k x, []))

def execWriteNotifyGrant (s : State) : Out :=
  .next (s.carryOut 4 2 [lowMask 12, lowMask 13] fun w =>
    let k := fld (w 1) 0 12
    let o := (w 2).extractLsb' 0 12
    let g := s.hub.grants
    if noContext (w 2) then .error 0x14F
    else if (w 2).getLsbD 12 && !(s.owner o).valid then .error 0x14D
    else .ok (s.setHub { s.hub with grants := if (w 2).getLsbD 12 then tset g k o else tdel g k }, []))

/-! ## Regions (R326) -/

/-- A region's place and grant from words 0 to 2 of its entry; none where a reserved bit or a range is wrong. -/
def regionOfWords (w0 w1 w2 : DWord) : Option Region :=
  let g : Region := { valid := true, owner := w0.extractLsb' 48 12, cl := fld w0 28 4, first := fld w0 23 5,
                      nrows := fld w0 18 5, sbanks := w1.extractLsb' 0 24, imgptr := fld w2 0 52 }
  if w0.extractLsb' 0 18 ≠ 0 || w1.extractLsb' 24 40 ≠ 0 || w2.extractLsb' 52 12 ≠ 0 || w2.extractLsb' 0 12 ≠ 0 || 12 ≤ g.cl ||
      g.nrows = 0 || 28 < g.first + g.nrows then none
  else some g

/-- Whether the rows or banks of a new region belong to another one. -/
def State.regionTaken (s : State) (die k : Nat) (g : Region) : Bool :=
  let h := s.heldBanks die g.cl k
  (s.region die k).valid || (banksOf g.sbanks).any (fun l => h.contains l || !((s.cluster die g.cl).ent l).pres) ||
    (s.die die).regions.any fun e => e.2.valid && e.2.cl = g.cl && e.2.first < g.first + g.nrows && g.first < e.2.first + e.2.nrows

/-- The generation that a region's rows last carried. -/
def State.lastGen (s : State) (die : Nat) (g : Region) : BitVec 16 :=
  (g.rowIds die).foldl (fun m r =>
    let x := tgetD (s.die die).rowgen (28 * r.cl + r.row) 0
    if m.ult x then x else m) 0

/-- A region is created idle: its rows and banks are zero, and its rows' counters (R89, R90, R199, R345). -/
def State.createRegion (s : State) (die k : Nat) (g : Region) : State :=
  let rows := g.rowIds die
  let s1 := rows.foldl (fun s r =>
    let x := (s.emptyRow r).zeroTiles r
    x.setRow r { x.row r with owner := g.owner, pmc := [] }) s
  let s2 := (banksOf g.sbanks).foldl (fun s l =>
    let t := s.zeroBank die g.cl l
    t.setCluster die g.cl { t.cluster die g.cl with banks := tdel (t.cluster die g.cl).banks l }) s1
  let share := Config.minsh k
  s2.setRegion die k { g with gen := s.lastGen die g + 1,
                              gw := [(0, { minsh := share }), (1, { minsh := share }), (2, { minsh := share })] }

def execCreateRegion (s : State) : Out :=
  .next (s.carryOut 5 0 [lowMask 32, lowMask 64, lowMask 64, lowMask 64] fun w =>
    match regionWord ((w 1).extractLsb' 0 32), regionOfWords (w 2) (w 3) (w 4) with
    | some (die, k), some g =>
      if g.owner = 0 then .error 0x14F
      else if !(s.owner g.owner).valid then .error 0x14D
      else if s.regionTaken die k g then .error 0x147
      else .ok (s.createRegion die k g, [])
    | _, _ => .error 0x14F)

/-- A region leaves the table: its banks and rows end their pending retirements (R311). -/
def State.removeRegion (s : State) (die k : Nat) : State :=
  let g := s.region die k
  let s1 := (((g.rowIds die).foldl State.emptyRow s).ungrantAll die g).rowsLeave (g.rowIds die)
  let d := s1.die die
  s1.setDie die { d with regions := tdel d.regions k,
                         rowgen := (g.rowIds die).foldl (fun t r => tset t (28 * r.cl + r.row) g.gen) d.rowgen }

def execRemoveRegion (s : State) : Out :=
  .next (s.carryOut 6 0 [lowMask 32] fun w =>
    match regionWord ((w 1).extractLsb' 0 32) with
    | none => .error 0x14F
    | some (die, k) =>
      let g := s.region die k
      if g.valid && g.st = .idle && (s.die die).placing.all (fun e => e.2.region ≠ k) then .ok (s.removeRegion die k, []) else .error 0x147)

/-! ## Tree descriptors of killed regions (R296) -/

/-- Word 5 of a descriptor is read, changed and written as one. -/
def State.onWord5 (s : State) (o : BitVec 12) (va : Nat) (f : Nat → Option Nat) : Except Cause (State × List DWord) :=
  match s.xlate o (va + 20) true with
  | .error x => .error x.cause
  | .ok pa =>
    match s.homeErr (.hbm pa) 4 with
    | some c => .error c
    | none =>
      match f (bytesNat (s.readHome (.hbm pa) 4)) with
      | none => .error 0x147
      | some v =>
        .ok ((((s.fixWalk o (va + 20) 0 true).correct (.hbm pa) 4)).writeHome (.hbm pa) (natBytes' 4 v), [BitVec.ofNat 64 v])

def execDecrementReaders (s : State) : Out :=
  .next (s.carryOut 7 0 [lowMask 12, lowMask 64, lowMask 30] fun w =>
    let k := fld (w 3) 0 30
    if k = 0 then .error 0x14F
    else s.onWord5 ((w 1).extractLsb' 0 12) (w 2).toNat fun v =>
      if readersOf v < k then none else some (word5 (heldOf v) (waitOf v) (readersOf v - k)))

def execClearHeld (s : State) : Out :=
  .next (s.carryOut 7 1 [lowMask 12, lowMask 64] fun w =>
    s.onWord5 ((w 1).extractLsb' 0 12) (w 2).toNat fun v => some (word5 false (waitOf v) (readersOf v)))

/-! ## RESUME, FAULTACK and gateways -/

def execFwResume (s : State) : Out :=
  .next (s.carryOut 8 0 [lowMask 32, lowMask 32] fun w =>
    let same := (w 2) = 0xFFFFFFFF
    match regionWord ((w 1).extractLsb' 0 32), if same then regionWord ((w 1).extractLsb' 0 32) else regionWord ((w 2).extractLsb' 0 32) with
    | some f, some t => (s.resume (s.region f.1 f.2).owner f.1 f.2 t.1 t.2).map fun x => (x, [])
    | _, _ => .error 0x14F)

def State.fwAck (s : State) (w : Nat → DWord) (kill : Bool) : Except Cause (State × List DWord) :=
  (s.faultack ((w 1).extractLsb' 0 12) ((w 2).extractLsb' 0 16) kill).map fun x => (x, [])

def execFwFaultackAck (s : State) : Out := .next (s.carryOut 8 1 [lowMask 12, lowMask 16] fun w => s.fwAck w false)
def execFwFaultackKill (s : State) : Out := .next (s.carryOut 8 2 [lowMask 12, lowMask 16] fun w => s.fwAck w true)

def execClearGatewayCounts (s : State) : Out :=
  .next (s.carryOut 9 0 [lowMask 32, lowMask 2] fun w =>
    match regionWord ((w 1).extractLsb' 0 32) with
    | none => .error 0x14F
    | some (die, k) =>
      let g := s.region die k
      let i := fld (w 2) 0 2
      if i = 3 then .error 0x14F
      else if !g.valid then .error 0x147
      else .ok (s.setRegion die k { g with gw := tset g.gw i { tgetD g.gw i {} with dropf := 0, drops := 0 } }, []))

/-! ## Merge and parity entries (R394, R397) -/

/-- Words into a table from an index. -/
def putWords (t : Tbl DWord) (i : Nat) : List DWord → Tbl DWord
  | [] => t
  | w :: r => putWords (tset t i w) (i + 1) r

/-- The operand words from W2 that a count names; none where a later one is not zero. -/
def partWords (w : Nat → DWord) (n : Nat) : Option (List DWord) :=
  if n = 0 || 6 < n || (upFrom (2 + n) (6 - n)).any fun i => w i ≠ 0 then none else some ((upFrom 2 n).map w)

def execWriteMergeEntry (s : State) : Out :=
  .next (s.carryOut 10 0 [0x7FFFF, lowMask 64, lowMask 64, lowMask 64, lowMask 64, lowMask 64, lowMask 64] fun w =>
    let i := fld (w 1) 8 8
    let n := fld (w 1) 16 3
    match partWords w n with
    | none => .error 0x14F
    | some ws =>
      if 16 < i + n then .error 0x14F
      else
        let m := s.merge (fld (w 1) 0 8)
        .ok (s.setMerge (fld (w 1) 0 8) { m with words := putWords m.words i ws }, []))

def execMemberRejoin (s : State) : Out :=
  .next (s.carryOut 10 1 [lowMask 12] fun w =>
    let m := s.merge (fld (w 1) 0 8)
    let k := fld (w 1) 8 4
    if !m.valid then .error 0x14F
    else
      let x := m.mem k
      .ok (s.setMerge (fld (w 1) 0 8) { m with mems := tset m.mems k { x with gen := x.gen + 1, last := m.round } },
        [(x.gen + 1).setWidth 64]))

/-- A parity group's entry with new words; another lost member's area has no rebuilt blocks yet (R396). -/
def Parity.rewrite (g : Parity) (ws : Tbl DWord) : Parity :=
  let lost := fun (t : Tbl DWord) => (Config.parityCfg ((upFrom 0 8).map fun i => tgetD t i 0)).lost
  if lost g.words = lost ws then { g with words := ws } else { words := ws }

def execWriteParityGroup (s : State) : Out :=
  .next (s.carryOut 11 0 [0x7FF0F, lowMask 64, lowMask 64, lowMask 64, lowMask 64, lowMask 64, lowMask 64] fun w =>
    let i := fld (w 1) 8 8
    let n := fld (w 1) 16 3
    match partWords w n with
    | none => .error 0x14F
    | some ws =>
      if 8 < i + n then .error 0x14F
      else
        let g := tgetD s.hub.parity (fld (w 1) 0 4) {}
        .ok (s.setHub { s.hub with parity := tset s.hub.parity (fld (w 1) 0 4) (g.rewrite (putWords g.words i ws)) }, []))

/-! ## Attestation (R28) -/

def execLoadNonce (s : State) : Out :=
  .next (s.carryOut 12 0 [lowMask 1, lowMask 64, lowMask 64, lowMask 64, lowMask 64, lowMask 64, lowMask 64] fun w =>
    let old := (s.hub.nonce ++ List.replicate 64 0).take 64
    if (w 1).getLsbD 0 then
      if (upFrom 4 4).any fun i => w i ≠ 0 then .error 0x14F
      else .ok (s.setHub { s.hub with nonce := old.take 48 ++ wordsBytes [w 2, w 3] }, [])
    else .ok (s.setHub { s.hub with nonce := wordsBytes ((upFrom 2 6).map w) ++ old.drop 48 }, []))

/-- The report and its signature: part number and stepping, serial number, hashes, power mode, nonce (log entry 9). In
recovery no firmware image runs, and the report holds the hash of an empty one (DESIGN CHOICE, log entry 86). -/
def State.report (s : State) : List Byte :=
  let h := s.hub
  let body := natBytes' 4 0x9410B040 ++ Config.serial ++ sha512 h.running ++ sha512 Config.bootRom ++
    natBytes' 4 h.pwr.word.toNat ++ (h.nonce ++ List.replicate 64 0).take 64
  body ++ Config.sign (sha512 body)

def execProduceReport (s : State) : Out :=
  .next (s.carryOut 12 1 [] fun _ =>
    .ok (s.setHub { s.hub with report := s.report }, [BitVec.ofNat 64 s.report.length]))

def execReadReport (s : State) : Out :=
  .next (s.carryOut 12 2 [lowMask 64] fun w =>
    if (w 1).toNat % 8 ≠ 0 then .error 0x14F
    else .ok (s, bytesWords 6 (s.hub.report.drop (w 1).toNat)))

/-! ## Launches for application cores (R391) -/

/-- The monitor writes a record into a launch window under a core's owner. -/
def State.monitorLaunch (s : State) (core die : Nat) (ws : List DWord) : State :=
  let s1 := (upFrom 0 7).foldl (fun s i => s.launchWordWrite die false (BitVec.ofNat 3 i) (ws.getD i 0)) s
  s1.launchSubmit die (ws.getD 7 0) (.core core)

def execSubmitCoreLaunch (s : State) : Out :=
  .next (s.carryOut 13 0 [0xF3, lowMask 64] fun w =>
    let die := fld (w 1) 0 2
    let pa := (w 2).toNat
    if pa % 8 ≠ 0 || hbmTop < pa + 64 then .error 0x14F
    else
      match s.homeErr (.hbm pa) 64 with
      | some c => .error c
      | none =>
        let s1 := (s.correct (.hbm pa) 64).monitorLaunch (fld (w 1) 4 4) die (bytesWords 8 (s.readHome (.hbm pa) 64))
        .ok (s1, [s1.winStatus die]))

/-! ## Firmware images (R26) -/

def execBeginFirmwareImage (s : State) : Out :=
  .next (s.carryOut 14 0 [lowMask 64, lowMask 1] fun w =>
    .ok (s.setHub { s.hub with fwLen := (w 1).toNat, fwSlot := fld (w 2) 0 1, fwImage := [], fwBusy := true }, []))

/-- Bytes into a table by offset, below a length. -/
def putImage (t : Tbl Byte) (len off : Nat) : List Byte → Tbl Byte
  | [] => t
  | b :: r => putImage (if off < len then tset t off b else t) len (off + 1) r

def execWriteFirmwareImage (s : State) : Out :=
  .next (s.carryOut 14 1 [lowMask 64, lowMask 64, lowMask 64, lowMask 64, lowMask 64, lowMask 64, lowMask 64] fun w =>
    let off := (w 1).toNat
    if off % 8 ≠ 0 || s.hub.fwLen ≤ off then .error 0x14F
    else if !s.hub.fwBusy then .error 0x147
    else .ok (s.setHub { s.hub with fwImage := putImage s.hub.fwImage s.hub.fwLen off (wordsBytes ((upFrom 2 6).map w)) }, []))

/-- The image as loaded. -/
def Hub.newImage (h : Hub) : List Byte := (upFrom 0 h.fwLen).map fun i => tgetD h.fwImage i 0

def execCommitFirmwareImage (s : State) : Out :=
  .next (s.carryOut 14 2 [] fun _ =>
    if !s.hub.fwBusy then .error 0x147
    else
      let ok := verified s.hub.newImage
      let h := { s.hub with fwBusy := false }
      .ok (s.setHub (if ok then { h with fwSlots := tset h.fwSlots h.fwSlot h.newImage } else h), [if ok then 1 else 0]))

end Sys2Proof.Machine
end

