-- ==== Sys2Proof/Machine/HostIf.lean ====
section
/-!
DEFINITION. The device's side of the fabric (R387, R388): flits, links, the host's requests; parity groups (R395, R396);
and what the application cluster asks of the hub (R210, R211, R391).
-/
namespace Sys2Proof.Machine

/-- A message leaves the device. -/
def State.send (s : State) (m : OutMsg) : State := s.setHub { s.hub with outbox := s.hub.outbox ++ [m] }

/-- Events take their turn after those that wait already (log entry 2). -/
def State.queueTurns (s : State) (is : List Instr) : State := { s with turn := s.turn ++ is.map Turn.event }

/-! ## Memory of a context (R388) -/

/-- Whether a node is the HOSTNODE of a valid owner (R324, R388). -/
def State.hostOf (s : State) (o : BitVec 12) (n : BitVec 16) : Bool := (s.owner o).valid && (s.owner o).hostnode = n

/-- The cause of a context-memory request that no translation is asked for (R388). -/
def State.hostBad (s : State) (rq : HostReq) : Option Cause :=
  if !s.hostOf rq.owner rq.node || !rq.addr.getLsbD 63 || rq.addr.extractLsb' 55 8 ≠ 0 then some 0x14F else none

/-- The parts of a range of virtual addresses that pages of 64 KiB, the smallest, hold: at most two for the length of a
flit (R299). -/
def pageParts (va len : Nat) : List (Nat × Nat) :=
  if len = 0 then []
  else
    let e := (va / 2 ^ 16 + 1) * 2 ^ 16
    if va + len ≤ e then [(va, len)] else [(va, e - va), (e, va + len - e)]

/-- The physical places of the parts, or the walk's fault. -/
def State.placesOf (s : State) (o : BitVec 12) (wr : Bool) : List (Nat × Nat) → Except XFault (List (Nat × Nat))
  | [] => .ok []
  | (va, n) :: t =>
    match s.xlate o va wr with
    | .error x => .error x
    | .ok pa =>
      match State.placesOf s o wr t with
      | .error x => .error x
      | .ok r => .ok ((pa, n) :: r)

/-- The places of a context-memory request. -/
def State.hostPlaces (s : State) (rq : HostReq) (wr : Bool) (len : Nat) : Except Cause (List (Nat × Nat)) :=
  match s.hostBad rq with
  | some c => .error c
  | none => (s.placesOf rq.owner wr (pageParts (rq.addr.toNat % 2 ^ 55) len)).mapError XFault.cause

/-- The single-bit errors of the tables that a request walks are corrected (R212). -/
def State.fixHost (s : State) (rq : HostReq) (wr : Bool) (len : Nat) : State :=
  (pageParts (rq.addr.toNat % 2 ^ 55) len).foldl (fun s p => s.fixWalk rq.owner p.1 0 wr) s

/-- Whether places lie in a block that is still to be rebuilt (R396). -/
def State.waitsRebuild (s : State) (ps : List (Nat × Nat)) : Bool := ps.any fun p => s.unrebuilt (.hbm p.1) p.2

/-- HOST_MEMORY_READ: the data, or the cause, in a response; in recovery the device answers no such request (R26). -/
def State.hostMemoryRead (s : State) (rq : HostReq) : State :=
  if s.hub.recovery then s
  else
  match s.hostPlaces rq false rq.len with
  | .error c => if c = 0 then s.park (.hostMemoryRead rq) else s.send (.data rq.node c [])
  | .ok ps =>
    if s.waitsRebuild ps then s.park (.hostMemoryRead rq)
    else
      match ps.findSome? fun p => s.homeErr (.hbm p.1) p.2 with
      | some c => s.send (.data rq.node c [])
      | none =>
        let s1 := ps.foldl (fun s p => s.correct (.hbm p.1) p.2) (s.fixHost rq false rq.len)
        s1.send (.data rq.node 0 (ps.flatMap fun p => s.readHome (.hbm p.1) p.2))

/-- The blocks at the edges of a place that a write covers in part: their check values are verified (R214). -/
def edgeErr (s : State) (p : Nat × Nat) : Option Cause :=
  if p.1 % 64 = 0 && p.2 % 64 = 0 then s.wholeErr (.hbm p.1) p.2 else s.homeErr (.hbm p.1) p.2

/-- Bytes written over places, in order. -/
def State.writeParts (s : State) : List (Nat × Nat) → List Byte → State
  | [], _ => s
  | (pa, n) :: t, bs => State.writeParts (s.writeHome (.hbm pa) (bs.take n)) t (bs.drop n)

/-- HOST_MEMORY_WRITE: the bytes are written, or nothing is, and the response says which. -/
def State.hostMemoryWrite (s : State) (rq : HostReq) (data : List Byte) : State :=
  if s.hub.recovery then s
  else
  match s.hostPlaces rq true data.length with
  | .error c => if c = 0 then s.park (.hostMemoryWrite rq data) else s.send (.data rq.node c [])
  | .ok ps =>
    if s.waitsRebuild ps then s.park (.hostMemoryWrite rq data)
    else
      match ps.findSome? (edgeErr s) with
      | some c => s.send (.data rq.node c [])
      | none => ((s.fixHost rq true data.length).writeParts ps data).send (.data rq.node 0 [])

/-! ## Flits (R387) -/

/-- A flit's fields. -/
def flitNat (bs : List Byte) (lo n : Nat) : Nat := bytesNat ((bs.drop lo).take n)

/-- The words of a launch-window write, written in ascending order from an offset on (R388, R42). -/
def State.windowWrites (s : State) (die off : Nat) (who : Agent) : List DWord → State
  | [] => s
  | w :: t =>
    let i := off / 8
    let s1 := if i = 7 then s.launchSubmit die w who else if i = 15 then s.graphSubmit die w who
      else s.launchWordWrite die (8 ≤ i) (BitVec.ofNat 3 i) w
    State.windowWrites s1 die (off + 8) who t

/-- A read or write of a launch window (R388). A write that is taken is answered once its words are written, since a host orders its
requests by their responses (R230); a window that is not ready refuses it, with 0x14A in the response (R27; DESIGN CHOICE, log
entry 98). -/
def State.windowFlit (s : State) (src : BitVec 16) (wr : Bool) (a len : Nat) (data : List Byte) : State :=
  let die := a / 0x1000
  let off := a % 0x1000
  let bad := s.send (.data src 0x14F [])
  if wr then
    if off % 8 = 0 && len % 8 = 0 && len ≠ 0 && (off + len ≤ 64 || (64 ≤ off && off + len ≤ 128)) then
      (s.windowWrites die off (.node src) (bytesWords (len / 8) data)).send (.data src (if s.hub.ready then 0 else 0x14A) [])
    else bad
  else if off = 128 && len = 8 then s.send (.data src 0 (natBytes' 8 (s.winStatus die).toNat))
  else bad

/-- A write of the mailbox, by the management node; in recovery, where no firmware has set one, by any node (R388, R390; DESIGN
CHOICE, log entry 88). -/
def State.mailFlit (s : State) (src : BitVec 16) (len : Nat) (data : List Byte) : State :=
  if src ≠ s.hub.mgmt && !s.hub.recovery then s.send (.data src 0x14F [])
  else if len < 64 then s
  else s.mail src (bytesWords 8 data)

/-- A read or write flit by its address (R387-R390): a write carries no more data than its payload holds. -/
def State.accessFlit (s : State) (src : BitVec 16) (wr : Bool) (bs : List Byte) : State :=
  let a := flitNat bs 8 8
  let pay := min (16 * flitNat bs 5 1) 224
  let ctx : Bool := 2 ^ 63 ≤ a
  let len := if wr then min (Config.flitLen bs) (pay - if ctx then 16 else 0) else min (Config.flitLen bs) 224
  let data := (bs.drop 16).take len
  let bad := s.send (.data src 0x14F [])
  if ctx then
    let rq : HostReq := { node := src, owner := BitVec.ofNat 12 (flitNat bs 16 2), addr := BitVec.ofNat 64 a, len := len }
    if 4096 ≤ flitNat bs 16 2 || flitNat bs 18 14 ≠ 0 then bad
    else if wr then s.queueTurns [.hostMemoryWrite rq ((bs.drop 32).take len)]
    else s.queueTurns [.hostMemoryRead rq]
  else if a < 0x4000 then s.windowFlit src wr a len data
  else if a = 0x100000 && wr then s.mailFlit src len data
  else bad

/-- The oldest delta of a group's block, taken out of a list. -/
def takeDelta (g b : Nat) : List (Nat × Nat × Option (NodeId × Nat)) → Option (Option (NodeId × Nat) × List (Nat × Nat × Option (NodeId × Nat)))
  | [] => none
  | d :: t =>
    if d.1 = g && d.2.1 = b then some (d.2.2, t) else (takeDelta g b t).map fun x => (x.1, d :: x.2)

/-- An acknowledgement of a parity delta (R395): the oldest one of its block is taken off, and its firing goes on when none of its
deltas is left. -/
def State.deltaAcked (s : State) (g b : Nat) : State :=
  match takeDelta g b s.hub.deltas with
  | none => s
  | some (w, ds) =>
    let s1 := s.setHub { s.hub with deltas := ds }
    match w with
    | none => s1
    | some (n, id) =>
      if s1.owes n id then s1
      else
        match (s1.node n).firing id with
        | none => s1
        | some f => if f.await = .hub 2 then s1.wake n id (fun f => f) else s1

/-- In recovery the device answers only the firmware interface (R26). -/
def State.recoveryFlit (s : State) (src : BitVec 16) (bs : List Byte) : State :=
  if flitNat bs 4 1 = 5 then s.mailFlit src 64 (bs.drop 16)
  else if flitNat bs 4 1 = 1 && flitNat bs 8 8 = 0x100000 then s.mailFlit src (Config.flitLen bs) ((bs.drop 16).take (Config.flitLen bs))
  else s

/-- A flit is delivered by its KIND (R387); one for another node is none of this device's. -/
def State.deliverFlit (s : State) (bs : List Byte) : State :=
  let src := BitVec.ofNat 16 (flitNat bs 2 2)
  if flitNat bs 0 2 ≠ Config.node.toNat then s
  else if s.hub.recovery then s.recoveryFlit src bs
  else
    match flitNat bs 4 1 with
    | 0 => s.accessFlit src false bs
    | 1 => s.accessFlit src true bs
    | 3 => s.queueTurns [.mergeContribution (Config.mergePkt bs)]
    | 4 => s.queueTurns [.parityDelta (Config.deltaPkt bs).1 (Config.deltaPkt bs).2 ((bs.drop 16).take 64)]
    | 5 => s.mailFlit src 64 (bs.drop 16)
    | 2 => s
    | 6 => s
    | 7 => s.deltaAcked (Config.deltaPkt bs).1 (Config.deltaPkt bs).2
    | _ => s.setHub { s.hub with kdrops := s.hub.kdrops + 1 }

def State.link (s : State) (k : Nat) : Link := tgetD s.hub.links k {}
def State.setLink (s : State) (k : Nat) (l : Link) : State := s.setHub { s.hub with links := tset s.hub.links k l }

/-- FLIT_RECEIVE (R387): a flit whose CRC disagrees is asked for again; one with the sequence number awaited is
delivered; any other has been delivered before or follows one that is asked for again. -/
def State.flitReceive (s : State) (link : Nat) (bs : List Byte) : State :=
  let l := s.link link
  if !l.up then s
  else if flitNat bs 240 4 ≠ (crc32c (bs.take 240)).toNat then
    (s.setLink link { l with retry := l.retry + 1, tries := l.tries + 1 }).send (.replay link l.seq)
  else if flitNat bs 6 2 = l.seq.toNat then
    (s.setLink link { l with seq := l.seq + 1, tries := 0 }).deliverFlit bs
  else s

/-- The ninth member's node of a parity group, whose acknowledgements a firing waits for. -/
def State.parityNode (s : State) (gid : Nat) : BitVec 16 :=
  let p := tgetD s.hub.parity gid {}
  ((Config.parityCfg ((upFrom 0 8).map fun i => tgetD p.words i 0)).mems[8]?).getD 0

/-- A firing that waits on an answer over a link that is down faults; a copy of an engine that does answers with the cause. -/
def State.linkLost (s : State) (x : NodeId × Nat) : State :=
  match (s.node x.1).firing x.2 with
  | some f => s.faultFiring x.1 f 0x168 f.info
  | none =>
    let c := s.cluster x.1.row.die x.1.row.cl
    s.setCluster x.1.row.die x.1.row.cl { c with jobs := c.jobs.map fun e => (e.1, e.2.map fun j =>
      if j.n = x.1 && j.fid = x.2 then { j with err := some { cause := 0x168 } } else j) }

/-- The node whose request waits for a rebuild. -/
def askedBy : Instr → Option (BitVec 16)
  | .hostMemoryRead rq => some rq.node
  | .hostMemoryWrite rq _ => some rq.node
  | _ => none

/-- LINK_DOWN (R387): after 8 failed replays of a flit, which follow its first transfer. The requests in flight on the link answer
with 0x168: parity deltas, those of nodes that are reached over it, and the rebuilds that need it. -/
def State.linkDown (s : State) (link : Nat) : State :=
  let l := s.link link
  if !l.up || l.tries ≤ 8 then s
  else
    let crosses := fun (d : Nat × Nat × Option (NodeId × Nat)) => Config.route (s.parityNode d.1) = link
    let lost := dedupBy (s.hub.deltas.filterMap fun d => if crosses d then d.2.2 else none)
    let crossing := fun (i : Instr) => (askedBy i).any fun n => Config.route n = link
    let s1 := (s.setLink link { l with up := false }).send (.linkDown link)
    let s2 := (s.hub.parked.filter crossing).foldl (fun x i => x.send (.data ((askedBy i).getD 0) 0x168 [])) s1
    let s3 := lost.foldl State.linkLost
      (s2.setHub { s2.hub with deltas := s2.hub.deltas.filter (fun d => !crosses d), parked := [] })
    s3.queueTurns (s.hub.parked.filter fun i => !crossing i)
where
  dedupBy : List (NodeId × Nat) → List (NodeId × Nat)
    | [] => []
    | x :: t => x :: (dedupBy t).filter fun y => y ≠ x

/-! ## Parity groups (R395, R396) -/

/-- The entry of a parity group, where there is one. -/
def State.parityGroup (s : State) (gid : Nat) : Option (Parity × ParityCfg) :=
  match tget s.hub.parity gid with
  | none => none
  | some p => if p.words.isEmpty then none else some (p, Config.parityCfg ((upFrom 0 8).map fun i => tgetD p.words i 0))

/-- A block is changed by an exclusive-or; an error of its words that SECDED cannot correct and the difference of its check value,
which is linear, stay with it (R213, log entry 97). -/
def State.xorBlock (s : State) (h : Home) (delta : List Byte) : State :=
  let s1 := s.correct h 64
  let bad := s1.ecc.filter fun e => s1.eccAt h 64 e.1
  let s2 := (s1.writeHome h (xorBytes (s1.readHome h 64) delta)).setSyn h (s1.synAt h)
  { s2 with ecc := bad.foldl (fun t e => tset t e.1 e.2) s2.ecc }

/-- PARITY_DELTA: member 8 applies a delta to its parity block and acknowledges it. -/
def State.parityDelta (s : State) (gid blk : Nat) (delta : List Byte) : State :=
  match s.parityGroup gid with
  | none => s
  | some (_, c) =>
    if s.hub.recovery || c.mems[8]? ≠ some Config.node || c.size ≤ 64 * blk then s
    else
      (s.xorBlock (.hbm (c.base + 64 * blk)) delta).send (.ack gid blk)

/-- Exclusive-or of byte blocks. -/
def xorAll : List (List Byte) → List Byte
  | [] => List.replicate 64 0
  | b :: t => xorBytes b (xorAll t)

/-- PARITY_REBUILD: the replacement of a lost member writes block `blk` once, from the blocks of the seven survivors and
the parity area. `chk` holds the nine check values as differences from the right ones, whose exclusive-or is the
rebuilt block's (R396). Requests that waited go on. -/
def State.parityRebuild (s : State) (gid blk : Nat) (others : List (List Byte)) (chk : List (BitVec 32)) : State :=
  match s.parityGroup gid with
  | none => s
  | some (p, c) =>
    if s.severed p || c.mems[c.lost]? ≠ some Config.node || c.size ≤ 64 * blk || p.rebuilt.contains blk then s
    else
      let a := c.base + 64 * blk
      let d := chk.foldl (· ^^^ ·) 0
      let p1 := { p with rebuilt := p.rebuilt ++ [blk], bad := if d = 0 then p.bad else p.bad ++ [blk] }
      let s1 := { s with hbm := Memory.writeN s.hbm a (xorAll others), hsyn := clearSyn s.hsyn a (a + 64),
                         ecc := clearEcc (clearEcc s.ecc eccHbm a 64) eccLlc a 64 }
      (s1.setHub { s1.hub with parity := tset s1.hub.parity gid p1, parked := [] }).queueTurns s.hub.parked

/-! ## The application cluster (R210, R211, R391) -/

/-- The notify window's base (R211). -/
def notifyBase : Nat := 0x8000000000000

/-- A core's access to the notify window: 4 or 8 bytes at +0 and +8, 4 bytes at +4 and +12 (R211). -/
def State.notifyWindow (s : State) (core off : Nat) (wr : Option (List Byte)) (len : Nat) : State :=
  let n := (wr.map List.length).getD len
  let ok := (n = 4 && off % 4 = 0) || (n = 8 && off % 8 = 0)
  if !ok || !s.granted (off / 16) (s.coreOwner core) then s.send (.accessFault core none)
  else
    match wr with
    | some bs => s.notifyWindowWrite core off (bytesBits 32 (bs.take 4))
    | none =>
      let v : Word := if off % 8 = 0 then s.notifyVal (off / 16) else 0
      s.send (.coreData core (natBytes' n v.toNat))

/-- A core's access to HBM, whose sandbox check has passed. -/
def State.coreHbm (s : State) (core pa : Nat) (wr : Option (List Byte)) (len : Nat) : State :=
  let p := (pa, (wr.map List.length).getD len)
  if s.unrebuilt (.hbm p.1) p.2 then s.park (.appClusterRequest core pa wr len)
  else
    match wr with
    | some bs =>
      match edgeErr s p with
      | some c => s.send (.accessFault core (some c))
      | none => s.writeHome (.hbm pa) bs
    | none =>
      match s.homeErr (.hbm pa) len with
      | some c => s.send (.accessFault core (some c))
      | none => (s.correct (.hbm pa) len).send (.coreData core (s.readHome (.hbm pa) len))

/-- Whether a physical address is one of the notify window. -/
def inNotifyWindow (pa : Nat) : Bool := notifyBase ≤ pa && pa < notifyBase + 65536

/-- APP_CLUSTER_REQUEST: a core's access to HBM or the notify window; a sandbox core's outside the partition is refused
with 0x145 and counted (R210). -/
def State.appClusterRequest (s : State) (core pa : Nat) (wr : Option (List Byte)) (len : Nat) : State :=
  let n := (wr.map List.length).getD len
  let o := s.coreOwner core
  if inNotifyWindow pa then s.notifyWindow core (pa - notifyBase) wr len
  else if (s.owner o).sandbox && !s.sandboxOk true pa n then
    (s.setHub { s.hub with srefused := s.hub.srefused + 1 }).send (.accessFault core (some 0x145))
  else if hbmTop < pa + n then s.send (.accessFault core none)
  else s.coreHbm core pa wr len

/-- LAUNCH_CALL: the monitor writes a core's record into a launch window and returns its status word. -/
def State.launchCall (s : State) (core die : Nat) (rec : List DWord) : State :=
  let s1 := s.monitorLaunch core die rec
  s1.send (.launchStatus core (s1.winStatus die))

end Sys2Proof.Machine
end

