-- ==== Sys2Proof/Machine/Clock.lean ====
section
/-!
DEFINITION. The passing of time (R362-R364): how many core cycles of each die a step takes is a free value (log entry
1); with them go the watchdogs, the stall counters and the idle times of rows.
-/
namespace Sys2Proof.Machine

/-- The watchdog of a running region after `n` cycles: cleared by a firing start, and while no queue holds a token unless it
stands at its limit; else advanced to its limit, where its record is due (R364). -/
def Region.tick (g : Region) (holds : Bool) (n : Nat) : Region :=
  if g.st ≠ .running || n = 0 then g
  else if g.fired then { g with fired := false, wdog := 0 }
  else if g.wdlim ≤ g.wdog then g
  else if !holds then { g with wdog := 0 }
  else
    let up := min (g.wdog.toNat + n) g.wdlim.toNat
    { g with wdog := BitVec.ofNat 32 up, wdue := g.wdue || up = g.wdlim.toNat }

/-! ## Stall counters (R363) -/

/-- Whether an instruction's entry takes a control token besides the guard and the sequencer. -/
def Instr.takesCtl (i : Instr) : Bool :=
  match i with
  | .sel _ => true
  | .steer _ _ _ => true
  | .merge _ _ => true
  | .loopout _ k => k = 0
  | _ => false

/-- Whether one of its queues is enough for a firing. -/
def Instr.eitherQueue (i : Instr) : Bool :=
  match i with
  | .loopin _ _ => true
  | .merge _ _ => true
  | .rmerge _ _ _ => true
  | _ => false

/-- Whether the conditions of the node's own kind hold (R149, R169, R235, R281). -/
def Node.kindReady (nd : Node) (node : Nat) (i : Instr) : Bool :=
  if node = 33 then nd.engineFree (engineOf i)
  else if node = 34 || node = 35 then nd.entries < 16
  else node ≠ 37 || nd.fly.isEmpty

/-- Whether a slot has arrived at its barrier, whose release it then awaits and no token (R359). -/
def Prog.waitsRound (p : Prog) : Bool :=
  match p with
  | .arrived _ => true
  | .released _ => true
  | _ => false

/-- The conditions of R169 that an offered slot does not meet: a token that it needs is absent, a consumer lacks its free slots,
something else. -/
structure Lack where
  toks  : Bool
  slots : Bool
  other : Bool

def State.lack (s : State) (l : Loc) (i : Instr) : Lack :=
  let nd := s.node l.nd
  let r : FireReq := { ops := i.ops, ctl := Instr.takesCtl i }
  let qs := dedup (popQs i.popSels ++ peekQs i.popSels ++ i.morePops)
  let gone := fun (q : Nat) => (nd.head q).isNone
  let t0 := s.slotTarget l i.ops.d0
  let t1 := s.slotTarget l i.ops.d1
  { toks := !r.ctlThere nd false || (if Instr.eitherQueue i then !qs.isEmpty && qs.all gone else qs.any gone),
    slots := !r.guardOff nd && !s.room t0 t1 (Machine.need t0 1 []) (Machine.need t1 1 []),
    other := (nd.prog l.slot).waitsRound || nd.hazard l.nd (i.popSels.map (bumpSel nd.rep.offset)) || qs.any nd.markAt || !nd.kindReady l.nd.node i }

/-- Whether some offered slot of a row fails to start for one reason alone. -/
def State.rowLacks (s : State) (r : RowId) (p : Lack → Bool) : Bool :=
  (s.row r).nodes.any fun e =>
    match e.2.offer.bind fun k => (s.instrAt ⟨⟨r, e.1⟩, k⟩).map fun i => (k, i) with
    | none => false
    | some (k, i) => s.offered ⟨⟨r, e.1⟩, k⟩ e.2 false && p (s.lack ⟨⟨r, e.1⟩, k⟩ i)

/-- Port accesses of a row that stand at a logical bank whose lines Gavotte copies (R314). -/
def State.evacAccesses (s : State) (rw : Row) : Nat :=
  let at_ := fun (a : Access) => match a.phase with
    | .home (.sram d c b _) => ((s.cluster d c).ent b).evac
    | _ => false
  (rw.nodes.filter fun e => e.1 = 34 || e.1 = 35).foldl
    (fun k e => e.2.fly.foldl (fun k f => k + (f.acc.filter at_).length) k) 0

/-- Stall counters of a row whose region runs: cycles without a token, without a free slot, at a scroll. A copied line is one
step of the model, so how long Gavotte stalls an access at a bank that it copies is a free value, at most the cycles that pass for
each such access (log entry 4). -/
def State.tickPmc (s : State) (r : RowId) (rw : Row) (n : Nat) : Row :=
  let add := fun (t : Tbl (BitVec 48)) (k x : Nat) => if x = 0 then t else tset t k (tgetD t k 0 + BitVec.ofNat 48 x)
  let scroll := rw.reel.sh ≠ .ready && rw.nodes.any fun e => e.2.dry
  let when_ := fun (b : Bool) => if b then n else 0
  let copied := s.evacAccesses rw
  let p1 := add rw.pmc 1 (when_ (s.rowLacks r fun x => x.toks && !x.slots && !x.other))
  let p2 := add p1 2 (when_ (s.rowLacks r fun x => x.slots && !x.toks && !x.other))
  let p3 := add p2 5 (min (copied * n) (Config.stall s.tick (rowIx r)))
  { rw with pmc := if n = 0 then rw.pmc else add p3 7 (when_ scroll) }

/-- The cycle since which no node of a row has held a token (R381). -/
def Row.tickIdle (rw : Row) (cyc : Nat) : Row :=
  if rw.tokenless then rw else { rw with reel := { rw.reel with idle16 := cyc } }

/-- Whether the wave of the stage that a row hosts has drained from it: every node has passed its marker on, and the marker has left
the row's lanes (R372, R384). -/
def State.drained (s : State) (r : RowId) (rw : Row) : Bool :=
  match s.bandOf r with
  | none => true
  | some (_, b) =>
    !(rw.owesMark (s.rowMap r) fun e => e.dry || e.stage ≠ rw.reel.hosted) && !s.markOut r b rw.reel.hosted

/-- The cycle since which a row has been drained. -/
def State.tickDrain (s : State) (r : RowId) (rw : Row) (cyc : Nat) : Row :=
  if !rw.reel.hosts || s.drained r rw then rw else { rw with reel := { rw.reel with drain := cyc } }

/-- A row after `n` cycles of its die. -/
def State.tickRow (s : State) (n : Nat) (e : Nat × Row) : Nat × Row :=
  let r : RowId := ⟨e.1 / 336, e.1 / 28 % 12, e.1 % 28⟩
  if s.rowRuns r then (e.1, s.tickDrain r ((s.tickPmc r e.2 n).tickIdle (s.cyc r.die + n)) (s.cyc r.die + n)) else e

/-- A die after `n` cycles. -/
def State.tickDie (s : State) (die n : Nat) : State :=
  let d := s.die die
  let regions := d.regions.map fun e =>
    (e.1, { e.2.tick (s.holdsToken die e.1) n with wdlim := (Config.wdlim s.tick die e.1).getD e.2.wdlim })
  let rows := s.rows.map fun e => if e.1 / 336 = die then s.tickRow n e else e
  { s.setDie die { d with cyc := d.cyc + BitVec.ofNat 64 n, regions := regions } with rows := rows }

/-- The place of a node in the order of die, cluster, row and node index (R100, R191). -/
def nodeRank (n : NodeId) : Nat := rowIx n.row * 64 + n.node + 1

/-- A lane's place among the ingress moves of one cycle: word lanes before beat lanes (R168). -/
def laneRank (l : Nat) : Nat := if laneIsBeat l then 16 + l else l

/-- A rank of a phase of the cycle, a node and a place in it. -/
def rankAt (phase : Nat) (n : NodeId) (k : Nat) : Option Nat := some ((phase * 2 ^ 17 + nodeRank n) * 128 + k)

/-- The rank of the moves of the firmware interface and of the cores' notify writes: after all others. -/
def rankLast : Option Nat := some (6 * 2 ^ 24)

/-- The rank of a move among the moves of one cycle, where the spec orders them: firings complete, waves close, groups
deliver, nodes start firings and forward markers, lanes are forwarded, RMERGE takes records, and the firmware interface comes
last (R100, R168, R170, R173, R194, R211, log entry 1). -/
def Turn.rank (t : Turn) : Option Nat :=
  let at_ := fun (phase : Nat) (n : NodeId) => rankAt phase n 0
  match t with
  | .node n => at_ 3 n
  | .event i =>
    match i with
    | .firingStep n _ => at_ 0 n
    | .firingCompletion n _ => at_ 0 n
    | .waveClose n => at_ 1 n
    | .groupDelivery l => at_ 2 l.nd
    | .markerForward n => at_ 3 n
    | .doneEvent n => at_ 3 n
    | .ingressForward r l => at_ 4 ⟨r, laneRank l⟩
    | .rmergeTake l arm => rankAt 5 l.nd (2 * (l.slot % 64) + arm.toNat)
    | .notifyWindowWrite _ _ _ => rankLast
    | .appClusterRequest _ pa (some _) _ => if inNotifyWindow pa then rankLast else none
    | i => if (fwParts i).isSome then rankLast else none

/-- A move that takes place once in a cycle: a node's start, a lane's token, a record of an arm of RMERGE (R101, R168, R179). -/
def Turn.once (t : Turn) : Bool :=
  match t with
  | .node _ => true
  | .event (.ingressForward _ _) => true
  | .event (.rmergeTake _ _) => true
  | _ => false

/-- Whether the present cycle, whose last move has rank `m`, is too late for a move. -/
def Turn.past (t : Turn) (m : Nat) : Bool :=
  match t.rank with
  | none => false
  | some k => k < m || (k = m && t.once)

/-- The stack under an HBM address, and so the base die whose slice caches it (R17, R201). -/
def stackOf (pa : Nat) : Nat := pa / 2 ^ 16 % 12

/-- Lines of a slice of the last-level cache: 256 MiB in lines of 256 bytes (R16). -/
def sliceLines : Nat := 2 ^ 20

/-- A slice writes back a line that it holds, or fills one of its stack; a line with an error keeps its place until a read meets
the error (R203, log entry 6). -/
def State.cacheMove (s : State) (l : Nat) : List Nat :=
  let bad := s.ecc.any fun e => s.eccAt (.hbm (256 * l)) 256 e.1
  if bad then s.llc
  else if s.llc.contains l then s.llc.erase l
  else if hbmTop ≤ 256 * l || sliceLines ≤ (s.llc.filter fun x => stackOf (256 * x) = stackOf (256 * l)).length then s.llc
  else s.llc ++ [l]

/-- What stands in the memories while a step passes: cache lines move, and a stored word may be upset. -/
def State.memoryMoves (s : State) : State :=
  { s with
    llc := match Config.cacheLine s.tick with
      | none => s.llc
      | some l => s.cacheMove l
    ecc := match Config.upset s.tick with
      | none => s.ecc
      | some (k, two) => tset s.ecc k two }

/-- What the firmware and the application cores do to the hub while a step passes, once the device is ready (R312, R386, R391). -/
def State.hubMoves (s : State) : State :=
  if !s.hub.ready then s
  else
    let m := Config.hubMove s.tick
    let h := s.hub
    let (n, w) := m.thresh.getD (h.thresh, h.retWin)
    s.setHub { h with
      thresh := n, retWin := w,
      links := match m.clear with
        | none => h.links
        | some k => tset h.links k { tgetD h.links k {} with retry := 0 }
      cores := match m.core with
        | none => h.cores
        | some (k, c) => if k < 16 then tset h.cores k c else h.cores }

/-- Who moves at the next step. -/
def State.nextTurn (s : State) : Turn :=
  match s.turn with
  | [] => Config.arbiter (s.tick + 1)
  | t :: _ => t

/-- The cycles of a die that pass after a move of rank `m`: one at least where the next move is past its turn. -/
def State.cycles (s : State) (m die : Nat) : Nat := max (Config.elapse s.tick die) (if s.nextTurn.past m then 1 else 0)

/-- Time passes: one step, whose move was `t`'s. In recovery no compute die has power (R26). -/
def State.clock (s : State) (t : Turn) : State :=
  let m := max s.moved (t.rank.getD 0)
  let s0 := s.memoryMoves.hubMoves
  let s1 := if s.hub.recovery then s0 else (upFrom 0 4).foldl (fun x d => x.tickDie d (s.cycles m d)) s0
  { s1 with tick := s.tick + 1, moved := if (upFrom 0 4).all fun d => 0 < s.cycles m d then 0 else m }

end Sys2Proof.Machine
end

