-- ==== Sys2Proof/Machine/Events.lean ====
section
/-!
DEFINITION. The events of the device as steps: each takes place where its places exist, and otherwise stops by name
(R13, R390). What an event does is written with its subject.
-/
namespace Sys2Proof.Machine

/-- An event whose places exist leads to a next state. -/
def event (i : Instr) (t : State) : Out := if eventOk i then .next t else .fault .noSuchPlace

def execReset (s : State) : Out := event (.reset) (s.boot)
def execFirmwareReady (s : State) : Out := event (.firmwareReady) (s.firmwareReady)
def execLaunchWordWrite (die : Nat) (graph : Bool) (w : BitVec 3) (v : DWord) (who : Agent) (s : State) : Out := event (.launchWordWrite die graph w v who) (s.launchWordWrite die graph w v)
def execLaunchSubmit (die : Nat) (v : DWord) (who : Agent) (s : State) : Out := event (.launchSubmit die v who) (s.launchSubmit die v who)
def execGraphSubmit (die : Nat) (v : DWord) (who : Agent) (s : State) : Out := event (.graphSubmit die v who) (s.graphSubmit die v who)
def execReplayStart (die g : Nat) (s : State) : Out := event (.replayStart die g) (s.replayStart die g)
def execPlacement (die : Nat) (s : State) : Out := event (.placement die) (s.placement die)
def execBlockFetch (die f : Nat) (s : State) : Out := event (.blockFetch die f) (s.blockFetch die f)
def execFiringCompletion (n : NodeId) (id : Nat) (s : State) : Out := event (.firingCompletion n id) (s.firingCompletion n id)
def execFiringStep (n : NodeId) (id : Nat) (s : State) : Out := event (.firingStep n id) (s.firingStep n id)
def execWaveClose (n : NodeId) (s : State) : Out := event (.waveClose n) (s.waveClose n)
def execGroupDelivery (l : Loc) (s : State) : Out := event (.groupDelivery l) (s.groupDelivery l)
def execMarkerForward (n : NodeId) (s : State) : Out := event (.markerForward n) (s.markerForward n)
def execDoneEvent (n : NodeId) (s : State) : Out := event (.doneEvent n) (s.doneEvent n)
def execIngressForward (r : RowId) (lane : Nat) (s : State) : Out := event (.ingressForward r lane) (s.ingressForward r lane)
def execRmergeTake (l : Loc) (arm : Bool) (s : State) : Out := event (.rmergeTake l arm) (s.rmergeTake l arm)
def execKillArrival (l : Loc) (k : Nat) (s : State) : Out := event (.killArrival l k) (s.killArrival l k)
def execMemoryReply (n : NodeId) (id : Nat) (s : State) : Out := event (.memoryReply n id) (s.memoryReply n id)
def execWindowFill (die cl bank w : Nat) (s : State) : Out := event (.windowFill die cl bank w) (s.windowFill die cl bank w)
def execTlbLookup (n : NodeId) (id : Nat) (s : State) : Out := event (.tlbLookup n id) (s.tlbLookup n id)
def execPageWalkComplete (die slice k : Nat) (s : State) : Out := event (.pageWalkComplete die slice k) (s.pageWalkComplete die slice k)
def execTranslationFreeze (die reg : Nat) (s : State) : Out := event (.translationFreeze die reg) (s.translationFreeze die reg)
def execBmodeSwitch (die cl bank : Nat) (s : State) : Out := event (.bmodeSwitch die cl bank) (s.bmodeSwitch die cl bank)
def execEngineRequestAccept (die cl bank seg : Nat) (s : State) : Out := event (.engineRequestAccept die cl bank seg) (s.engineRequestAccept die cl bank seg)
def execEngineResponse (die cl bank seg : Nat) (s : State) : Out := event (.engineResponse die cl bank seg) (s.engineResponse die cl bank seg)
def execRandtTicket (slot : Nat) (s : State) : Out := event (.randtTicket slot) (s.randtTicket slot)
def execRingRefill (slot : Nat) (s : State) : Out := event (.ringRefill slot) (s.ringRefill slot)
def execRetirementRequest (b : BankId) (s : State) : Out := event (.retirementRequest b) (s.retirementRequest b)
def execRetirementThreshold (b : BankId) (s : State) : Out := event (.retirementThreshold b) (s.retirementThreshold b)
def execRetirement (p : BankPlace) (s : State) : Out := event (.retirement p) (s.retirementEvent p)
def execGavotteLineCopy (p : BankPlace) (s : State) : Out := event (.gavotteLineCopy p) (s.gavotteLineCopy p)
def execEvacuationComplete (p : BankPlace) (s : State) : Out := event (.evacuationComplete p) (s.evacuationEvent p)
def execOverCapacityPoint (die reg : Nat) (s : State) : Out := event (.overCapacityPoint die reg) (s.overCapacityPoint die reg)
def execModeChangeStart (s : State) : Out := event (.modeChangeStart) (s.modeChangeStart)
def execPermitWithdrawalEnd (s : State) : Out := event (.permitWithdrawalEnd) (s.permitWithdrawalEnd)
def execPowerWindow (s : State) : Out := event (.powerWindow) (s.powerWindow)
def execPermitWindow (die : Nat) (s : State) : Out := event (.permitWindow die) (s.permitWindow die)
def execControllerDecision (die cl c : Nat) (s : State) : Out := event (.controllerDecision die cl c) (s.controllerDecision die cl c)
def execEnableArrival (die cl k : Nat) (s : State) : Out := event (.enableArrival die cl k) (s.enableArrival die cl k)
def execDoneArrival (die cl k : Nat) (s : State) : Out := event (.doneArrival die cl k) (s.doneArrival die cl k)
def execFinalWord (die cl k : Nat) (s : State) : Out := event (.finalWord die cl k) (s.finalWord die cl k)
def execWatchdogExpiry (die reg : Nat) (s : State) : Out := event (.watchdogExpiry die reg) (s.watchdogExpiry die reg)
def execFreezeComplete (die reg : Nat) (s : State) : Out := event (.freezeComplete die reg) (s.freezeComplete die reg)
def execFaultRecordDelivery (owner : BitVec 12) (s : State) : Out := event (.faultRecordDelivery owner) (s.faultRecordDelivery owner)
def execYieldPoint (die reg : Nat) (s : State) : Out := event (.yieldPoint die reg) (s.yieldPoint die reg)
def execTreeGrant (n : NodeId) (s : State) : Out := event (.treeGrant n) (s.treeGrant n)
def execNodeSwitch (n : NodeId) (s : State) : Out := event (.nodeSwitch n) (s.nodeSwitch n)
def execShadowLoad (r : RowId) (s : State) : Out := event (.shadowLoad r) (s.shadowLoad r)
def execTriggerInject (die band : Nat) (s : State) : Out := event (.triggerInject die band) (s.triggerInject die band)
def execWrapDeparture (die band lane : Nat) (s : State) : Out := event (.wrapDeparture die band lane) (s.wrapDeparture die band lane)
def execFeedbackDelivery (die band ch : Nat) (s : State) : Out := event (.feedbackDelivery die band ch) (s.feedbackDelivery die band ch)
def execBandReform (die band : Nat) (s : State) : Out := event (.bandReform die band) (s.bandReform die band)
def execRowFree (r : RowId) (s : State) : Out := event (.rowFree r) (s.rowFree r)
def execStageChoice (r : RowId) (s : State) : Out := event (.stageChoice r) (s.stageChoice r)
def execLaunchComplete (die band : Nat) (s : State) : Out := event (.launchComplete die band) (s.launchComplete die band)
def execFlitReceive (link : Nat) (bytes : List Byte) (s : State) : Out := event (.flitReceive link bytes) (s.flitReceive link bytes)
def execLinkDown (link : Nat) (s : State) : Out := event (.linkDown link) (s.linkDown link)
def execHostMemoryRead (rq : HostReq) (s : State) : Out := event (.hostMemoryRead rq) (s.hostMemoryRead rq)
def execHostMemoryWrite (rq : HostReq) (data : List Byte) (s : State) : Out := event (.hostMemoryWrite rq data) (s.hostMemoryWrite rq data)
def execMergeContributionSend (mid mem : Nat) (s : State) : Out := event (.mergeContributionSend mid mem) (s.mergeContributionSend mid mem)
def execMergeContribution (p : MergePkt) (s : State) : Out := event (.mergeContribution p) (s.mergeContribution p)
def execParityDelta (gid : Nat) (blk : Nat) (delta : List Byte) (s : State) : Out := event (.parityDelta gid blk delta) (s.parityDelta gid blk delta)
def execParityRebuild (gid : Nat) (blk : Nat) (others : List (List Byte)) (chk : List (BitVec 32)) (s : State) : Out := event (.parityRebuild gid blk others chk) (s.parityRebuild gid blk others chk)
def execNotifyWindowWrite (core : Nat) (off : Nat) (v : Word) (s : State) : Out := event (.notifyWindowWrite core off v) (s.notifyWindowWrite core off v)
def execAppClusterRequest (core : Nat) (pa : Nat) (wr : Option (List Byte)) (len : Nat) (s : State) : Out := event (.appClusterRequest core pa wr len) (s.appClusterRequest core pa wr len)
def execLaunchCall (core die : Nat) (rec : List DWord) (s : State) : Out := event (.launchCall core die rec) (s.launchCall core die rec)
def execFirmwareFreeze (die reg : Nat) (s : State) : Out := event (.firmwareFreeze die reg) (s.firmwareFreeze die reg)

end Sys2Proof.Machine
end

