-- ==== Sys2Proof/Machine/Fetch.lean ====
section
/-!
DEFINITION. Where a step finds a node's instruction (R101), and how a word comes to stand there (log entry 2).
-/
namespace Sys2Proof.Machine

/-- The instruction in the slot that a node offers, with that slot as the place of the move. -/
def State.fetchAt (s : State) (n : NodeId) : Option (Instr × State) :=
  match (s.node n).offer with
  | none => none
  | some k =>
    match (tget (s.node n).store k).bind slotInstr with
    | none => none
    | some i => some (i, { s with locus := ⟨n, k⟩ })

/-- The first node that executes an opcode (R14, R65). -/
def firstNode (opc : Nat) : Nat :=
  match opcKind opc with
  | some .lane => 32
  | some .matrix => 33
  | some .port => 34
  | some .cell => 36
  | some .descent => 37
  | _ => 0

/-- The place of a word that `withFetchWord` stores: row 0 of cluster 0 of die 0. -/
def wordPlace (w : DWord) : NodeId := ⟨⟨0, 0, 0⟩, firstNode (w.extractLsb' 56 8).toNat⟩

/-- A running region over rows 0 to 27 of cluster 0 of die 0, where none runs row 0. -/
def State.withRegion (s : State) : State :=
  if s.rowRuns ⟨0, 0, 0⟩ then s
  else s.setDie 0 { s.die 0 with regions := tset (s.die 0).regions 0 { valid := true, st := .running, nrows := 28 } }

/-- An instruction word and its literal in slot 0 of its node, which offers it. -/
def State.placeWord (s : State) (w l : DWord) : State :=
  let n := wordPlace w
  let s1 := s.withRegion
  let lit := if w.getLsbD 51 then some l else none
  { s1.setNode n { s1.node n with store := [(0, (w, lit))], seq := 0, wait := none, redo := [] } with
    turn := .node n :: s.turn }

/-- A command at the head of the mailbox, with its turn. -/
def State.placeCommand (s : State) (ws : List DWord) : State :=
  let m : List Mailbox := [{ node := s.hub.mgmt, w := ws }]
  { s with hub := { s.hub with mbox := m }, turn := headTurn m ++ s.turn }

end Sys2Proof.Machine
end

