-- ==== Sys2Proof/Machine/Online.lean ====
section
/-!
DEFINITION. The online signed-digit instructions 0x50-0x55 (R77, R117-R123).
-/
namespace Sys2Proof.Machine

/-- A digit of a 3-bit sign-magnitude code (R77). -/
def sdDigit (c : Nat) : Option Int :=
  match c with
  | 0 => some 0
  | 1 => some 1
  | 2 => some 2
  | 5 => some (-1)
  | 6 => some (-2)
  | _ => none

def sdCode (d : Int) : Nat := if d = 1 then 1 else if d = 2 then 2 else if d = -1 then 5 else if d = -2 then 6 else 0

/-- The digits at positions j, j + 1, … of a token, `k` of them. -/
def sdDigits (w : Word) : Nat → Nat → Option (List Int)
  | _, 0 => some []
  | j, k + 1 =>
    match sdDigit (w.toNat / 2 ^ (21 - 3 * j) % 8), sdDigits w (j + 1) k with
    | some d, some ds => some (d :: ds)
    | _, _ => none

/-- The digits and LASTD of a token, none where it is malformed (R77). -/
def sdParse (w : Word) : Option (List Int × Bool) :=
  let cnt := w.toNat / 2 ^ 24 % 16
  if w.toNat / 2 ^ 29 ≠ 0 || 8 < cnt || w.toNat % 2 ^ (24 - 3 * cnt) ≠ 0 then none
  else
    match sdDigits w 0 cnt with
    | some ds => some (ds, w.getLsbD 28)
    | none => none

def sdFields : Nat → List Int → Nat
  | _, [] => 0
  | j, d :: ds => sdCode d * 2 ^ (21 - 3 * j) + sdFields (j + 1) ds

/-- The token of at most eight digits. -/
def sdToken (ds : List Int) (last : Bool) : Word :=
  BitVec.ofNat 32 ((if last then 2 ^ 28 else 0) + ds.length * 2 ^ 24 + sdFields 0 ds)

/-- Digits packed in tokens of up to 8, the final one with LASTD when `last` (R120, R123). -/
def sdPack (last : Bool) : Nat → List Int → List Word
  | 0, _ => []
  | n + 1, ds =>
    if ds.length ≤ 8 then (if ds.isEmpty && !last then [] else [sdToken ds last])
    else sdToken (ds.take 8) false :: sdPack last n (ds.drop 8)

def sdToks (last : Bool) (ds : List Int) (tag : RTag) : List Tok := (sdPack last 4 ds).map fun w => wordTok w tag

/-- Deliver words to both consumer slots two cycles later (R103, R117). -/
def Res.sd (o : List Tok) (p : Prog) : Res := .go { o0 := o, o1 := o, lat := 2, prog := some p }

def SdLen.digits : SdLen → Nat
  | .sd4 => 4 | .sd8 => 8 | .sd16 => 16

def SdChunk.digits : SdChunk → Nat
  | .c8 => 8 | .c4 => 4 | .c2 => 2 | .c1 => 1

/-- The digit string of |v| in n digits, least significant digit last (R118). -/
def sdString : Nat → Nat → List Int
  | 0, _ => []
  | n + 1, v =>
    if v % 4 = 3 then sdString n ((v + 1) / 4) ++ [-1] else sdString n (v / 4) ++ [((v % 4 : Nat) : Int)]

/-- The n digits SDCVT gives a value (R118). -/
def sdOf (n : Nat) (v : Int) : List Int :=
  let ds := if 2 * (4 ^ n - 1) / 3 < v.natAbs then List.replicate n 2 else sdString n v.natAbs
  if v < 0 then ds.map (fun d => -d) else ds

/-- SDCVT emits the next c digits of its operand on each firing; the operand leaves and the sequencer goes on at the
last (R118). -/
def execSdcvt (o : Ops) (n : SdLen) (ch : SdChunk) (s : State) : Out :=
  .next (fire s s.locus (.sdcvt o n ch) { ops := o, multi := true } (fun e =>
    let done := match e.prog with
      | .conv k => k
      | _ => 0
    let k := min (SdChunk.digits ch) (SdLen.digits n - done)
    let last := SdLen.digits n ≤ done + k
    let t := [wordTok (sdToken (((sdOf (SdLen.digits n) e.av.toInt).drop done).take k) last) e.tag]
    .go { o0 := t, o1 := t, lat := 2, prog := some (if last then .idle else .conv (done + k)),
          pops := if last then none else some [], stay := !last })
    fun _ => { prog := some .idle })

/-- What the one-operand instructions make of a token: digits, LASTD, digits so far with it. -/
def sdOne (e : Env) (n : Nat) (k : List Int → Bool → Res) : Res :=
  match sdParse e.av with
  | none => .fault 0x028 e.info
  | some (ds, last) => if 16 < n + ds.length then .fault 0x02B e.info else k ds last

/-- The two-operand instructions: both tokens well formed, with one CNT and one LASTD (R117); a firing that breaks both raises 0x028
(DESIGN CHOICE, log entry 104). -/
def sdTwo (e : Env) (n : Nat) (k : List Int → List Int → Bool → Res) : Res :=
  match sdParse e.av, sdParse e.bv with
  | some (da, la), some (db, lb) =>
    if da.length ≠ db.length || la != lb || 16 < n + da.length then .fault 0x02B e.info else k da db la
  | _, _ => .fault 0x028 e.info

def sdValue (v : Int) (ds : List Int) : Int := ds.foldl (fun x d => 4 * x + d) v

/-- SDVAL delivers the saturated value with the last token (R119). -/
def execSdval (o : Ops) (uns : Bool) (s : State) : Out :=
  .next (fire s s.locus (.sdval o uns) { ops := o } fun e =>
    let (v, n) := match e.prog with
      | .sdval v n => (v, n)
      | _ => (0, 0)
    sdOne e n fun ds last =>
      let x := sdValue v ds
      if last then
        .sd [wordTok (BitVec.ofInt 32 (clampInt (intLo (!uns) 32) (intHi (!uns) 32) x)) e.tag] .idle
      else .sd [] (.sdval x (n + ds.length)))

/-- Transfer and interim digit of t with the next t (R120). -/
def oaddHL (t nx : Int) : Int × Int :=
  if 3 ≤ t then (1, t - 4)
  else if t = 2 then (if 0 ≤ nx then (1, -2) else (0, 2))
  else if t = -2 then (if nx ≤ 0 then (-1, 2) else (0, -2))
  else if t ≤ -3 then (-1, t + 4)
  else (0, t)

/-- The digits s_i, s_(i+1), … of the sum, given t_i, t_(i+1), … and zeros after them. -/
def oaddTail : List Int → List Int
  | [] => []
  | t :: r => ((oaddHL t (r.headD 0)).2 + (oaddHL (r.headD 0) ((r.drop 1).headD 0)).1) :: oaddTail r

/-- The n + 1 digits of the sum (R120). -/
def oaddAll (ts : List Int) : List Int := (oaddHL (ts.headD 0) ((ts.drop 1).headD 0)).1 :: oaddTail ts

/-- OADD emits every digit that has become determined (R120). -/
def execOadd (o : Ops) (s : State) : Out :=
  .next (fire s s.locus (.oadd o) { ops := o } fun e =>
    let (ts, sent) := match e.prog with
      | .oadd t k => (t, k)
      | _ => ([], 0)
    sdTwo e ts.length fun da db last =>
      let t := ts ++ List.zipWith (· + ·) da db
      let det := if last then t.length + 1 else t.length - 1
      .sd (sdToks last (((oaddAll t).take det).drop sent) e.tag) (if last then .idle else .oadd t det))

/-- The running difference over the digits, and the difference at the first digit where |D| ≥ 2 (R121). -/
def ocmpRun : Int → List Int → List Int → Int × Option Int
  | d, a :: as, b :: bs =>
    let x := 4 * d + (a - b)
    match ocmpRun x as bs with
    | (y, r) => (y, if 2 ≤ x.natAbs then some x else r)
  | d, _, _ => (d, none)

/-- OCMP delivers its result once, on the firing that decides (R121). -/
def execOcmp (o : Ops) (cc : OCond) (s : State) : Out :=
  .next (fire s s.locus (.ocmp o cc) { ops := o } fun e =>
    let (n, d, dec) := match e.prog with
      | .ocmp n d x => (n, d, x)
      | _ => (0, 0, false)
    sdTwo e n fun da db last =>
      let (x, r) := ocmpRun d da db
      let res := match r with
        | some y => some y
        | none => if last then some x else none
      let out := match dec, res with
        | false, some y => [wordTok (boolWord (cc.holds y)) e.tag]
        | _, _ => []
      .sd out (if last then .idle else .ocmp (n + da.length) x (dec || res.isSome)))

/-- OCUT passes the first k digits (R122). -/
def execOcut (o : Ops) (k : BitVec 4) (s : State) : Out :=
  .next (fire s s.locus (.ocut o k) { ops := o } fun e =>
    let (n, cut) := match e.prog with
      | .ocut n c => (n, c)
      | _ => (0, false)
    sdOne e n fun ds last =>
      let c := cut || k.toNat + 1 ≤ n + ds.length
      let out := if cut then []
        else if k.toNat + 1 ≤ n + ds.length then [wordTok (sdToken (ds.take (k.toNat + 1 - n)) true) e.tag]
        else [wordTok e.av e.tag]
      .sd out (if last then .idle else .ocut (n + ds.length) c))

/-- OMAX holds both digit strings until it decides, then passes the winner's (R123). -/
def execOmax (o : Ops) (s : State) : Out :=
  .next (fire s s.locus (.omax o) { ops := o } fun e =>
    let (n, d, win, ha, hb) := match e.prog with
      | .omax n d w x y => (n, d, w, x, y)
      | _ => (0, 0, none, [], [])
    sdTwo e n fun da db last =>
      let nx := n + da.length
      match win with
      | some w => .sd [wordTok (if w then e.av else e.bv) e.tag] (if last then .idle else .omax nx d win [] [])
      | none =>
        let (x, r) := ocmpRun d da db
        let res := match r with
          | some y => some y
          | none => if last then some x else none
        match res with
        | none => .sd [] (.omax nx x none (ha ++ da) (hb ++ db))
        | some y =>
          let w : Bool := 0 ≤ y
          .sd (sdToks last (if w then ha ++ da else hb ++ db) e.tag)
            (if last then .idle else .omax nx x (some w) [] []))

end Sys2Proof.Machine
end

