-- ==== Sys2Proof/Machine/Dispatch.lean ====
section
/-!
DEFINITION. One arm for each constructor of Instr: a direct call of its meaning.
-/
namespace Sys2Proof.Machine

/-- What an instruction or event does. -/
def exec (i : Instr) (s : State) : Host.Outcome State Fault Refusal :=
  match i with
  | .launchWordWrite die graph w v who => Sys2Proof.Machine.execLaunchWordWrite die graph w v who s
  | .launchSubmit die v who => Sys2Proof.Machine.execLaunchSubmit die v who s
  | .graphSubmit die v who => Sys2Proof.Machine.execGraphSubmit die v who s
  | .replayStart die g => Sys2Proof.Machine.execReplayStart die g s
  | .placement die => Sys2Proof.Machine.execPlacement die s
  | .blockFetch die f => Sys2Proof.Machine.execBlockFetch die f s
  | .firingCompletion n id => Sys2Proof.Machine.execFiringCompletion n id s
  | .firingStep n id => Sys2Proof.Machine.execFiringStep n id s
  | .waveClose n => Sys2Proof.Machine.execWaveClose n s
  | .groupDelivery l => Sys2Proof.Machine.execGroupDelivery l s
  | .markerForward n => Sys2Proof.Machine.execMarkerForward n s
  | .doneEvent n => Sys2Proof.Machine.execDoneEvent n s
  | .ingressForward r lane => Sys2Proof.Machine.execIngressForward r lane s
  | .rmergeTake l arm => Sys2Proof.Machine.execRmergeTake l arm s
  | .killArrival l k => Sys2Proof.Machine.execKillArrival l k s
  | .memoryReply n id => Sys2Proof.Machine.execMemoryReply n id s
  | .windowFill die cl bank w => Sys2Proof.Machine.execWindowFill die cl bank w s
  | .tlbLookup n id => Sys2Proof.Machine.execTlbLookup n id s
  | .pageWalkComplete die slice k => Sys2Proof.Machine.execPageWalkComplete die slice k s
  | .translationFreeze die reg => Sys2Proof.Machine.execTranslationFreeze die reg s
  | .bmodeSwitch die cl bank => Sys2Proof.Machine.execBmodeSwitch die cl bank s
  | .engineRequestAccept die cl bank seg => Sys2Proof.Machine.execEngineRequestAccept die cl bank seg s
  | .engineResponse die cl bank seg => Sys2Proof.Machine.execEngineResponse die cl bank seg s
  | .randtTicket slot => Sys2Proof.Machine.execRandtTicket slot s
  | .ringRefill slot => Sys2Proof.Machine.execRingRefill slot s
  | .retirementRequest b => Sys2Proof.Machine.execRetirementRequest b s
  | .retirementThreshold b => Sys2Proof.Machine.execRetirementThreshold b s
  | .retirement p => Sys2Proof.Machine.execRetirement p s
  | .gavotteLineCopy p => Sys2Proof.Machine.execGavotteLineCopy p s
  | .evacuationComplete p => Sys2Proof.Machine.execEvacuationComplete p s
  | .overCapacityPoint die reg => Sys2Proof.Machine.execOverCapacityPoint die reg s
  | .permitWindow die => Sys2Proof.Machine.execPermitWindow die s
  | .controllerDecision die cl c => Sys2Proof.Machine.execControllerDecision die cl c s
  | .enableArrival die cl k => Sys2Proof.Machine.execEnableArrival die cl k s
  | .doneArrival die cl k => Sys2Proof.Machine.execDoneArrival die cl k s
  | .finalWord die cl k => Sys2Proof.Machine.execFinalWord die cl k s
  | .watchdogExpiry die reg => Sys2Proof.Machine.execWatchdogExpiry die reg s
  | .freezeComplete die reg => Sys2Proof.Machine.execFreezeComplete die reg s
  | .faultRecordDelivery owner => Sys2Proof.Machine.execFaultRecordDelivery owner s
  | .yieldPoint die reg => Sys2Proof.Machine.execYieldPoint die reg s
  | .treeGrant n => Sys2Proof.Machine.execTreeGrant n s
  | .nodeSwitch n => Sys2Proof.Machine.execNodeSwitch n s
  | .shadowLoad r => Sys2Proof.Machine.execShadowLoad r s
  | .triggerInject die band => Sys2Proof.Machine.execTriggerInject die band s
  | .wrapDeparture die band lane => Sys2Proof.Machine.execWrapDeparture die band lane s
  | .feedbackDelivery die band ch => Sys2Proof.Machine.execFeedbackDelivery die band ch s
  | .bandReform die band => Sys2Proof.Machine.execBandReform die band s
  | .rowFree r => Sys2Proof.Machine.execRowFree r s
  | .stageChoice r => Sys2Proof.Machine.execStageChoice r s
  | .launchComplete die band => Sys2Proof.Machine.execLaunchComplete die band s
  | .flitReceive link bytes => Sys2Proof.Machine.execFlitReceive link bytes s
  | .linkDown link => Sys2Proof.Machine.execLinkDown link s
  | .hostMemoryRead rq => Sys2Proof.Machine.execHostMemoryRead rq s
  | .hostMemoryWrite rq data => Sys2Proof.Machine.execHostMemoryWrite rq data s
  | .mergeContributionSend mid mem => Sys2Proof.Machine.execMergeContributionSend mid mem s
  | .mergeContribution p => Sys2Proof.Machine.execMergeContribution p s
  | .parityDelta gid blk delta => Sys2Proof.Machine.execParityDelta gid blk delta s
  | .parityRebuild gid blk others chk => Sys2Proof.Machine.execParityRebuild gid blk others chk s
  | .notifyWindowWrite core off v => Sys2Proof.Machine.execNotifyWindowWrite core off v s
  | .appClusterRequest core pa wr len => Sys2Proof.Machine.execAppClusterRequest core pa wr len s
  | .launchCall core die rec => Sys2Proof.Machine.execLaunchCall core die rec s
  | .add o ty => Sys2Proof.Machine.execAdd o ty s
  | .sub o ty => Sys2Proof.Machine.execSub o ty s
  | .mul o ty => Sys2Proof.Machine.execMul o ty s
  | .mulh o ty => Sys2Proof.Machine.execMulh o ty s
  | .mad o ty c => Sys2Proof.Machine.execMad o ty c s
  | .neg o ty => Sys2Proof.Machine.execNeg o ty s
  | .abs o ty => Sys2Proof.Machine.execAbs o ty s
  | .min o ty => Sys2Proof.Machine.execMin o ty s
  | .max o ty => Sys2Proof.Machine.execMax o ty s
  | .band o => Sys2Proof.Machine.execBand o s
  | .bor o => Sys2Proof.Machine.execBor o s
  | .bxor o => Sys2Proof.Machine.execBxor o s
  | .bandn o => Sys2Proof.Machine.execBandn o s
  | .bnot o => Sys2Proof.Machine.execBnot o s
  | .shl o => Sys2Proof.Machine.execShl o s
  | .shr o => Sys2Proof.Machine.execShr o s
  | .sar o => Sys2Proof.Machine.execSar o s
  | .rol o => Sys2Proof.Machine.execRol o s
  | .clz o => Sys2Proof.Machine.execClz o s
  | .popc o => Sys2Proof.Machine.execPopc o s
  | .bfx o uns => Sys2Proof.Machine.execBfx o uns s
  | .bfi o c => Sys2Proof.Machine.execBfi o c s
  | .cmp o cc => Sys2Proof.Machine.execCmp o cc s
  | .sel o => Sys2Proof.Machine.execSel o s
  | .mov o => Sys2Proof.Machine.execMov o s
  | .ldi o v => Sys2Proof.Machine.execLdi o v s
  | .acc o k => Sys2Proof.Machine.execAcc o k s
  | .fadd o r => Sys2Proof.Machine.execFadd o r s
  | .fsub o r => Sys2Proof.Machine.execFsub o r s
  | .fmul o r => Sys2Proof.Machine.execFmul o r s
  | .ffma o r c => Sys2Proof.Machine.execFfma o r c s
  | .fmin o => Sys2Proof.Machine.execFmin o s
  | .fmax o => Sys2Proof.Machine.execFmax o s
  | .fcmp o cc => Sys2Proof.Machine.execFcmp o cc s
  | .cvt o v => Sys2Proof.Machine.execCvt o v s
  | .mctl o v => Sys2Proof.Machine.execMctl o v s
  | .rep o stride => Sys2Proof.Machine.execRep o stride s
  | .sdcvt o n ch => Sys2Proof.Machine.execSdcvt o n ch s
  | .sdval o uns => Sys2Proof.Machine.execSdval o uns s
  | .oadd o => Sys2Proof.Machine.execOadd o s
  | .ocmp o cc => Sys2Proof.Machine.execOcmp o cc s
  | .ocut o k => Sys2Proof.Machine.execOcut o k s
  | .omax o => Sys2Proof.Machine.execOmax o s
  | .steer o num g => Sys2Proof.Machine.execSteer o num g s
  | .merge o g => Sys2Proof.Machine.execMerge o g s
  | .merge2 o key desc g => Sys2Proof.Machine.execMerge2 o key desc g s
  | .rmerge o size g => Sys2Proof.Machine.execRmerge o size g s
  | .gate o n => Sys2Proof.Machine.execGate o n s
  | .sink o => Sys2Proof.Machine.execSink o s
  | .mark o => Sys2Proof.Machine.execMark o s
  | .endrun o => Sys2Proof.Machine.execEndrun o s
  | .loopin o k => Sys2Proof.Machine.execLoopin o k s
  | .loopout o k => Sys2Proof.Machine.execLoopout o k s
  | .kill o sh => Sys2Proof.Machine.execKill o sh s
  | .kchk o => Sys2Proof.Machine.execKchk o s
  | .vadd o ty r => Sys2Proof.Machine.execVadd o ty r s
  | .vsub o ty r => Sys2Proof.Machine.execVsub o ty r s
  | .vmul o ty r => Sys2Proof.Machine.execVmul o ty r s
  | .vfma o ty r c => Sys2Proof.Machine.execVfma o ty r c s
  | .vmax o ty => Sys2Proof.Machine.execVmax o ty s
  | .vmin o ty => Sys2Proof.Machine.execVmin o ty s
  | .vexp2 o r => Sys2Proof.Machine.execVexp2 o r s
  | .vlog2 o r => Sys2Proof.Machine.execVlog2 o r s
  | .vrcp o r => Sys2Proof.Machine.execVrcp o r s
  | .vrsq o r => Sys2Proof.Machine.execVrsq o r s
  | .vcmp o ty cc => Sys2Proof.Machine.execVcmp o ty cc s
  | .vsel o ty c => Sys2Proof.Machine.execVsel o ty c s
  | .vcvt o v part => Sys2Proof.Machine.execVcvt o v part s
  | .vqmx o c part => Sys2Proof.Machine.execVqmx o c part s
  | .vdqmx o ty r part => Sys2Proof.Machine.execVdqmx o ty r part s
  | .vredadd o ty r g => Sys2Proof.Machine.execVredadd o ty r g s
  | .vredmax o ty g => Sys2Proof.Machine.execVredmax o ty g s
  | .vargmax o ty g => Sys2Proof.Machine.execVargmax o ty g s
  | .vlse o ty g => Sys2Proof.Machine.execVlse o ty g s
  | .vbcast o ty e => Sys2Proof.Machine.execVbcast o ty e s
  | .vshuf o ty => Sys2Proof.Machine.execVshuf o ty s
  | .vdot o ty r g => Sys2Proof.Machine.execVdot o ty r g s
  | .vnorm2 o ty r g => Sys2Proof.Machine.execVnorm2 o ty r g s
  | .vgumbel o => Sys2Proof.Machine.execVgumbel o s
  | .vscan o ty r g => Sys2Proof.Machine.execVscan o ty r g s
  | .vtld o t => Sys2Proof.Machine.execVtld o t s
  | .vtst o t => Sys2Proof.Machine.execVtst o t s
  | .mma o fa fb => Sys2Proof.Machine.execMma o fa fb s
  | .mstat o f => Sys2Proof.Machine.execMstat o f s
  | .mswap o => Sys2Proof.Machine.execMswap o s
  | .mdrain o t => Sys2Proof.Machine.execMdrain o t s
  | .mzero o => Sys2Proof.Machine.execMzero o s
  | .mrec o fa fb gam => Sys2Proof.Machine.execMrec o fa fb gam s
  | .mpair o => Sys2Proof.Machine.execMpair o s
  | .mscale o => Sys2Proof.Machine.execMscale o s
  | .sdef o sm sl => Sys2Proof.Machine.execSdef o sm sl s
  | .srun o sm sl => Sys2Proof.Machine.execSrun o sm sl s
  | .ld o sm sx => Sys2Proof.Machine.execLd o sm sx s
  | .st o sm spec => Sys2Proof.Machine.execSt o sm spec s
  | .ldt o sm n => Sys2Proof.Machine.execLdt o sm n s
  | .stt o sm spec n => Sys2Proof.Machine.execStt o sm spec n s
  | .gath o sm => Sys2Proof.Machine.execGath o sm s
  | .scat o sm spec => Sys2Proof.Machine.execScat o sm spec s
  | .atom o sm op c => Sys2Proof.Machine.execAtom o sm op c s
  | .fence o msk sc => Sys2Proof.Machine.execFence o msk sc s
  | .ownRel o sm sc => Sys2Proof.Machine.execOwnRel o sm sc s
  | .ownAcq o => Sys2Proof.Machine.execOwnAcq o s
  | .win o sm sc => Sys2Proof.Machine.execWin o sm sc s
  | .pref o sm => Sys2Proof.Machine.execPref o sm s
  | .cpy o sa op sb sc => Sys2Proof.Machine.execCpy o sa op sb sc s
  | .rsp o sm => Sys2Proof.Machine.execRsp o sm s
  | .notifyAdd o => Sys2Proof.Machine.execNotifyAdd o s
  | .notifySet o => Sys2Proof.Machine.execNotifySet o s
  | .waitn o => Sys2Proof.Machine.execWaitn o s
  | .ringPut o c => Sys2Proof.Machine.execRingPut o c s
  | .ringPub o => Sys2Proof.Machine.execRingPub o s
  | .bmode o bm => Sys2Proof.Machine.execBmode o bm s
  | .spill o q off t => Sys2Proof.Machine.execSpill o q off t s
  | .fill o q off t => Sys2Proof.Machine.execFill o q off t s
  | .tlbinvVa o => Sys2Proof.Machine.execTlbinvVa o s
  | .tlbinvCtx o => Sys2Proof.Machine.execTlbinvCtx o s
  | .rngset o => Sys2Proof.Machine.execRngset o s
  | .rngsetClr o => Sys2Proof.Machine.execRngsetClr o s
  | .randt o beat => Sys2Proof.Machine.execRandt o beat s
  | .tapp o sm => Sys2Proof.Machine.execTapp o sm s
  | .tseal o sm => Sys2Proof.Machine.execTseal o sm s
  | .tsealLift o sm => Sys2Proof.Machine.execTsealLift o sm s
  | .tlift o sm => Sys2Proof.Machine.execTlift o sm s
  | .troot o sm tau bud => Sys2Proof.Machine.execTroot o sm tau bud s
  | .tscore o => Sys2Proof.Machine.execTscore o s
  | .tselOne o => Sys2Proof.Machine.execTselOne o s
  | .tselAll o => Sys2Proof.Machine.execTselAll o s
  | .topen o => Sys2Proof.Machine.execTopen o s
  | .tacc o => Sys2Proof.Machine.execTacc o s
  | .tend o => Sys2Proof.Machine.execTend o s
  | .tfork o sm => Sys2Proof.Machine.execTfork o sm s
  | .tevict o sm => Sys2Proof.Machine.execTevict o sm s
  | .tprune o sm => Sys2Proof.Machine.execTprune o sm s
  | .tmask o sm e len => Sys2Proof.Machine.execTmask o sm e len s
  | .tmaskNone o => Sys2Proof.Machine.execTmaskNone o s
  | .seq o cfg => Sys2Proof.Machine.execSeq o cfg s
  | .pipe o opn cfg => Sys2Proof.Machine.execPipe o opn cfg s
  | .strm o cfg => Sys2Proof.Machine.execStrm o cfg s
  | .cntSet o k => Sys2Proof.Machine.execCntSet o k s
  | .cntAdd o k => Sys2Proof.Machine.execCntAdd o k s
  | .cntStep o k => Sys2Proof.Machine.execCntStep o k s
  | .cntRead o k => Sys2Proof.Machine.execCntRead o k s
  | .lutGet o => Sys2Proof.Machine.execLutGet o s
  | .lutSet o => Sys2Proof.Machine.execLutSet o s
  | .wincSet o ctl p => Sys2Proof.Machine.execWincSet o ctl p s
  | .wincAdd o ctl p => Sys2Proof.Machine.execWincAdd o ctl p s
  | .ena o ctl p => Sys2Proof.Machine.execEna o ctl p s
  | .done o x ctl p => Sys2Proof.Machine.execDone o x ctl p s
  | .bar o bi n => Sys2Proof.Machine.execBar o bi n s
  | .permt o => Sys2Proof.Machine.execPermt o s
  | .permg o => Sys2Proof.Machine.execPermg o s
  | .cyc o => Sys2Proof.Machine.execCyc o s
  | .cycPmc o => Sys2Proof.Machine.execCycPmc o s
  | .bandRead o => Sys2Proof.Machine.execBandRead o s
  | .bandExit o => Sys2Proof.Machine.execBandExit o s
  | .stageCur o => Sys2Proof.Machine.execStageCur o s
  | .stageSh o => Sys2Proof.Machine.execStageSh o s
  | .scrollRead o => Sys2Proof.Machine.execScrollRead o s
  | .scrollClr o => Sys2Proof.Machine.execScrollClr o s
  | .schedRead o => Sys2Proof.Machine.execSchedRead o s
  | .schedBoost o => Sys2Proof.Machine.execSchedBoost o s
  | .cfgreq o arg => Sys2Proof.Machine.execCfgreq o arg s
  | .yield_ o => Sys2Proof.Machine.execYield o s
  | .frz o => Sys2Proof.Machine.execFrz o s
  | .resume o => Sys2Proof.Machine.execResume o s
  | .trap o code => Sys2Proof.Machine.execTrap o code s
  | .faultackAck o => Sys2Proof.Machine.execFaultackAck o s
  | .faultackKill o => Sys2Proof.Machine.execFaultackKill o s
  | .gatecfgSet o => Sys2Proof.Machine.execGatecfgSet o s
  | .gatecfgRead o => Sys2Proof.Machine.execGatecfgRead o s
  | .capq o => Sys2Proof.Machine.execCapq o s
  | .bret o => Sys2Proof.Machine.execBret o s
  | .varsel o => Sys2Proof.Machine.execVarsel o s
  | .srd o => Sys2Proof.Machine.execSrd o s
  | .swr o => Sys2Proof.Machine.execSwr o s
  | .firmwareFreeze die reg => Sys2Proof.Machine.execFirmwareFreeze die reg s
  | .reset => Sys2Proof.Machine.execReset s
  | .firmwareReady => Sys2Proof.Machine.execFirmwareReady s
  | .modeChangeStart => Sys2Proof.Machine.execModeChangeStart s
  | .permitWithdrawalEnd => Sys2Proof.Machine.execPermitWithdrawalEnd s
  | .powerWindow => Sys2Proof.Machine.execPowerWindow s
  | .setPowerMode => Sys2Proof.Machine.execSetPowerMode s
  | .readBankmapEntry => Sys2Proof.Machine.execReadBankmapEntry s
  | .readBandEntry => Sys2Proof.Machine.execReadBandEntry s
  | .writeBankmapEntry => Sys2Proof.Machine.execWriteBankmapEntry s
  | .retireBank => Sys2Proof.Machine.execRetireBank s
  | .writeOwnerEntry => Sys2Proof.Machine.execWriteOwnerEntry s
  | .writeSequenceSlot => Sys2Proof.Machine.execWriteSequenceSlot s
  | .writeNotifyGrant => Sys2Proof.Machine.execWriteNotifyGrant s
  | .createRegion => Sys2Proof.Machine.execCreateRegion s
  | .removeRegion => Sys2Proof.Machine.execRemoveRegion s
  | .decrementReaders => Sys2Proof.Machine.execDecrementReaders s
  | .clearHeld => Sys2Proof.Machine.execClearHeld s
  | .fwResume => Sys2Proof.Machine.execFwResume s
  | .fwFaultackAck => Sys2Proof.Machine.execFwFaultackAck s
  | .fwFaultackKill => Sys2Proof.Machine.execFwFaultackKill s
  | .clearGatewayCounts => Sys2Proof.Machine.execClearGatewayCounts s
  | .writeMergeEntry => Sys2Proof.Machine.execWriteMergeEntry s
  | .memberRejoin => Sys2Proof.Machine.execMemberRejoin s
  | .writeParityGroup => Sys2Proof.Machine.execWriteParityGroup s
  | .loadNonce => Sys2Proof.Machine.execLoadNonce s
  | .produceReport => Sys2Proof.Machine.execProduceReport s
  | .readReport => Sys2Proof.Machine.execReadReport s
  | .submitCoreLaunch => Sys2Proof.Machine.execSubmitCoreLaunch s
  | .beginFirmwareImage => Sys2Proof.Machine.execBeginFirmwareImage s
  | .writeFirmwareImage => Sys2Proof.Machine.execWriteFirmwareImage s
  | .commitFirmwareImage => Sys2Proof.Machine.execCommitFirmwareImage s

end Sys2Proof.Machine
end

