-- ==== Sys2Proof/Machine/Step.lean ====
section
/-!
DEFINITION. One step of the machine: who moves next, its instruction, and the passing of time; and how an instruction is
placed where the next step takes it.
-/
namespace Sys2Proof.Machine

/-- Who moves next: the head of `turn`, or, when it is empty, whom Config.arbiter names (log entry 2). -/
def State.mover (s : State) : Turn × State :=
  match s.turn with
  | [] => (Config.arbiter s.tick, s)
  | t :: r => (t, { s with turn := r })

/-- The instruction of a turn: an event, or what the slot that a node offers holds (R101). -/
def State.fetch (s : State) (t : Turn) : Option (Instr × State) :=
  match t with
  | .event i => some (i, s)
  | .node n => s.fetchAt n

/-- One step: the mover's instruction, and the cycles that pass. A node with nothing to offer leaves the state to time. -/
def step (s : State) : Host.Outcome State Fault Refusal :=
  match s.mover.2.fetch s.mover.1 with
  | none => .next (s.mover.2.clock s.mover.1)
  | some (i, t) =>
    match exec i t with
    | .next u => .next (u.clock s.mover.1)
    | .fault f => .fault f
    | .refused r => .refused r

/-- The state with an instruction of `nbits` bits `w` where the next step takes it: an instruction word with its literal
in slot 0 of the node that executes its opcode, in a running region; a firmware command of 512 bits in the mailbox. -/
def State.withFetchWord (s : State) (nbits w : Nat) : State :=
  if nbits ≤ 128 then s.placeWord (BitVec.ofNat 64 (w % 2 ^ nbits)) (BitVec.ofNat 64 (w % 2 ^ nbits / 2 ^ 64))
  else s.placeCommand (bytesWords 8 (natBytes 64 w))

end Sys2Proof.Machine
end

