-- ==== Sys2Proof/Safety.lean ====
section
/-!
DEFINITION. What a good state is, in the terms that claims use: every memory in its canonical form.
-/
namespace Sys2Proof.Machine

/-- Every memory lists its bytes by rising address, none of them the reset byte. -/
abbrev State.memOk (s : State) : Prop := Memory.wf s.hbm = true ∧ Memory.wf s.sram = true ∧ Memory.wf s.regf = true

/-- When the slot of a node starts a firing over its operands, by the firing rule (R169): the node offers the slot, its
row runs, the control tokens and source tokens are there, the guard passes, no register hazard, no serial wait and no earlier
firing in steps hold it back, and no operand's check value disagrees. -/
abbrev State.Ready (s : State) (r : FireReq) : Prop :=
  let nd := s.node s.locus.nd
  s.offered s.locus nd r.close = true ∧ r.ctlThere nd r.multi = true ∧
  (r.own = true ∨ (popQs r.sels ++ peekQs r.sels ++ r.more ++ r.first).all nd.offers = true) ∧
  r.fits nd.rep.offset = true ∧ r.guardOff nd = false ∧ nd.hazard s.locus.nd (r.sels.map (bumpSel nd.rep.offset)) = false ∧
  (r.serial = true → nd.fly = []) ∧ r.checkFault (r.env s s.locus nd) = none ∧ r.first.any (nd.sttBusy nd.nid) = false

/-- The consumer slots of a firing at the locus. -/
def State.tgt0 (s : State) (o : Ops) : Target := s.slotTarget s.locus o.d0
def State.tgt1 (s : State) (o : Ops) : Target := s.slotTarget s.locus o.d1

/-- Room for what a firing delivers: a free slot, or as many as it delivers (R166); in a wrap buffer, for what leaves on a cycle
(R376). -/
abbrev State.Room (s : State) (o : Ops) (n0 n1 : Nat) (at_ : Option Nat := none) : Prop :=
  s.room (s.tgt0 o) (s.tgt1 o) (if (s.tgt0 o).dst = .none then 0 else n0) (if (s.tgt1 o).dst = .none then 0 else n1) at_ = true

/-- What a firing at the locus knows of its operands. -/
def State.env (s : State) (r : FireReq) : Env := r.env s s.locus (s.node s.locus.nd)

/-- The slot is ready, the control tokens that its plan takes are there, and there is room for what it delivers. -/
abbrev State.CanFire (s : State) (r : FireReq) (p : Plan) : Prop :=
  s.Ready r ∧ r.ctlThere (s.node s.locus.nd) p.stay = true ∧ (r.late = true ∨ s.Room r.ops 1 1) ∧
  (p.late = true ∨ s.Room r.ops (max p.n0 p.o0.length) (max p.n1 p.o1.length) (some (p.leaves (s.cyc s.locus.nd.row.die))))

def Dest.isWrap (d : Dest) : Bool :=
  match d with
  | .wrap _ _ _ => true
  | _ => false

/-- The cycles on which deliveries may leave as far as room depends on them: one not known, or one of the next 512, where a slot names
a wrap buffer. -/
def State.leaveCycles (s : State) (o : Ops) : List Nat :=
  if (s.tgt0 o).dst.isWrap || (s.tgt1 o).dst.isWrap then 0 :: upFrom (s.cyc s.locus.nd.row.die) 512 else [0]

/-- The slot is ready, and there is room for any plan that delivers at most `n` tokens to each consumer slot. -/
abbrev State.CanFireN (s : State) (r : FireReq) (n : Nat) : Prop :=
  s.Ready r ∧ r.ctlThere (s.node s.locus.nd) false = true ∧ (r.late = true ∨ s.Room r.ops 1 1) ∧
  ∀ c ∈ s.leaveCycles r.ops, ∀ i ∈ upFrom 0 (n + 1), ∀ j ∈ upFrom 0 (n + 1), s.Room r.ops i j (some c)

/-- The instruction starts a firing with a plan: the next state is the one in which it has started (R166). -/
def Fires (i : Instr) (s : State) (r : FireReq) (p : Plan) : Prop :=
  exec i s = .next (s.begin s.locus i r false p (s.tgt0 r.ops) (s.tgt1 r.ops))

/-- A plan that delivers one token to both consumer slots after `lat` cycles. -/
def oneToken (lat : Nat) (t : Tok) : Plan := { o0 := [t], o1 := [t], lat := lat }

/-- A run of steps from a state reaches another. -/
inductive Reaches : State → State → Prop where
  | here (s : State) : Reaches s s
  | step (s t u : State) : Sys2Proof.Machine.step s = .next t → Reaches t u → Reaches s u

end Sys2Proof.Machine
end

