-- ==== Sys2Proof/Certificates/Slice0/Obligations.lean ====
section
/-!
DEFINITION. The statements: what the machine does, one proposition each.
-/
open Sys2Proof Sys2Proof.Machine

namespace Sys2Proof.Machine

/-- Lane `i` of width `w` of a word, as the type reads it (R106). -/
def lane (ty : IntTy) (x : Word) (i : Nat) : Int := laneVal ty.uns (Wid.w ty.w) (elem x (Wid.w ty.w) i)

/-- A word each of whose lanes is the exact value `f i` of its operands' lanes, wrapped, or clamped to the type's range
with SAT (R106). -/
def LanesAre (ty : IntTy) (v : Word) (f : Nat → Int) : Prop :=
  ∀ i, i < 32 / Wid.w ty.w →
    lane ty v i = laneVal ty.uns (Wid.w ty.w)
      ((if ty.sat then max (if ty.uns then 0 else -2 ^ (Wid.w ty.w - 1)) (min (f i) (2 ^ (if ty.uns then Wid.w ty.w else Wid.w ty.w - 1) - 1))
        else f i) % 2 ^ Wid.w ty.w).toNat

/-- The instruction starts a firing that delivers `o0` and `o1` after `lat` cycles and pops what `pops` says, and whose
start has the further effects `eff`. -/
def Delivers (i : Instr) (s : State) (r : FireReq) (o0 o1 : List Tok) (lat : Nat) : Prop :=
  ∃ p : Plan, Fires i s r p ∧ p.o0 = o0 ∧ p.o1 = o1 ∧ p.lat = lat

/-- Element `i` of a lane operand (R5, R127). -/
def opdEl (t : LaneTy) (lit : Option DWord) (s : Sel) (k : Tok) (i : Nat) : Nat := elem (laneOpd t lit s k) t.w i

/-- A firing that delivers one beat to both consumer slots after `lat` cycles, each of whose elements is `f i`. -/
def GivesBeat (i : Instr) (s : State) (r : FireReq) (lat : Nat) (t : LaneTy) (f : Nat → Nat) : Prop :=
  ∃ v : Beat, Fires i s r (oneToken lat (beatTok v)) ∧ ∀ j, j < t.e → elem v t.w j = f j % 2 ^ t.w

/-- A reduction's firing on the group's last beat: it delivers the group's words with tag 0 and ends the group; on an
earlier beat it folds the beat and delivers nothing after 3 cycles (R125, R138). -/
def Reduces (i : Instr) (s : State) (r : FireReq) (span lat : Nat) (g : GroupSt) (out : GroupSt → Word × Word) : Prop :=
  let n := (groupOf (s.env r).prog).n + 1
  (n = span → ∃ p : Plan, Fires i s r p ∧ p.lat = lat ∧ p.prog = some .idle ∧
    ∃ g1 : GroupSt, g1.v = g.v ∧ g1.z = g.z ∧ g1.ix = g.ix ∧ g1.has = true ∧
      p.o0 = [wordTok (out g1).1 0] ∧ p.o1 = [wordTok (out g1).2 0]) ∧
  (n ≠ span → ∃ p : Plan, Fires i s r p ∧ p.lat = 3 ∧ p.o0 = [] ∧ p.o1 = [] ∧
    ∃ g1 : GroupSt, g1.v = g.v ∧ g1.z = g.z ∧ g1.ix = g.ix ∧ g1.has = true ∧ g1.n = n ∧ p.prog = some (.group g1))

/-- The matrix node's registers of the row at the locus. -/
def State.mat (s : State) (r : RowId) : Mat := (s.row r).mat

/-- A firing that starts on the token, completes after one cycle, and makes the registers of the row what `f` says. -/
def MatrixOnce (i : Instr) (s : State) (r : FireReq) (t : Word) (lat : Nat) (f : Mat → Mat) : Prop :=
  ∃ p : Plan, Fires i s r p ∧ p.o0 = doneTok t ∧ p.o1 = doneTok t ∧ p.lat = lat ∧ p.pops = some [(3, 1)] ∧
    p.await = .nothing ∧ ∀ x : State, (p.eff x).mat s.locus.nd.row = f (x.mat s.locus.nd.row)

/-- The state in which step `f.step` of a firing of the matrix node takes effect on the beats `x` and `sx` of its sources: tokens
of its queues that are neither markers nor fail their check, or the row step at the head of the pair link, whose m and k are the
token's; room in the partner's link where it forwards; a row that runs (R148, R160). -/
def State.StepReady (s : State) (n : NodeId) (f : Firing) (x sx : Beat) : Prop :=
  let a := (mxSrcs f.ins f.a).1
  let b := (mxSrcs f.ins f.a).2
  n.node = 33 ∧ n.ok = true ∧ s.rowRuns n.row = true ∧ (s.node n).firing f.id = some f ∧ f.await = .steps ∧ f.off = false ∧ f.step < mxCount f.ins f.a ∧
  (∃ ta tb, stepTok (s.node n) f.id a = some ta ∧ stepTok (s.node n) f.id b = some tb ∧ ta.isMark = false ∧ tb.isMark = false ∧
    ta.badCheck = none ∧ tb.badCheck = none ∧ (a ≠ .link → x = ta.beatOf) ∧ (b ≠ .link → sx = tb.beatOf)) ∧
  (a = .link ∨ b = .link → ∃ y z l, (s.mat n.row).link = (y, z, tokM f.a, tokK f.a) :: l ∧ (a = .link → x = y) ∧ (b = .link → sx = z.getD 0)) ∧
  (mxForwards (s.row n.row).hdr f.ins = true → (s.pairNode n).row ≠ n.row ∧ (s.mat (s.pairNode n).row).link.length < 2)

/-- Element (row, column) of a 64 by 64 register. -/
def matEl (t : Tbl Word) (i c : Nat) : Word := (tget t (64 * i + c)).getD 0

/-- A port firing that starts with one access, moves the cursors `curs`, and will deliver done tokens with a tag to the
slots that `d0` and `d1` name. -/
def Accesses (i : Instr) (s : State) (r : FireReq) (a : Access) (curs : List (Nat × Nat)) (d0 : Bool) (t : RTag) : Prop :=
  ∃ p : Plan, Fires i s r p ∧ p.await = .access ∧ p.acc = [a] ∧ p.curs = curs ∧ p.lat = a.lat ∧
    p.o0 = (if d0 then [wordTok 1 t] else []) ∧ p.o1 = [wordTok 1 t] ∧
    ∀ x : State, (p.eff x).hbm = x.hbm ∧ (p.eff x).sram = x.sram ∧ (p.eff x).regf = x.regf

/-- A port firing that starts in steps over elements from `el` on. -/
def Streams (i : Instr) (s : State) (r : FireReq) (el : Nat) (curs : List (Nat × Nat)) : Prop :=
  ∃ p : Plan, Fires i s r p ∧ p.await = .steps ∧ p.el = el ∧ p.curs = curs

/-- The port can start an access on a stream: one of its 16 entries is free, the generator serves the access, and a
store finds a block that it can use (an ATOM needs none). -/
def State.PortFree (s : State) (e : Env) (a : Access) : Prop :=
  e.nd.entries < 16 ∧ (s.port s.locus.nd).stops a = false ∧ (a.op.stores && (s.port s.locus.nd).full) = false

/-- An access of a firing stands at its home and can be performed: its row runs, no earlier store of the port to the same
bytes waits, its bytes have no error, its block is rebuilt, no block of the row's buffers stands in front of them, no
parity group is set up, and the firing waits for no parity delta. -/
def State.Performs (s : State) (n : NodeId) (f : Firing) (a : Access) (h : Home) : Prop :=
  n.ok = true ∧ (s.node n).firing f.id = some f ∧ f.acc = [a] ∧ a.phase = .home h ∧ a.win = none ∧ a.gen = s.genOf n.row ∧ s.rowRuns n.row = true ∧
  (s.node n).storeBehind f a = false ∧ s.hub.parity = [] ∧ s.owes n f.id = false ∧ s.homeErr h a.size = none ∧ s.correct h a.size = s ∧
  (s.rows.all fun x => x.2.ports.all fun p => p.2.buf.isEmpty) = true ∧ (match h with | .hbm _ => True | .sram d c b _ => (s.bankOf d c b).mode = .scratch)

/-- The 64-byte block at a home has no error: what a store fills of it in part, or an ATOM reads, is verified (R203, R246). -/
def State.wholeBlock (s : State) (h : Home) : Prop := s.homeErr (blockOf h).1 64 = none ∧ s.correct (blockOf h).1 64 = s

/-- Byte `i` of the bytes at a home. -/
def State.byteAt (s : State) (h : Home) (i : Nat) : Byte :=
  match h with
  | .hbm pa => Memory.read s.hbm (pa + i)
  | .sram d c b off => Memory.read s.sram (s.sramAt d c b off + i)

/-- Every byte of memory but the `k` bytes from a home on reads as before. -/
def FrameHome (s u : State) (h : Home) (k : Nat) : Prop :=
  (∀ a, (match h with | .hbm pa => a < pa ∨ pa + k ≤ a | .sram _ _ _ _ => True) → Memory.read u.hbm a = Memory.read s.hbm a) ∧
  (∀ a, (match h with | .hbm _ => True | .sram d c b off => a < s.sramAt d c b off ∨ s.sramAt d c b off + k ≤ a) →
    Memory.read u.sram a = Memory.read s.sram a) ∧
  u.regf = s.regf

/-- A port firing that starts with no access and delivers done tokens with a tag to the slots that `d0` and `d1` name. -/
def Dones (i : Instr) (s : State) (r : FireReq) (d0 d1 : Bool) (f : Plan → Prop) : Prop :=
  let t := r.doneTag (s.env r).nd
  ∃ p : Plan, Fires i s r p ∧ p.o0 = (if d0 then [wordTok 1 t] else []) ∧ p.o1 = (if d1 then [wordTok 1 t] else []) ∧ f p

/-- A firing has its results, its time and turn have come, its row's region lets it complete, it was not guarded off, its effect is
still to come, and
each of its consumer slots is of kind 00 or has the free slots reserved that its deliveries need (R166, R334). -/
def State.CanComplete (s : State) (n : NodeId) (f : Firing) : Prop :=
  n.ok = true ∧ (s.node n).firing f.id = some f ∧ f.off = false ∧ f.acted = false ∧ f.await = .nothing ∧ f.xstopped = false ∧ s.mayComplete n f = true ∧
  s.completes n f = true ∧ (f.t0.dst = .none ∨ max 1 f.o0.length ≤ f.n0) ∧ (f.t1.dst = .none ∨ max 1 f.o1.length ≤ f.n1)

/-- The completion of a firing leads to `u`: after its entry's effect, which made the state `w`, it delivers `o0` and `o1`. -/
def Completes (s : State) (n : NodeId) (f : Firing) (o0 o1 : List Tok) (w u : State) : Prop :=
  exec (.firingCompletion n f.id) s = .next u ∧ u = w.complete n { f with o0 := o0, o1 := o1 }

/-- A firing of the descent node that starts in steps on the operands `a` and `b`; what it delivers has the tag of its first
popped token (R282). -/
def TreeSteps (i : Instr) (s : State) (r : FireReq) (a b : Word) : Prop :=
  ∃ p : Plan, Fires i s r p ∧ p.await = .steps ∧ p.a = a ∧ p.b = b ∧ p.tag = some ((s.env r).nd.popTag [i.ops.a, i.ops.b]) ∧ p.o0 = [] ∧ p.o1 = []

/-- A firing of the descent node has popped its beats and may take its step (R281, R283). -/
def State.TreeReady (s : State) (n : NodeId) (f : Firing) : Prop :=
  n.ok = true ∧ n.node = 37 ∧ (s.node n).firing f.id = some f ∧ f.await = .steps ∧ f.xstopped = false ∧ s.rowRuns n.row = true ∧
  (s.node ⟨n.row, 34⟩).entries < 16 ∧ ∃ k q, s.beatPlan n f = .ok (k, q) ∧ ((∀ o, f.ins ≠ .tend o) → k ≤ f.data.length)

/-- The firing with the results that its completion delivers: nothing else is left to do. -/
def Firing.with (f : Firing) (o0 o1 : List Word) : Firing :=
  { f with heads := none, await := .nothing, tree := [], o0 := o0.map (fun w => wordTok w f.otag), o1 := o1.map fun w => wordTok w f.otag }

/-- The firing has read the headers of the records that its computation reads (R279). -/
def Heads {α : Type} (s : State) (n : NodeId) (f : Firing) (c : TreeCtx) (m : TreeM α) : Prop :=
  ∀ x ts hs, m { s := s } = .ok (x, ts) → s.headsOf c ts.seen = .ok hs → f.heads = none →
    exec (.firingStep n f.id) s = .next (s.setFiring n { f with heads := some hs })

/-- After writes that made the state `w`, a release: the parity deltas that they sent have the firing wait (R395). -/
def State.written (s w : State) (n : NodeId) (f : Firing) (sc : Scope) : State :=
  (w.release n.row sc).awaitDeltas s.hub.deltas.length n f.id

/-- A firing that delivers words to its two consumer slots with a tag after `lat` cycles, and whose start makes the state
`f` says. -/
def Words (i : Instr) (s : State) (r : FireReq) (lat : Nat) (w0 w1 : List Word) (t : RTag) (f : State → State → Prop) : Prop :=
  ∃ p : Plan, Fires i s r p ∧ p.lat = lat ∧ p.await = .nothing ∧ p.o0 = w0.map (fun w => wordTok w t) ∧
    p.o1 = w1.map (fun w => wordTok w t) ∧ ∀ x : State, f x (p.eff x)

/-- The fault or trap record that a freeze of region `k` carries. -/
def State.freezeRec (s : State) (die k : Nat) : Option FaultRec := (s.region die k).frz.bind fun x => x.fr

/-- A destination that stands on the device. -/
def Dest.placed (d : Dest) : Prop :=
  match d with
  | .queue n _ => n.ok = true
  | .ctl n => n.ok = true
  | .reg n _ => n.ok = true
  | .lane r _ _ => r.ok = true
  | _ => True

/-- A token as it stands at a target after its delivery. -/
def State.arrives (s : State) (t : Target) (k : Tok) : QTok :=
  { tok := k.atDest t.dst, last := t.last, stage := t.stage, at_ := s.cyc t.dst.die }

/-- What a firing delivers to the places that a test of destinations names: DST0's deliveries before DST1's. -/
def Firing.sent (f : Firing) (s : State) (here : Dest → Bool) : List QTok :=
  (if here f.t0.dst then f.o0.map (s.arrives f.t0) else []) ++ (if here f.t1.dst then f.o1.map (s.arrives f.t1) else [])

/-- How many reserved slots of the places that a test of destinations names a firing gives back. -/
def Firing.gives (f : Firing) (here : Dest → Bool) : Nat := (if here f.t0.dst then f.n0 else 0) + (if here f.t1.dst then f.n1 else 0)

/-- A register after the words of a list have been delivered into it. -/
def lastWord (v : Word) : List Tok → Word
  | [] => v
  | .word w _ _ :: t => lastWord w t
  | _ :: t => lastWord v t

/-- The step of an event leads to a next state of which `f` holds. -/
def Leads (i : Instr) (s : State) (f : State → Prop) : Prop := ∃ u, exec i s = .next u ∧ f u

/-- Word 0 of a command (STATUS 0) and of its response: TAG, STATUS, SUB and CODE (R390). -/
def fwHead (code sub : BitVec 8) (status : Cause) (tag : Word) : DWord := tag ++ (0 : BitVec 7) ++ status.extractLsb' 0 9 ++ sub ++ code

/-- The mailbox holds one command, from a node and not yet carried out: its head and W1-W7. -/
def State.asks (s : State) (node : BitVec 16) (tag : Word) (code sub : BitVec 8) (ops : List DWord) : Prop :=
  ops.length = 7 ∧ s.hub.mbox = [{ node := node, w := fwHead code sub 0 tag :: ops }]

/-- The state with the mailbox empty and the response sent: its head, the results, and zeros up to W7. -/
def State.answers (s : State) (node : BitVec 16) (tag : Word) (code sub : BitVec 8) (status : Cause) (res : List DWord) : State :=
  { s with hub := { s.hub with
      mbox := [], outbox := s.hub.outbox ++ [.fwResp node (fwHead code sub status tag :: (res ++ List.replicate 7 0).take 7)] } }

/-- The commands of R389: the event, CODE, SUB, and the bits that the table names in each operand word. -/
def fwTable : List (Instr × BitVec 8 × BitVec 8 × List DWord) :=
  let all : DWord := BitVec.allOnes 64
  [(.setPowerMode, 1, 0, [3]), (.readBankmapEntry, 2, 0, [0xFFFF3]), (.readBandEntry, 2, 1, [0xFF03]),
   (.writeBankmapEntry, 3, 0, [0xFFFF3, all]), (.retireBank, 3, 1, [3, 0xFFFFFFFF]),
   (.writeOwnerEntry, 4, 0, [0xFFF, all, all, all, all]), (.writeSequenceSlot, 4, 1, [0xFFF, all, all, all, all, all, all]),
   (.writeNotifyGrant, 4, 2, [0xFFF, 0x1FFF]), (.createRegion, 5, 0, [0xFFFFFFFF, all, all, all]),
   (.removeRegion, 6, 0, [0xFFFFFFFF]), (.decrementReaders, 7, 0, [0xFFF, all, 0x3FFFFFFF]), (.clearHeld, 7, 1, [0xFFF, all]),
   (.fwResume, 8, 0, [0xFFFFFFFF, 0xFFFFFFFF]), (.fwFaultackAck, 8, 1, [0xFFF, 0xFFFF]), (.fwFaultackKill, 8, 2, [0xFFF, 0xFFFF]),
   (.clearGatewayCounts, 9, 0, [0xFFFFFFFF, 3]), (.writeMergeEntry, 10, 0, [0x7FFFF, all, all, all, all, all, all]),
   (.memberRejoin, 10, 1, [0xFFF]), (.writeParityGroup, 11, 0, [0x7FF0F, all, all, all, all, all, all]),
   (.loadNonce, 12, 0, [1, all, all, all, all, all, all]), (.produceReport, 12, 1, []), (.readReport, 12, 2, [all]),
   (.submitCoreLaunch, 13, 0, [0xF3, all]), (.beginFirmwareImage, 14, 0, [all, 1]),
   (.writeFirmwareImage, 14, 1, [all, all, all, all, all, all, all]), (.commitFirmwareImage, 14, 2, [])]

end Sys2Proof.Machine

/-- ADD, SUB, MUL, MIN, MAX, NEG and ABS compute each lane exactly, then wrap or saturate; MULH and MAD form the product exactly (R105, R106, R107, R103). -/
def Obligations.IntegerLanes : Prop :=
  ∀ (s : State) (o : Ops) (ty : IntTy) (c : Sel) (d : Tok),
    let r : FireReq := { ops := o }
    let r3 : FireReq := { ops := o, c := some c }
    let e := s.env r
    let e3 := s.env r3
    let val := fun (x : Word) => if ty.uns then (x.toNat : Int) else x.toInt
    let can := fun (lat : Nat) => s.CanFire r (oneToken lat d)
    let gives := fun (i : Instr) (lat : Nat) (f : Nat → Int) =>
      can lat → ∃ v, Fires i s r (oneToken lat (wordTok v e.tag)) ∧ LanesAre ty v f
    (gives (.add o ty) 1 (fun i => lane ty e.av i + lane ty e.bv i) ∧
      gives (.sub o ty) 1 (fun i => lane ty e.av i - lane ty e.bv i) ∧
      gives (.mul o ty) 3 (fun i => lane ty e.av i * lane ty e.bv i) ∧
      gives (.min o ty) 1 (fun i => min (lane ty e.av i) (lane ty e.bv i)) ∧
      gives (.max o ty) 1 (fun i => max (lane ty e.av i) (lane ty e.bv i)) ∧
      gives (.neg o ty) 1 (fun i => -lane ty e.av i) ∧
      gives (.abs o ty) 1 (fun i => if ty.uns then lane ty e.av i else (lane ty e.av i).natAbs) ∧
      (can 3 → ∃ v, Fires (.mulh o ty) s r (oneToken 3 (wordTok v e.tag)) ∧ v = BitVec.ofInt 32 (val e.av * val e.bv / 2 ^ 32))) ∧
    (s.CanFire r3 (oneToken 3 d) →
      ∃ v, Fires (.mad o ty c) s r3 (oneToken 3 (wordTok v e3.tag)) ∧
        (ty.sat = false → v = e3.av * e3.bv + e3.cv) ∧
        (ty.sat = true → val v = max (if ty.uns then 0 else -2 ^ 31)
          (min (val e3.av * val e3.bv + val e3.cv) (if ty.uns then 2 ^ 32 - 1 else 2 ^ 31 - 1))))

/-- AND, OR, XOR, ANDN, NOT, SHL, SHR, SAR, ROL, CLZ, POPC, BFX and BFI (R107, R108). -/
def Obligations.LogicShiftsAndFields : Prop :=
  ∀ (s : State) (o : Ops) (c : Sel) (uns : Bool) (d : Tok),
    let r : FireReq := { ops := o }
    let r3 : FireReq := { ops := o, c := some c }
    let e := s.env r
    let e3 := s.env r3
    let n := (e.bv.extractLsb' 0 5).toNat
    let gives := fun (i : Instr) (v : Word) => Fires i s r (oneToken 1 (wordTok v e.tag))
    let ps := fun (x : Word) => (x.extractLsb' 0 5).toNat
    let len := fun (x : Word) => min ((x.extractLsb' 5 5).toNat + 1) (32 - ps x)
    (s.CanFire r (oneToken 1 d) →
      gives (.band o) (e.av &&& e.bv) ∧ gives (.bor o) (e.av ||| e.bv) ∧ gives (.bxor o) (e.av ^^^ e.bv) ∧
      gives (.bandn o) (e.av &&& ~~~e.bv) ∧ gives (.bnot o) (~~~e.av) ∧
      gives (.shl o) (e.av <<< n) ∧ gives (.shr o) (e.av >>> n) ∧ gives (.sar o) (e.av.sshiftRight n) ∧
      gives (.rol o) (e.av.rotateLeft n) ∧
      (∃ v, gives (.clz o) v ∧ v.toNat ≤ 32 ∧
        (∀ j, j < v.toNat → e.av.getLsbD (31 - j) = false) ∧ (v.toNat < 32 → e.av.getLsbD (31 - v.toNat) = true)) ∧
      (∃ v, gives (.popc o) v ∧ v.toNat = ((List.range 32).filter fun j => e.av.getLsbD j).length) ∧
      (∃ v, gives (.bfx o uns) v ∧ ∀ j, j < 32 → v.getLsbD j =
          if j < len e.bv then e.av.getLsbD (ps e.bv + j)
          else if uns then false else e.av.getLsbD (ps e.bv + len e.bv - 1))) ∧
    (s.CanFire r3 (oneToken 1 d) →
      ∃ v, Fires (.bfi o c) s r3 (oneToken 1 (wordTok v e3.tag)) ∧
        ∀ j, j < 32 → v.getLsbD j =
          if ps e3.cv ≤ j ∧ j < ps e3.cv + len e3.cv then e3.bv.getLsbD (j - ps e3.cv) else e3.av.getLsbD j)

/-- CMP, SEL, MOV and LDI (R109, R110, R111, R103). -/
def Obligations.CompareSelectMove : Prop :=
  ∀ (s : State) (o : Ops) (v : BitVec 64) (d : Tok),
    let r : FireReq := { ops := o }
    let rc : FireReq := { ops := o, ctl := true }
    let e := s.env r
    let ec := s.env rc
    let cmp := fun (cc : CmpCond) (p : Prop) =>
      ∃ x : Word, Fires (.cmp o cc) s r (oneToken 1 (wordTok x e.tag)) ∧ (p → x = 1) ∧ (¬p → x = 0)
    (s.CanFire r (oneToken 1 d) →
      cmp .eq (e.av = e.bv) ∧ cmp .ne (e.av ≠ e.bv) ∧
      cmp .ltI (e.av.toInt < e.bv.toInt) ∧ cmp .leI (e.av.toInt ≤ e.bv.toInt) ∧
      cmp .gtI (e.bv.toInt < e.av.toInt) ∧ cmp .geI (e.bv.toInt ≤ e.av.toInt) ∧
      cmp .ltN (e.av.toNat < e.bv.toNat) ∧ cmp .leN (e.av.toNat ≤ e.bv.toNat) ∧
      cmp .gtN (e.bv.toNat < e.av.toNat) ∧ cmp .geN (e.bv.toNat ≤ e.av.toNat) ∧
      Fires (.mov o) s r (oneToken 1 (wordTok e.av e.a.tag)) ∧
      Fires (.ldi o v) s r { o0 := [wordTok (v.extractLsb' 0 32) 0], o1 := [wordTok (v.extractLsb' 32 32) 0] }) ∧
    (s.CanFire rc (oneToken 1 d) →
      Fires (.sel o) s rc (oneToken 1 (if ec.ctl then wordTok ec.av ec.a.tag else wordTok ec.bv ec.b.tag)))

/-- ACC adds into its register, REP arms the slot after it, MCTL builds a control word or faults with 0x02A (R112, R115, R116, R124). -/
def Obligations.AccumulateRepMctl : Prop :=
  ∀ (s : State) (o : Ops) (j : BitVec 3) (stride : BitVec 3) (v : BitVec 64) (d : Tok),
    let r : FireReq := { ops := o }
    let e := s.env r
    let k := (s.node s.locus.nd).rep.offset
    (o.b = .x j → s.CanFire r {} →
      Fires (.acc o .wrap) s r { prog := some (.acc e.a.tag), xw := some (j.toNat + k, e.bv + e.av) } ∧
      (∃ x : Word, Fires (.acc o .sat) s r { prog := some (.acc e.a.tag), xw := some (j.toNat + k, x) } ∧
        x.toInt = max (-2 ^ 31) (min (e.bv.toInt + e.av.toInt) (2 ^ 31 - 1))) ∧
      (s.CanFire r { lat := 4 } → ∀ rnd, Fires (.acc o (.f32 rnd)) s r { lat := 4, prog := some (.acc e.a.tag), xw := some (j.toNat + k, f32Add rnd e.bv e.av) })) ∧
    (s.CanFire r {} → e.av = 0 → Fires (.rep o stride) s r { skip := true }) ∧
    (s.CanFire r {} → e.av ≠ 0 → Fires (.rep o stride) s r { rep := some { rem := e.av, stride := stride } }) ∧
    (s.CanFire r (oneToken 1 d) →
      let w : Word := v.extractLsb' 0 32 ||| e.av
      (w.extractLsb' 0 15 = 0 → Fires (.mctl o v) s r (oneToken 1 (wordTok w e.tag))) ∧
      (w.extractLsb' 0 15 ≠ 0 → exec (.mctl o v) s = .next (s.raise s.locus.nd s.locus.slot 0x02A e.info)))

/-- FADD, FSUB, FMUL, FFMA, FMIN, FMAX, FCMP and CVT (R113, R114, R103). -/
def Obligations.FloatResults : Prop :=
  ∀ (s : State) (o : Ops) (rnd : Rnd) (c : Sel) (cc : FCond) (v : Cvt) (d : Tok),
    let r2 : FireReq := { ops := o }
    let r3 : FireReq := { ops := o, c := some c }
    let e := s.env r2
    let e3 := s.env r3
    (s.CanFire r2 (oneToken 4 d) →
      Fires (.fadd o rnd) s r2 (oneToken 4 (wordTok (f32Add rnd e.av e.bv) e.tag)) ∧
      Fires (.fsub o rnd) s r2 (oneToken 4 (wordTok (f32Sub rnd e.av e.bv) e.tag)) ∧
      Fires (.fmul o rnd) s r2 (oneToken 4 (wordTok (f32Mul rnd e.av e.bv) e.tag)) ∧
      Fires (.cvt o v) s r2 (oneToken 4 (wordTok (placeNarrow v.dst (convert v (e.av.toNat % 2 ^ v.src.width))) e.tag))) ∧
    (s.CanFire r2 (oneToken 2 d) →
      Fires (.fmin o) s r2 (oneToken 2 (wordTok (f32MinMax false e.av e.bv) e.tag)) ∧
      Fires (.fmax o) s r2 (oneToken 2 (wordTok (f32MinMax true e.av e.bv) e.tag)) ∧
      Fires (.fcmp o cc) s r2 (oneToken 2 (wordTok (if fcmpHolds cc e.av e.bv then 1 else 0) e.tag))) ∧
    (s.CanFire r3 (oneToken 4 d) →
      Fires (.ffma o rnd c) s r3 (oneToken 4 (wordTok (f32Fma rnd e3.av e3.bv e3.cv) e3.tag)))

/-- SDCVT, SDVAL, OADD, OCMP, OCUT and OMAX on a number that no firing has begun, and the values that online digits keep (R117, R118, R119, R120, R121, R122, R123). -/
def Obligations.OnlineStarts : Prop :=
  (∀ (s : State) (o : Ops) (uns : Bool) (cc : OCond) (k : BitVec 4) (da db : List Int) (d : Tok) (n : SdLen) (ch : SdChunk),
    let r : FireReq := { ops := o }
    let rs : FireReq := { ops := o, multi := true }
    let e := s.env r
    let es := s.env rs
    let out := fun (ts : List Tok) => ({ o0 := ts, o1 := ts, lat := 2, prog := some .idle } : Plan)
    let m := min (SdChunk.digits ch) (SdLen.digits n)
    let head := fun (last : Bool) => wordTok (sdToken ((sdOf (SdLen.digits n) es.av.toInt).take m) last) es.tag
    (es.prog = .idle → s.CanFire rs (out [d]) →
      (SdLen.digits n ≤ SdChunk.digits ch → Fires (.sdcvt o n ch) s rs (out [head true])) ∧
      (SdChunk.digits ch < SdLen.digits n → Fires (.sdcvt o n ch) s rs
        { out [head false] with prog := some (.conv m), pops := some [], stay := true })) ∧
    (e.prog = .idle → s.CanFireN r 3 → sdParse e.av = some (da, true) → da.length ≤ 8 →
      Fires (.sdval o uns) s r (out [wordTok (BitVec.ofInt 32 (max (if uns then 0 else -2 ^ 31)
        (min (sdValue 0 da) (if uns then 2 ^ 32 - 1 else 2 ^ 31 - 1)))) e.tag]) ∧
      (k.toNat + 1 ≤ da.length → Fires (.ocut o k) s r (out [wordTok (sdToken (da.take (k.toNat + 1)) true) e.tag])) ∧
      (da.length ≤ k.toNat → Fires (.ocut o k) s r (out [wordTok e.av e.tag])) ∧
      (sdParse e.bv = some (db, true) → da.length = db.length →
        Fires (.oadd o) s r (out (sdToks true (oaddAll (List.zipWith (· + ·) da db)) e.tag)) ∧
        Fires (.ocmp o cc) s r (out [wordTok (if cc.holds (((ocmpRun 0 da db).2).getD (ocmpRun 0 da db).1) then 1 else 0) e.tag]) ∧
        Fires (.omax o) s r (out (sdToks true (if 0 ≤ ((ocmpRun 0 da db).2).getD (ocmpRun 0 da db).1 then da else db) e.tag))))) ∧
  (∀ ts : List Int, ts ≠ [] → sdValue 0 (oaddAll ts) = sdValue 0 ts) ∧
  (∀ ts : List Int, (∀ t ∈ ts, -4 ≤ t ∧ t ≤ 4) → ∀ x ∈ oaddAll ts, -2 ≤ x ∧ x ≤ 2) ∧
  (∀ (n : Nat) (v : Int), v.natAbs ≤ 2 * (4 ^ n - 1) / 3 → (sdOf n v).length = n ∧ sdValue 0 (sdOf n v) = v ∧
    ∀ x ∈ sdOf n v, -2 ≤ x ∧ x ≤ 2)

/-- STEER, MERGE and GATE move records by control tokens (R174, R177, R178, R181). -/
def Obligations.SteerAndMerge : Prop :=
  ∀ (s : State) (o : Ops) (num : Bool) (g : BitVec 2) (n : BitVec 16) (ts : List Tok),
    let rs : FireReq := { ops := o, ctl := true, verify := false, own := g ≠ 0 }
    let rm : FireReq := { ops := o, ctl := true, verify := false, own := true }
    let rg : FireReq := { ops := o, verify := false, own := true }
    let es := s.env rs
    let em := s.env rm
    let eg := s.env rg
    let k := g.toNat + 1
    let cr := creditOf eg.prog
    (s.CanFireN rs k → (if g = 0 then ts = [es.a] else es.nd.group (selQ o.a) k = .toks ts) → ts.length = k →
      let x := if num then ts.map fun t => wordTok t.word32 (steerR es.prog) else ts.map fun t => wordTok t.word32 t.tag
      ∃ p : Plan, Fires (.steer o num g) s rs p ∧ p.o0 = (if es.ctl then [] else x) ∧ p.o1 = (if es.ctl then x else []) ∧
        p.prog = if num then some (.steer (if steerR es.prog + 1 = 0xFFFFFF then 0 else steerR es.prog + 1)) else none) ∧
    (s.CanFireN rm k → em.nd.group (selQ (if em.ctl then o.b else o.a)) k = .toks ts → ts.length = k →
      em.nd.markAt (selQ (if em.ctl then o.b else o.a)) = false →
      ∃ p : Plan, Fires (.merge o g) s rm p ∧ p.o0 = ts.map (fun t => wordTok t.word32 t.tag) ∧ p.o1 = p.o0 ∧
        p.pops = some [(selQ (if em.ctl then o.b else o.a), k)]) ∧
    (∀ c, s.CanFireN rg 1 → firstFree eg.nd.ctl.toks = some c →
      ∃ p : Plan, Fires (.gate o n) s rg p ∧ p.o0 = [] ∧ p.pops = some [] ∧ p.ctls = 1 ∧
        p.prog = some (.credit (if c.tok.ctlVal then BitVec.ofNat 16 (min 65535 (cr.toNat + n.toNat)) else 0))) ∧
    (∀ t, s.CanFireN rg 1 → firstFree eg.nd.ctl.toks = none → eg.nd.head (selQ o.a) = some t → t.tok.isMark = false → cr ≠ 0 →
      ∃ p : Plan, Fires (.gate o n) s rg p ∧ p.o0 = [wordTok t.tok.word32 t.tok.tag] ∧ p.o1 = p.o0 ∧ p.prog = some (.credit (cr - 1)))

/-- MERGE2 merges stably, joins run ends, and faults on a marker at one head only (R180). -/
def Obligations.SortedMerge : Prop :=
  ∀ (s : State) (o : Ops) (key : MKey) (desc : Bool) (g : Option (BitVec 2)) (ha hb : QTok) (ta tb : List Tok),
    let i : Instr := .merge2 o key desc g
    let r : FireReq := { ops := o, verify := false, own := true }
    let e := s.env r
    let k := (g.getD 0).toNat + 1
    let out := fun (ts : List Tok) (q n : Nat) =>
      ∃ p : Plan, Fires i s r p ∧ p.o0 = ts.map (fun t => wordTok t.word32 t.tag) ∧ p.o1 = p.o0 ∧ p.pops = some [(q, k)] ∧ p.ctls = n
    let below := fun (x y : Word) => match key with
      | .i32 => x.toInt < y.toInt
      | .n32 => x.toNat < y.toNat
      | _ => f32Rank x y < 0
    let endA := ha.tok.tag = 0xFFFFFF
    let endB := hb.tok.tag = 0xFFFFFF
    let fails := fun (q : Sel) => exec i s = .next (s.raise s.locus.nd s.locus.slot 0x062 (e.info (BitVec.ofNat 32 (selQ q))))
    e.nd.head (selQ o.a) = some ha → e.nd.head (selQ o.b) = some hb →
    (s.CanFireN r 1 → ha.tok.isMark = true → hb.tok.isMark = true → exec i s = .next s) ∧
    (s.CanFireN r 1 → ha.tok.isMark = true → hb.tok.isMark = false → fails o.a) ∧
    (s.CanFireN r 1 → ha.tok.isMark = false → hb.tok.isMark = true → fails o.b) ∧
    (ha.tok.isMark = false → hb.tok.isMark = false →
      (s.CanFireN r 1 → endA → endB → ∃ p : Plan, Fires i s r p ∧ p.o0 = [wordTok (ha.tok.word32 + hb.tok.word32) 0xFFFFFF] ∧
        p.o1 = p.o0 ∧ p.pops = some [(selQ o.a, 1), (selQ o.b, 1)] ∧ p.ctls = 0) ∧
      (s.CanFireN r k →
        (endA → ¬endB → e.nd.group (selQ o.b) k = .toks tb → tb.length = k → out tb (selQ o.b) 0) ∧
        (¬endA → endB → e.nd.group (selQ o.a) k = .toks ta → ta.length = k → out ta (selQ o.a) 0) ∧
        (¬endA → ¬endB → key ≠ .x → e.nd.group (selQ o.a) k = .toks ta → ta.length = k →
          e.nd.group (selQ o.b) k = .toks tb → tb.length = k →
          let right : Prop := if desc then below ha.tok.word32 hb.tok.word32 else below hb.tok.word32 ha.tok.word32
          (right → out tb (selQ o.b) 0) ∧ (¬right → out ta (selQ o.a) 0)) ∧
        (∀ c, key = .x → ¬endA → ¬endB → firstFree e.nd.ctl.toks = some c →
          e.nd.group (selQ (if c.tok.ctlVal then o.b else o.a)) k = .toks ta → ta.length = k →
          out ta (selQ (if c.tok.ctlVal then o.b else o.a)) 1)))

/-- RMERGE delivers the record with the expected index from its store (R179). -/
def Obligations.OrderStore : Prop :=
  (∀ (s : State) (o : Ops) (size : BitVec 12) (g : BitVec 2) (ts : List QTok),
    let r : FireReq := { ops := o, verify := false, own := true }
    let e := s.env r
    let x := (rmergeSt e.prog).1
    let st := (rmergeSt e.prog).2
    s.CanFireN r (g.toNat + 1) → storeGet x st = some ts → ts.length = g.toNat + 1 →
    ∃ p : Plan, Fires (.rmerge o size g) s r p ∧ p.o0 = ts.map (fun t => wordTok t.tok.word32 t.tok.tag) ∧ p.o1 = p.o0 ∧
      p.pops = some [] ∧ p.prog = some (.rmerge (if x + 1 = 0xFFFFFF then 0 else x + 1) (storeDel x st))) ∧
  (∀ (s : State) (l : Loc) (arm : Bool) (o : Ops) (size : BitVec 12) (g : BitVec 2) (t : Tok) (ts : List Tok),
    let nd := s.node l.nd
    let x := (rmergeSt (nd.prog l.slot)).1
    let st := (rmergeSt (nd.prog l.slot)).2
    l.ok = true → s.instrAt l = some (.rmerge o size g) → s.rowRuns l.nd.row = true → nd.closed = false →
    nd.group (selQ (if arm then o.b else o.a)) (g.toNat + 1) = .toks (t :: ts) →
    (t.tag - x).toNat < 2 ^ 23 → storeGet t.tag st = none → nd.storeUsed l.slot < size.toNat →
    ∃ u, exec (.rmergeTake l arm) s = .next u ∧
      ((u.node l.nd).prog l.slot) = .rmerge x (st ++ [(t.tag, freeToks (g.toNat + 1) (nd.queue (selQ (if arm then o.b else o.a))).toks)]))

/-- SINK counts, MARK makes a marker, ENDRUN a run end, KCHK passes what no key kills (R182, R183, R184, R189). -/
def Obligations.SinkMarkEndrun : Prop :=
  ∀ (s : State) (o : Ops) (d : Tok),
    let r : FireReq := { ops := o, verify := false }
    let rk : FireReq := { ops := o, verify := false, serial := true, close := true }
    let e := s.env r
    let ek := s.env rk
    (s.CanFire r (oneToken 1 d) →
      (∃ p : Plan, Fires (.sink o) s r p ∧ p.o0 = [] ∧ p.o1 = [] ∧ p.prog = some (.count (countOf e.prog + 1))) ∧
      Fires (.endrun o) s r (oneToken 1 (wordTok e.av 0xFFFFFF)) ∧
      ((∀ k ∈ keysOf e.prog, killsTok k.1 k.2.toNat e.a = false) →
        Delivers (.kchk o) s r [wordTok e.a.word32 e.a.tag] [wordTok e.a.word32 e.a.tag] 1) ∧
      (∀ k ∈ keysOf e.prog, killsTok k.1 k.2.toNat e.a = true → Delivers (.kchk o) s r [] [] 1)) ∧
    (s.CanFire rk (oneToken 1 d) → ek.nd.hasCounts = false → ek.nd.closed = false →
      ∃ p : Plan, Fires (.mark o) s rk p ∧ p.o0 = [Tok.mark ek.nd.marks (ek.av.getLsbD 0)] ∧ p.o1 = p.o0 ∧
        ∀ x : State, ((p.eff x).node s.locus.nd).marks = (x.node s.locus.nd).marks + 1)

/-- LOOPIN numbers iterations and drops squashed ones, LOOPOUT holds, issues, confirms, squashes and leaves, KILL goes to every KCHK slot (R185, R186, R187, R188). -/
def Obligations.LoopsAndKill : Prop :=
  ∀ (s : State) (o : Ops) (k : BitVec 3) (sh : BitVec 5) (v : Word) (t : RTag) (c : Byte) (d : Tok),
    let ri : FireReq := { ops := o, verify := false, serial := true, own := true }
    let ro : FireReq := { ops := o, ctl := true, verify := false, serial := true }
    let rk : FireReq := { ops := o, verify := false, serial := true }
    let ei := s.env ri
    let eo := s.env ro
    let ek := s.env rk
    let iter := fun (x : BitVec 8) => (x ++ t.extractLsb' 0 16 : BitVec 24)
    let targets := s.killTargets s.locus.nd.row.die (s.ownerOf s.locus.nd.row)
    let inLoop := fun (z : State) (i : Loc) => loopinSt ((z.node i.nd).prog i.slot)
    let x := loopSt ei.prog
    let y := x.fresh
    let val := ei.nd.record (selQ o.a)
    let ctl := (firstFree ei.nd.ctl.toks).map fun t => t.tok.ctlVal
    let out := fun (p : Plan) (o0 o1 : List Tok) (vals ctls : Nat) => Fires (.loopout o k) s ri p ∧ p.o0 = o0 ∧ p.o1 = o1 ∧
      p.pops = some (if vals = 0 then [] else [(selQ o.a, 1)]) ∧ p.ctls = ctls
    (s.CanFire ri (oneToken 1 d) → ei.nd.record (selQ o.b) = some (.word v t c) →
      ((loopinSt ei.prog).2 = none →
        Delivers (.loopin o k) s ri [wordTok v (iter (t.extractLsb' 16 8 + 1))] [wordTok v (iter (t.extractLsb' 16 8 + 1))] 1) ∧
      (∀ lo, (loopinSt ei.prog).2 = some lo → ∃ p : Plan, Fires (.loopin o k) s ri p ∧ p.o0 = [] ∧ p.o1 = [] ∧
        p.pops = some [(selQ o.b, 1)] ∧ ∀ z, p.eff z = z.reportDrop s.locus lo)) ∧
    (s.CanFire ri (oneToken 1 d) → ei.nd.record (selQ o.b) = none → ei.nd.record (selQ o.a) = some (.word v t c) →
      (k = 0 ∨ (loopinSt ei.prog).1 = 0) →
      ∃ p : Plan, Fires (.loopin o k) s ri p ∧ p.o0 = [wordTok v (iter 0)] ∧ p.o1 = p.o0 ∧
        p.prog = some (.loopin ((loopinSt ei.prog).1 + 1) (loopinSt ei.prog).2 s.tick)) ∧
    (s.CanFire ro (oneToken 1 d) → ∃ p : Plan, Fires (.loopout o 0) s ro p ∧ p.lat = 1 ∧
      p.o0 = (if eo.ctl then [] else [wordTok eo.a.word32 eo.a.tag]) ∧ p.o1 = (if eo.ctl then [wordTok eo.a.word32 eo.a.tag] else []) ∧
      ∀ z i, z.loopPartner s.locus o.d0 = some i → eo.ctl = true → (inLoop (p.eff z) i).1 = (inLoop z i).1 - 1) ∧
    (k ≠ 0 → s.CanFire ri (oneToken 1 d) →
      (val = some (.word v t c) → x.dv = 0 → x.dc = 0 → (x.held = [] ∨ ctl = none) →
        ∃ p z, out p (if y.next = y.got + 1 ∧ y.got - y.oldest < k.toNat then [wordTok v t] else []) [] 1 0 ∧ p.prog = some (.loopout z) ∧
          z.held = y.held ++ [⟨y.got, v, t⟩] ∧ z.oldest = y.oldest) ∧
      (val ≠ none → x.dv ≠ 0 → ∃ p, out p [] [] 1 0 ∧ p.prog = some (.loopout { x with dv := x.dv - 1 })) ∧
      (ctl ≠ none → x.dc ≠ 0 → (val = none ∨ x.dv = 0) → ∃ p, out p [] [] 0 1 ∧ p.prog = some (.loopout { x with dc := x.dc - 1 })) ∧
      (∀ h hs, x.held = h :: hs → x.dc = 0 → (val = none ∨ x.dv = 0) →
        (ctl = some false → ∃ p z, out p (match hs.getLast? with
            | some g => if x.next = x.got ∧ x.got - 1 - (x.oldest + 1) < k.toNat then [wordTok g.v g.tag] else []
            | none => []) [] 0 1 ∧ p.prog = some (.loopout z) ∧ z.held = hs ∧ z.oldest = x.oldest + 1 ∧
          ∀ w, p.eff w = w.confirm s.locus o.d0 (x.oldest % 256)) ∧
        (ctl = some true → ∃ p z, out p [] [wordTok h.v h.tag] 0 1 ∧ p.prog = some (.loopout z) ∧ z.held = [] ∧
          z.dv = x.next - x.got ∧ z.dc = x.next - 1 - x.oldest ∧
          ∀ w i, w.loopPartner s.locus o.d0 = some i →
            (inLoop (p.eff w) i).2 = (if z.dv = 0 ∧ z.dc = 0 then none else some s.locus) ∧
            (z.dv = 0 → z.dc = 0 → (inLoop (p.eff w) i).1 = 0)))) ∧
    (s.CanFireN rk 1 →
      ∃ p : Plan, Fires (.kill o sh) s rk p ∧ p.o0 = [wordTok 1 ek.tag] ∧ p.o1 = p.o0 ∧
        (targets = ([], []) → p.await = .nothing) ∧
        (targets ≠ ([], []) → p.await = .hub (s.die s.locus.nd.row.die).nkill ∧
          ∀ z : State, (tget ((p.eff z).die s.locus.nd.row.die).kills (s.die s.locus.nd.row.die).nkill) =
            some ⟨ek.av.setWidth 24, sh, s.locus.nd, ek.id, targets.1, targets.2⟩))

/-- The element-wise lane instructions compute element i from element i of each operand (R125, R130, R131, R132, R133). -/
def Obligations.LaneElements : Prop :=
  ∀ (s : State) (o : Ops) (t : LaneTy) (rd : Rnd) (c : Sel) (cc : FCond) (n : BitVec 6) (d : Tok),
    let r : FireReq := { ops := o }
    let rc : FireReq := { ops := o, c := some c }
    let e := s.env r
    let ec := s.env rc
    let a := opdEl t o.lit o.a e.a
    let b := opdEl t o.lit o.b e.b
    let a3 := opdEl t o.lit o.a ec.a
    let b3 := opdEl t o.lit o.b ec.b
    let c3 := opdEl t o.lit c ec.c
    let op := fun (ff : FpFmt → Nat → Nat → Nat) (fi : Nat → Nat → Nat) (i : Nat) =>
      match t.fmt with
      | some f => ff f (a i) (b i)
      | none => fi (a i) (b i)
    (s.CanFire r (oneToken 3 d) →
      GivesBeat (.vadd o t rd) s r 3 t (op (fun f => f.add rd) (· + ·)) ∧
      GivesBeat (.vsub o t rd) s r 3 t (op (fun f => f.sub rd) fun x y => 2 ^ 32 + x - y) ∧
      GivesBeat (.vmul o t rd) s r 3 t (op (fun f => f.mul rd) (· * ·)) ∧
      GivesBeat (.vmax o t) s r 3 t (op (fun f => f.minmax true) fun x y => if sgn 32 x < sgn 32 y then y else x) ∧
      GivesBeat (.vmin o t) s r 3 t (op (fun f => f.minmax false) fun x y => if sgn 32 y < sgn 32 x then y else x) ∧
      GivesBeat (.vcmp o t cc) s r 3 t (fun i => if laneCond t cc (a i) (b i) then 2 ^ t.w - 1 else 0) ∧
      (n.toNat < t.e → GivesBeat (.vbcast o t (some n)) s r 3 t fun _ => a n.toNat) ∧
      GivesBeat (.vbcast o t none) s r 3 t a ∧
      GivesBeat (.vshuf o t) s r 3 t fun i => if b i < t.e then a (b i) else 0) ∧
    (s.CanFire rc (oneToken 3 d) →
      GivesBeat (.vsel o t c) s rc 3 t (fun i => if (c3 i).testBit (t.w - 1) then a3 i else b3 i) ∧
      GivesBeat (.vfma o t rd c) s rc 3 t fun i =>
        match t.fmt with
        | some f => f.fma rd (a3 i) (b3 i) (c3 i)
        | none => a3 i * b3 i + c3 i)

/-- VEXP2, VLOG2, VRCP, VRSQ, VGUMBEL, VCVT, VQMX and VDQMX (R125, R134, R135, R136, R137, R143). -/
def Obligations.LaneFunctions : Prop :=
  ∀ (s : State) (o : Ops) (t : LaneTy) (rd : Rnd) (c : Sel) (v : Cvt) (p2 : BitVec 2) (p3 : BitVec 3),
    let r : FireReq := { ops := o }
    let rc : FireReq := { ops := o, c := some c }
    let e := s.env r
    let ec := s.env rc
    let a := opdEl .f32 o.lit o.a e.a
    let b := opdEl .f32 o.lit o.b e.b
    (s.CanFireN r 1 →
      GivesBeat (.vexp2 o rd) s r 8 .f32 (fun i => (f32Exp2 rd (BitVec.ofNat 32 (a i))).toNat) ∧
      GivesBeat (.vlog2 o rd) s r 8 .f32 (fun i => (f32Log2 rd (BitVec.ofNat 32 (a i))).toNat) ∧
      GivesBeat (.vrcp o rd) s r 8 .f32 (fun i => (f32Rcp rd (BitVec.ofNat 32 (a i))).toNat) ∧
      GivesBeat (.vrsq o rd) s r 8 .f32 (fun i => (f32Rsq rd (BitVec.ofNat 32 (a i))).toNat) ∧
      GivesBeat (.vgumbel o) s r 12 .f32 (fun i => (f32Add .rne (BitVec.ofNat 32 (a i)) (gumbel (b i))).toNat) ∧
      Fires (.vcvt o v p2) s r (oneToken 3 (beatTok (laneCvt v p2.toNat (laneOpd .f32 o.lit o.a e.a)))) ∧
      Fires (.vdqmx o t rd p3) s r (oneToken 4 (beatTok (dequant t rd p3.toNat (laneOpd t o.lit o.a e.a) (laneOpd t o.lit o.b e.b))))) ∧
    (s.CanFireN rc 1 →
      let q := quantBlock ((beatElems 32 (laneOpd .f32 o.lit o.a ec.a)).map fF32.decode)
      ∃ x y : Beat, Fires (.vqmx o c p3) s rc { o0 := [beatTok x], o1 := [beatTok y], lat := 4 } ∧
        (∀ i, i < 1024 → x.getLsbD i =
          if 128 * p3.toNat ≤ i ∧ i < 128 * p3.toNat + 128 then (packNat 4 q.2).testBit (i - 128 * p3.toNat)
          else (laneOpd .f32 o.lit o.b ec.b).getLsbD i) ∧
        (∀ i, i < 1024 → y.getLsbD i =
          if 8 * p3.toNat ≤ i ∧ i < 8 * p3.toNat + 8 then q.1.testBit (i - 8 * p3.toNat)
          else (laneOpd .f32 o.lit c ec.c).getLsbD i))

/-- The reductions fold a beat into their group, and deliver on its last beat; VSCAN delivers each beat (R125, R138, R139, R140, R141, R142). -/
def Obligations.LaneReductions : Prop :=
  ∀ (s : State) (o : Ops) (t : LaneTy) (rd : Rnd) (g : Option Group),
    let r : FireReq := { ops := o }
    let e := s.env r
    let x := groupOf e.prog
    let a := beatElems t.w (laneOpd t o.lit o.a e.a)
    let b := beatElems t.w (laneOpd t o.lit o.b e.b)
    let add := fun (ty : LaneTy) (y : Word) => x.total ty rd y
    let maxw := fun (u y : Word) => match t.fmt with
      | none => sMax u y
      | some _ => f32MinMax true u y
    let z := scanFold t rd x a
    let scanned := beatTok (packBeat t.w z.1)
    let scanNext : Prog := if z.2.n + 1 = spanOf g then .idle else .group { z.2 with n := z.2.n + 1 }
    let mx : Word := if x.has then maxw x.v (beatMax t a) else beatMax t a
    s.CanFireN r 1 →
      Reduces (.vredadd o t rd g) s r (spanOf g) 8 (add t (beatSum t rd a)) sumOut ∧
      Reduces (.vredmax o t g) s r (spanOf g) 8 { x with v := mx } (maxOut t) ∧
      Reduces (.vargmax o t g) s r (spanOf g) 8 (argFold t x (baseOf g + BitVec.ofNat 32 (x.n * t.e)) a) (fun y => canonWin t (argOut y)) ∧
      Reduces (.vdot o t rd g) s r (spanOf g) 8 (add .f32 (beatDot t rd a b)) sumOut ∧
      Reduces (.vnorm2 o t rd g) s r (spanOf g) 8 (add .f32 (beatDot t rd a a)) sumOut ∧
      Reduces (.vlse o t g) s r (spanOf g) 16 (lseFold t a x) lseOut ∧
      Fires (.vscan o t rd g) s r { o0 := [scanned], o1 := [scanned], lat := 10, prog := some scanNext }

/-- VTLD pairs its beat with the next tile beat, VTST writes it (R125, R144, R145). -/
def Obligations.TileBeats : Prop :=
  ∀ (s : State) (o : Ops) (t : Tile) (d : Tok),
    let r : FireReq := { ops := o }
    let rv : FireReq := { ops := o, verify := false }
    let e := s.env r
    let ev := s.env rv
    let k := cursorOf ev.prog
    let j := (t.start + k).toNat
    let row := s.locus.nd.row
    let next := Prog.cursor (if k = t.count then 0 else k + 1)
    let at_ := s.tileAt row t.tile.toNat j
    (s.CanFire rv (oneToken 2 d) → ev.nd.fly.any (writesTile t.tile) = false → s.tileErr row t.tile.toNat j = none →
      ∃ p : Plan, Fires (.vtld o t) s rv p ∧ p.o0 = [beatTok (s.readTile row t.tile.toNat j)] ∧ p.o1 = [ev.a] ∧ p.lat = 2 ∧
        p.prog = some next ∧ ∀ x : State, (p.eff x).regf = x.regf) ∧
    (s.CanFire r (oneToken 2 d) → Memory.wf s.regf = true →
      ∃ u, exec (.vtst o t) s = .next u ∧ (∃ p : Plan, Fires (.vtst o t) s r p ∧ p.o0 = [beatTok e.a.beatOf] ∧ p.o1 = p.o0 ∧
          p.lat = 2 ∧ p.prog = some next) ∧
        bytesBits 1024 (Memory.readN u.regf at_ 128) = e.a.beatOf ∧
        ∀ a, a < at_ ∨ at_ + 128 ≤ a → Memory.read u.regf a = Memory.read s.regf a)

/-- A matrix control token starts the operation it names, and exchanges and clears take effect at once (R148, R149, R150, R153, R154, R156, R157, R161). -/
def Obligations.MatrixStarts : Prop :=
  ∀ (s : State) (o : Ops) (fa fb : MFmt) (gam : BitVec 32) (tl : Option (BitVec 6)) (t : Word),
    let r : FireReq := mxReq o
    let rc : FireReq := mxReq { o with a := .zero }
    let ro : FireReq := { r with serial := true }
    let e := s.env r
    let names := fun (k : Nat) => (e.nd.head 3).map (fun q => q.tok.word32) = some t ∧ tokOpv t = k ∧ t.toNat % 2 ^ 15 = 0
    let inK := fun (f : MFmt) => tokK t ≤ MFmt.maxK f
    (s.CanFire r (mxSteps t) → linkReady e o = true → e.nd.engineFree .array = true →
      (names 0 → tokVar t = 0 → inK fa → inK fb → Fires (.mma o fa fb) s r (mxSteps t)) ∧
      (names 5 → tokVar t < tokM t → inK fa → inK fb → Fires (.mrec o fa fb gam) s r (mxSteps t))) ∧
    (s.CanFire r (mxSteps t) → e.nd.engineFree .loader = true → names 1 → tokVar t = 0 → inK fb →
      Fires (.mstat o fb) s r (mxSteps t)) ∧
    (s.CanFire rc (mxSteps t) → e.nd.engineFree .loader = true → names 7 →
      (tokVar t = 1 ∨ tokVar t = 0 ∧ ∀ q ∈ popQs [o.a], e.nd.offers q = true) → Fires (.mscale o) s rc (mxSteps t)) ∧
    (s.CanFire r { mxSteps t with o0 := [], n0 := 0 } → e.nd.engineFree .drain = true → names 3 →
      (tokVar t < 2 ∧ o.d0 ≠ .none ∨ tokVar t = 2 ∧ tl.isSome ∨
        tokVar t = 3 ∧ tl.isSome ∧ (s.row s.locus.nd.row).tileOk ((tl.getD 0).toNat + 1) = true) →
      Fires (.mdrain o tl) s r { mxSteps t with o0 := [], n0 := 0 }) ∧
    (s.CanFireN ro 1 → e.nd.engineFree .none = true →
      (names 2 → tokVar t = 0 → MatrixOnce (.mswap o) s ro t 1 fun m => { m with sa := m.sl, sl := m.sa, ca := m.cl, cl := m.ca }) ∧
      (names 2 → tokVar t = 1 → MatrixOnce (.mswap o) s ro t 1 fun m => { m with sa := m.sl, sl := m.sa }) ∧
      (names 2 → tokVar t = 2 → MatrixOnce (.mswap o) s ro t 1 fun m => { m with ca := m.cl, cl := m.ca }) ∧
      (names 4 → tokVar t = 0 → MatrixOnce (.mzero o) s ro t 1 fun m => { m with ca := [] }) ∧
      (names 4 → tokVar t = 1 → MatrixOnce (.mzero o) s ro t 1 fun m => { m with cl := [] }) ∧
      (names 4 → tokVar t = 2 → MatrixOnce (.mzero o) s ro t 1 fun m => { m with ca := [], cl := [] }) ∧
      (names 6 → tokVar t ≤ 1 → (s.node (s.pairNode s.locus.nd)).pairWait = none →
        ∃ p : Plan, Fires (.mpair o) s ro p ∧ p.await = .hub 0 ∧ p.o0 = doneTok t ∧ p.pops = some [(3, 1)]) ∧
      (∀ f, names 6 → tokVar t ≤ 1 → (s.node (s.pairNode s.locus.nd)).pairWait = some f → (s.pairNode s.locus.nd).row ≠ s.locus.nd.row →
        MatrixOnce (.mpair o) s ro t 1 fun m =>
          if tokVar t = 0 then { m with sa := m.sl, sl := m.sa, ca := m.cl, cl := m.ca } else { m with sa := m.sl, sl := m.sa }))

/-- A token that fails a check faults the firing (R150, R163, R147, R158). -/
def Obligations.MatrixChecks : Prop :=
  ∀ (s : State) (o : Ops) (fa fb : MFmt) (gam : BitVec 32) (tl : Option (BitVec 6)) (t : Word),
    let r : FireReq := mxReq o
    let rc : FireReq := mxReq { o with a := .zero }
    let ro : FireReq := { r with serial := true }
    let e := s.env r
    let faults := fun (q : FireReq) (i : Instr) (c : Cause) => exec i s = .next (s.raise s.locus.nd s.locus.slot c (s.env q).info)
    let clean := t.toNat % 2 ^ 15 = 0
    let checks := fun (q : FireReq) (eng : Engine) (i : Instr) (opv : Nat) (var : Prop) =>
      s.CanFireN q 0 → e.nd.engineFree eng = true → (eng = .array → linkReady e o = true) →
        (tokOpv t ≠ opv → faults q i 0x040) ∧ (tokOpv t = opv → ¬clean → faults q i 0x043) ∧
        (tokOpv t = opv → clean → var → faults q i 0x042)
    let far := fun (i : Instr) (opv : Nat) (eng : Engine) (k : Prop) =>
      s.CanFireN r 0 → e.nd.engineFree eng = true → (eng = .array → linkReady e o = true) →
        tokOpv t = opv → clean → k → faults r i 0x041
    (e.nd.head 3).map (fun q => q.tok.word32) = some t →
    checks r .array (.mma o fa fb) 0 (tokVar t ≠ 0) ∧ checks r .array (.mrec o fa fb gam) 5 False ∧
    checks r .loader (.mstat o fb) 1 (tokVar t ≠ 0) ∧
    ((tokVar t = 1 ∨ ∀ q ∈ popQs [o.a], e.nd.offers q = true) → checks rc .loader (.mscale o) 7 (1 < tokVar t)) ∧
    checks ro .none (.mswap o) 2 (2 < tokVar t) ∧ checks ro .none (.mzero o) 4 (2 < tokVar t) ∧
    checks ro .none (.mpair o) 6 (1 < tokVar t) ∧
    checks r .drain (.mdrain o tl) 3 (3 < tokVar t ∨ tokVar t < 2 ∧ o.d0 = .none ∨ 2 ≤ tokVar t ∧ tl = none) ∧
    far (.mma o fa fb) 0 .array (tokVar t = 0 ∧ (MFmt.maxK fa < tokK t ∨ MFmt.maxK fb < tokK t)) ∧
    far (.mrec o fa fb gam) 5 .array (MFmt.maxK fa < tokK t ∨ MFmt.maxK fb < tokK t) ∧
    far (.mstat o fb) 1 .loader (tokVar t = 0 ∧ MFmt.maxK fb < tokK t) ∧
    (∀ n : BitVec 6, s.CanFireN r 0 → e.nd.engineFree .drain = true → tokOpv t = 3 → clean → tokVar t = 3 →
      (s.row s.locus.nd.row).tileOk (n.toNat + 1) = false → faults r (.mdrain o (some n)) 0x044)

/-- A row step of MMA and MREC writes its row of CA, of MSTAT and MSCALE SL, of MDRAIN its consumers or tile slots; halves pass row steps on (R153, R154, R155, R158, R159, R160, R162). -/
def Obligations.MatrixSteps : Prop :=
  ∀ (s : State) (n : NodeId) (f : Firing) (x sx : Beat) (o : Ops) (fa fb : MFmt) (gam : BitVec 32) (tn : BitVec 6),
    s.StepReady n f x sx →
    let t := f.a
    let m := s.mat n.row
    let a := (mxSrcs f.ins t).1
    let b := (mxSrcs f.ins t).2
    let p := (s.pairNode n).row
    let term := fun (c k : Nat) => (aEl fa x sx k).mul (m.sa.el fb k c)
    let res := fun (init : Nat → Option Word) (c : Nat) =>
      fvCode (groupsFrom ((init c).map fun w => fF32.decode w.toNat) (term c) 0 (tokK t / 16))
    let f32 := fun (c : Nat) => if c < tokN t then (matEl m.cl f.step c).toNat else 0
    let bf16 := fun (c : Nat) => if c < tokN t then convFp fBF16 .rne false (fF32.decode (matEl m.cl f.step c).toNat) else 0
    let wide := if 32 < tokN t then 2 else 1
    ((∃ v, f.ins = .mdrain o v) → tokVar t < 2 → (if tokVar t = 0 then wide else 1) ≤ s.destFree f.t0.dst) →
    ∃ u, exec (.firingStep n f.id) s = .next u ∧
      (let mu := u.mat n.row
       let rowed := fun (init : Nat → Option Word) => mu.sa = m.sa ∧ mu.sl = m.sl ∧ mu.cl = m.cl ∧
         (∀ i c, c < 64 → matEl mu.ca i c = if i = f.step ∧ c < tokN t then res init c else matEl m.ca i c) ∧
         mu.link = (if a = .link ∨ b = .link then m.link.drop 1 else m.link) ∧
         ((s.row n.row).hdr.paired = true → (s.row n.row).hdr.trail = false →
           (u.mat p).link = (s.mat p).link ++ [(x, if b = .none then none else some sx, tokM t, tokK t)])
       (f.ins = .mma o fa fb → rowed fun c => if tokAcc t then some (matEl m.ca f.step c) else none) ∧
       (f.ins = .mrec o fa fb gam → rowed fun c =>
         if tokVar t + 1 ≤ f.step then some (f32Mul .rne gam (matEl m.ca (f.step - (tokVar t + 1)) c))
         else if tokAcc t then some (f32Mul .rne gam (matEl m.ca (tokM t - (tokVar t + 1) + f.step) c)) else none) ∧
       (f.ins = .mstat o fb → mu.sa = m.sa ∧ mu.ca = m.ca ∧ mu.cl = m.cl ∧
         let b := tgetD mu.sl.rows f.step 0
         ∀ j, j < 1024 / MFmt.w fb →
           elem b (MFmt.w fb) j = if j % 64 < tokN t then elem x (MFmt.w fb) j else 0) ∧
       (f.ins = .mscale o → mu.sa = m.sa ∧ mu.ca = m.ca ∧ mu.cl = m.cl ∧ mu.sl.rows = m.sl.rows ∧
         let last := f.step + 1 = mxCount f.ins t
         let past := 64 * ((tokK t + 31) / 32)
         (tokVar t = 1 → ∀ j, j < 512 → tget mu.sl.sc j = some 0x7F) ∧
         (tokVar t ≠ 1 → ∀ j, j < 128 → (last → 128 * f.step + j < past) → tget mu.sl.sc (128 * f.step + j) = some (BitVec.ofNat 8 (elem x 8 j))) ∧
         (tokVar t ≠ 1 → last → ∀ j, past ≤ j → j < 512 → tget mu.sl.sc j = some 0x7F)) ∧
       (f.ins = .mdrain o (some tn) ∨ f.ins = .mdrain o none → mu = m ∧
         (∀ q k, f.t0.dst = .queue q k → tokVar t < 2 →
           ∃ bs : List Beat, bs.length = (if tokVar t = 0 then wide else 1) ∧
             ((u.node q).queue k).toks.map (fun y => y.tok) = ((s.node q).queue k).toks.map (fun y => y.tok) ++ bs.map beatTok ∧
             ∀ i, i < bs.length → ∀ c, (tokVar t = 0 → c < 32 → elem (bs.getD i 0) 32 c = f32 (32 * i + c)) ∧
               (tokVar t = 1 → c < 64 → elem (bs.getD i 0) 16 c = bf16 c))) ∧
       (f.ins = .mdrain o (some tn) → Memory.wf s.regf = true →
         (tokVar t = 2 → ∀ c, c < 64 → elem (u.readTile n.row tn.toNat f.step) 16 c = bf16 c) ∧
         (tokVar t = 3 → s.tileAt n.row tn.toNat f.step ≠ s.tileAt n.row (tn.toNat + 1) f.step →
           ∀ c, c < 32 → elem (u.readTile n.row tn.toNat f.step) 32 c = f32 c ∧
             elem (u.readTile n.row (tn.toNat + 1) f.step) 32 c = f32 (32 + c))))

/-- LD, ST, SCAT, ATOM, LDT, STT and GATH start on the element that the cursor or the index names (R235, R236, R237, R240, R243, R246, R251). -/
def Obligations.PortAccessStarts : Prop :=
  ∀ (s : State) (o : Ops) (sm : BitVec 2) (sx spec : Bool) (n : BitVec 6) (op : AtomOp) (c : Sel) (st : Stream) (a : Access),
    let r : FireReq := { ops := o }
    let rc : FireReq := { ops := o, c := some c }
    let rt : FireReq := sttReq o
    let e := s.env r
    let ec := s.env rc
    let et := s.env rt
    let n0 := s.locus.nd
    let size := 2 ^ st.lit.esz.toNat
    let el := fun (x : Env) => if o.a = .zero then st.cursor else x.av.toNat
    let curs := fun (k : Nat) => if o.a = .zero then [(sm.toNat, (st.cursor + k) % st.count)] else []
    let named : Prop := o.a = .zero → st.run = false ∧ st.count ≠ 0
    tget (s.port n0).streams sm.toNat = some st → (s.node n0).defining sm false = false → named →
    (s.CanFireN r 1 → s.PortFree e a → st.lit.esz.toNat ≤ 2 →
      (s.mkAcc n0 sm.toNat st .load (el e) 0 e.id = .ok a → Accesses (.ld o sm sx) s r a (curs 1) false (r.doneTag e.nd)) ∧
      (s.mkAcc n0 sm.toNat st (.store (natBytes' size e.bv.toNat) (specOf e spec)) (el e) 0 e.id = .ok a →
        Accesses (.st o sm spec) s r a (curs 1) true (r.doneTag e.nd))) ∧
    (s.CanFireN r 1 → s.PortFree e a → (3 ≤ st.lit.esz.toNat ↔ e.b.isBeat = true) →
      s.mkAcc n0 sm.toNat st (.store (natBytes' size e.b.beatOf.toNat) (specOf e spec)) (el e) 0 e.id = .ok a →
      Accesses (.scat o sm spec) s r a (curs 1) true (r.doneTag e.nd)) ∧
    (s.CanFireN rc 1 → s.PortFree ec a → st.lit.esz.toNat = 2 →
      s.mkAcc n0 sm.toNat st (.atom op ec.bv ec.cv) (el ec) 0 ec.id = .ok a →
      Accesses (.atom o sm op c) s rc a (curs 1) false (rc.doneTag ec.nd)) ∧
    (st.lit.esz = 7 → e.nd.entries < 16 →
      (s.CanFireN r 1 → Streams (.ldt o sm n) s r (el e) (curs (n.toNat + 1))) ∧
      (s.CanFireN rt 1 → Streams (.stt o sm spec n) s rt (el et) (curs (n.toNat + 1)))) ∧
    (∀ b q sa sz, s.CanFireN r 1 → e.nd.entries < 16 → s.engine n0.row st.lit = .ok (b, q, sa, sz) → sa.jobs.length < sa.depth →
      s.mkAcc n0 sm.toNat st .other e.av.toNat 0 e.id = .ok a →
      ∃ p : Plan, Fires (.gath o sm) s r p ∧ p.acc = [{ a with phase := .finished }] ∧ p.o0 = [] ∧ p.o1 = [])

/-- An element of an affine stream lies at the base plus each index times its stride (bank streams by log entry 70) (R239, R240). -/
def Obligations.StreamAddress : Prop :=
  ∀ (st : Stream) (e : Nat), st.run = false →
    (∀ c0 c1 c2 c3 g0 g1 g2 g3, st.dims = [(c0, g0), (c1, g1), (c2, g2), (c3, g3)] →
      let a := (st.base : Int) + ((e % c0 : Nat) : Int) * g0 + ((e / c0 % c1 : Nat) : Int) * g1 +
        ((e / (c0 * c1) % c2 : Nat) : Int) * g2 + ((e / (c0 * c1 * c2) % c3 : Nat) : Int) * g3
      (e < c0 * c1 * c2 * c3 → st.isBank = false → 0 ≤ a → a < 2 ^ 55 → st.elemAt e = .ok a.toNat) ∧
      (e < c0 * c1 * c2 * c3 → st.isBank = false → (a < 0 ∨ 2 ^ 55 ≤ a) → st.elemAt e = .error 0x080) ∧
      (e < c0 * c1 * c2 * c3 → st.isBank = true → 0 ≤ a → a < 2 ^ 25 → st.elemAt e = .ok a.toNat) ∧
      (e < c0 * c1 * c2 * c3 → st.isBank = true → (a < 0 ∨ 2 ^ 25 ≤ a) → st.elemAt e = .error 0x081) ∧
      (c0 * c1 * c2 * c3 ≤ e → st.elemAt e = .error 0x084)) ∧
    (∀ c0 g0, st.dims = [(c0, g0)] → e < c0 → st.isBank = false → 0 ≤ (st.base : Int) + (e : Int) * g0 →
      (st.base : Int) + (e : Int) * g0 < 2 ^ 55 → st.elemAt e = .ok ((st.base : Int) + (e : Int) * g0).toNat)

/-- A load binds the bytes at its home, a store writes them and no others, an ATOM does both at once (R237, R243, R244, R246, R200). -/
def Obligations.MemoryReplies : Prop :=
  (∀ (s : State) (n : NodeId) (f : Firing) (a : Access) (h : Home) (o : Ops) (sm : BitVec 2) (sx : Bool) (op : AtomOp) (c : Sel)
      (bs : List Byte) (x y : Word), s.memOk → s.Performs n f a h →
    (f.ins = .ld o sm sx → a.op = .load → a.size ≤ 4 →
      ∃ u g, exec (.memoryReply n f.id) s = .next u ∧ (u.node n).firing f.id = some g ∧
        g.o0 = [wordTok (loadWord sx ((List.range a.size).map (s.byteAt h))) f.tag] ∧ g.await = .nothing ∧
        u.hbm = s.hbm ∧ u.sram = s.sram ∧ u.regf = s.regf) ∧
    (f.ins = .st o sm false → a.op = .store bs none → a.scope ≠ .row → bs.length = a.size → a.size ≤ 4 → s.wholeBlock h →
      (∃ k, h = .hbm k ∧ k % 64 + a.size ≤ 64 ∨ ∃ d e b, h = .sram d e b k ∧ k % 64 + a.size ≤ 64) →
      ∃ u g, exec (.memoryReply n f.id) s = .next u ∧ (u.node n).firing f.id = some g ∧ g.await = .nothing ∧
        (∀ i (hi : i < bs.length), u.byteAt h i = bs[i]) ∧ FrameHome s u h bs.length) ∧
    (f.ins = .atom o sm op c → a.op = .atom op x y → a.size = 4 → s.mayComplete n f = true → s.wholeBlock h →
      let old : Word := bytesBits 32 ((List.range 4).map (s.byteAt h))
      ∃ w u : State, exec (.memoryReply n f.id) s = .next u ∧ u = w.complete n { f with o0 := [wordTok old f.otag] } ∧
        FrameHome s w h 4 ∧ bytesBits 32 ((List.range 4).map (w.byteAt h)) = (atomVal op old x y).getD old)) ∧
  (∀ old a b : Word,
    atomVal .add old a b = some (old + a) ∧
    (∃ v, atomVal .minI old a b = some v ∧ v.toInt = min old.toInt a.toInt) ∧
    (∃ v, atomVal .maxI old a b = some v ∧ v.toInt = max old.toInt a.toInt) ∧
    (∃ v, atomVal .minN old a b = some v ∧ v.toNat = min old.toNat a.toNat) ∧
    (∃ v, atomVal .maxN old a b = some v ∧ v.toNat = max old.toNat a.toNat) ∧
    atomVal .and old a b = some (old &&& a) ∧ atomVal .or old a b = some (old ||| a) ∧ atomVal .xor old a b = some (old ^^^ a) ∧
    atomVal .swap old a b = some a ∧ (old = b → atomVal .cas old a b = some a) ∧ (old ≠ b → atomVal .cas old a b = none) ∧
    atomVal .fadd old a b = some (f32Add .rne old a))

/-- FENCE, OWN, WIN, PREF, BMODE, CPY, RSP, SPILL, FILL and TLBINV start (R247, R248, R249, R250, R252, R253, R254, R305). -/
def Obligations.PortControlStarts : Prop :=
  ∀ (s : State) (o : Ops) (sm sb : BitVec 2) (m : BitVec 16) (sc : ScopeSel) (bm : BankModeLit) (op : CpyOp) (q : Bool)
      (off : BitVec 17) (t : Tile) (st : Stream) (k b w : Nat),
    let r : FireReq := { ops := o }
    let rs : FireReq := spillReq o q
    let e := s.env r
    let n := s.locus.nd
    let bank := e.av.toNat
    let base := bm.basehi.toNat * 2 ^ 32 + e.bv.toNat
    s.CanFireN r 1 → (∀ k, e.nd.defining k false = false) →
    Dones (.fence o m sc) s r true true (fun p => p.await = .nothing) ∧
    (s.ownEntry n sm = some k → (∀ f ∈ e.nd.fly, ∀ o2 s2, f.ins ≠ .ownRel o2 sm s2) →
      Dones (.ownRel o sm sc) s r false true fun p => p.a = BitVec.ofNat 32 k) ∧
    (∀ d g, s.regionOf n.row = some (d, g) → g.handed e.av = some k → Dones (.ownAcq o) s r true true fun p => p.a = e.av) ∧
    (tget (s.port n).streams sm.toNat = some st → StreamLit.window st.lit = some (b, w) → s.holdsBank n.row b = true →
      e.nd.entries < 16 →
      Dones (.win o sm sc) s r true true (fun p => p.a = e.av) ∧ Dones (.pref o sm) s r true true fun p => p.a = e.av) ∧
    (s.holdsBank n.row bank = true → (bm.mode = 1 → base % 256 = 0) → (s.bankOf n.row.die n.row.cl bank).pend = none →
      (∀ g ∈ (s.bankOf n.row.die n.row.cl bank).segs, g.placed = false) →
      Dones (.bmode o bm) s r true true fun p => p.await = .hub 0 ∧ ∀ x : State,
        ((p.eff x).bankOf n.row.die n.row.cl bank).pend = some ⟨n, e.id, bm, base⟩) ∧
    (∀ dt x y curs a c qb qn qa qz, tget (s.port n).streams sm.toNat = some st → tget (s.port n).streams sb.toNat = some dt →
      bank % 64 = 0 → 0 < bank → bank ≤ 2 ^ 24 → s.engine n.row st.lit = .ok (qb, qn, qa, qz) → qa.jobs.length < qa.depth →
      cpyPicks sm.toNat sb.toNat st dt = .ok (x, y, curs) → s.mkAcc n sm.toNat st .other x 0 e.id = .ok a →
      s.mkAcc n sb.toNat dt .other y 1 e.id = .ok c → s.ownedBad n a.addr bank a.bank e.id = none →
      s.ownedBad n c.addr bank c.bank e.id = none → e.nd.entries < 16 →
      ∃ p : Plan, Fires (.cpy o sm op sb sc) s r p ∧ p.a = e.av ∧ p.curs = curs ∧
        p.acc = [{ a with phase := .finished }, { c with phase := .finished }]) ∧
    (∀ qb qn qa qz, tget (s.port n).streams sm.toNat = some st → s.engine n.row st.lit = .ok (qb, qn, qa, qz) →
      qz.jobs ≠ [] → (∀ f ∈ e.nd.fly, ∀ o2, f.ins ≠ .rsp o2 sm) → e.nd.entries < 16 →
      Dones (.rsp o sm) s r false true fun p => p.o0 = []) ∧
    (s.CanFireN rs 1 → e.nd.entries < 16 → Dones (.spill o q off t) s rs true false fun p => p.await = .steps) ∧
    (e.nd.entries < 16 → Dones (.fill o q off t) s r (!q) q fun p => p.await = .steps) ∧
    (e.bv.toNat * 2 ^ 32 + e.av.toNat < 2 ^ 55 → Dones (.tlbinvVa o) s r true true fun p => p.lat = 100 ∧
      ∀ (x : State) (d v : Nat), ∀ z ∈ ((p.eff x).die d).slice v,
        ¬(z.owner = x.ownerOf n.row ∧ (e.bv.toNat * 2 ^ 32 + e.av.toNat) / 2 ^ z.psz = z.vpn)) ∧
    Dones (.tlbinvCtx o) s r true true (fun p => p.lat = 400 ∧
      ∀ (x : State) (d v : Nat), ∀ z ∈ ((p.eff x).die d).slice v, z.owner ≠ x.ownerOf n.row)

/-- SDEF and SRUN pop their words one by one and install the stream at the last (SRUN's stride is signed: log entry 32) (R239, R241, R328). -/
def Obligations.StreamDefinitions : Prop :=
  ∀ (s : State) (o : Ops) (sm : BitVec 2) (sl : StreamLit),
    let r : FireReq := { ops := o, multi := true }
    let e := s.env r
    let n := s.locus.nd
    let ws := wordsOf e.prog ++ [e.av]
    (s.CanFireN r 1 → (∀ f ∈ e.nd.fly, f.slot ≠ s.locus.slot) →
      (ws.length < sdefCount sl → Fires (.sdef o sm sl) s r { stay := true, a := e.av }) ∧
      (ws.length < 4 → Fires (.srun o sm sl) s r { stay := true, a := e.av }) ∧
      (sdefCount sl ≤ ws.length → sdefBad s n.row (affine sl ws) = none → Fires (.sdef o sm sl) s r { a := e.av }) ∧
      (∀ as, 4 ≤ ws.length →
        let st : Stream := { affine sl (ws.take 2) with stride := (ws.getD 3 0).toInt }
        let k := (ws.getD 2 0).toNat
        baseBad s n.row st = none → 1 ≤ k → k ≤ 256 → st.base % 16 = 0 → st.stride % (st.esize : Int) = 0 →
        runAccs s n sm.toNat st e.id k = .ok as → e.nd.entries < 16 → (∀ a ∈ as, (s.port n).stops a = false) →
        ∃ p : Plan, Fires (.srun o sm sl) s r p ∧ p.await = .access ∧ p.acc = as ∧ as.length = k)) ∧
    (∀ (nd : NodeId) (f : Firing) (vs : List Word), f.off = false → f.acted = false → sl.owned = false → 33 ≤ nd.node → nd.ok = true →
      (s.node nd).firing f.id = some f → f.await = .nothing → f.xstopped = false → s.mayComplete nd f = true → s.completes nd f = true →
      f.t0.dst = .none → f.t1.dst = .none →
      vs = wordsOf ((s.node nd).prog f.slot) ++ [f.a] → (s.node nd).usesStream f sm.toNat = false →
      (f.ins = .sdef o sm sl → vs.length = sdefCount sl → ∃ u st, exec (.firingCompletion nd f.id) s = .next u ∧ tget (u.port nd).streams sm.toNat = some st ∧ st.lit = sl ∧
        st.base = (vs.getD 1 0).toNat * 2 ^ 32 + (vs.getD 0 0).toNat ∧ st.cursor = 0 ∧ st.run = false ∧
        (∀ k, k ≤ sl.dims.toNat → st.dims[k]? = some ((vs.getD (2 + 2 * k) 0).toNat, (vs.getD (3 + 2 * k) 0).toInt)) ∧
        (∀ k, k ≠ sm.toNat → tget (u.port nd).streams k = tget (s.port nd).streams k)) ∧
      (f.ins = .srun o sm sl → vs.length = 4 → runsOk (runsOf f.acc) = true → ∃ u st,
        exec (.firingCompletion nd f.id) s = .next u ∧ tget (u.port nd).streams sm.toNat = some st ∧ st.lit = sl ∧ st.run = true ∧
        st.stride = (vs.getD 3 0).toInt ∧
        (∀ (k : Nat) (a : Access), f.acc[k]? = some a → let w : BitVec 128 := bytesBits 128 a.data
          st.runs[k]? = some ((w.extractLsb' 64 64).toNat, (w.extractLsb' 0 32).toNat, (w.extractLsb' 32 32).toNat)) ∧
        (∀ k, k ≠ sm.toNat → tget (u.port nd).streams k = tget (s.port nd).streams k)))

/-- NOTIFY, WAITN, RANDT (its pinned words at the start: log entry 23), RNGSET and RING start on what the context holds (R191, R192, R194, R195, R196). -/
def Obligations.HubStarts : Prop :=
  ∀ (s : State) (o : Ops) (c : Sel) (beat : Bool) (x : SeqSlot) (cons : DWord),
    let r : FireReq := { ops := o }
    let rc : FireReq := { ops := o, c := some c }
    let e := s.env r
    let ec := s.env rc
    let n := s.locus.nd
    let ow := s.ownerOf n.row
    let k := e.av.toNat
    let v := s.notifyVal k
    let cnt := if beat then 32 else 1
    (s.CanFireN r 1 → s.granted k ow = true →
      Fires (.notifyAdd o) s r { a := e.av, b := e.bv } ∧ Fires (.notifySet o) s r { a := e.av, b := e.bv } ∧
      ((v - e.bv).toNat < 2 ^ 31 → Fires (.waitn o) s r (oneToken 1 (wordTok v e.tag))) ∧
      (2 ^ 31 ≤ (v - e.bv).toNat → (tgetD s.hub.waits k []).length < 16 →
        ∃ p : Plan, Fires (.waitn o) s r p ∧ p.await = .hub 0 ∧ ∀ y : State,
          tgetD (p.eff y).hub.waits k [] = tgetD y.hub.waits k [] ++ [⟨n, e.id, e.bv⟩])) ∧
    (s.CanFireN r 1 → s.slotOwned k ow = true → tget s.hub.slots k = some x →
      (∃ p : Plan, Fires (.randt o beat) s r p ∧ p.lat = 24 ∧ p.await = .hub 0 ∧ ∀ y z : _, tget y.hub.slots k = some z →
        (tget (p.eff y).hub.slots k).map (fun q => q.tickets) =
          some (z.tickets ++ [⟨n, e.id, cnt, y.cyc n.row.die, z.pins.take cnt⟩])) ∧
      (x.pins.length < 64 → Dones (.rngset o) s r true true fun p => p.a = e.av ∧ p.b = e.bv) ∧
      Dones (.rngsetClr o) s r true true (fun p => p.a = e.av) ∧ Dones (.ringPub o) s r true true fun p => p.a = e.av) ∧
    (s.CanFireN rc 1 → s.slotOwned ec.av.toNat ow = true → tget s.hub.slots ec.av.toNat = some x →
      s.ringOwned n ec.id (x.rbase + 8) 8 = none → s.readVa1 ow (x.rbase + 8) = .ok cons → x.cursor < cons.toNat + x.e1.toNat + 1 →
      Dones (.ringPut o c) s rc true true fun p => p.a = ec.av ∧ p.b = ec.bv ∧ p.data = [ec.c.beatOf])

/-- NOTIFY, RNGSET and RING take effect when their firings complete (log entries 27 and 36) (R192, R193, R194, R195). -/
def Obligations.HubEffects : Prop :=
  ∀ (s : State) (n : NodeId) (f : Firing) (o : Ops) (c : Sel) (x : SeqSlot) (cons : DWord) (pa : Nat),
    let k := f.a.toNat
    let ow := s.ownerOf n.row
    let pins := fun (u : State) => (tget u.hub.slots k).map fun q => q.pins
    let va := x.rbase + 64 + 8 * (x.cursor % (x.e1.toNat + 1))
    let y := s.release n.row .system
    s.CanComplete n f → s.memOk → s.hub.parity = [] →
    (f.ins = .notifyAdd o → ∃ w u, Completes s n f [wordTok (s.notifyVal k + f.b) f.tag] [wordTok (s.notifyVal k + f.b) f.tag] w u ∧
      u.notifyVal k = s.notifyVal k + f.b) ∧
    (f.ins = .notifySet o → ∃ w u, Completes s n f [wordTok f.b f.tag] [wordTok f.b f.tag] w u ∧ u.notifyVal k = f.b) ∧
    (f.ins = .rngset o → tget s.hub.slots k = some x → x.pins.length < 64 →
      ∃ w u, Completes s n f f.o0 f.o1 w u ∧ pins u = some (x.pins ++ [f.b])) ∧
    (f.ins = .rngsetClr o → tget s.hub.slots k = some x → ∃ w u, Completes s n f f.o0 f.o1 w u ∧ pins u = some []) ∧
    (f.ins = .ringPut o c → tget s.hub.slots k = some x → s.readVa1 ow (x.rbase + 8) = .ok cons → ringRoom x cons = true → s.ringOwned n f.id va 8 = none →
      va % 8 = 0 → s.xlate ow va true = .ok pa → s.ecc = [] → s.homeErr (.hbm pa) 8 = none →
      ∃ w u, Completes s n f f.o0 f.o1 w u ∧ (tget u.hub.slots k).map (fun q => q.cursor) = some (x.cursor + 1) ∧
        bytesBits 64 (Memory.readN u.hbm pa 8) = ((f.data.headD 0).setWidth 32 : Word) ++ f.b ∧
        ∀ a, a < pa ∨ pa + 8 ≤ a → Memory.read u.hbm a = Memory.read s.hbm a) ∧
    (f.ins = .ringPub o → tget s.hub.slots k = some x → s.putsBefore n f = false → s.ringOwned n f.id x.rbase 8 = none → x.rbase % 8 = 0 →
      y.xlate ow x.rbase true = .ok pa → y.homeErr (.hbm pa) 8 = none →
      ∃ w u, Completes s n f f.o0 f.o1 w u ∧ bytesBits 64 (Memory.readN u.hbm pa 8) = BitVec.ofNat 64 x.cursor)

/-- The descent node starts a tree's operations, those of its descent only while one is in progress (R281, R284, R286, R287, R288, R289, R290, R291, R292, R293, R294). -/
def Obligations.TreeStarts : Prop :=
  ∀ (s : State) (o : Ops) (sm el : BitVec 2) (tau len : BitVec 32) (bud : BitVec 12),
    let r : FireReq := descReq o
    let rb : FireReq := descReq { o with b := .zero } (popQs [o.b])
    let rz : FireReq := descReq { o with a := .zero, b := .zero } (popQs [o.a])
    let e := s.env r
    let eb := s.env rb
    let row := s.locus.nd.row
    let live := (s.row row).desc.live
    let faults := fun (i : Instr) (x : FInfo) => exec i s = .next (s.raise s.locus.nd s.locus.slot 0x0EB x)
    (s.CanFireN rb 1 → eb.ownTree sm eb.av.toNat = false → TreeSteps (.tapp o sm) s rb eb.av 0) ∧
    (s.CanFireN r 1 → e.ownTree sm e.av.toNat = false →
      TreeSteps (.tseal o sm) s r e.av 0 ∧ TreeSteps (.tsealLift o sm) s r e.av 0 ∧ TreeSteps (.tfork o sm) s r e.av 0 ∧
      TreeSteps (.tevict o sm) s r e.av 0 ∧ TreeSteps (.tlift o sm) s r e.av e.bv ∧ TreeSteps (.tprune o sm) s r e.av e.bv) ∧
    (s.CanFireN r 1 → e.ownTree sm e.av.toNat = true →
      faults (.tevict o sm) (e.recInfo sm) ∧ faults (.tseal o sm) (e.recInfo sm) ∧ faults (.tlift o sm) (e.recInfo sm)) ∧
    (s.CanFireN rb 1 → live = false → TreeSteps (.troot o sm tau bud) s rb eb.av 0) ∧
    (s.CanFireN rb 1 → live = true → faults (.troot o sm tau bud) (eb.recInfo sm)) ∧
    (s.CanFireN r 1 → live = true → TreeSteps (.tscore o) s r e.av 0 ∧ TreeSteps (.tselOne o) s r e.av 0 ∧
      TreeSteps (.tselAll o) s r e.av 0 ∧ TreeSteps (.topen o) s r e.av 0) ∧
    (s.CanFireN rz 1 → live = true → TreeSteps (.tacc o) s rz (s.env rz).av 0) ∧
    (s.CanFire r { n0 := 3, n1 := 0, await := .steps } → live = true → TreeSteps (.tend o) s r e.av 0) ∧
    (s.CanFireN r 1 → live = false → faults (.tscore o) (e.info e.av) ∧ faults (.tselOne o) (e.info e.av) ∧
      faults (.tselAll o) (e.info e.av) ∧ faults (.topen o) (e.info e.av)) ∧
    (s.CanFireN r 1 → live = false →
      (∃ p : Plan, Fires (.tmask o sm el len) s r p ∧ p.o0 = [wordTok 1 0] ∧ p.o1 = [] ∧
        ∀ x : State, ((p.eff x).row row).desc.mask = some ⟨sm.toNat, el.toNat, len.toNat⟩) ∧
      ∃ p : Plan, Fires (.tmaskNone o) s r p ∧ p.o0 = [wordTok 1 0] ∧ p.o1 = [] ∧
        ∀ x : State, ((p.eff x).row row).desc.mask = none) ∧
    (s.CanFireN r 1 → live = true → faults (.tmask o sm el len) e.info ∧ faults (.tmaskNone o) e.info)

/-- A granted mutation or fork whose check finds no fault delivers its word once every write is done (R276, R279, R284, R286, R287, R293). -/
def Obligations.TreeMutations : Prop :=
  ∀ (s w : State) (n : NodeId) (f : Firing) (sm : Nat) (m : Bool) (out : List Word × List Word) (ops : List TreeOp) (t : TreeD) (s0 : State)
    (hs : List (Nat × Nat)),
    let c := f.ctx n.row sm
    let f1 : Firing := { f with heads := none }
    s.TreeReady n f → f.held = true → Instr.takesTree f.ins = some (sm, m) → (∀ o k tau bud, f.ins ≠ .troot o k tau bud) →
    (f.tree = [] → Heads s n f c (onTree c f.a.toNat fun t => treeProg c t f)) ∧
    (f.tree ≠ [] → State.writePhase c f.tree s = (w, [], none) → ∃ sc, exec (.firingStep n f.id) s =
      .next ((s.written w n f sc).setFiring n { f with await := (s.written w n f sc).ackAwait n f.id, tree := [] })) ∧
    (f.tree = [] → f.heads = some hs → s.changed c hs = none → s.treeCheck c f1 = .ok (out, ops) →
      State.writePhase c ops s = (w, [], none) → s.descRec c f.a.toNat = .ok (s0, t) →
      (∃ sc, exec (.firingStep n f.id) s = .next ((s.written w n f sc).setFiring n
        { f.with out.1 out.2 with await := (s.written w n f sc).ackAwait n f.id })) ∧
      (∀ o k, f.ins = .tapp o k → out = ([BitVec.ofNat 32 t.nt], [1])) ∧
      (∀ o k, f.ins = .tlift o k ∨ f.ins = .tprune o k ∨ f.ins = .tevict o k → out = ([1], [1])) ∧
      (∀ o k, f.ins = .tseal o k ∨ f.ins = .tsealLift o k ∨ f.ins = .tfork o k → out.1.length = 1 ∧ out.2 = [1]))

/-- The running sums of a descent take a token's exact contribution; TROOT, TACC, TSEL, TSCORE, TOPEN and TEND deliver, and a record that changed faults (R269, R272, R279, R280, R288, R289, R290, R291, R292). -/
def Obligations.DescentSteps : Prop :=
  (∀ (s : State) (n : NodeId) (f : Firing) (t : TreeD) (s0 : State) (o : Ops) (y : Desc) (b : Bool) (w : Word) (k : Nat) (ts : TS)
      (hs : List (Nat × Nat)) (sm : BitVec 2) (tau : BitVec 32) (bud : BitVec 12) (m z ep : Word) (ov : Vec),
    let x := (s.row n.row).desc
    let c := f.ctx n.row x.sm
    let cr := f.ctx n.row sm.toNat
    let f1 : Firing := { f with heads := none }
    let step := fun (u : State) => exec (.firingStep n f.id) s = .next u
    let ends := fun (z : State) (y : Desc) (o0 o1 : List Word) => step ((z.setDesc n.row y).setFiring n (f.with o0 o1))
    let reads := f.heads = some hs ∧ s.changed c hs = none
    let own := f.ins = .tacc o ∨ f.ins = .tselOne o ∨ f.ins = .tselAll o ∨ f.ins = .tscore o ∨ f.ins = .topen o
    s.TreeReady n f →
    (own → Heads s n f c (onTree c x.desc (descProg c f x))) ∧
    (∀ e, own → f.heads = some hs → s.changed c hs = some e → e ≠ .wait →
      step (s.treeFault n f1 (f.hasSteps || f.held || f.step ≠ 0) e)) ∧
    (∀ (hl hr : List (Nat × Nat)) (j h : Nat), s.changed c hl = none →
      (∀ g, s.headOf c j = .ok g → g ≠ h → s.changed c (hl ++ (j, h) :: hr) = some (c.err 0x0E1 j)) ∧
      (∀ e, s.headOf c j = .error e → s.changed c (hl ++ (j, h) :: hr) = some e)) ∧
    (reads → s.descRec c x.desc = .ok (s0, t) →
      (f.ins = .tacc o → ends s0 (x.token (t.widened (keyVal t f.data).1) (t.widened (keyVal t f.data).2)) [1] [1]) ∧
      (f.ins = .tselOne o → dselect c t x { s := s0 } = .ok ((y, b), ts) → ends ts.s y [boolWord b] [1]) ∧
      (f.ins = .tselAll o → dselect c t x { s := s0 } = .ok ((y, false), ts) → ends ts.s y [BitVec.ofNat 32 y.nopen] [1]) ∧
      (f.ins = .tselAll o → dselect c t x { s := s0 } = .ok ((y, true), ts) →
        step ((ts.s.setDesc n.row y).setFiring n { f1 with step := f.step + 1 })) ∧
      (f.ins = .tscore o → dscore c t x f.a.toNat { s := s0 } = .ok ((y, w), ts) → ends ts.s y [w] [1]) ∧
      (f.ins = .topen o → dopenLeaf c t x f.a.toNat { s := s0 } = .ok ((y, k), ts) → ends ts.s y [BitVec.ofNat 32 k] [1])) ∧
    (f.ins = .troot o sm tau bud → f.held = true → f.heads = some hs → s.changed cr hs = none → s.descRec cr f.a.toNat = .ok (s0, t) →
      droot cr t (queryOf t f.data) tau (bud.toNat + 1) x.mask { s := s0 } = .ok (y, ts) → ends ts.s y [y.qn] [BitVec.ofNat 32 t.root]) ∧
    (f.ins = .tend o → f.step = 0 → reads → s.descRec c x.desc = .ok (s0, t) → dend c t x { s := s0 } = .ok ((m, z, ep, ov), ts) →
      step (((ts.s.unreserve f.t0.dst f.n0).pushAll f.t0 [wordTok m f.otag, wordTok z f.otag, wordTok ep f.otag]).setFiring n
        { f1 with step := 1, n0 := 0, data := outBeats ov })) ∧
    (f.ins = .tend o → f.step ≠ 0 → f.step ≤ f.data.length → s.destFree f.t1.dst ≠ 0 →
      step ((s.push f.t1 (beatTok (f.data.getD (f.step - 1) 0))).setFiring n { f with step := f.step + 1 })) ∧
    (f.ins = .tend o → f.data.length < f.step → s.treeOp c true (.leave x.desc) = .ok s0 →
      step ((s0.setDesc n.row { mask := x.mask }).setFiring n { f with await := .nothing }))) ∧
  (∀ (x : Desc) (k v : Vec),
    let sc := dot .rne x.q k
    let m := f32MinMax true x.m sc
    let wt := f32Exp2 .rne (f32Sub .rne sc m)
    let y := x.token k v
    let add := fun (z : Word) (os : Vec) => y.z = f32Add .rne z wt ∧ y.o = List.zipWith (fun vi oi => f32Fma .rne wt vi oi) v os
    y.m = m ∧ y.front = x.front ∧ y.nopen = x.nopen ∧
    (x.m = f32NegInf → add x.z x.o ∧ y.eret = x.eret) ∧
    ((∀ k, f32Cmp m x.m = some k → k ≤ 0) → add x.z x.o ∧ y.eret = x.eret) ∧
    (∀ k, x.m ≠ f32NegInf → f32Cmp m x.m = some k → 0 < k →
      let g := f32Exp2 .rne (f32Sub .rne x.m m)
      add (f32Mul .rne x.z g) (x.o.map fun oi => f32Mul .rne oi g) ∧
      y.eret = f32Mul .rup x.eret (f32Exp2 .rup (f32Sub .rup x.m m))))

/-- CNT, CYC and the reads of PMC, band, stage, scroll and schedule (in a row without a band entry: log entry 90) (R357, R362, R384). -/
def Obligations.CellCounters : Prop :=
  ∀ (s : State) (o : Ops) (k : BitVec 2) (j : Nat) (b : Band),
    let r : FireReq := cellReq o
    let e := s.env r
    let n := s.locus.nd
    let t := e.a.tag
    let cell := fun (x : State) => (x.row n.row).cell
    let c := tgetD (cell s).c k.toNat 0
    let cyc := (s.die n.row.die).cyc
    let pmc := tgetD (s.row n.row).pmc e.av.toNat 0
    let reel := (s.row n.row).reel
    let sets := fun (v : Word) (x y : State) => tgetD (cell y).c k.toNat 0 = v ∧ (cell y).lut = (cell x).lut
    let band := fun (y : State) => tget (y.die n.row.die).bands j
    let clear := fun (q : Band) => { q with smax := 0, wmax := 0 }
    s.CanFireN r 1 →
    Words (.cntSet o k) s r 1 [e.av] [e.av] t (sets e.av) ∧
    Words (.cntAdd o k) s r 1 [c + e.av] [c + e.av] t (sets (c + e.av)) ∧
    (c + 1 = e.av → Words (.cntStep o k) s r 1 [1] [1] t (sets 0)) ∧
    (c + 1 ≠ e.av → Words (.cntStep o k) s r 1 [0] [0] t (sets (c + 1))) ∧
    Words (.cntRead o k) s r 1 [c] [c] t (sets c) ∧
    Words (.cyc o) s r 1 [cyc.extractLsb' 0 32] [cyc.extractLsb' 32 32] t (fun x y => y = x) ∧
    (e.av.toNat ≤ 7 → Words (.cycPmc o) s r 1 [pmc.extractLsb' 0 32] [pmc.extractLsb' 32 32] t fun x y => y = x) ∧
    (∃ w, Words (.stageCur o) s r 2 [w] [w] t (fun x y => y = x) ∧ w.toNat = reel.nxt % 2 ^ 16 * 2 ^ 16 + reel.hosted % 2 ^ 16) ∧
    Words (.stageSh o) s r 2 [if reel.sh = .ready then 1 else 0] [if reel.sh = .ready then 1 else 0] t (fun x y => y = x) ∧
    (s.bandEntry n.row = none → ∃ v w, Words (.bandRead o) s r 2 [v] [v] t (fun x y => y = x) ∧
      Words (.bandExit o) s r 2 [v] [w] t (fun x y => y = x) ∧ Words (.scrollRead o) s r 2 [v] [w] t (fun x y => y = x) ∧
      Words (.scrollClr o) s r 2 [1] [1] t fun x y => x.bandEntry n.row = none → y = x) ∧
    (s.bandEntry n.row = some b →
      Words (.bandRead o) s r 2 [bandWord b reel n.row.row] [bandWord b reel n.row.row] t (fun x y => y = x) ∧
      Words (.bandExit o) s r 2 [b.exit.extractLsb' 0 32] [b.exit.extractLsb' 32 32] t (fun x y => y = x) ∧
      Words (.scrollRead o) s r 2 [b.smax] [b.wmax] t (fun x y => y = x) ∧
      Words (.scrollClr o) s r 2 [1] [1] t (fun x y =>
        (∀ q, x.bandOf n.row = some (j, q) → band y = (band x).map clear) ∧
        ∀ i g q, x.bandOf n.row = none → x.regionOf n.row = some (i, g) → bandAmong i n.row.row (x.die n.row.die).past = some (j, q) →
          tget (y.die n.row.die).past j = some (clear q))) ∧
    (s.bandOf n.row = some (j, b) →
      (b.mode = true → e.av.toNat < b.desc.d →
        let q := tgetD b.stageq e.av.toNat []
        (∃ w0 w1 : Word, Words (.schedRead o) s r 2 [w0] [w1] t (fun x y => y = x) ∧
          (q.length < 2 ^ 32 → w0.toNat = (q.filter fun x => !x.tok.tok.isMark).length)) ∧
        Words (.schedBoost o) s r 2 [1] [1] t fun x y => band y = (band x).map fun q => { q with boost := q.boost ++ [e.av.toNat] }))

/-- LUT.GET and LUT.SET (R358). -/
def Obligations.LookupTable : Prop :=
  ∀ (s : State) (o : Ops) (d : Tok),
    let r : FireReq := cellReq o
    let e := s.env r
    let j := e.av.toNat % 16
    let cell := fun (x : State) => (x.row s.locus.nd.row).cell
    let v := tgetD (cell s).lut j 0
    s.CanFire r (oneToken 1 d) →
    Words (.lutGet o) s r 1 [v] [v] e.a.tag (fun x y => y = x) ∧
    Words (.lutSet o) s r 1 [e.bv] [e.bv] e.a.tag fun x y => tgetD (cell y).lut j 0 = e.bv ∧ (cell y).c = (cell x).c ∧
      ∀ i, i ≠ j → tgetD (cell y).lut i 0 = tgetD (cell x).lut i 0

/-- SEQ, PIPE, STRM, WINC, ENA, DONE, BAR, PERMT and PERMG (R347, R348, R351, R354, R355, R356, R359, R360). -/
def Obligations.ControllerSlots : Prop :=
  ∀ (s : State) (o : Ops) (cfg : CtlCfg) (ctl : BitVec 6) (p3 b3 : BitVec 3) (n8 : BitVec 8) (ex : Bool) (k c : Nat)
      (g : Region) (x : Ctl),
    let r : FireReq := cellReq o
    let rb : FireReq := barReq o
    let e := s.env r
    let eb := s.env rb
    let row := s.locus.nd.row
    let t := e.a.tag
    let ctls := (s.cluster row.die row.cl).ctls
    let arms := fun (p : Nat) (f : Ctl → Ctl) (at_ : State → State → Prop) (i : Instr) (m : CtlMode) (n : Nat) =>
      Words i s r 1 [] [1] t fun x y =>
        y.ctlAt row.die row.cl c = some (f (armed m n cfg p s.locus (s.slotTarget s.locus o.d0) t)) ∧ at_ x y
    let allArm := fun (p : Nat) (f : Ctl → Ctl) (at_ : State → State → Prop) =>
      arms p f at_ (.seq o cfg) .seq e.av.toNat ∧ arms p f at_ (.pipe o false cfg) .pipe e.av.toNat ∧
        arms p f at_ (.pipe o true cfg) .openPipe 0 ∧ arms p f at_ (.strm o cfg) .strm e.av.toNat
    let own := s.slotOwned e.av.toNat (s.ownerOf row) = true
    let held := tgetD (s.die row.die).held e.av.toNat 0
    s.regionOf row = some (k, g) →
    (s.CanFireN r 1 →
      (ctlEntry g cfg.id.toNat = some c → (∀ y, tget ctls c = some y → y.run = false) →
        (∀ y ∈ ctls, y.2.parent = c → y.2.pos < cfg.nch1.toNat + 1) →
        (cfg.parent = 63 → allArm 63 id fun _ _ => True) ∧
        ∀ p, cfg.parent ≠ 63 → ctlEntry g cfg.parent.toNat = some p → p ≠ 63 →
          (∀ y, tget ctls p = some y → cfg.pos.toNat < y.nch) →
          ((∀ y, tget ctls p = some y → tget y.latch cfg.pos.toNat = none) → allArm p id fun _ _ => True) ∧
          ∀ y it, tget ctls p = some y → tget y.latch cfg.pos.toNat = some it → allArm p Ctl.start fun u v =>
            p ≠ c → v.ctlAt row.die row.cl p = (u.ctlAt row.die row.cl p).map fun q => { q with latch := tdel q.latch cfg.pos.toNat }) ∧
      (∀ it, leafRef e ctl p3 = .ok c x → tget x.latch p3.toNat = some it →
        Words (.ena o ctl p3) s r 1 [1] [BitVec.ofNat 32 it] t fun _ y =>
          (y.ctlAt row.die row.cl c) = some { x with latch := tdel x.latch p3.toNat }) ∧
      (leafRef e ctl p3 = .ok c x →
        nth x.d p3.toNat + donesUnderway (s.cluster row.die row.cl).transit c p3.toNat + s.donesFiring row.die g c p3.toNat < nth x.e p3.toNat →
        ∃ q : Plan, Fires (.done o ex ctl p3) s r q ∧ q.o0 = [wordTok 1 t] ∧ q.o1 = [wordTok 1 t] ∧ q.a = e.av) ∧
      (ctlRef e ctl = .ok c x → (x.mode = .pipe ∨ x.mode = .openPipe) → p3.toNat + 1 < x.nch →
        (1 ≤ e.av.toNat → e.av.toNat ≤ 255 → Words (.wincSet o ctl p3) s r 1 [1] [1] t fun _ y =>
          y.ctlAt row.die row.cl c = some { x with w := lset x.w p3.toNat e.av.toNat }) ∧
        Words (.wincAdd o ctl p3) s r 1 [1] [1] t fun _ y =>
          y.ctlAt row.die row.cl c = some { x with w := lset x.w p3.toNat (min 255 (nth x.w p3.toNat + e.av.toNat)) }) ∧
      (own → ∃ q : Plan, Fires (.permt o) s r q ∧ q.await = .hub 0 ∧ ∀ y : State, ((q.eff y).die row.die).preqs =
        (y.die row.die).preqs ++ [⟨s.locus.nd, e.id, e.av.toNat, min 64 e.bv.toNat, y.cyc row.die⟩]) ∧
      (own → e.bv.toNat ≤ held → Words (.permg o) s r 1 [1] [1] t fun y z =>
        tgetD (z.die row.die).held e.av.toNat 0 = tgetD (y.die row.die).held e.av.toNat 0 - e.bv.toNat)) ∧
    (∀ w, s.CanFire rb (barPlan w) → eb.prog = .released w → Fires (.bar o b3 n8) s rb (barPlan w)) ∧
    (s.CanFire rb { late := true } → s.region row.die k = g → (∀ w, eb.prog ≠ .arrived w ∧ eb.prog ≠ .released w) →
      (popQs [o.a] ++ peekQs [o.a]).all eb.nd.offers = true →
      let b := tgetD g.bars b3.toNat ⟨n8.toNat + 1, []⟩
      let s1 := s.setNode s.locus.nd (((s.node s.locus.nd).dropHeads (popQs [o.a])).setProg s.locus.slot (.arrived eb.a.tag))
      let arr := b.arr ++ [(s.locus.nd, s.locus.slot)]
      (b.arr = [] ∨ b.n = n8.toNat + 1) →
      (b.arr.length < n8.toNat → exec (.bar o b3 n8) s =
        .next (s1.setRegion row.die k { g with bars := tset g.bars b3.toNat ⟨n8.toNat + 1, arr⟩ })) ∧
      (n8.toNat ≤ b.arr.length → exec (.bar o b3 n8) s =
        .next ((s1.setRegion row.die k { g with bars := tdel g.bars b3.toNat }).releaseBar arr))) ∧
    (∀ w, s.locus.ok = true → s.instrAt s.locus = some (.bar o b3 n8) → (s.node s.locus.nd).prog s.locus.slot = .arrived w →
      ∃ f, f ∈ ((s.releaseBar [(s.locus.nd, s.locus.slot)]).node s.locus.nd).fly ∧ f.slot = s.locus.slot ∧ f.o0 = [wordTok 1 w] ∧
        f.o1 = [wordTok 1 w] ∧ f.await = .nothing) ∧
    (∀ n f, n.row = row → s.CanComplete n f → s.ctlAt row.die row.cl c = some x →
      (ctlEntry g cfg.id.toNat = some c → x.parent = 63 → x.arm = ⟨n, f.slot⟩ → x.run = false →
        (f.ins = .seq o cfg ∨ f.ins = .pipe o ex cfg ∨ f.ins = .strm o cfg) →
        ∃ u, Completes s n f f.o0 f.o1 (s.setCtl row.die row.cl c x.start) u) ∧
      (ctlEntry g ctl.toNat = some c → f.ins = .done o ex ctl p3 → ∃ u, Completes s n f f.o0 f.o1
        (s.addTransit row.die row.cl (.done c p3.toNat (ex && f.a.getLsbD 0) (s.cyc row.die + 4))) u))

/-- SRD, SWR, CAPQ, GATECFG, CFGREQ, YIELD, BRET, VARSEL, FRZ of another region, RESUME and FAULTACK (R91, R96, R319, R320, R321, R330, R331, R332, R337, R338, R339, R343). -/
def Obligations.SystemInstructions : Prop :=
  ∀ (s : State) (o : Ops) (arg : Bool) (k : Nat) (g : Region),
    let r : FireReq := sysReq o
    let e := s.env r
    let row := s.locus.nd.row
    let t := e.tag
    let a := e.av.toNat
    let la := s.launchAt row
    let regs := fun (i : Nat) (v : Word) (x y : State) => (x.regionOf row).isSome → y.regscr row i = v
    let region := fun (y : State) => y.region row.die k
    s.CanFireN r 1 → s.regionOf row = some (k, g) →
    (∀ v, s.sysReg row e.av = .ro v → Words (.srd o) s r 1 [v] [v] t fun x y => y = x) ∧
    (∀ j, s.sysReg row e.av = .scr j → Words (.srd o) s r 1 [tgetD g.regscr j 0] [tgetD g.regscr j 0] t (fun x y => y = x) ∧
      Words (.swr o) s r 1 [e.bv] [e.bv] t (regs j e.bv)) ∧
    Words (.capq o) s r 4 [s.capWord row g] [s.capWord row g] 0 (fun x y => y = x) ∧
    (a < 3 → Words (.gatecfgSet o) s r 1 [1] [1] t (fun _ y => (tgetD (region y).gw a {}).maxsh = e.bv.extractLsb' 8 8) ∧
      Words (.gatecfgRead o) s r 1 [(tgetD g.gw a {}).counts] [(tgetD g.gw a {}).counts] t fun x y => y = x) ∧
    (∀ w ws, s.readVa1 g.owner (la.getD 2 0).toNat = .ok w → a < (w.extractLsb' 0 16).toNat → (s.die row.die).queued < 256 →
      s.readVa g.owner 8 ((la.getD 2 0).toNat + 64 * (a + 1)) = .ok ws →
      Words (.cfgreq o arg) s r 1 [1] [1] t fun x y => (y.die row.die).pq = (x.die row.die).pq ++
        [{ kind := .cfgreq s.locus.nd g.gen a ws (if arg then some e.bv else none), words := subgraphReq g la ws, entered := s.cyc row.die }]) ∧
    (g.st = .running → ∃ p : Plan, Fires (.yield_ o) s r p ∧ p.o0 = [] ∧ ∀ x : State, (region (p.eff x)).yld = true) ∧
    (∀ b, (s.owner (s.ownerOf row)).maint = true → bankWord row.die e.av = some b →
      ∃ p : Plan, Fires (.bret o) s r p ∧ p.lat = 4 ∧ p.await = .fifo ∧ p.o0 = [wordTok 1 t]) ∧
    (s.varOk row k a = true → Words (.varsel o) s r 4 [1] [1] t fun x y => (region y).ovc = true ∧
      ∀ j b, x.bandOf row = some (j, b) → tget (y.die row.die).bands j = some { b with reqVar := some a }) ∧
    (∀ j q, o.a ≠ .zero → regionWord e.av = some (j, q) → (s.region j q).valid = true → (s.region j q).owner = g.owner →
      (j, q) ≠ (row.die, k) → (s.region j q).st = .frozen → Words (.frz o) s r 1 [1] [1] t fun x y => y = x) ∧
    (∀ f u y, regionWord e.av = some f → (if o.b = .zero then regionWord e.av else regionWord e.bv) = some u →
      s.resume (s.ownerOf row) f.1 f.2 u.1 u.2 = .ok y → Words (.resume o) s r 1 [1] [1] t fun x z =>
        ∀ v, x.resume (s.ownerOf row) f.1 f.2 u.1 u.2 = .ok v → z = v) ∧
    (a < 2 ^ 16 → (∀ y, s.faultack (s.ownerOf row) (e.av.setWidth 16) false = .ok y → Words (.faultackAck o) s r 1 [1] [1] t fun x z =>
        ∀ v, x.faultack (s.ownerOf row) (e.av.setWidth 16) false = .ok v → z = v) ∧
      ∀ y, s.faultack (s.ownerOf row) (e.av.setWidth 16) true = .ok y → Words (.faultackKill o) s r 1 [1] [1] t fun x z =>
        ∀ v, x.faultack (s.ownerOf row) (e.av.setWidth 16) true = .ok v → z = v)

/-- DEVINFO and CTXOWN read as their field maps say and are not written; what other selector words name (R91, R92, R94, R98, R99, R362). -/
def Obligations.SystemRegisters : Prop :=
  ∀ (s : State) (o : Ops) (d : Tok) (k : Nat) (g : Region),
    let r : FireReq := sysReq o
    let e := s.env r
    let row := s.locus.nd.row
    let faults := fun (i : Instr) (c : Cause) => exec i s = .next (s.raise s.locus.nd s.locus.slot c e.info)
    let reads := fun (v : Word) => Words (.srd o) s r 1 [v] [v] e.tag (fun x y => y = x) ∧ faults (.swr o) 0x142
    (∀ sel : Word, sel.extractLsb' 20 12 ≠ 0 → s.sysReg row sel = .bad) ∧
    s.sysReg row 0x00020000 = .ro ((s.die row.die).cyc.setWidth 32) ∧ s.sysReg row 0x00008007 = .scr 7 ∧
    s.sysReg row 0x00008008 = .bad ∧ s.sysReg row 0x00012000 = .hidden ∧
    (s.CanFire r (oneToken 1 d) →
      (s.sysReg row e.av = .bad → faults (.srd o) 0x140 ∧ faults (.swr o) 0x140) ∧
      (s.sysReg row e.av = .hidden → faults (.srd o) 0x141 ∧ faults (.swr o) 0x141) ∧
      (e.av = 0x00001000 → ∃ v : Word, reads v ∧ v.extractLsb' 16 16 = 0x9410 ∧ v.extractLsb' 8 8 = 0xB0 ∧ v.extractLsb' 4 4 = 4 ∧
        v.extractLsb' 0 4 = 0) ∧
      (e.av = 0x00003000 → s.regionOf row = some (k, g) → ∃ v : Word, reads v ∧ v.extractLsb' 0 12 = g.owner ∧ v.extractLsb' 12 20 = 0))

/-- TRAP and FRZ of the node's own region complete and begin its freeze; a fault begins it with its record (R9, R334, R338, R340, R342, R422). -/
def Obligations.TrapAndFreeze : Prop :=
  (∀ (s : State) (o : Ops) (code : BitVec 4) (d : Tok) (k : Nat) (g : Region),
    let r : FireReq := sysReq o
    let e := s.env r
    let n := s.locus.nd
    s.CanFire r (oneToken 1 d) → n.node < 32 → s.regionOf n.row = some (k, g) → s.region n.row.die k = g → g.frz = none → g.st = .running → g.valid = true →
    let stops := fun (i : Instr) (c : Cause) => ∃ u fr, exec i s = .next u ∧ (u.node n).firing e.id = none ∧
      u.freezeRec n.row.die k = some fr ∧ fr.cause = c
    stops (.trap o code) (BitVec.ofNat _ (0x150 + code.toNat)) ∧ (o.a = .zero → stops (.frz o) 0x148)) ∧
  (∀ (s : State) (n : NodeId) (slot : Nat) (c : Cause) (x : FInfo) (k : Nat) (g : Region),
    s.regionOf n.row = some (k, g) → (s.region n.row.die k).frz = none → (s.region n.row.die k).st = .running →
    let u := s.raise n slot c x
    ∃ fr, u.freezeRec n.row.die k = some fr ∧ fr = s.mkRec n slot c x k g ∧
      u = s.setRegion n.row.die k { s.region n.row.die k with frz := some ⟨s.cyc n.row.die, n.row.row, some fr, .record⟩ } ∧
      u.hbm = s.hbm ∧ u.sram = s.sram ∧ u.regf = s.regf ∧ u.rows = s.rows ∧ u.clusters = s.clusters ∧ u.hub = s.hub)

/-- At its completion a firing leaves with the tokens it claimed, and its deliveries arrive at both consumer slots (R61, R62, R101, R166, R169). -/
def Obligations.FiringCompletes : Prop :=
  ∀ (s : State) (n : NodeId) (f : Firing) (p : Parts), s.CanComplete n f → partsOf f.ins = some p →
    (p.opc.toNat ≤ 0x25 ∨ 0x50 ≤ p.opc.toNat ∧ p.opc.toNat ≤ 0x55 ∨ 0x60 ≤ p.opc.toNat ∧ p.opc.toNat ≤ 0x7A) →
    f.t0.dst.placed → f.t1.dst.placed → f.t0.dst.isWrap = false → f.t1.dst.isWrap = false →
    ∃ u, Completes s n f f.o0 f.o1 s u ∧ (u.node n).firing f.id = none ∧
      (∀ m : NodeId, m.ok = true →
        let own := fun (x : Nat) => match f.xw with
          | some (k, v) => if m = n ∧ k = x then v else (s.node m).x x
          | none => (s.node m).x x
        let to0 := fun (x : Nat) (v : Word) => if f.t0.dst = .reg m x then lastWord v f.o0 else v
        (∀ q, ((u.node m).queue q).toks =
            ((s.node m).queue q).toks.filter (fun t => m ≠ n || (t.claim ≠ f.id && !t.peek.contains f.id)) ++ f.sent s (fun d => d = .queue m q) ∧
          ((u.node m).queue q).resv = ((s.node m).queue q).resv - f.gives fun d => d = .queue m q) ∧
        (m ≠ n → (u.node m).ctl.toks = (s.node m).ctl.toks ++ f.sent s fun d => d = .ctl m) ∧
        (∀ x, (u.node m).x x = if f.t1.dst = .reg m x then lastWord (to0 x (own x)) f.o1 else to0 x (own x))) ∧
      (f.id ≠ 0 → ∀ x ∈ (u.node n).ctl.toks, x.claim ≠ f.id) ∧
      ∀ (r : RowId) (l : Nat), r.ok = true →
        let at_ := fun (d : Dest) => match d with
          | .lane r1 l1 _ => decide (r1 = r ∧ l1 = l)
          | _ => false
        ((u.row r).lane l).toks = ((s.row r).lane l).toks ++ f.sent s at_ ∧ ((u.row r).lane l).resv = ((s.row r).lane l).resv - f.gives at_

/-- The start of a scalar, online or lane firing writes no memory, no X register and no queue token (R101, R103, R166, R169). -/
def Obligations.StartFrame : Prop :=
  ∀ (s : State) (i : Instr) (p : Parts), partsOf i = some p →
    (p.opc.toNat ≤ 0x25 ∨ 0x50 ≤ p.opc.toNat ∧ p.opc.toNat ≤ 0x55 ∨ 0x60 ≤ p.opc.toNat ∧ p.opc.toNat ≤ 0x78) →
    ∃ u, exec i s = .next u ∧
      (∀ a, Memory.read u.hbm a = Memory.read s.hbm a ∧ Memory.read u.sram a = Memory.read s.sram a ∧
        Memory.read u.regf a = Memory.read s.regf a) ∧
      u.hub = s.hub ∧ u.clusters = s.clusters ∧ u.hsyn = s.hsyn ∧ u.ssyn = s.ssyn ∧ u.ecc = s.ecc ∧
      (∀ n : NodeId, (∀ k, (u.node n).x k = (s.node n).x k) ∧
        (∀ q, ((u.node n).queue q).toks.map (fun t => t.tok) = ((s.node n).queue q).toks.map fun t => t.tok) ∧
        (u.node n).ctl.toks.map (fun t => t.tok) = (s.node n).ctl.toks.map fun t => t.tok) ∧
      (∀ r : RowId, (∀ l, ((u.row r).lane l).toks = ((s.row r).lane l).toks) ∧ (u.row r).mat = (s.row r).mat ∧
        (u.row r).ports = (s.row r).ports ∧ (u.row r).cell = (s.row r).cell ∧ (u.row r).desc = (s.row r).desc ∧
        (u.row r).regmap = (s.row r).regmap ∧ (u.row r).rstat = (s.row r).rstat) ∧
      ∀ d, (u.die d).cyc = (s.die d).cyc ∧ (u.die d).pq = (s.die d).pq ∧ (u.die d).tlb = (s.die d).tlb

/-- A guarded-off firing of a scalar instruction delivers nothing and needs no room (R58, R104). -/
def Obligations.GuardedOff : Prop :=
  ∀ (s : State) (i : Instr) (p : Parts), partsOf i = some p → 1 ≤ p.opc.toNat → p.opc.toNat ≤ 0x25 → p.opc.toNat ≠ 0x18 →
    let r : FireReq := { ops := p.ops, c := p.c }
    let nd := s.node s.locus.nd
    s.offered s.locus nd false = true → r.ctlThere nd false = true → nd.hazard s.locus.nd (r.sels.map (bumpSel nd.rep.offset)) = false →
    (popQs r.sels ++ peekQs r.sels).all nd.offers = true → r.fits nd.rep.offset = true → r.guardOff nd = true →
    ∃ u f, exec i s = .next u ∧ u = s.begin s.locus i r true {} (s.tgt0 p.ops) (s.tgt1 p.ops) ∧
      f ∈ (u.node s.locus.nd).fly ∧ f.id = nd.nid ∧ f.off = true ∧ f.o0 = [] ∧ f.o1 = [] ∧ f.n0 = 0 ∧ f.n1 = 0 ∧ f.xw = none

/-- A step runs the offered slot's instruction of the moving node, or the event whose turn it is, and time passes (log entries 1 and 2) (R26, R48, R56, R101). -/
def Obligations.StepRuns : Prop :=
  (∀ (s : State) (n : NodeId) (r : List Turn) (k : Nat) (w : DWord) (l : Option DWord) (i : Instr),
    s.turn = .node n :: r → (s.node n).offer = some k → tget (s.node n).store k = some (w, l) →
    decodeWord {} w (l.getD 0) = .ok i →
    step s = match exec i { s with turn := r, locus := ⟨n, k⟩ } with
      | .next u => .next (u.clock (.node n))
      | .fault f => .fault f
      | .refused x => .refused x) ∧
  (∀ (s : State) (i : Instr) (r : List Turn), s.turn = .event i :: r →
    step s = match exec i { s with turn := r } with
      | .next u => .next (u.clock (.event i))
      | .fault f => .fault f
      | .refused x => .refused x) ∧
  (∀ (s : State) (n : NodeId) (r : List Turn), s.turn = .node n :: r → (s.node n).offer = none →
    step s = .next (State.clock { s with turn := r } (.node n))) ∧
  (∀ (s : State) (t : Turn), let u := s.clock t
    u.hbm = s.hbm ∧ u.sram = s.sram ∧ u.regf = s.regf ∧ u.clusters = s.clusters ∧ u.turn = s.turn ∧ u.tick = s.tick + 1 ∧
    { u.hub with thresh := s.hub.thresh, retWin := s.hub.retWin, links := s.hub.links, cores := s.hub.cores } = s.hub ∧
    (s.hub.ready = false → u.hub = s.hub) ∧
    (∀ k, let x := tgetD s.hub.links k {}; tgetD u.hub.links k {} = x ∨ tgetD u.hub.links k {} = { x with retry := 0 }) ∧
    (s.hub.recovery = true → u.dies = s.dies ∧ u.rows = s.rows))

/-- Words written out from the encoding decode to the instructions they stand for (R56, R57, R58, R60, R61, R64, R65, R67). -/
def Obligations.DecodesWords : Prop :=
  let qn := fun (n : BitVec 6) (k : BitVec 2) => Slot.queue n k false
  let ln := fun (l : BitVec 5) => Slot.lane 0 false l
  let is := fun (w l : DWord) (i : Instr) => decodeWord {} w l = .ok i
  is 0x01000200C2000000 0 (.add { a := .x 0, b := .pop 0, d0 := .reg 2 0 } ⟨false, false, .w32⟩) ∧
  is 0x4040001245004600 0 (.steer { a := .pop 0, d0 := qn 5 0, d1 := qn 6 0 } true 0) ∧
  is 0x421800014D000000 1 (.merge2 { a := .pop 0, b := .pop 1, d0 := qn 13 0 } .n32 false (some 1)) ∧
  is 0x1F08000946000000 0xA (.ffma { a := .pop 0, b := .x 1, d0 := qn 6 0 } .rne (.x 2)) ∧
  is 0x6D080001A710A711 0xC2 (.vqmx { a := .pop 0, b := .pop 1, d0 := ln 16, d1 := ln 17 } (.pop 2) 3) ∧
  is 0x80000012C9100000 0 (.mma { a := .pop 0, d0 := .ctl 9 } .bf16 .bf16) ∧
  is 0x920004924400E310 0 (.ld { d0 := qn 4 0, d1 := .ctl 35 } 0 false) ∧
  is 0x9008001200000000 0x1FFA3690 (.sdef { a := .pop 0 } 0 ⟨0, 31, 31, .cluster, 3, false, 3, 2, 1, 0⟩) ∧
  is 0xB54004924A800000 0 (.tselAll { d0 := qn 10 2 }) ∧
  is 0x4B00001262400000 0 (.kchk { a := .pop 0, d0 := qn 34 1 }) ∧
  is 0xC1080412C2100000 0x00008FC000000003 (.pipe { a := .litLo, d0 := .ctl 2, lit := some 3 } false ⟨0, 1, 0, 63, 0⟩) ∧
  decodeWord {} 0 0 = .error 0x000 ∧ decodeWord {} 0xFF00000000000000 0 = .error 0x001 ∧
  decodeWord {} 0x0105049200000000 0 = .error 0x005

/-- What reset leaves (that memories and X registers then read 0 is the choice of log entry 5) (R21, R27, R89, R165, R199, R307, R324, R345, R362). -/
def Obligations.ResetState : Prop :=
  let s := State.reset
  (∀ a, Memory.read s.hbm a = 0 ∧ Memory.read s.sram a = 0 ∧ Memory.read s.regf a = 0) ∧
  (∀ (n : NodeId) (k : Nat), (s.node n).x k = 0 ∧ ((s.node n).queue k).toks = [] ∧ (s.node n).fly = []) ∧
  (∀ d, s.cyc d = 0) ∧ (∀ d k, (s.region d k).valid = false) ∧ (∀ d, (s.die d).bands = [] ∧ (s.die d).pq = []) ∧
  (∀ k, s.notifyVal k = 0) ∧
  (∀ k, (s.owner k).valid = decide (k = 0)) ∧ s.hub.ready = false ∧ s.hub.recovery = false ∧
  s.hub.pwr.mode = .full ∧ s.hub.pwr.clk = 30 ∧ s.hub.pwr.apclk = 24 ∧
  (∀ d c l, (s.cluster d c).ent l = { pres := true, phys := l }) ∧
  (∀ (r : RowId) (l : Nat), (s.row r).ent l = { pres := true, phys := l })

/-- Decoding the encoding of a well-formed scalar, steering, online, lane or matrix instruction gives it back (R56, R57, R58, R59, R60, R61, R64, R105, R128, R147). -/
def Obligations.RoundTripCompute : Prop :=
  ∀ (i : Instr) (p : Parts), partsOf i = some p → p.opc.toNat < 0x90 → i.WellFormed = true →
    decodeWords (encode i) = .ok i ∧ (encode i).head? = some p.word

/-- Decoding the encoding of a well-formed port, descent, cell or system instruction or of a firmware command gives it back (R56, R57, R61, R64, R238, R246, R250, R270, R354, R390). -/
def Obligations.RoundTripRest : Prop :=
  (∀ (i : Instr) (p : Parts), partsOf i = some p → 0x90 ≤ p.opc.toNat → i.WellFormed = true →
    decodeWords (encode i) = .ok i ∧ (encode i).head? = some p.word) ∧
  ∀ (i : Instr) (c b : BitVec 8), fwParts i = some (c, b) → ∃ w, encode i = [w] ∧ decodeFw w = some i

/-- Every step keeps the memories in their canonical form (R89, R199, R203). -/
def Obligations.MemoryFormKept : Prop :=
  ∀ s t : State, s.memOk → step s = .next t → t.memOk

/-- The memories have their canonical form right after reset (R89, R199). -/
def Obligations.MemoryFormReset : Prop :=
  State.reset.memOk

/-- A write of word 7 submits a launch or graph record, and the window answers accepted or the first failing check's cause (with logs 59, 81) (R27, R42, R43, R44, R333, R388, R391). -/
def Obligations.LaunchWindows : Prop :=
  ∀ (s : State) (die : Nat) (w : BitVec 3) (v : DWord) (who : Agent) (core : Nat) (rec : List DWord),
    let d := s.die die
    let ws := windowWords (tset d.win.words 7 v)
    let gs := windowWords (tset d.win.gwords 7 v)
    let o := recOwner ws
    die < 4 →
    (w ≠ 7 → s.hub.ready = true → Leads (.launchWordWrite die false w v who) s fun u =>
      tgetD (u.die die).win.words w.toNat 0 = v ∧ (u.die die).win.gwords = d.win.gwords ∧ (u.die die).pq = d.pq ∧
      (w = 0 → (u.die die).win.words = [(0, v)])) ∧
    (w ≠ 7 → s.hub.ready = true → Leads (.launchWordWrite die true w v who) s fun u =>
      tgetD (u.die die).win.gwords w.toNat 0 = v ∧ (u.die die).win.words = d.win.words ∧
      (w = 0 → (u.die die).win.gwords = [(0, v)])) ∧
    (∀ g, w ≠ 7 → s.hub.ready = false → exec (.launchWordWrite die g w v who) s = .next s) ∧
    (s.submitCause die who ws (recBad ws) = none → Leads (.launchSubmit die v who) s fun u =>
      (u.die die).pq = d.pq ++ [{ kind := .launch, words := ws, entered := s.cyc die }] ∧
      (u.die die).win.acc = true ∧ (u.die die).win.cause = 0) ∧
    (∀ c, s.submitCause die who ws (recBad ws) = some c → Leads (.launchSubmit die v who) s fun u =>
      (u.die die).pq = d.pq ∧ (u.die die).win.acc = false ∧ (u.die die).win.cause = c) ∧
    (s.submitCause die who gs (graphBad gs) = none → Leads (.graphSubmit die v who) s fun u =>
      (u.die die).win.acc = true ∧ (u.die die).pq = d.pq ∧ ∃ g x, tget d.graphs g = none ∧
        tget (u.die die).graphs g = some x ∧ x.words = gs ∧ x.replays = ((gs.getD 0 0).extractLsb' 32 16).toNat) ∧
    (∀ c, s.submitCause die who gs (graphBad gs) = some c → Leads (.graphSubmit die v who) s fun u =>
      (u.die die).graphs = d.graphs ∧ (u.die die).win.acc = false ∧ (u.die die).win.cause = c) ∧
    s.submitCause die who ws (recBad ws) = (if s.hub.ready = false then some 0x14A
      else if o = 0 ∨ s.entitled who o = false then some 0x149
      else if (s.owner o).valid = false then some 0x14D
      else if recBad ws = true then some 0x01D
      else if (ws.getD 7 0).setWidth 32 ≠ crc32c (wordsBytes (ws.take 7)) then some 0x16A
      else if 256 ≤ d.queued then some 0x066 else none) ∧
    (core < 16 → rec.length = 8 → Leads (.launchCall core die rec) s fun u =>
      u.hub.outbox = s.hub.outbox ++ [.launchStatus core (u.winStatus die)] ∧
      (s.hub.ready = false → (u.die die).pq = d.pq ∧ u.winStatus die = 0x14A0000))

/-- A replay reads its graph; a core reaches the notify window and HBM (R197, R210, R211, R232, R333, R391). The model's own choices here: that a replay copies its snapshot in one step (log entry 79); which check stops a core's request (63). -/
def Obligations.ReplaysAndCores : Prop :=
  ∀ (s s1 : State) (die k : Nat) (g : Graph) (ps ns : List DWord) (core off pa : Nat) (v : Word) (bs : List Byte),
    let w := fun (i : Nat) => (g.words.getD i 0).toNat
    let o := recOwner g.words
    let n := ((g.words.getD 0 0).extractLsb' 0 16).toNat
    let p := (g.words.getD 4 0).extractLsb' 0 20
    let ow := s.coreOwner core
    (die < 4 → tget (s.die die).graphs k = some g → g.busy = false → g.replays ≠ 0 → (s.die die).graphBefore k g = false → (s.die die).graphWaits k = false →
      s.readVa o (p.toNat / 8) (w 2) = .ok ps → s.readVa o (8 * n) (w 1) = .ok ns →
      ((s.fixVa o false (p.toNat / 8) (w 2)).fixVa o false (8 * n) (w 1)).writeVa o ps (w 3) = .ok s1 → Leads (.replayStart die k) s fun u => u.hbm = s1.hbm ∧
        tget (u.die die).graphs k = some { g with busy := true, nodes := chunk8 n ns, replays := g.replays - 1 }) ∧
    (core < 16 → off < 65536 → s.granted (off / 16) ow = true →
      (off % 16 = 0 → Leads (.notifyWindowWrite core off v) s fun u => u.notifyVal (off / 16) = v) ∧
      (off % 16 = 8 → Leads (.notifyWindowWrite core off v) s fun u => u.notifyVal (off / 16) = s.notifyVal (off / 16) + v) ∧
      (off % 16 ≠ 0 → off % 16 ≠ 8 → exec (.notifyWindowWrite core off v) s = .next s)) ∧
    (core < 16 → s.granted (off / 16) ow = false → Leads (.notifyWindowWrite core off v) s fun u =>
      u.hub.notify = s.hub.notify ∧ u.hub.outbox = s.hub.outbox ++ [.accessFault core none]) ∧
    (core < 16 → pa < notifyBase ∨ notifyBase + 65536 ≤ pa → (s.owner ow).sandbox = true →
      (pa < s.hub.sbase ∨ s.hub.sbase + s.hub.ssize < pa + bs.length) → Leads (.appClusterRequest core pa (some bs) 0) s fun u =>
        u.hbm = s.hbm ∧ u.hub.srefused = s.hub.srefused + 1 ∧ u.hub.outbox = s.hub.outbox ++ [.accessFault core (some 0x145)]) ∧
    (core < 16 → pa + bs.length ≤ hbmTop → s.memOk → (s.owner ow).sandbox = false ∨ s.sandboxOk true pa bs.length = true →
      s.hub.parity = [] → edgeErr s (pa, bs.length) = none → Leads (.appClusterRequest core pa (some bs) 0) s fun u =>
        Memory.readN u.hbm pa bs.length = bs ∧ u.hub = s.hub ∧
        ∀ a, a < pa ∨ pa + bs.length ≤ a → Memory.read u.hbm a = Memory.read s.hbm a)

/-- Boot takes the first image that verifies; placement takes the first request in its order that fits, fetches its blocks and installs them together (R26, R27, R45, R46, R68, R69, R210, R316, R373). The model's own choices here: that a request counts in the queue until it is installed (log entry 100); the prefetch's fit and the waits (55); that a region may run several launches (69); that a block's fetch is one step (79). -/
def Obligations.BootAndPlacement : Prop :=
  ∀ (s t : State) (die f k : Nat) (x : Fetch) (p : Placing) (r : PReq) (row : RowId) (b : Block),
    let d := s.die die
    let ver := fun (j : Nat) => verified (s.hub.slotImage j)
    let o := recOwner p.req.words
    let g := s.region die p.region
    let at_ := p.base + x.stage % max 1 p.desc.b
    let c : LoadCtx := { owner := o, desc := p.desc, b := p.desc.b, stage := x.stage, row := at_ }
    let idle := d.graphs.find? (fun e => !e.2.nodes.isEmpty && d.queued < 256) = none ∧ d.placing.find? (fun e => !e.2.planned && !e.2.held) = none
    let placed := tget d.fetches f = some x ∧ x.what = .place k ∧ tget d.placing k = some p ∧ p.held = false ∧ x.blk = none
    Leads .reset s (fun u => u.hbm = [] ∧ u.sram = [] ∧ u.regf = [] ∧ u.rows = [] ∧ u.dies = [] ∧ u.hub.ready = false ∧
      u.hub.fwSlots = s.hub.fwSlots ∧ u.hub.boot = (if ver 0 then 1 else if ver 1 then 2 else 0) ∧
      (u.hub.recovery = true ↔ ver 0 = false ∧ ver 1 = false) ∧
      u.hub.running = (if ver 0 then s.hub.slotImage 0 else if ver 1 then s.hub.slotImage 1 else [])) ∧
    (s.hub.boot ≠ 0 → s.hub.recovery = false → s.hub.ready = false → Leads .firmwareReady s fun u => u.hub.ready = true ∧
      u.hub.sbase % 2 ^ 26 = 0 ∧ u.hub.ssize % 2 ^ 26 = 0 ∧ u.hub.ssize ≤ 96 * 2 ^ 30) ∧
    (s.hub.boot = 0 ∨ s.hub.recovery = true → exec .firmwareReady s = .next s) ∧
    d.candidates.Pairwise (fun a b => reqBefore d.cyc.toNat b a = false) ∧ (∀ y, y ∈ d.candidates → y ∈ d.pq) ∧
    (∀ y, y ∈ d.pq → y.eff d.cyc.toNat = 7 → 2 ^ 22 ≤ y.waited d.cyc.toNat →
      ∃ z, d.candidates = [z] ∧ z.eff d.cyc.toNat = 7 ∧ 2 ^ 22 ≤ z.waited d.cyc.toNat) ∧
    (die < 4 → idle → ∀ pre post, d.candidates = pre ++ r :: post → (∀ y, y ∈ pre → s.tryReq die y = none) →
      s.tryReq die r = some t → exec (.placement die) s = .next t) ∧
    (die < 4 → idle → (∀ y, y ∈ d.candidates → s.tryReq die y = none) → exec (.placement die) s = .next s) ∧
    (∀ vs vtab n base, r.image = none → s.entryErr r none = none → s.variants r = .ok (vs, vtab) →
      s.pick die (recOwner r.words) (reqVars r vs) = .ok (some (n, k, base)) → s.entryErr r (some n) = none → ∃ u q, s.tryReq die r = some u ∧ (u.die die).pq = d.pq.erase r ∧
        tget (u.die die).placing d.nplace = some q ∧ q.req = r ∧ q.region = k ∧ q.base = base ∧ q.desc = n.desc ∧ q.varn = n.v ∧ n.short = false ∧
        (∃ pre y post, reqVars r vs = pre ++ y :: post ∧ s.need (recOwner r.words) y.1 y.2 = .ok n ∧
          ∀ z, z ∈ pre → ∃ m, s.need (recOwner r.words) z.1 z.2 = .ok m ∧ s.runFor die (recOwner r.words) m = none) ∧
        s.takes die k (recOwner r.words) = true ∧
        (∀ w, base ≤ w → w < base + n.desc.b → s.rowFreeAt die k w = true) ∧
        ∃ h, (k, h) ∈ (s.die die).regions ∧ h.first ≤ base ∧ base + n.desc.b ≤ h.first + h.nrows ∧
          s.runFits die h.cl base n = true ∧ (s.freeBanks die h.cl k n.sb).isSome = true) ∧
    (die < 4 → placed → s.loadBlock c x.va = .ok b → p.argBad x.stage b = false → b.hdr.fits (s.row ⟨die, g.cl, at_⟩) = true →
      (∃ h j, (h, j) ∈ d.fetches ∧ h ≠ f ∧ j.what = .place k ∧ j.blk = none) → Leads (.blockFetch die f) s fun u =>
        tget (u.die die).fetches f = some { x with blk := some b } ∧ (u.die die).placing = d.placing) ∧
    (∀ e, die < 4 → placed → s.loadBlock c x.va = .error e → e.fetch = true → e.waits = false → Leads (.blockFetch die f) s fun u =>
      tget (u.die die).placing k = some { p with held := true }) ∧
    (∀ e, die < 4 → placed → s.loadBlock c x.va = .error e → e.fetch = false → p.req.kind = .launch →
      Leads (.blockFetch die f) s fun u => (u.die die).placing = tdel d.placing k ∧ (u.die die).pq = d.pq) ∧
    (∀ blks hs, die < 4 → placed → s.loadBlock c x.va = .ok b → p.argBad x.stage b = false → b.hdr.fits (s.row ⟨die, g.cl, at_⟩) = true →
      let s1 := (s.fixBlock o x.va b).setDie die { d with fetches := tset d.fetches f { x with blk := some b } }
      blocksOf ((s1.die die).placeFetches k) = some blks → s.takes die p.region o = true → s.homesWait p = false → d.freeBands.isEmpty = false →
      (∀ l, l ∈ banksOf p.banks → ((s.cluster die g.cl).ent l).pres = true ∧ ((s.cluster die g.cl).ent l).pend = false) →
      (∀ y, y ∈ blks → y.hdr.fits (s.row ⟨die, g.cl, p.base + y.hdr.stage % max 1 p.desc.b⟩) = true) →
      s1.readHomes o (p.req.words.getD 3 0).toNat p.desc ((upFrom 0 p.hsz.length).zip p.hsz) = .ok hs →
      Leads (.blockFetch die f) s fun u => (u.region die p.region).st = .running ∧ (u.region die p.region).frz = none ∧
        (u.die die).placing = tdel d.placing k ∧ ∃ z, tget (u.die die).bands (d.freeBands.headD 0) = some z ∧
        z.region = p.region ∧ z.base = p.base ∧ z.launch = p.req.words ∧ z.varn = p.varn ∧ z.banks = banksOf p.banks) ∧
    (let y := (s.row row).reel
     row.ok = true → y.buf = some b → s.bufferErr row b = none → y.hosts = true → y.sh = .loading → b.hdr.stage = y.nxt → s.rowRuns row = true → s.restoreErr row y.nxt b.hdr = none →
      Leads (.shadowLoad row) s fun u => (u.row row).reel.sh = .ready ∧ (u.row row).reel.shadow = some (s.inBuffer row b) ∧
        (∀ j nd, tget (s.row row).nodes j = some nd → (u.node ⟨row, j⟩).shadow = storeOf (s.inBuffer row b).code j ∧
          (u.node ⟨row, j⟩).store = nd.store ∧ (u.node ⟨row, j⟩).seq = nd.seq))

/-- WAVE_CLOSE, GROUP_DELIVERY, MARKER_FORWARD and DONE_EVENT complete where a wave's markers stand (R35, R36, R102, R112, R170, R171, R346). The model's own choices here: which slots go ahead of a due marker (log entry 75). -/
def Obligations.WavesClose : Prop :=
  ∀ (s : State) (n : NodeId) (l : Loc) (g : GroupOut) (i : Instr) (w : BitVec 16) (f : Bool) (k q : Nat)
    (last : Bool) (stg : Nat) (kk : BitVec 6) (qq : BitVec 2),
    let nd := s.node n
    let ld := s.node l.nd
    let nx : NodeId := { n with node := k }
    let cellN : NodeId := { n with node := 36 }
    let qOf := fun (u : State) (x : NodeId) (j : Nat) => ((u.node x).queue j).toks
    let tok := fun (x : Tok) (la : Bool) (st : Nat) => ({ tok := x, last := la, stage := st, at_ := s.cyc n.row.die } : QTok)
    let closes := n.ok = true ∧ s.rowRuns n.row = true ∧ nd.closed = false ∧ nd.dry = false ∧ nd.fly = [] ∧ s.endsWave n nd = false ∧ nd.allMarked = true ∧
      nd.holdsMarker = false ∧ nd.deadMarks = []
    let room := s.room (s.target l.nd i.ops.d0) (s.target l.nd i.ops.d1) (need (s.target l.nd i.ops.d0) 1 []) (need (s.target l.nd i.ops.d1) 1 [])
    let forwards := n.ok = true ∧ nd.deadMarks = [] ∧ nd.markHead = some (w, f) ∧ s.canForward n = true
    let passed := fun (u : State) => (u.node n).closed = false ∧ (u.node n).fwd = some w ∧ (u.node n).marks = nd.marks + 1
    (closes → nd.interrupted = none → Leads (.waveClose n) s fun u => (u.node n).closed = true ∧
      (u.node n).outs = nd.groupOuts (s.cyc n.row.die) ∧ ∀ j, qOf u n j = qOf s n j) ∧
    (∀ c, closes → nd.interrupted = some (q, c) → exec (.waveClose n) s = .next (s.raise n q c {})) ∧
    (l.ok = true → ld.groupNext l.slot = some g → s.rowRuns l.nd.row = true → g.readyAt ≤ s.cyc l.nd.row.die →
      s.instrAt l = some i → room = true → Leads (.groupDelivery l) s fun u =>
        (u.node l.nd).outs = ld.outs.filter (fun h => h.slot ≠ l.slot) ∧ (u.node l.nd).prog l.slot = .idle ∧
        (i.ops.d0 = .queue kk qq last → i.ops.d1 = .none → kk.toNat ≠ l.nd.node →
          let x : NodeId := { l.nd with node := kk.toNat }
          qOf u x qq.toNat = qOf s x qq.toNat ++
            g.o0.map fun y => { tok := y, last := last, stage := ld.stage, at_ := s.cyc l.nd.row.die })) ∧
    (n.ok = true → s.rowRuns n.row = true → nd.deadMarks ≠ [] → exec (.markerForward n) s = .next (s.setNode n (nd.dropHeads nd.deadMarks))) ∧
    (forwards → s.arcTargets n ≠ [] → s.arcRoom (s.arcTargets n) = true → Leads (.markerForward n) s fun u => passed u ∧
      (s.arcTargets n = [⟨.queue nx q, false, stg⟩] → k ≠ n.node →
        qOf u nx q = qOf s nx q ++ [tok (.mark w f) false stg] ∧ ∀ j, j ∈ nd.popped → qOf u n j = dropFree (qOf s n j))) ∧
    (n.ok = true → nd.markHead = some (w, f) → s.canForward n = true → s.arcTargets n = [] → 1 ≤ s.destFree (.queue cellN 3) → Leads (.doneEvent n) s fun u => passed u ∧
      (∀ j, j ∈ nd.popped → n.node ≠ 36 ∨ j ≠ 3 → qOf u n j = dropFree (qOf s n j)) ∧
      ∃ v : Word, qOf u cellN 3 = (if n.node = 36 ∧ 3 ∈ nd.popped then dropFree (qOf s cellN 3) else qOf s cellN 3) ++
        [tok (wordTok v 0) false 0] ∧ v.setWidth 16 = w ∧ v.getLsbD 16 = f ∧ v.extractLsb' 17 15 = 0)

/-- INGRESS_FORWARD and KILL_ARRIVAL complete: a lane's token enters the queue that the map names, a kill purges a row (R165, R188, R189, R369). -/
def Obligations.IngressAndKills : Prop :=
  ∀ (s : State) (r : RowId) (lane kb k q : Nat) (b : Band) (x : QTok) (ts : List QTok) (l : Loc) (m : KillMsg) (kr : Nat) (rg : Region),
    let qOf := fun (u : State) (n : NodeId) (j : Nat) => ((u.node n).queue j).toks
    let ld := s.node l.nd
    let ks := keysOf (ld.prog l.slot)
    (r.ok = true → lane < 19 → s.bandOf r = some (kb, b) → ((s.row r).lane lane).toks = x :: ts → x.claim = 0 → x.at_ ≤ s.cyc r.die →
      b.imap x.stage lane = some (k, q) → s.rowRuns r = true → (s.row r).reel.mapLoaded x.stage = true →
      1 ≤ s.destFree (.queue ⟨r, k⟩ q) →
      ∃ v, exec (.ingressForward r lane) s = .next (match b.before r with | none => v | some p => v.rowSwitch p) ∧
        ((v.row r).lane lane).toks = ts ∧ qOf v ⟨r, k⟩ q = qOf s ⟨r, k⟩ q ++
          [{ tok := x.tok, last := x.last, stage := x.stage, at_ := s.cyc r.die }]) ∧
    (l.ok = true → tget (s.die l.nd.row.die).kills k = some m → m.dst.contains l = true → s.regionOf l.nd.row = some (kr, rg) →
      rg.st = .running → s.isKchk l = true →
      (ks.length < 8 → Leads (.killArrival l k) s fun u => keysOf ((u.node l.nd).prog l.slot) = ks ++ [(m.key, m.sh)] ∧
        ∀ n j, n.row = l.nd.row → qOf u n j = (qOf s n j).filter fun x => !(x.claim = 0 && killsTok m.key m.sh.toNat x.tok)) ∧
      (8 ≤ ks.length → Leads (.killArrival l k) s fun u => (u.node l.nd).prog l.slot = ld.prog l.slot ∧
        (∀ j, qOf u l.nd j = qOf s l.nd j) ∧ (s.region l.nd.row.die kr = rg → (u.region l.nd.row.die kr).frz.isSome = true)))

/-- TLB_LOOKUP, PAGE_WALK_COMPLETE and TRANSLATION_FREEZE complete: a slice answers, walks or parks; a walk fills an entry; a starved region freezes (R242, R298, R301, R303, R304). The model's own choices here: that a window's fill goes through the slice at the stream's page size and in one step (log entry 48). -/
def Obligations.Translations : Prop :=
  ∀ (s : State) (n : NodeId) (id : Nat) (f : Firing) (a : Access) (e : TlbEnt) (die sl k : Nat) (wk : Walk) (l l2 : Leaf)
    (lv en : Nat) (c : Cause) (x : XFault),
    let o := s.ownerOf n.row
    let nd := s.die n.row.die
    let d := s.die die
    let slice := sliceOf o a.addr a.psz
    let vpn := a.addr / 2 ^ a.psz
    let finds := n.ok = true ∧ id ≠ 0 ∧ (s.node n).firing id = some f ∧ f.acc.find? (fun y => y.phase = .translate) = some a
    let here := fun (e : TlbEnt) => e.is o a.psz vpn && (e.wr || !a.op.writes)
    let mine := fun (w : Walk) => w.owner = o ∧ w.psz = a.psz ∧ w.va / 2 ^ w.psz = vpn
    let phase := fun (u : State) (i : Nat) (p : AccPhase) =>
      ∃ f1 y, (u.node n).firing id = some f1 ∧ y ∈ f1.acc ∧ y.id = i ∧ y.phase = p
    let walks := die < 4 ∧ sl < 48 ∧ (d.walksOf sl)[k]? = some wk
    (∀ pa, finds → s.looked n a = some pa → Leads (.tlbLookup n id) s fun u => phase u a.id (.home (.hbm pa)) ∧ u.die n.row.die = nd) ∧
    (finds → s.looked n a = none → (nd.slice slice).find? here = some e → Leads (.tlbLookup n id) s fun u =>
      phase u a.id (.home (.hbm (e.pa + a.addr % 2 ^ a.psz))) ∧ ((u.die n.row.die).slice slice).getLast? = some e) ∧
    (finds → s.looked n a = none → (nd.slice slice).find? here = none →
      ((∃ w, w ∈ nd.walksOf slice ∧ mine w) → Leads (.tlbLookup n id) s fun u => phase u a.id .walking ∧
        (u.die n.row.die).walksOf slice = nd.walksOf slice) ∧
      ((∀ w, w ∈ nd.walksOf slice → ¬mine w) → (nd.walksOf slice).length < 8 → Leads (.tlbLookup n id) s fun u =>
        phase u a.id .walking ∧ (u.die n.row.die).walksOf slice = nd.walksOf slice ++ [⟨o, a.addr, a.psz, a.op.writes⟩]) ∧
      ((∀ w, w ∈ nd.walksOf slice → ¬mine w) → 8 ≤ (nd.walksOf slice).length → exec (.tlbLookup n id) s = .next s)) ∧
    (walks → s.walk wk.owner wk.va wk.psz false = .ok l → Leads (.pageWalkComplete die sl k) s fun u =>
      (u.die die).walksOf sl = (d.walksOf sl).eraseIdx k ∧
      ((u.die die).slice sl).getLast? = some ⟨wk.owner, l.log, wk.va / 2 ^ l.log, l.pa, l.wr⟩ ∧
      ((d.slice sl).length ≤ 256 → ((u.die die).slice sl).length ≤ 256) ∧
      (s.ecc = [] → s.joined die wk = [(n, id, a.id)] → (s.node n).firing id = some f → f.acc.find? (fun y => y.id = a.id) = some a →
        s.walk wk.owner a.addr a.psz a.op.writes = .ok l2 → phase u a.id (.home (.hbm (l2.pa + a.addr % 2 ^ a.psz))))) ∧
    (walks → s.walk wk.owner wk.va wk.psz false = .error x → x.waits = false → Leads (.pageWalkComplete die sl k) s fun u =>
      (u.die die).walksOf sl = (d.walksOf sl).eraseIdx k ∧ (u.die die).slice sl = d.slice sl) ∧
    (∀ va psz : Nat, ∀ wr : Bool, va < 2 ^ 55 → psz ≠ 0 →
      let sl := sliceOf o va psz
      let page := fun (e : TlbEnt) => e.is o psz (va / 2 ^ psz) && (e.wr || !wr)
      ((nd.slice sl).find? page = some e → ∃ u, s.lookNow n.row va psz wr = .ok (u, e.pa + va % 2 ^ psz, e.wr) ∧
        ((u.die n.row.die).slice sl).getLast? = some e) ∧
      ((nd.slice sl).find? page = none → (∀ w, w ∈ nd.walksOf sl → ¬(w.owner = o ∧ w.psz = psz ∧ w.va / 2 ^ psz = va / 2 ^ psz)) →
        (nd.walksOf sl).length < 8 → s.walk o va psz wr = .ok l → ∃ u, s.lookNow n.row va psz wr = .ok (u, l.pa + va % 2 ^ l.log, l.wr) ∧
          ((u.die n.row.die).slice sl).getLast? = some ⟨o, l.log, va / 2 ^ l.log, l.pa, l.wr⟩)) ∧
    (die < 4 → k < 336 → s.starved die k = true → s.faultedAccess die (s.region die k) = some (n, f, a, c, lv, en) →
      exec (.translationFreeze die k) s = .next (s.raise n f.slot c
        { f.accInfo a.op (BitVec.ofNat 32 lv) with addr1 := a.addr, addr2 := en }))

/-- WINDOW_FILL, BMODE_SWITCH, ENGINE_REQUEST_ACCEPT and ENGINE_RESPONSE complete where the bank is ready (R206, R208, R226, R249, R251, R252, R255, R334). The model's own choices here: what an entry of a QUEUE bank holds besides its meaning (log entry 91); that what needs a block still to be rebuilt waits (62); that window fills use the slice (48). -/
def Obligations.WindowsAndEngines : Prop :=
  ∀ (s s1 : State) (n : NodeId) (f : Firing) (a : Access) (die k : Nat) (psz : Nat) (wr : Bool)
    (cl b q : Nat) (x : Win) (m : ModeReq) (g z : Seg) (j : EngineJob) (js : List EngineJob) (pa pb : Nat),
    let kb := s.bankOf die cl b
    let jobs := fun (u : State) => tgetD (u.cluster die cl).jobs (16 * b + q) []
    let seg := fun (u : State) (i : Nat) => ((u.bankOf die cl b).segs[i]?).map fun y => y.jobs
    let bankEv := die < 4 ∧ cl < 12 ∧ b < 24 ∧ q < 16
    let fills := fun (p : Nat) => bankEv ∧ q < 4 ∧ s.memOk ∧ kb.mode = .window ∧ kb.wins[q]? = some x ∧ x.h < x.t + 256 * kb.lines ∧
      x.h % 256 = 0 ∧ s.rowRuns n.row = true ∧ s.lookNow n.row x.h p false = .ok (s1, pa, wr) ∧ s1.copyErr (.hbm pa) = none
    let filled := fun (u : State) => (u.bankOf die cl b).wins[q]? = some { x with h := x.h + 256 } ∧ u.hbm = s.hbm ∧
      ∀ i, i < 256 → u.readHome (winHome die cl b q kb.lines (x.h + i)) 1 = s.readHome (.hbm (pa + i)) 1
    let empty := (∀ i, i < 16 → tgetD (s.cluster die cl).jobs (16 * b + i) [] = []) ∧ ∀ y, y ∈ kb.segs → y.jobs = []
    let takes := bankEv ∧ kb.mode = .queue ∧ kb.segs[q]? = some g ∧ g.esz = 64 ∧ g.jobs = j :: js ∧ s.askerStops j = false ∧ s.hub.parity = [] ∧
      s.homeErr (s.headEntry die cl b q g) 64 = none
    (fills a.psz → s.demand die cl b q x.h = some (.access n f a) → Leads (.windowFill die cl b q) s filled) ∧
    (fills psz → s.demand die cl b q x.h = some (.pref n f psz) → (s.node n).firing f.id = some f →
      Leads (.windowFill die cl b q) s fun u => filled u ∧ ∃ f1, (u.node n).firing f.id = some f1 ∧ f1.step = f.step + 1) ∧
    (bankEv → kb.pend = some m → (s.node m.n).firing m.fid = some f → f.xstopped = false → s.bankBusy die cl b f.start = false →
      (kb.mode = .queue → empty) →
      (s.flushBank die cl b).writeBackAll m.n.row b kb kb.dirtyLines = .ok s1 →
      Leads (.bmodeSwitch die cl b) s fun u => u.bankOf die cl b = Bank.switched m ∧
        ((s1.node m.n).firing m.fid = some f → (u.node m.n).firing m.fid = some { f with await := u.ackAwait m.n m.fid })) ∧
    (takes → Leads (.engineRequestAccept die cl b q) s fun u => seg u q = some js ∧
      ∃ j2, jobs u = jobs s ++ [j2] ∧ j2.n = j.n ∧ j2.gen = j.gen ∧ j2.owner = j.owner ∧
        (j.gath = true → j.sbank = false → s.xlate j.owner j.src false = .ok pa → s.homeErr (.hbm pa) j.len = none →
          j2.err = j.err ∧ j2.out = Memory.readN s.hbm pa j.len ++ List.replicate (128 - j.len) 0) ∧
        (s.memOk → j.gath = false → j.op = .cpy → j.len = 64 → j.sbank = false → j.dbank = false → j.src % 64 = 0 →
          j.dst % 64 = 0 → s.xlate j.owner j.src false = .ok pa → s.xlate j.owner j.dst true = .ok pb →
          s.homeErr (.hbm pa) 64 = none → j2.err = none ∧ Memory.readN u.hbm pb 64 = Memory.readN s.hbm pa 64 ∧
          ∀ y, y < pb ∨ pb + 64 ≤ y → Memory.read u.hbm y = Memory.read s.hbm y)) ∧
    (bankEv → jobs s = j :: js → s.askerStops j = false → j.again = false → j.waits = false → s.owes j.n j.fid = false → s.genOf j.n.row = j.gen → kb.segs[q + 1]? = some z →
      z.jobs.length < min 4096 z.depth → Leads (.engineResponse die cl b q) s fun u => jobs u = js ∧ seg u (q + 1) = some (z.jobs ++ [j])) ∧
    (∀ rg, bankEv → jobs s = j :: js → s.genOf j.n.row ≠ j.gen → s.regionOf j.n.row = some (k, rg) → j.n.row.die = die →
      (tgetD rg.gw 2 {}).drops < 0xFFFF → Leads (.engineResponse die cl b q) s fun u => jobs u = js ∧
        (tgetD (u.region die k).gw 2 {}).drops = (tgetD rg.gw 2 {}).drops + 1 ∧ seg u (q + 1) = seg s (q + 1)) ∧
    (bankEv → jobs s = j :: js → s.askerStops j = true → exec (.engineResponse die cl b q) s = .next s)

/-- RANDT_TICKET, RING_REFILL, PERMIT_WINDOW and TREE_GRANT complete: tickets, keystream rings, permits and trees (R190, R191, R279, R360). The model's own choices here: the order of requests of one cycle by place (log entry 23); that a request and a grant of a tree are no release (108). -/
def Obligations.GrantsAndRings : Prop :=
  ∀ (s s1 s2 : State) (slot die : Nat) (x : SeqSlot) (t : Ticket) (ts : List Ticket) (f : Firing) (q1 q2 : PermReq)
    (n : NodeId) (sm : Nat) (r : Rec),
    let d := s.die die
    let k := t.cnt - t.pins.length
    let free := fun (q : PermReq) (less : Nat) => min q.cnt (min (64 - tgetD d.held q.slot 0) (d.grant - d.heldsum - less))
    let g1 := free q1 0
    let g2 := free q2 g1
    let tc := f.ctx n.row sm
    let w5 := r.word 5
    let others := (s.descHome (s.ownerOf n.row) n.row (s.row n.row) f).elim [] fun h => (s.mutationsAt h).erase f.at_
    let grants := fun (w : Nat) => s1.rmw tc true f.a.toNat 5 [w] = .ok s2 →
      exec (.treeGrant n) s = .next (s2.setFiring n { f with await := .steps, held := true })
    let end_ := x.n + x.ring.length
    (slot < 4096 → tget s.hub.slots slot = some x → x.tickets = t :: ts → (s.node t.n).firing t.fid = some f →
      k ≤ x.ring.length → s.mayComplete t.n f = true → ∃ u0 out u, exec (.randtTicket slot) s = .next u ∧
        u = State.complete u0 t.n { f with o0 := [out], o1 := [out] } ∧ (u.node t.n).firing t.fid = none ∧
        (t.cnt = 1 → out = wordTok ((t.pins ++ x.ring).headD 0) f.tag) ∧
        (t.cnt ≠ 1 → out = beatTok (packBeat 32 ((t.pins ++ x.ring.take k).map BitVec.toNat))) ∧
        tget u.hub.slots slot = some { x with ring := x.ring.drop k, n := x.n + k, tickets := ts }) ∧
    (slot < 4096 → tget s.hub.slots slot = some x → x.bound = true → Leads (.ringRefill slot) s fun u => tget u.hub.slots slot =
      some { x with ring := x.ring ++ keyWords x.seed slot end_ (min (64 - x.ring.length) (2 ^ 36 - end_)) }) ∧
    (die < 4 → d.preqs = [q2, q1] → q1.at_ / 16 = q2.at_ / 16 → q1.at_ / 16 < s.cyc die / 16 → s.slack q1.slot < s.slack q2.slot →
      Leads (.permitWindow die) s fun u => (u.die die).preqs = [] ∧ tgetD (u.die die).held q1.slot 0 = tgetD d.held q1.slot 0 + g1 ∧
        tgetD (u.die die).held q2.slot 0 = tgetD d.held q2.slot 0 + g2 ∧ (u.die die).heldsum = d.heldsum + g1 + g2 ∧
        (q1.n.ok = true → q2.n.ok = true → q1.n ≠ q2.n → (s.node q1.n).firing q1.fid = some f → (u.node q1.n).firing q1.fid =
          some { f with await := .nothing, o0 := [wordTok (BitVec.ofNat 32 g1) f.tag], o1 := [wordTok (BitVec.ofNat 32 g1) f.tag],
                        doneAt := (q1.at_ / 16 + 1) * 16 + 4 })) ∧
    (n.ok = true → (s.node n).fly.find? (fun z => z.await = .tree && !z.xstopped) = some f → s.rowRuns n.row = true →
      s.rawRec tc f.a.toNat = .ok (s1, r) → r.kind = kDesc →
      (Instr.takesTree f.ins = some (sm, false) → heldOf w5 = false → waitOf w5 = false → grants (word5 false false (readersOf w5 + 1))) ∧
      (Instr.takesTree f.ins = some (sm, false) → (heldOf w5 = true ∨ waitOf w5 = true) → exec (.treeGrant n) s = .next s) ∧
      (Instr.takesTree f.ins = some (sm, true) → heldOf w5 = false → readersOf w5 = 0 → (∀ k, k ∈ others → f.at_ ≤ k) →
        grants (word5 true (!others.isEmpty) 0)) ∧
      (Instr.takesTree f.ins = some (sm, true) → (heldOf w5 = true ∨ readersOf w5 ≠ 0 ∨ ∃ k, k ∈ others ∧ k < f.at_) →
        exec (.treeGrant n) s = .next s))

/-- CONTROLLER_DECISION, ENABLE_ARRIVAL, DONE_ARRIVAL and FINAL_WORD complete: what a controller sends and counts (R348, R349, R350, R351). -/
def Obligations.ControllerEvents : Prop :=
  ∀ (s : State) (die cl c k i it pos : Nat) (y ch : Ctl) (at_ : Nat) (fl resv : Bool) (tgt : Target) (tag : RTag) (tn : NodeId) (qq : Nat),
    let cs := fun (u : State) => u.ctlAt die cl c
    let tr := fun (u : State) => (u.cluster die cl).transit
    let arr := fun (w : Transit) => (tr s)[k]? = some w ∧ at_ ≤ s.cyc die ∧ die < 4 ∧ cl < 12
    let j := nth y.d pos
    let y1 := { y with d := lset y.d pos (j + 1) }
    let exits := y.isOpen = true ∧ pos + 1 = y.nch ∧ ∀ t, y.stop = some t → j ≤ t
    let t := s.cyc die + 4
    (die < 4 → cl < 12 → c < 64 → cs s = some y → y.run = true → s.decides die cl c = true → s.unheard die cl c = false →
      (y.allowed ≠ [] → Leads (.controllerDecision die cl c) s fun u =>
        tr u = tr s ++ y.allowed.map (fun i => .enable c i (nth y.e i) t) ∧
        ∀ i, i < y.e.length → (cs u).map (fun z => nth z.e i) = some (nth y.e i + if i ∈ y.allowed then 1 else 0)) ∧
      (∀ i, i ∈ y.allowed ↔ i < y.nch ∧
        let e := nth y.e i
        nth y.d i = e ∧ (∀ t, y.stop = some t → e ≤ t) ∧ (y.mode ≠ .openPipe → e < y.n) ∧
        (y.mode = .seq → if i = 0 then nth y.d (y.nch - 1) = e else nth y.d (i - 1) = e + 1) ∧
        (y.mode = .pipe ∨ y.mode = .openPipe → (i ≠ 0 → e + 1 ≤ nth y.d (i - 1)) ∧ (i + 1 < y.nch → e ≤ nth y.d (i + 1) + nth y.w i)) ∧
        (y.mode = .openPipe → i = 0 → e ≤ y.x + y.k)) ∧
      (y.allowed = [] → y.ended = true → Leads (.controllerDecision die cl c) s fun u =>
        cs u = some { y with run := false } ∧ tr u = tr s ++
          [if y.parent = 63 then .final c y.dst y.tag (decide (s.destFree y.dst.dst ≠ 0)) t else .done y.parent y.pos false t]) ∧
      (y.allowed = [] → y.ended = false → exec (.controllerDecision die cl c) s = .next s)) ∧
    (arr (.enable c pos it at_) → childOf (s.cluster die cl).ctls c pos = none → cs s = some y →
      Leads (.enableArrival die cl k) s fun u => tr u = (tr s).eraseIdx k ∧ cs u = some { y with latch := tset y.latch pos it }) ∧
    (arr (.enable c pos it at_) → childOf (s.cluster die cl).ctls c pos = some i → s.ctlAt die cl i = some ch →
      Leads (.enableArrival die cl k) s fun u => tr u = (tr s).eraseIdx k ∧ u.ctlAt die cl i = some ch.start) ∧
    (arr (.done c pos fl at_) → cs s = some y → ¬exits → Leads (.doneArrival die cl k) s fun u =>
      tr u = (tr s).eraseIdx k ∧ cs u = some y1) ∧
    (arr (.done c pos false at_) → cs s = some y → exits → Leads (.doneArrival die cl k) s fun u =>
      tr u = (tr s).eraseIdx k ∧ cs u = some { y1 with x := y.x + 1 }) ∧
    (arr (.done c pos true at_) → cs s = some y → exits → Leads (.doneArrival die cl k) s fun u => ∃ z, cs u = some z ∧
      z.stop = some j ∧ z.d = y1.d ∧ ∀ e, e ∈ z.latch → e.2 ≤ j) ∧
    (arr (.final c tgt tag resv at_) → s.decides die cl c = true → (resv = true ∨ s.destFree tgt.dst ≠ 0) →
      Leads (.finalWord die cl k) s fun u => tr u = (tr s).eraseIdx k ∧
        (tgt.dst = .queue tn qq → ((u.node tn).queue qq).toks = ((s.node tn).queue qq).toks ++
          [{ tok := wordTok 1 tag, last := tgt.last, stage := tgt.stage, at_ := s.cyc tn.row.die }]))

/-- The five retirement events complete: banks retire through a spare or shrink the capacity, and no value changes (R308, R309, R311, R312, R314). The model's own choices here: absence of the highest unused bank at once, and the ties (log entry 57). -/
def Obligations.Retirement : Prop :=
  ∀ (s : State) (b : BankId) (q0 q : RetReq) (ts : List RetReq) (l i k off rr t j : Nat) (n : NodeId) (id : Nat) (f : Firing) (bl : Block) (h : Nat),
    let p := b.place
    let c := s.cluster p.die p.cl
    let cl := fun (u : State) => u.cluster p.die p.cl
    let row : RowId := ⟨p.die, p.cl, rr⟩
    let ask : RetReq := { bank := b, src := .device }
    let errs := match p.row with
      | none => (tgetD c.errs b.phys (0, 0)).1
      | some r => (tgetD c.rerrs (16 * r + b.phys) (0, 0)).1
    let first := b.ok = true ∧ c.waitq = q0 :: ts ∧ s.bankNow q0 = q ∧ q.bank = b
    let retires := b.ok = true ∧ s.evacIn p = false ∧ c.fifo.find? (fun y => y.bank.place = p) = some q
    let serves := retires ∧ p.row = none ∧ (upFrom 0 2).find? (fun j => c.spare j = (true, q.bank.phys)) = none ∧
      s.logicalOf ⟨p, q.bank.phys⟩ = some l
    let spare := (upFrom 0 2).find? fun j => (c.spare j).1
    let gone : BankStatus := if q.dark then .dark else .retired
    let regs := retires ∧ p.row = some rr ∧ s.logicalOf ⟨p, q.bank.phys⟩ = some l
    let ent := s.entOf p l
    let reads := fun (u : State) => u.readHome (.sram p.die p.cl l off) 1
    (b.ok = true → s.hub.thresh ≤ errs → s.retiring b = false → c.waitq.any (fun y => y.bank = b) = false →
      Leads (.retirementThreshold b) s fun u => (cl u).waitq = c.waitq ++ [ask]) ∧
    (b.ok = true → errs < s.hub.thresh → exec (.retirementThreshold b) s = .next s) ∧
    (first → s.waitsTurn q = false →
      (s.retiring b = false → c.fifo.length < 32 → Leads (.retirementRequest b) s fun u => (cl u).waitq = ts ∧ (cl u).fifo = c.fifo ++ [q] ∧
        (q.src = .firing n id → (s.node n).firing id = some f → (u.node n).firing id =
          some { f with await := .nothing, o0 := [wordTok 1 f.tag], o1 := [wordTok 1 f.tag] })) ∧
      (s.retiring b = false → 32 ≤ c.fifo.length → exec (.retirementRequest b) s = .next s) ∧
      (s.retiring b = true → Leads (.retirementRequest b) s fun u => (cl u).waitq = ts ∧ (cl u).fifo = c.fifo ∧
        (q.src = .firing n id → (s.node n).firing id = some f → (u.node n).firing id =
          some { f with await := .nothing, o0 := [wordTok 0 f.tag], o1 := [wordTok 0 f.tag] }))) ∧
    (serves → spare = some i → q.off = none → Leads (.retirement p) s fun u =>
      (cl u).fifo = c.fifo.erase q ∧ (cl u).ent l = { c.ent l with evac := true, wmark := 0, tgt := (c.spare i).2, dark := q.dark } ∧
      (cl u).spare i = (false, (c.spare i).2) ∧ (cl u).stat (c.spare i).2 = .service) ∧
    (serves → (spare = none ∨ q.off.isSome = true) → s.grantee p.die p.cl l = none → Leads (.retirement p) s fun u =>
      (cl u).ent l = { pres := false, phys := q.bank.phys } ∧ (cl u).stat q.bank.phys = gone) ∧
    (serves → (spare = none ∨ q.off.isSome = true) → s.grantee p.die p.cl l = some k → (s.region p.die k).st ≠ .frozen →
      Leads (.retirement p) s fun u => (cl u).ent l = { c.ent l with pend := true, dark := q.dark } ∧ (u.region p.die k).ovc = true) ∧
    (regs → (s.idleAt row = true ∨ (s.row row).reel.block = none ∨ ∃ bl, (s.row row).reel.block = some bl ∧ (s.row row).unused bl.hdr = some l) → Leads (.retirement p) s fun u =>
      u.entOf p l = { pres := false, phys := q.bank.phys } ∧ u.statusOf ⟨p, q.bank.phys⟩ = .retired) ∧
    (regs → s.idleAt row = false → (s.row row).reel.block = some bl → (s.row row).unused bl.hdr = some h → h ≠ l →
      Leads (.retirement p) s fun u => u.entOf p l = { ent with evac := true, wmark := 0, tgt := (s.entOf p h).phys } ∧
        u.entOf p h = { pres := false, phys := (s.entOf p h).phys }) ∧
    (regs → s.idleAt row = false → (s.row row).reel.block = some bl → (s.row row).unused bl.hdr = none →
      (∀ k g, s.regionOf row = some (k, g) → (s.region p.die k).st ≠ .frozen) → Leads (.retirement p) s fun u =>
        u.entOf p l = { ent with pend := true } ∧ ∀ k g, s.regionOf row = some (k, g) → (u.region p.die k).ovc = true) ∧
    (b.ok = true → s.memOk → s.evacuated p = some l → ent.wmark < bankLines p → Leads (.gavotteLineCopy p) s fun u =>
      u.entOf p l = { ent with wmark := ent.wmark + 1 } ∧ (p.row = none → off < 2 ^ 20 → reads u = reads s) ∧
      (p.row = some rr → t / 4 = l → j < 64 → u.readTile row t j = s.readTile row t j)) ∧
    (b.ok = true → s.evacuated p = some l → bankLines p ≤ ent.wmark → Leads (.evacuationComplete p) s fun u =>
      u.entOf p l = { pres := true, phys := ent.tgt } ∧
      u.statusOf ⟨p, ent.phys⟩ = (if ent.dark then .dark else .retired) ∧ (p.row = none → off < 2 ^ 20 → reads u = reads s) ∧
      (p.row = some rr → t / 4 = l → j < 64 → u.readTile row t j = s.readTile row t j))

/-- MODE_CHANGE_START, PERMIT_WITHDRAWAL_END and POWER_WINDOW complete: the power controller changes modes in order and sheds by steps (R21, R22, R23, R24, R361). The model's own choices here: the power of a window, a free value, and the order of the steps of a mode change (log entry 8). -/
def Obligations.PowerEvents : Prop :=
  ∀ (s : State) (m : PMode) (nd : BitVec 16) (tg : BitVec 32) (rest : List (PMode × BitVec 16 × BitVec 32)),
    let pw := s.hub.pwr
    let grants := fun (u : State) (g : Nat) => ∀ d, d < 4 → (u.die d).grant = g
    let win := pw.wnd + 3000000 ≤ s.cyc 0 ∧ pw.chg = none
    let watts := Config.power s.tick
    let limit := pw.mode.limit
    (pw.chg = none → pw.want = (m, nd, tg) :: rest →
      (pw.mode.rank < m.rank → Leads .modeChangeStart s fun u => grants u m.grant ∧ u.hub.pwr.chg = some m ∧ u.hub.pwr.mode = pw.mode ∧
        u.hub.pwr.clk = pw.clk ∧ u.hub.pwr.want = rest) ∧
      (m.rank < pw.mode.rank → Leads .modeChangeStart s fun u => grants u m.grant ∧ u.hub.pwr.chg = none ∧ u.hub.pwr.mode = m ∧
        u.hub.pwr.clk = m.clk ∧ u.hub.pwr.apclk = m.apclk ∧ u.hub.pwr.want = rest) ∧
      (m = pw.mode → Leads .modeChangeStart s fun u => u.hub.pwr.mode = m ∧ u.hub.pwr.chg = none ∧ u.hub.pwr.want = rest)) ∧
    (pw.chg = some m → exec .modeChangeStart s = .next s) ∧
    (pw.chg = some m → pw.step = 1 → s.withdrawn = true → Leads .permitWithdrawalEnd s fun u =>
      u.hub.pwr.clk = m.clk ∧ u.hub.pwr.apclk = m.apclk ∧
      (m ≠ .economy → s.darkening = false → u.hub.pwr.mode = m ∧ u.hub.pwr.chg = none)) ∧
    (pw.chg = some m → s.withdrawn = false → exec .permitWithdrawalEnd s = .next s) ∧
    (s.cyc 0 < pw.wnd + 3000000 → exec .powerWindow s = .next s) ∧
    (win → limit < watts → pw.shed = 0 → Leads .powerWindow s fun u => grants u 0 ∧ u.hub.pwr.clk = pw.clk ∧ u.hub.pwr.mode = pw.mode ∧
      u.hub.pwr.shed = 1) ∧
    (win → limit < watts → pw.shed ≠ 0 → Leads .powerWindow s fun u =>
      u.hub.pwr.clk = (if s.withdrawn = true ∧ pw.mode.floor < pw.clk then pw.clk - 1 else pw.clk) ∧ u.hub.pwr.mode = pw.mode) ∧
    (win → 100 * watts ≤ 95 * limit → 1 < pw.shed → Leads .powerWindow s fun u => u.hub.pwr.clk = pw.clk + 1 ∧ u.hub.pwr.mode = pw.mode) ∧
    (win → 100 * watts ≤ 95 * limit → pw.shed = 1 → Leads .powerWindow s fun u => grants u pw.mode.grant ∧ u.hub.pwr.shed = 0) ∧
    (win → watts ≤ limit → (95 * limit < 100 * watts ∨ pw.shed = 0) → Leads .powerWindow s fun u => u.hub.pwr = { pw with wnd := s.cyc 0 })

/-- The freeze events complete: a freeze ends with the image and its record, records reach their owner's queue, and moments begin a freeze (R318, R334, R336, R338, R340, R341, R364). The model's own choices here: that all cycles of a step count as one stretch for WDOG (log entry 66); the free bytes of some chunk bodies (10). -/
def Obligations.FreezesAndRecords : Prop :=
  ∀ (s : State) (die k : Nat) (f : Frz) (fr : FaultRec) (ow : BitVec 12) (ts : List FaultRec),
    let g := s.region die k
    let rows := g.rowIds die
    let q := fun (u : State) (o : BitVec 12) => tgetD u.hub.faults o.toNat {}
    let o := s.owner ow
    let at_ := o.fqbase + 64 * ((q s ow).seq.toNat % o.fqSize)
    let reg := fun (u : State) => u.region die k
    let here := die < 4 ∧ k < 336
    let begins := fun (i : Instr) (r : Option FaultRec) (why : FrzWhy) => exec i s = .next (s.setRegion die k
      { g with frz := some { t0 := s.cyc die, row := g.first, fr := r, why := why } })
    (here → s.memOk → g.frz = some f → f.fr = some fr → f.why = .record → g.ovc = false → g.st = .running →
      rows.all (fun r => f.reached r.row (s.cyc die)) = true → rows.any s.rowBusy = false → s.sending die g = false → s.copying die g = false → s.freezeWaits die k f.why = false →
      g.nrows < 32 → fr.cause = 0x148 ∨ fr.cause = 0x150 →
      Leads (.freezeComplete die k) s fun u => (reg u).st = .frozen ∧ (reg u).frz = none ∧
        (q u fr.owner).pend = (q s fr.owner).pend ++ [fr] ∧
        ∃ w : DWord, bytesBits 64 (Memory.readN u.hbm g.imgptr 8) = w ∧ w.extractLsb' 48 16 = 0x465A ∧ w.extractLsb' 40 8 = 1 ∧
          (w.extractLsb' 35 5).toNat = g.nrows) ∧
    (here → g.frz = some f → (rows.all (fun r => f.reached r.row (s.cyc die)) = false ∨ rows.any s.rowBusy = true ∨ s.sending die g = true ∨ s.copying die g = true) →
      exec (.freezeComplete die k) s = .next s) ∧
    ((q s ow).pend = fr :: ts → o.valid = true → (q s ow).outs.length < o.fqSize → s.memOk → s.hub.parity = [] →
      Leads (.faultRecordDelivery ow) s fun u => Memory.readN u.hbm at_ 64 = wordsBytes (fr.words (q s ow).seq) ∧
        (∀ a, a < at_ ∨ at_ + 64 ≤ a → Memory.read u.hbm a = Memory.read s.hbm a) ∧ (q u ow).pend = ts ∧
        (q u ow).outs = (if fr.acked then (q s ow).outs else (q s ow).outs ++ [((q s ow).seq, fr)]) ∧ (q u ow).seq = (q s ow).seq + 1 ∧
        u.hub.outbox = s.hub.outbox ++ o.signals ow) ∧
    ((q s ow).pend = fr :: ts → o.fqSize ≤ (q s ow).outs.length → exec (.faultRecordDelivery ow) s = .next s) ∧
    (∀ n, n ≠ 0 → g.st = .running → g.fired = false → g.wdog.toNat < g.wdlim.toNat → (g.tick true n).wdog.toNat = min (g.wdog.toNat + n) g.wdlim.toNat ∧
      ((g.tick true n).wdue = true ↔ g.wdue = true ∨ g.wdlim.toNat ≤ g.wdog.toNat + n)) ∧
    (here → g.valid = true → g.wdue = true → Leads (.watchdogExpiry die k) s fun u =>
      (reg u).st = g.st ∧ (reg u).frz = g.frz ∧ (reg u).wdue = false ∧ ∃ x, (q u g.owner).pend = (q s g.owner).pend ++ [x] ∧
        x.cause = 0x125 ∧ x.region = k ∧ x.img = false) ∧
    (here → g.wdue = false → exec (.watchdogExpiry die k) s = .next s) ∧
    (here → g.yld = true → g.ovc = false → s.atPoint die k = true → begins (.yieldPoint die k) none .yield) ∧
    (here → g.yld = true → g.ovc = true → s.atPoint die k = true → begins (.yieldPoint die k) none .overCap) ∧
    (here → g.ovc = true → s.atPoint die k = true → begins (.overCapacityPoint die k) none .overCap) ∧
    (here → s.atPoint die k = false → exec (.yieldPoint die k) s = .next s ∧ exec (.overCapacityPoint die k) s = .next s) ∧
    (here → g.st = .running → g.frz = none → ∃ x, begins (.firmwareFreeze die k) (some x) .record ∧ x.cause = 0x148 ∧ x.owner = g.owner ∧
      x.region = k ∧ x.gen = g.gen) ∧
    (here → g.st ≠ .running → g.frz = none → exec (.firmwareFreeze die k) s = .next s)

/-- Nodes and rows switch, waves start, tokens wrap and return, a band re-forms, a freed row chooses a stage, and a launch ends (R47, R370, R371, R372, R374, R376, R380, R381, R382, R400). The model's own choices here: the marks on WMAX and SMAX and how long a band entry stays (log entry 101); what an ended launch leaves (67); several launches in a region (69); the rows of slots D and above (71). -/
def Obligations.ReelMoves : Prop :=
  ∀ (s s1 : State) (n : NodeId) (r : RowId) (die k kr l st i rg ch q : Nat) (b : Band) (g : Region) (blk : Block) (e : WrapEnt) (ws : List WrapEnt)
    (t : QTok) (ts : List QTok) (se : StageEnt) (blks : List Block),
    let nd := s.node n
    let x := (s.row n.row).reel
    let y := (s.row r).reel
    let bd := fun (u : State) => tget (u.die die).bands k
    let bg := s.region die b.region
    let lane := fun (u : State) (j : Nat) => ((u.row r).lane j).toks
    let qOf := fun (u : State) (m : NodeId) (j : Nat) => ((u.node m).queue j).toks
    let new := fun (v : Tok) (la : Bool) (stg : Nat) => ({ tok := v, last := la, stage := stg, at_ := s.cyc die } : QTok)
    let isBand := die < 4 ∧ k < 168 ∧ bd s = some b
    let row := fun (j : Nat) => (⟨die, bg.cl, b.base + j⟩ : RowId)
    let stay := (s.ownRows die b).filter fun j => !(s.row (row j)).reel.leaving
    let b1 := { b with be := stay.length, live := stay }
    let rowOf := fun (z : Nat) => b.base + (stay[z % max 1 stay.length]?).getD 0
    let reforms := isBand ∧ bg.st = .running ∧ bg.frz = none ∧ bg.ovc = false ∧ s.anyLeaving die b = true ∧ b.ended = b.wave
    let age := fun (z : Nat) => ageOf (s.cyc r.die) (tgetD b.stageq z [])
    let switches := n.ok = true ∧ s.regionOf n.row = some (kr, g) ∧ x.block = some blk ∧ s.rowRuns n.row = true ∧ s.scrolls n.row = true ∧
      x.sh = .ready
    let w5 := b.launch.getD 5 0
    let nn := (w5.extractLsb' 0 12).toNat
    (switches → s.maySwitch n = true → s.switchFits n.row = true → Leads (.nodeSwitch n) s fun u => (u.node n).store = nd.shadow ∧
      (u.node n).xs = nd.sxs ∧ (u.node n).stage = x.nxt ∧ ∀ j, qOf u n j = ((nd.dropHeads nd.deadMarks).queue j).toks) ∧
    (switches → s.maySwitch n = true → s.switchFits n.row = false → Leads (.nodeSwitch n) s fun u => (u.region n.row.die kr).ovc = true) ∧
    (switches → s.maySwitch n = false → s.bandOf n.row = some (k, b) → s.rowSwitched n.row b = true → Leads (.nodeSwitch n) s fun u =>
      (u.row n.row).reel.hosted = x.nxt ∧ (u.row n.row).reel.block = x.shadow ∧
      (u.row n.row).reel.nxt = nextStage x.nxt b.be b.desc.d) ∧
    (isBand → bg.st = .running → bg.frz = none → bg.yld = false → bg.ovc = false →
      s.anyLeaving die b = false → b.waves ≠ 0 →
      s.triggerAt die k b bg.cl = some ⟨.lane r 0 1, false, 0⟩ → r.die = die → 2 ≤ s.destFree (.lane r 0 1) → Leads (.triggerInject die k) s fun u =>
        lane u 0 = lane s 0 ++ [new (wordTok (BitVec.ofNat 32 b.wave) 0) false 0, new (.mark (BitVec.ofNat 16 b.wave) (b.waves = 1)) false 0] ∧
        bd u = some { b with waves := b.waves - 1, wave := b.wave + 1 }) ∧
    (isBand → bg.st = .running → bg.frz = none → bg.yld = false → bg.ovc = false → s.anyLeaving die b = false → b.waves ≠ 0 →
      s.triggerAt die k b bg.cl = some ⟨.stageQ die k 0 0, false, b.desc.d⟩ → 2 ≤ s.destFree (.stageQ die k 0 0) → Leads (.triggerInject die k) s fun u =>
        bd u = some { b with waves := b.waves - 1, wave := b.wave + 1, stageq := tset b.stageq 0 (tgetD b.stageq 0 [] ++
          [{ l := 0, tok := new (wordTok (BitVec.ofNat 32 b.wave) 0) false b.desc.d },
           { l := 0, tok := new (.mark (BitVec.ofNat 16 b.wave) (b.waves = 1)) false b.desc.d }]) }) ∧
    (isBand → (bg.yld = true ∨ bg.ovc = true ∨ b.waves = 0) → exec (.triggerInject die k) s = .next s) ∧
    (isBand → l < 19 → b.live[0]? = some i → wrapHead l b.wrap = some (e, ws) → r = row i → s.rowRuns r = true → y.hosts = true →
      y.hosted = e.tok.stage → 1 ≤ s.destFree (.lane r l 1) → Leads (.wrapDeparture die k l) s fun u =>
        lane u l = lane s l ++ [{ new e.tok.tok e.tok.last e.tok.stage with at_ := s.cyc die + 4 }] ∧ (bd u).map (fun z => z.wrap) = some ws) ∧
    (isBand → l < 19 → b.live[0]? = some i → r = row i → (y.hosts = false ∨ y.hosted ≠ e.tok.stage ∨ s.destFree (.lane r l 1) = 0) → wrapHead l b.wrap = some (e, ws) → exec (.wrapDeparture die k l) s = .next s) ∧
    (isBand → ch < 4 → tgetD b.fbq ch [] = t :: ts → s.rowOfStage die bg.cl b t.stage = some r → b.imap t.stage (15 + ch) = some (i, q) →
      s.rowRuns r = true → r.die = die → 1 ≤ s.destFree (.queue ⟨r, i⟩ q) → t.at_ + 4 ≤ s.cyc die → Leads (.feedbackDelivery die k ch) s fun u =>
        qOf u ⟨r, i⟩ q = qOf s ⟨r, i⟩ q ++ [new t.tok t.last t.stage] ∧ (bd u).map (fun z => tgetD z.fbq ch []) = some ts) ∧
    (reforms → stay.length < 2 → Leads (.bandReform die k) s fun u => (u.region die b.region).ovc = true) ∧
    (reforms → 2 ≤ stay.length → s.tracksBad bg.owner b.desc stay.length = false →
      s.checkAll bg.owner b1 rowOf (upFrom 0 b.desc.d) = .ok blks →
      (∀ x, x ∈ blks → x.hdr.stage < 2 * stay.length → s.restoreErr ⟨die, bg.cl, b.base + stay.headD 0⟩ x.hdr.stage x.hdr = none) → Leads (.bandReform die k) s fun u =>
        (bd u).map (fun z => (z.be, z.live)) = some (stay.length, stay)) ∧
    (r.ok = true → s.bandOf r = some (k, b) → b.mode = true → y.hosts = true → s.rowRuns r = true →
      (s.row r).nodes.any (fun z => !z.2.fly.isEmpty) = false → s.forwardedMark r = true → Leads (.rowFree r) s fun u =>
        (u.row r).reel.hosts = false ∧ (u.row r).reel.freed = true ∧ (u.row r).nodes = []) ∧
    (r.ok = true → s.regionOf r = some (rg, g) → s.bandOf r = some (k, b) → b.mode = true → s.rowRuns r = true →
      (b.slotOf r.row).isSome = true → y.hosts = false → s.chooseStage r b = some st →
      st ∈ s.candidates r b ∧ ((∃ z, z ∈ s.candidates r b ∧ 4096 ≤ age z) → ∀ z, z ∈ s.candidates r b → age z ≤ age st) ∧
      (b.desc.stages[st]? = some se → s.loadBlock (loadCtx (s.ownerOf r) b r.row st (b.be ≠ b.b)) se.block = .ok blk →
        s.restoreErr r st blk.hdr = none → Leads (.stageChoice r) s fun u => (u.row r).reel.hosts = true ∧ (u.row r).reel.hosted = st ∧ (u.row r).reel.block = some blk ∧
          ∀ j, j < 37 → (u.node ⟨r, j⟩).store = storeOf blk.code j)) ∧
    (r.ok = true → s.regionOf r = some (rg, g) → s.bandOf r = some (k, b) → b.mode = true → s.rowRuns r = true →
      (b.slotOf r.row).isSome = true → y.hosts = true → y.marked = false →
      nextRecord [] (tgetD b.stageq y.hosted []) = some (e, ws) → 1 ≤ s.destFree (.lane r e.l 1) → Leads (.stageChoice r) s fun u =>
        lane u e.l = lane s e.l ++ [{ tok := e.tok.tok, last := e.tok.last, stage := y.hosted, at_ := s.cyc r.die }]) ∧
    (isBand → b.fin = true → b.waves = 0 → bg.st = .running → bg.frz = none →
      ((s.release ⟨die, bg.cl, b.base⟩ .system).spillBand die b).writeBackHomes die b.region b = .ok s1 →
      Leads (.launchComplete die k) s fun u =>
        ((s1.bandsOf die b.region).length ≤ 1 → (u.region die b.region).st = .idle ∧
          (u.region die b.region).gen = (s1.region die b.region).gen + 1 ∧ u.bandsOf die b.region = []) ∧
        (2 ≤ (s1.bandsOf die b.region).length → u.region die b.region = s1.region die b.region ∧
          (u.die die).bands = tdel (s1.die die).bands k) ∧
        (∃ z, tget (u.die die).past k = some z ∧ z.exit = b.exit ∧ z.wmax = b.wmax ∧ z.smax = b.smax) ∧
        (w5.getLsbD 12 = true → u.notifyVal nn = s.notifyVal nn + 1) ∧ (w5.getLsbD 12 = false → u.notifyVal nn = s.notifyVal nn))

/-- Flits are checked and delivered in order, the host reads and writes a context's memory, merges accept rounds, parity groups follow writes and rebuild (R387, R388, R390, R392, R393, R394, R395, R396). The model's own choices here: layouts (log entry 13); address space of merge addresses (60); waiting for a rebuild (62); flits out of sequence (64); requests in flight (65); flits in recovery (88); records and parity blocks with errors (97). -/
def Obligations.FabricEvents : Prop :=
  ∀ (s : State) (lk : Nat) (bs data delta : List Byte) (rq : HostReq) (pa mid mem k : Nat) (t : List Nat) (y : MergeMember) (p : MergePkt)
    (gid blk : Nat) (pg : Parity) (pc : ParityCfg) (others : List (List Byte)) (chk : List (BitVec 32)),
    let l := s.link lk
    let flit := lk < 18 ∧ bs.length = 256 ∧ l.up = true
    let crc := flitNat bs 240 4 = (crc32c (bs.take 240)).toNat
    let got := s.setLink lk { l with seq := l.seq + 1, tries := 0 }
    let src : BitVec 16 := BitVec.ofNat 16 (flitNat bs 2 2)
    let here := flitNat bs 0 2 = Config.node.toNat
    let out := fun (u : State) (m : OutMsg) => u.hub.outbox = s.hub.outbox ++ [m]
    let va := rq.addr.toNat % 2 ^ 55
    let host := s.hostOf rq.owner rq.node = true ∧ rq.addr.getLsbD 63 = true ∧ rq.addr.extractLsb' 55 8 = 0 ∧ s.hub.parity = [] ∧ s.hub.recovery = false
    let m := s.merge mid
    let pkt : MergePkt := ⟨mid, mem, BitVec.ofNat 32 k, (m.mem mem).gen, false, Memory.readN s.hbm y.cpa m.cfg.recBytes⟩
    let r := s.merge p.mid
    let x := r.mem p.member
    let accepts := p.mid < 256 ∧ r.valid = true ∧ r.cfg.root = Config.node ∧ p.member < 16 ∧ r.cfg.mask.getLsbD p.member = true ∧
      x.gen = p.gen ∧ x.last < p.k.toNat ∧ s.unrebuilt (.hbm r.cfg.rpa) r.cfg.recBytes = false
    let got1 := r.got ++ [(p.k.toNat, p.member, p.void, p.data)]
    let full := ∀ i, i ∈ r.cfg.members → ∃ z, z ∈ got1 ∧ z.1 = p.k.toNat ∧ z.2.1 = i
    let group := gid < 16 ∧ s.parityGroup gid = some (pg, pc) ∧ 64 * blk < pc.size ∧ s.hub.recovery = false ∧ s.severed pg = false
    let at_ := pc.base + 64 * blk
    let crossing := fun (i : Instr) => (askedBy i).any fun n => Config.route n = lk
    (flit → ¬crc → Leads (.flitReceive lk bs) s fun u => (u.link lk).retry = l.retry + 1 ∧ (u.link lk).tries = l.tries + 1 ∧
      (u.link lk).seq = l.seq ∧ out u (.replay lk l.seq)) ∧
    (flit → crc → flitNat bs 6 2 ≠ l.seq.toNat → exec (.flitReceive lk bs) s = .next s) ∧
    (flit → crc → flitNat bs 6 2 = l.seq.toNat → exec (.flitReceive lk bs) s = .next (got.deliverFlit bs) ∧
      (¬here → got.deliverFlit bs = got) ∧
      (here → s.hub.recovery = false → 8 ≤ flitNat bs 4 1 → (got.deliverFlit bs).hub.kdrops = s.hub.kdrops + 1) ∧
      (here → flitNat bs 4 1 = 5 → src = s.hub.mgmt → s.hub.mbox = [] → (decodeFw ((bytesWords 8 (bs.drop 16)).getD 0 0)).isSome = true →
        (got.deliverFlit bs).hub.mbox = [{ node := src, w := bytesWords 8 (bs.drop 16) }])) ∧
    (lk < 18 → bs.length = 256 → l.up = false → exec (.flitReceive lk bs) s = .next s) ∧
    (lk < 18 → l.up = true → 8 < l.tries → s.hub.deltas = [] → Leads (.linkDown lk) s fun u => (u.link lk).up = false ∧
      u.hub.outbox = s.hub.outbox ++ .linkDown lk :: (s.hub.parked.filter crossing).map (fun i => .data ((askedBy i).getD 0) 0x168 []) ∧
      u.hub.parked = [] ∧ u.turn = s.turn ++ (s.hub.parked.filter fun i => !crossing i).map Turn.event) ∧
    (lk < 18 → l.tries ≤ 8 → exec (.linkDown lk) s = .next s) ∧
    (rq.len ≤ 224 → s.hub.recovery = true → exec (.hostMemoryRead rq) s = .next s) ∧
    (rq.len ≤ 224 → s.hub.recovery = false → s.hostOf rq.owner rq.node = false → Leads (.hostMemoryRead rq) s fun u => out u (.data rq.node 0x14F []) ∧ u.hbm = s.hbm) ∧
    (rq.len ≤ 224 → 0 < rq.len → host → va % 2 ^ 16 + rq.len ≤ 2 ^ 16 → s.xlate rq.owner va false = .ok pa → s.homeErr (.hbm pa) rq.len = none →
      Leads (.hostMemoryRead rq) s fun u => out u (.data rq.node 0 (Memory.readN s.hbm pa rq.len)) ∧ u.hbm = s.hbm) ∧
    (data.length ≤ 208 → 0 < data.length → host → s.memOk → va % 2 ^ 16 + data.length ≤ 2 ^ 16 → s.xlate rq.owner va true = .ok pa →
      edgeErr s (pa, data.length) = none → Leads (.hostMemoryWrite rq data) s fun u => out u (.data rq.node 0 []) ∧
        Memory.readN u.hbm pa data.length = data ∧ ∀ a, a < pa ∨ pa + data.length ≤ a → Memory.read u.hbm a = Memory.read s.hbm a) ∧
    (mid < 256 → mem < 16 → s.hub.parity = [] → (m.mem mem).due = k :: t → m.cfg.mems[mem]? = some y → m.cfg.root ≠ Config.node →
      s.homeErr (.hbm y.cpa) m.cfg.recBytes = none →
      Leads (.mergeContributionSend mid mem) s fun u => ((u.merge mid).mem mem).due = t ∧ out u (.contribution pkt)) ∧
    (accepts → ¬full → Leads (.mergeContribution p) s fun u => ((u.merge p.mid).mem p.member).last = p.k.toNat ∧ (u.merge p.mid).got = got1 ∧
      (u.merge p.mid).drops = r.drops) ∧
    (accepts → full → Leads (.mergeContribution p) s fun u => u.notifyVal r.cfg.rntfy = BitVec.ofNat 32 p.k.toNat ∧
      (u.merge p.mid).drops = r.drops) ∧
    (p.mid < 256 → r.valid = true → r.cfg.root = Config.node → (x.gen ≠ p.gen ∨ p.k.toNat ≤ x.last) → Leads (.mergeContribution p) s fun u =>
      (u.merge p.mid).drops = r.drops + 1 ∧ (u.merge p.mid).got = r.got ∧ (u.merge p.mid).mems = r.mems) ∧
    (group → delta.length = 64 → pc.mems[8]? = some Config.node → s.memOk → Leads (.parityDelta gid blk delta) s fun u =>
      Memory.readN u.hbm at_ 64 = xorBytes (Memory.readN s.hbm at_ 64) delta ∧ u.hub.outbox.getLast? = some (.ack gid blk) ∧
        ∀ a, a < at_ ∨ at_ + 64 ≤ a → Memory.read u.hbm a = Memory.read s.hbm a) ∧
    (group → others.length = 8 → others.all (fun z => z.length == 64) = true → chk.length = 9 → pc.mems[pc.lost]? = some Config.node →
      (pg.rebuilt.contains blk = false → s.memOk → Leads (.parityRebuild gid blk others chk) s fun u =>
        Memory.readN u.hbm at_ 64 = xorAll others ∧ u.hub.parked = [] ∧ u.turn = s.turn ++ s.hub.parked.map Turn.event ∧
        ∃ z, tget u.hub.parity gid = some z ∧ z.rebuilt = pg.rebuilt ++ [blk] ∧
          (blk ∈ z.bad ↔ blk ∈ pg.bad ∨ chk.foldl (fun a b => a ^^^ b) 0 ≠ 0)) ∧
      (pg.rebuilt.contains blk = true → exec (.parityRebuild gid blk others chk) s = .next s))

/-- The firmware's commands on tables write the entry named and answer STATUS 0; a malformed command or a conflict changes no table and answers its cause (R296, R308, R324, R325, R326, R329, R360, R367, R389, R390, R394, R397). The model's own choices here: one command at a time and its reserved bits (log entry 58); the fields that a BANKMAP write sets (85); owner 0x000 (87). -/
def Obligations.FirmwareTables : Prop :=
  ∀ (s : State) (node : BitVec 16) (tag : Word) (ops : List DWord) (a b c d e f g : DWord) (die cl k pa : Nat) (i : MapIdx) (x : Band) (o : Owner)
    (r : Region) (ws : List DWord),
    let z := fun (n : Nat) => List.replicate n (0 : DWord)
    let runs := s.hub.recovery = false
    let is := fun (j : Instr) (code sub : BitVec 8) (w : List DWord) (status : Cause) (res : List DWord) (t : State) =>
      s.asks node tag code sub w → exec j s = .next (t.answers node tag code sub status res)
    let no := fun (j : Instr) (code sub : BitVec 8) (w : List DWord) (status : Cause) => is j code sub w status [] s
    let done := fun (j : Instr) (code sub : BitVec 8) (w : List DWord) (res : List DWord) (t : State) =>
      s.asks node tag code sub w → exec j s = .next (t.fwReply 0 res)
    let low := fun (w : DWord) (n : Nat) => w.toNat < 2 ^ n
    let nobody := b.getLsbD 12 = true ∧ b.extractLsb' 0 12 = 0
    let map := a &&& ~~~0xFFFF3 = 0 ∧ mapPlace a = some (die, cl, i)
    let evac := match i with | .reg q _ => (s.row ⟨die, cl, q⟩).evac | _ => (s.cluster die cl).evac
    let band := (a.extractLsb' 8 8).toNat
    let slot := tgetD s.hub.slots a.toNat {}
    let slotIs : SeqSlot := ⟨b.getLsbD 12, b.extractLsb' 0 12, b.extractLsb' 32 32, b.extractLsb' 16 16, [c, d, e, f], g.toNat, 0, 0, [], [], slot.tickets⟩
    let rg := s.region die k
    let named := low a 32 ∧ regionWord (a.setWidth 32) = some (die, k)
    let word5is := s.xlate (a.setWidth 12) (b.toNat + 20) true = .ok pa ∧ s.homeErr (.hbm pa) 4 = none
    let v := bytesNat (s.readHome (.hbm pa) 4)
    let down := word5 (heldOf v) (waitOf v) (readersOf v - c.toNat)
    let free := word5 false (waitOf v) (readersOf v)
    let word5to := fun (w : Nat) => ((s.fixWalk (a.setWidth 12) (b.toNat + 20) 0 true).correct (.hbm pa) 4).writeHome (.hbm pa) (natBytes' 4 w)
    let gw : Gw := tgetD rg.gw b.toNat {}
    let at_ := (a.extractLsb' 8 8).toNat
    let n := (a.extractLsb' 16 3).toNat
    let mid := (a.extractLsb' 0 8).toNat
    let mem := (a.extractLsb' 8 4).toNat
    let gid := (a.extractLsb' 0 4).toNat
    let part := partWords (fun j => ([0, a, b, c, d, e, f, g] : List DWord).getD j 0) n = some ws
    let m := s.merge mid
    let par := tgetD s.hub.parity gid {}
    let lost := fun (t : Tbl DWord) => (Config.parityCfg ((upFrom 0 8).map fun i => tgetD t i 0)).lost
    let pws := putWords par.words at_ ws
    let member := m.mem mem
    (∀ t, t ∈ fwTable → decodeFw (fwHead t.2.1 t.2.2.1 0 tag) = some t.1 ∧ (s.hub.mbox = [] → exec t.1 s = .next s) ∧
      ((∃ j, (ops.getD j 0) &&& ~~~(t.2.2.2.getD j 0) ≠ 0) → no t.1 t.2.1 t.2.2.1 ops 0x14F) ∧
      (s.hub.recovery = true → t.2.1 ≠ 0x0C → t.2.1 ≠ 0x0E → no t.1 t.2.1 t.2.2.1 ops 0x14F)) ∧
    (runs → map → is .readBankmapEntry 2 0 (a :: z 6) 0 [BitVec.ofNat 64 (s.mapRead die cl i)] s) ∧
    (mapPlace a = none → no .readBankmapEntry 2 0 (a :: z 6) 0x14F ∧ no .writeBankmapEntry 3 0 (a :: b :: z 5) 0x14F) ∧
    (runs → a &&& ~~~0xFF03 = 0 → (168 ≤ band → no .readBandEntry 2 1 (a :: z 6) 0x14F) ∧
      (band < 168 → tget (s.die (a.extractLsb' 0 2).toNat).bands band = none → is .readBandEntry 2 1 (a :: z 6) 0 [] s) ∧
      (band < 168 → tget (s.die (a.extractLsb' 0 2).toNat).bands band = some x → is .readBandEntry 2 1 (a :: z 6) 0 x.words s)) ∧
    (runs → map → (mapValueBad i b.toNat = true → no .writeBankmapEntry 3 0 (a :: b :: z 5) 0x14F) ∧
      (mapValueBad i b.toNat = false → evac = true → no .writeBankmapEntry 3 0 (a :: b :: z 5) 0x147) ∧
      (mapValueBad i b.toNat = false → evac = false → done .writeBankmapEntry 3 0 (a :: b :: z 5) [] (s.mapWrite die cl i b.toNat))) ∧
    (runs → low a 12 → (ownerOf b c d e = none → no .writeOwnerEntry 4 0 (a :: b :: c :: d :: e :: z 2) 0x14F) ∧
      (ownerOf b c d e = some o → o.valid = true → is .writeOwnerEntry 4 0 (a :: b :: c :: d :: e :: z 2) 0 []
        (s.setHub { s.hub with owners := tset s.hub.owners a.toNat o })) ∧
      (ownerOf b c d e = some o → o.valid = false → done .writeOwnerEntry 4 0 (a :: b :: c :: d :: e :: z 2) []
        ((s.setHub { s.hub with owners := tset s.hub.owners a.toNat o }).dropTlb (a.setWidth 12)))) ∧
    (runs → low a 12 → ¬nobody → b.extractLsb' 13 3 = 0 → g.extractLsb' 55 9 = 0 → g.extractLsb' 0 6 = 0 →
      s.asks node tag 4 1 [a, b, c, d, e, f, g] → Leads .writeSequenceSlot s fun u =>
        u.hub = ((s.setSlot a.toNat slotIs).answers node tag 4 1 0 []).hub ∧ ∀ die, die < 4 → (u.die die).held = tdel (s.die die).held a.toNat ∧
          (u.die die).heldsum = (s.die die).heldsum - tgetD (s.die die).held a.toNat 0) ∧
    (runs → low a 12 → nobody → no .writeSequenceSlot 4 1 [a, b, c, d, e, f, g] 0x14F ∧
      (low b 13 → no .writeNotifyGrant 4 2 (a :: b :: z 5) 0x14F)) ∧
    (runs → low a 12 → low b 13 → ¬nobody → b.getLsbD 12 = true → (s.owner (b.setWidth 12)).valid = false →
      no .writeNotifyGrant 4 2 (a :: b :: z 5) 0x14D) ∧
    (runs → low a 12 → low b 13 → ¬nobody → (b.getLsbD 12 = true → (s.owner (b.setWidth 12)).valid = true) →
      is .writeNotifyGrant 4 2 (a :: b :: z 5) 0 [] (s.setHub { s.hub with
        grants := if b.getLsbD 12 = true then tset s.hub.grants a.toNat (b.setWidth 12) else tdel s.hub.grants a.toNat })) ∧
    (runs → low a 32 → (∀ r, regionOfWords b c d = some r → r.owner = 0) → no .createRegion 5 0 (a :: b :: c :: d :: z 3) 0x14F) ∧
    (runs → named → regionOfWords b c d = some r → r.owner ≠ 0 →
      ((s.owner r.owner).valid = false → no .createRegion 5 0 (a :: b :: c :: d :: z 3) 0x14D) ∧
      ((s.owner r.owner).valid = true → s.regionTaken die k r = true → no .createRegion 5 0 (a :: b :: c :: d :: z 3) 0x147) ∧
      ((s.owner r.owner).valid = true → s.regionTaken die k r = false → s.asks node tag 5 0 (a :: b :: c :: d :: z 3) →
        Leads .createRegion s fun u => (u.region die k).valid = true ∧ (u.region die k).st = .idle ∧
          (u.region die k).owner = b.extractLsb' 48 12 ∧ (u.region die k).sbanks = c.extractLsb' 0 24 ∧
          (u.region die k).gen = s.lastGen die r + 1)) ∧
    (runs → named → (rg.valid = true → rg.st = .idle → (∀ e, e ∈ (s.die die).placing → e.2.region ≠ k) →
        done .removeRegion 6 0 (a :: z 6) [] (s.removeRegion die k)) ∧
      (rg.valid = false ∨ rg.st ≠ .idle ∨ (∃ e, e ∈ (s.die die).placing ∧ e.2.region = k) → no .removeRegion 6 0 (a :: z 6) 0x147)) ∧
    (runs → low a 12 → c = 0 → no .decrementReaders 7 0 (a :: b :: c :: z 4) 0x14F) ∧
    (runs → low a 12 → low c 30 → c ≠ 0 → word5is →
      (readersOf v < c.toNat → no .decrementReaders 7 0 (a :: b :: c :: z 4) 0x147) ∧
      (c.toNat ≤ readersOf v → done .decrementReaders 7 0 (a :: b :: c :: z 4) [BitVec.ofNat 64 down] (word5to down))) ∧
    (runs → low a 12 → word5is →
      done .clearHeld 7 1 (a :: b :: z 5) [BitVec.ofNat 64 free] (word5to free)) ∧
    (runs → named → (b = 3 → no .clearGatewayCounts 9 0 (a :: b :: z 5) 0x14F) ∧
      (b.toNat < 3 → rg.valid = true → is .clearGatewayCounts 9 0 (a :: b :: z 5) 0 []
        (s.setRegion die k { rg with gw := tset rg.gw b.toNat { gw with dropf := 0, drops := 0 } }))) ∧
    (runs → low a 19 → part → (16 < at_ + n → no .writeMergeEntry 10 0 [a, b, c, d, e, f, g] 0x14F) ∧
      (at_ + n ≤ 16 → is .writeMergeEntry 10 0 [a, b, c, d, e, f, g] 0 [] (s.setMerge mid { m with words := putWords m.words at_ ws }))) ∧
    (runs → low a 12 → (m.valid = false → no .memberRejoin 10 1 (a :: z 6) 0x14F) ∧
      (m.valid = true → is .memberRejoin 10 1 (a :: z 6) 0 [(member.gen + 1).setWidth 64]
        (s.setMerge mid { m with mems := tset m.mems mem { member with gen := member.gen + 1, last := m.round } }))) ∧
    (runs → a &&& ~~~0x7FF0F = 0 → part → (8 < at_ + n → no .writeParityGroup 11 0 [a, b, c, d, e, f, g] 0x14F) ∧
      (at_ + n ≤ 8 → is .writeParityGroup 11 0 [a, b, c, d, e, f, g] 0 []
        (s.setHub { s.hub with parity := tset s.hub.parity gid (if lost par.words = lost pws then { par with words := pws } else { words := pws }) })))

/-- The firmware's commands for power, banks, faults, attestation, launches and images do what they name and answer (R23, R26, R28, R311, R320, R339, R343, R388, R389, R390, R391). The model's own choices here: verification and signatures, opaque constants (log entry 9); SHA-512, by FIPS 180-4 (82); one command at a time (58); the hash in recovery (86). -/
def Obligations.FirmwareServices : Prop :=
  ∀ (s : State) (node : BitVec 16) (tag : Word) (a b c d e f g : DWord) (bank : BankId) (mode : PMode) (fd fk td tk : Nat) (y : State) (cause : Cause),
    let z := fun (n : Nat) => List.replicate n (0 : DWord)
    let runs := s.hub.recovery = false
    let is := fun (j : Instr) (code sub : BitVec 8) (w : List DWord) (status : Cause) (res : List DWord) (t : State) =>
      s.asks node tag code sub w → exec j s = .next (t.answers node tag code sub status res)
    let no := fun (j : Instr) (code sub : BitVec 8) (w : List DWord) (status : Cause) => is j code sub w status [] s
    let done := fun (j : Instr) (code sub : BitVec 8) (w : List DWord) (res : List DWord) (t : State) =>
      s.asks node tag code sub w → exec j s = .next (t.fwReply 0 res)
    let low := fun (w : DWord) (n : Nat) => w.toNat < 2 ^ n
    let hub := s.hub
    let kept := fun (w : List DWord) (m : Mailbox) => m.sent = true ∧ m.w.tail = w ∧ m.node = node
    let nonce := (hub.nonce ++ List.replicate 64 0).take 64
    let cl := s.cluster bank.place.die bank.place.cl
    let pa := b.toNat
    let die := (a.extractLsb' 0 2).toNat
    let core := (a.extractLsb' 4 4).toNat
    let launched := (s.correct (.hbm pa) 64).monitorLaunch core die (bytesWords 8 (s.readHome (.hbm pa) 64))
    let image := s.hub.newImage
    let idle := { hub with fwBusy := false }
    (modeOf a.toNat = some mode → runs → s.asks node tag 1 0 (a :: z 6) → Leads .setPowerMode s fun u =>
      u.hub.pwr = { hub.pwr with want := hub.pwr.want ++ [(mode, node, tag)] } ∧ u.hub.outbox = hub.outbox ∧
      ∃ m, u.hub.mbox = [m] ∧ kept (a :: z 6) m) ∧
    (a = 3 → no .setPowerMode 1 0 (a :: z 6) 0x14F) ∧
    (runs → low a 2 → low b 32 → bankWord a.toNat (b.setWidth 32) = some bank → s.asks node tag 3 1 (a :: b :: z 5) → Leads .retireBank s fun u =>
      (u.cluster bank.place.die bank.place.cl).waitq = cl.waitq ++ [{ bank := bank, src := .command }] ∧ u.hub.outbox = hub.outbox ∧
      ∃ m, u.hub.mbox = [m] ∧ kept (a :: b :: z 5) m) ∧
    (low a 2 → bankWord a.toNat (b.setWidth 32) = none → no .retireBank 3 1 (a :: b :: z 5) 0x14F) ∧
    (runs → low a 32 → low b 32 → regionWord (a.setWidth 32) = some (fd, fk) →
      (b = 0xFFFFFFFF → s.resume (s.region fd fk).owner fd fk fd fk = .ok y → done .fwResume 8 0 (a :: b :: z 5) [] y) ∧
      (b = 0xFFFFFFFF → s.resume (s.region fd fk).owner fd fk fd fk = .error cause → cause ≠ 0 → no .fwResume 8 0 (a :: b :: z 5) cause) ∧
      (regionWord (b.setWidth 32) = some (td, tk) → s.resume (s.region fd fk).owner fd fk td tk = .ok y →
        done .fwResume 8 0 (a :: b :: z 5) [] y) ∧
      (regionWord (b.setWidth 32) = some (td, tk) → s.resume (s.region fd fk).owner fd fk td tk = .error cause → cause ≠ 0 →
        no .fwResume 8 0 (a :: b :: z 5) cause)) ∧
    (runs → low a 12 → low b 16 →
      (s.faultack (a.setWidth 12) (b.setWidth 16) false = .ok y → done .fwFaultackAck 8 1 (a :: b :: z 5) [] y) ∧
      (s.faultack (a.setWidth 12) (b.setWidth 16) true = .ok y → done .fwFaultackKill 8 2 (a :: b :: z 5) [] y) ∧
      (s.faultack (a.setWidth 12) (b.setWidth 16) false = .error cause → cause ≠ 0 → no .fwFaultackAck 8 1 (a :: b :: z 5) cause) ∧
      (s.faultack (a.setWidth 12) (b.setWidth 16) true = .error cause → cause ≠ 0 → no .fwFaultackKill 8 2 (a :: b :: z 5) cause)) ∧
    (a = 0 → is .loadNonce 12 0 [a, b, c, d, e, f, g] 0 []
      (s.setHub { hub with nonce := wordsBytes [b, c, d, e, f, g] ++ nonce.drop 48 })) ∧
    (a = 1 → is .loadNonce 12 0 [a, b, c, 0, 0, 0, 0] 0 [] (s.setHub { hub with nonce := nonce.take 48 ++ wordsBytes [b, c] })) ∧
    (is .produceReport 12 1 (z 7) 0 [BitVec.ofNat 64 s.report.length] (s.setHub { hub with report := s.report })) ∧
    (a.toNat % 8 = 0 → is .readReport 12 2 (a :: z 6) 0 (bytesWords 6 (hub.report.drop a.toNat)) s) ∧
    (a.toNat % 8 ≠ 0 → no .readReport 12 2 (a :: z 6) 0x14F) ∧
    (runs → a &&& ~~~0xF3 = 0 → pa % 8 = 0 → pa + 64 ≤ hbmTop → s.homeErr (.hbm pa) 64 = none →
      done .submitCoreLaunch 13 0 (a :: b :: z 5) [launched.winStatus die] launched) ∧
    (runs → a &&& ~~~0xF3 = 0 → (pa % 8 ≠ 0 ∨ hbmTop < pa + 64) → no .submitCoreLaunch 13 0 (a :: b :: z 5) 0x14F) ∧
    (low b 1 → is .beginFirmwareImage 14 0 (a :: b :: z 5) 0 []
      (s.setHub { hub with fwLen := a.toNat, fwSlot := b.toNat, fwImage := [], fwBusy := true })) ∧
    (a.toNat % 8 = 0 → a.toNat < hub.fwLen → hub.fwBusy = true → is .writeFirmwareImage 14 1 [a, b, c, d, e, f, g] 0 []
      (s.setHub { hub with fwImage := putImage hub.fwImage hub.fwLen a.toNat (wordsBytes [b, c, d, e, f, g]) })) ∧
    (a.toNat % 8 ≠ 0 ∨ hub.fwLen ≤ a.toNat → no .writeFirmwareImage 14 1 [a, b, c, d, e, f, g] 0x14F) ∧
    (hub.fwBusy = false → no .commitFirmwareImage 14 2 (z 7) 0x147 ∧
      (a.toNat % 8 = 0 → a.toNat < hub.fwLen → no .writeFirmwareImage 14 1 [a, b, c, d, e, f, g] 0x147)) ∧
    (hub.fwBusy = true → verified image = true → is .commitFirmwareImage 14 2 (z 7) 0 [1]
      (s.setHub { idle with fwSlots := tset hub.fwSlots hub.fwSlot image })) ∧
    (hub.fwBusy = true → verified image = false → is .commitFirmwareImage 14 2 (z 7) 0 [0] (s.setHub idle))
end

