-- ==== Sys2Proof/Laws/Memory.lean ====
section
/-!
SUPPORT. The laws of memory: a byte read after a write, bytes a write leaves alone, and that every memory operation keeps
the canonical form.
-/
namespace Sys2Proof.Machine

/-! ## The canonical form -/

theorem Memory.above_mono {lo lo' : Nat} {m : Memory} (h : lo' ≤ lo) (w : Memory.above lo m = true) :
    Memory.above lo' m = true := by
  cases m with
  | nil => rfl
  | cons e t =>
    obtain ⟨k, v⟩ := e
    simp only [Memory.above, Bool.and_eq_true, decide_eq_true_eq] at w ⊢
    exact ⟨⟨by omega, w.1.2⟩, w.2⟩

theorem Memory.above_cons {lo a : Nat} {b : Byte} {m : Memory} (h : lo ≤ a) (w : Memory.above (a + 1) m = true) :
    Memory.above lo (Memory.cons a b m) = true := by
  unfold Memory.cons
  split
  · exact Memory.above_mono (by omega) w
  · simp only [Memory.above, Bool.and_eq_true, decide_eq_true_eq, bne_iff_ne, ne_eq]
    exact ⟨⟨h, ‹_›⟩, w⟩

theorem Memory.above_write (m : Memory) (lo a : Nat) (b : Byte) (h : lo ≤ a) (w : Memory.above lo m = true) :
    Memory.above lo (Memory.write m a b) = true := by
  induction m generalizing lo with
  | nil => exact Memory.above_cons h rfl
  | cons e t ih =>
    obtain ⟨k, v⟩ := e
    have w' := w
    simp only [Memory.above, Bool.and_eq_true, decide_eq_true_eq] at w
    simp only [Memory.write]
    split
    · refine Memory.above_cons h ?_
      simp only [Memory.above, Bool.and_eq_true, decide_eq_true_eq]
      exact ⟨⟨by omega, w.1.2⟩, w.2⟩
    · split
      · refine Memory.above_cons h ?_
        have : a = k := ‹_›
        subst this
        exact w.2
      · simp only [Memory.above, Bool.and_eq_true, decide_eq_true_eq]
        exact ⟨w.1, ih (k + 1) (by omega) w.2⟩

/-- Writing one byte keeps the canonical form. -/
theorem Memory.wf_write (m : Memory) (a : Nat) (b : Byte) (w : Memory.wf m = true) : Memory.wf (Memory.write m a b) = true :=
  Memory.above_write m 0 a b (Nat.zero_le a) w

/-- Writing bytes keeps the canonical form. -/
theorem Memory.wf_writeN (m : Memory) (a : Nat) (bs : List Byte) (w : Memory.wf m = true) :
    Memory.wf (Memory.writeN m a bs) = true := by
  induction bs generalizing m a with
  | nil => exact w
  | cons b bs ih => exact ih _ _ (Memory.wf_write m a b w)

theorem Memory.above_clear (m : Memory) (k lo hi : Nat) (w : Memory.above k m = true) :
    Memory.above k (Memory.clear m lo hi) = true := by
  induction m generalizing k with
  | nil => rfl
  | cons e t ih =>
    obtain ⟨a, v⟩ := e
    simp only [Memory.above, Bool.and_eq_true, decide_eq_true_eq] at w
    simp only [Memory.clear]
    split
    · exact Memory.above_mono (by omega) (ih (a + 1) w.2)
    · simp only [Memory.above, Bool.and_eq_true, decide_eq_true_eq]
      exact ⟨w.1, ih (a + 1) w.2⟩

/-- Clearing a range keeps the canonical form. -/
theorem Memory.wf_clear (m : Memory) (lo hi : Nat) (w : Memory.wf m = true) : Memory.wf (Memory.clear m lo hi) = true :=
  Memory.above_clear m 0 lo hi w

/-- Pasting a slice keeps the canonical form. -/
theorem Memory.wf_paste (m : Memory) (lo : Nat) (t : Memory) (w : Memory.wf m = true) :
    Memory.wf (Memory.paste m lo t) = true := by
  induction t generalizing m with
  | nil => exact w
  | cons e t ih => exact ih _ (Memory.wf_write m (lo + e.1) e.2 w)

/-! ## Reads after writes -/

theorem Memory.read_below (m : Memory) (lo a : Nat) (h : a < lo) (w : Memory.above lo m = true) : Memory.read m a = 0 := by
  cases m with
  | nil => rfl
  | cons e t =>
    obtain ⟨k, v⟩ := e
    simp only [Memory.above, Bool.and_eq_true, decide_eq_true_eq] at w
    have h1 : k ≠ a := by omega
    have h2 : a < k := by omega
    simp [Memory.read, h1, h2]

theorem Memory.read_cons_same (a : Nat) (b : Byte) (m : Memory) (w : Memory.above (a + 1) m = true) :
    Memory.read (Memory.cons a b m) a = b := by
  unfold Memory.cons
  split
  · rename_i hb
    rw [hb]
    exact Memory.read_below m (a + 1) a (by omega) w
  · simp [Memory.read]

/-- A byte reads as it was written. -/
theorem Memory.read_write_same (m : Memory) (lo a : Nat) (b : Byte) (w : Memory.above lo m = true) (h : lo ≤ a) :
    Memory.read (Memory.write m a b) a = b := by
  induction m generalizing lo with
  | nil => exact Memory.read_cons_same a b [] rfl
  | cons e t ih =>
    obtain ⟨k, v⟩ := e
    have w' := w
    simp only [Memory.above, Bool.and_eq_true, decide_eq_true_eq] at w
    simp only [Memory.write]
    split
    · refine Memory.read_cons_same a b _ ?_
      simp only [Memory.above, Bool.and_eq_true, decide_eq_true_eq]
      exact ⟨⟨by omega, w.1.2⟩, w.2⟩
    · split
      · refine Memory.read_cons_same a b _ ?_
        have : a = k := ‹_›
        subst this
        exact w.2
      · have h1 : k ≠ a := fun x => ‹¬a = k› x.symm
        have h2 : ¬a < k := ‹_›
        simp [Memory.read, h1, h2, ih (k + 1) w.2 (by omega)]

theorem Memory.read_cons_other (a c : Nat) (b : Byte) (m : Memory) (h : c ≠ a) (w : Memory.above (a + 1) m = true) :
    Memory.read (Memory.cons a b m) c = Memory.read m c := by
  unfold Memory.cons
  split
  · rfl
  · have h1 : a ≠ c := fun x => h x.symm
    simp only [Memory.read, h1, if_false]
    split
    · exact (Memory.read_below m (a + 1) c (by omega) w).symm
    · rfl

/-- A write leaves every other byte alone. -/
theorem Memory.read_write_other (m : Memory) (lo a c : Nat) (b : Byte) (h : c ≠ a) (w : Memory.above lo m = true) :
    Memory.read (Memory.write m a b) c = Memory.read m c := by
  induction m generalizing lo with
  | nil => exact Memory.read_cons_other a c b [] h rfl
  | cons e t ih =>
    obtain ⟨k, v⟩ := e
    have w' := w
    simp only [Memory.above, Bool.and_eq_true, decide_eq_true_eq] at w
    simp only [Memory.write]
    split
    · refine Memory.read_cons_other a c b _ h ?_
      simp only [Memory.above, Bool.and_eq_true, decide_eq_true_eq]
      exact ⟨⟨by omega, w.1.2⟩, w.2⟩
    · split
      · have hk : a = k := ‹_›
        subst hk
        rw [Memory.read_cons_other a c b t h w.2]
        have h1 : a ≠ c := fun x => h x.symm
        simp only [Memory.read, h1, if_false]
        split
        · exact Memory.read_below t (a + 1) c (by omega) w.2
        · rfl
      · simp only [Memory.read, ih (k + 1) w.2]

end Sys2Proof.Machine
end

