-- ==== Sys2Proof/Laws/State.lean ====
section
/-!
SUPPORT. One lemma for each field of the state and each named update, so that no proof unfolds a record update, and what
tables and reads give after an update.
-/
namespace Sys2Proof.Machine

/-! ## Fields after updates -/

@[simp] theorem State.setRow_turn (s : State) (r : RowId) (x : Row) : (s.setRow r x).turn = s.turn := rfl
@[simp] theorem State.setRow_tick (s : State) (r : RowId) (x : Row) : (s.setRow r x).tick = s.tick := rfl
@[simp] theorem State.setRow_moved (s : State) (r : RowId) (x : Row) : (s.setRow r x).moved = s.moved := rfl
@[simp] theorem State.setRow_locus (s : State) (r : RowId) (x : Row) : (s.setRow r x).locus = s.locus := rfl
@[simp] theorem State.setRow_hbm (s : State) (r : RowId) (x : Row) : (s.setRow r x).hbm = s.hbm := rfl
@[simp] theorem State.setRow_sram (s : State) (r : RowId) (x : Row) : (s.setRow r x).sram = s.sram := rfl
@[simp] theorem State.setRow_regf (s : State) (r : RowId) (x : Row) : (s.setRow r x).regf = s.regf := rfl
@[simp] theorem State.setRow_hsyn (s : State) (r : RowId) (x : Row) : (s.setRow r x).hsyn = s.hsyn := rfl
@[simp] theorem State.setRow_ssyn (s : State) (r : RowId) (x : Row) : (s.setRow r x).ssyn = s.ssyn := rfl
@[simp] theorem State.setRow_ecc (s : State) (r : RowId) (x : Row) : (s.setRow r x).ecc = s.ecc := rfl
@[simp] theorem State.setRow_llc (s : State) (r : RowId) (x : Row) : (s.setRow r x).llc = s.llc := rfl
@[simp] theorem State.setRow_rows (s : State) (r : RowId) (x : Row) : (s.setRow r x).rows = tset s.rows (rowIx r) x := rfl
@[simp] theorem State.setRow_clusters (s : State) (r : RowId) (x : Row) : (s.setRow r x).clusters = s.clusters := rfl
@[simp] theorem State.setRow_dies (s : State) (r : RowId) (x : Row) : (s.setRow r x).dies = s.dies := rfl
@[simp] theorem State.setRow_hub (s : State) (r : RowId) (x : Row) : (s.setRow r x).hub = s.hub := rfl

@[simp] theorem State.setNode_turn (s : State) (n : NodeId) (x : Node) : (s.setNode n x).turn = s.turn := rfl
@[simp] theorem State.setNode_tick (s : State) (n : NodeId) (x : Node) : (s.setNode n x).tick = s.tick := rfl
@[simp] theorem State.setNode_moved (s : State) (n : NodeId) (x : Node) : (s.setNode n x).moved = s.moved := rfl
@[simp] theorem State.setNode_locus (s : State) (n : NodeId) (x : Node) : (s.setNode n x).locus = s.locus := rfl
@[simp] theorem State.setNode_hbm (s : State) (n : NodeId) (x : Node) : (s.setNode n x).hbm = s.hbm := rfl
@[simp] theorem State.setNode_sram (s : State) (n : NodeId) (x : Node) : (s.setNode n x).sram = s.sram := rfl
@[simp] theorem State.setNode_regf (s : State) (n : NodeId) (x : Node) : (s.setNode n x).regf = s.regf := rfl
@[simp] theorem State.setNode_hsyn (s : State) (n : NodeId) (x : Node) : (s.setNode n x).hsyn = s.hsyn := rfl
@[simp] theorem State.setNode_ssyn (s : State) (n : NodeId) (x : Node) : (s.setNode n x).ssyn = s.ssyn := rfl
@[simp] theorem State.setNode_ecc (s : State) (n : NodeId) (x : Node) : (s.setNode n x).ecc = s.ecc := rfl
@[simp] theorem State.setNode_llc (s : State) (n : NodeId) (x : Node) : (s.setNode n x).llc = s.llc := rfl
@[simp] theorem State.setNode_clusters (s : State) (n : NodeId) (x : Node) : (s.setNode n x).clusters = s.clusters := rfl
@[simp] theorem State.setNode_dies (s : State) (n : NodeId) (x : Node) : (s.setNode n x).dies = s.dies := rfl
@[simp] theorem State.setNode_hub (s : State) (n : NodeId) (x : Node) : (s.setNode n x).hub = s.hub := rfl

@[simp] theorem State.setPort_turn (s : State) (n : NodeId) (p : Port) : (s.setPort n p).turn = s.turn := rfl
@[simp] theorem State.setPort_tick (s : State) (n : NodeId) (p : Port) : (s.setPort n p).tick = s.tick := rfl
@[simp] theorem State.setPort_moved (s : State) (n : NodeId) (p : Port) : (s.setPort n p).moved = s.moved := rfl
@[simp] theorem State.setPort_locus (s : State) (n : NodeId) (p : Port) : (s.setPort n p).locus = s.locus := rfl
@[simp] theorem State.setPort_hbm (s : State) (n : NodeId) (p : Port) : (s.setPort n p).hbm = s.hbm := rfl
@[simp] theorem State.setPort_sram (s : State) (n : NodeId) (p : Port) : (s.setPort n p).sram = s.sram := rfl
@[simp] theorem State.setPort_regf (s : State) (n : NodeId) (p : Port) : (s.setPort n p).regf = s.regf := rfl
@[simp] theorem State.setPort_hsyn (s : State) (n : NodeId) (p : Port) : (s.setPort n p).hsyn = s.hsyn := rfl
@[simp] theorem State.setPort_ssyn (s : State) (n : NodeId) (p : Port) : (s.setPort n p).ssyn = s.ssyn := rfl
@[simp] theorem State.setPort_ecc (s : State) (n : NodeId) (p : Port) : (s.setPort n p).ecc = s.ecc := rfl
@[simp] theorem State.setPort_llc (s : State) (n : NodeId) (p : Port) : (s.setPort n p).llc = s.llc := rfl
@[simp] theorem State.setPort_clusters (s : State) (n : NodeId) (p : Port) : (s.setPort n p).clusters = s.clusters := rfl
@[simp] theorem State.setPort_dies (s : State) (n : NodeId) (p : Port) : (s.setPort n p).dies = s.dies := rfl
@[simp] theorem State.setPort_hub (s : State) (n : NodeId) (p : Port) : (s.setPort n p).hub = s.hub := rfl

@[simp] theorem State.setDie_turn (s : State) (d : Nat) (x : Die) : (s.setDie d x).turn = s.turn := rfl
@[simp] theorem State.setDie_tick (s : State) (d : Nat) (x : Die) : (s.setDie d x).tick = s.tick := rfl
@[simp] theorem State.setDie_moved (s : State) (d : Nat) (x : Die) : (s.setDie d x).moved = s.moved := rfl
@[simp] theorem State.setDie_locus (s : State) (d : Nat) (x : Die) : (s.setDie d x).locus = s.locus := rfl
@[simp] theorem State.setDie_hbm (s : State) (d : Nat) (x : Die) : (s.setDie d x).hbm = s.hbm := rfl
@[simp] theorem State.setDie_sram (s : State) (d : Nat) (x : Die) : (s.setDie d x).sram = s.sram := rfl
@[simp] theorem State.setDie_regf (s : State) (d : Nat) (x : Die) : (s.setDie d x).regf = s.regf := rfl
@[simp] theorem State.setDie_hsyn (s : State) (d : Nat) (x : Die) : (s.setDie d x).hsyn = s.hsyn := rfl
@[simp] theorem State.setDie_ssyn (s : State) (d : Nat) (x : Die) : (s.setDie d x).ssyn = s.ssyn := rfl
@[simp] theorem State.setDie_ecc (s : State) (d : Nat) (x : Die) : (s.setDie d x).ecc = s.ecc := rfl
@[simp] theorem State.setDie_llc (s : State) (d : Nat) (x : Die) : (s.setDie d x).llc = s.llc := rfl
@[simp] theorem State.setDie_rows (s : State) (d : Nat) (x : Die) : (s.setDie d x).rows = s.rows := rfl
@[simp] theorem State.setDie_clusters (s : State) (d : Nat) (x : Die) : (s.setDie d x).clusters = s.clusters := rfl
@[simp] theorem State.setDie_dies (s : State) (d : Nat) (x : Die) : (s.setDie d x).dies = tset s.dies d x := rfl
@[simp] theorem State.setDie_hub (s : State) (d : Nat) (x : Die) : (s.setDie d x).hub = s.hub := rfl

@[simp] theorem State.setRegion_turn (s : State) (d k : Nat) (g : Region) : (s.setRegion d k g).turn = s.turn := rfl
@[simp] theorem State.setRegion_tick (s : State) (d k : Nat) (g : Region) : (s.setRegion d k g).tick = s.tick := rfl
@[simp] theorem State.setRegion_moved (s : State) (d k : Nat) (g : Region) : (s.setRegion d k g).moved = s.moved := rfl
@[simp] theorem State.setRegion_locus (s : State) (d k : Nat) (g : Region) : (s.setRegion d k g).locus = s.locus := rfl
@[simp] theorem State.setRegion_hbm (s : State) (d k : Nat) (g : Region) : (s.setRegion d k g).hbm = s.hbm := rfl
@[simp] theorem State.setRegion_sram (s : State) (d k : Nat) (g : Region) : (s.setRegion d k g).sram = s.sram := rfl
@[simp] theorem State.setRegion_regf (s : State) (d k : Nat) (g : Region) : (s.setRegion d k g).regf = s.regf := rfl
@[simp] theorem State.setRegion_hsyn (s : State) (d k : Nat) (g : Region) : (s.setRegion d k g).hsyn = s.hsyn := rfl
@[simp] theorem State.setRegion_ssyn (s : State) (d k : Nat) (g : Region) : (s.setRegion d k g).ssyn = s.ssyn := rfl
@[simp] theorem State.setRegion_ecc (s : State) (d k : Nat) (g : Region) : (s.setRegion d k g).ecc = s.ecc := rfl
@[simp] theorem State.setRegion_llc (s : State) (d k : Nat) (g : Region) : (s.setRegion d k g).llc = s.llc := rfl
@[simp] theorem State.setRegion_rows (s : State) (d k : Nat) (g : Region) : (s.setRegion d k g).rows = s.rows := rfl
@[simp] theorem State.setRegion_clusters (s : State) (d k : Nat) (g : Region) : (s.setRegion d k g).clusters = s.clusters := rfl
@[simp] theorem State.setRegion_hub (s : State) (d k : Nat) (g : Region) : (s.setRegion d k g).hub = s.hub := rfl

@[simp] theorem State.setBand_turn (s : State) (d k : Nat) (b : Band) : (s.setBand d k b).turn = s.turn := rfl
@[simp] theorem State.setBand_tick (s : State) (d k : Nat) (b : Band) : (s.setBand d k b).tick = s.tick := rfl
@[simp] theorem State.setBand_moved (s : State) (d k : Nat) (b : Band) : (s.setBand d k b).moved = s.moved := rfl
@[simp] theorem State.setBand_locus (s : State) (d k : Nat) (b : Band) : (s.setBand d k b).locus = s.locus := rfl
@[simp] theorem State.setBand_hbm (s : State) (d k : Nat) (b : Band) : (s.setBand d k b).hbm = s.hbm := rfl
@[simp] theorem State.setBand_sram (s : State) (d k : Nat) (b : Band) : (s.setBand d k b).sram = s.sram := rfl
@[simp] theorem State.setBand_regf (s : State) (d k : Nat) (b : Band) : (s.setBand d k b).regf = s.regf := rfl
@[simp] theorem State.setBand_hsyn (s : State) (d k : Nat) (b : Band) : (s.setBand d k b).hsyn = s.hsyn := rfl
@[simp] theorem State.setBand_ssyn (s : State) (d k : Nat) (b : Band) : (s.setBand d k b).ssyn = s.ssyn := rfl
@[simp] theorem State.setBand_ecc (s : State) (d k : Nat) (b : Band) : (s.setBand d k b).ecc = s.ecc := rfl
@[simp] theorem State.setBand_llc (s : State) (d k : Nat) (b : Band) : (s.setBand d k b).llc = s.llc := rfl
@[simp] theorem State.setBand_rows (s : State) (d k : Nat) (b : Band) : (s.setBand d k b).rows = s.rows := rfl
@[simp] theorem State.setBand_clusters (s : State) (d k : Nat) (b : Band) : (s.setBand d k b).clusters = s.clusters := rfl
@[simp] theorem State.setBand_hub (s : State) (d k : Nat) (b : Band) : (s.setBand d k b).hub = s.hub := rfl

@[simp] theorem State.setCluster_turn (s : State) (d c : Nat) (x : Cluster) : (s.setCluster d c x).turn = s.turn := rfl
@[simp] theorem State.setCluster_tick (s : State) (d c : Nat) (x : Cluster) : (s.setCluster d c x).tick = s.tick := rfl
@[simp] theorem State.setCluster_moved (s : State) (d c : Nat) (x : Cluster) : (s.setCluster d c x).moved = s.moved := rfl
@[simp] theorem State.setCluster_locus (s : State) (d c : Nat) (x : Cluster) : (s.setCluster d c x).locus = s.locus := rfl
@[simp] theorem State.setCluster_hbm (s : State) (d c : Nat) (x : Cluster) : (s.setCluster d c x).hbm = s.hbm := rfl
@[simp] theorem State.setCluster_sram (s : State) (d c : Nat) (x : Cluster) : (s.setCluster d c x).sram = s.sram := rfl
@[simp] theorem State.setCluster_regf (s : State) (d c : Nat) (x : Cluster) : (s.setCluster d c x).regf = s.regf := rfl
@[simp] theorem State.setCluster_hsyn (s : State) (d c : Nat) (x : Cluster) : (s.setCluster d c x).hsyn = s.hsyn := rfl
@[simp] theorem State.setCluster_ssyn (s : State) (d c : Nat) (x : Cluster) : (s.setCluster d c x).ssyn = s.ssyn := rfl
@[simp] theorem State.setCluster_ecc (s : State) (d c : Nat) (x : Cluster) : (s.setCluster d c x).ecc = s.ecc := rfl
@[simp] theorem State.setCluster_llc (s : State) (d c : Nat) (x : Cluster) : (s.setCluster d c x).llc = s.llc := rfl
@[simp] theorem State.setCluster_rows (s : State) (d c : Nat) (x : Cluster) : (s.setCluster d c x).rows = s.rows := rfl
@[simp] theorem State.setCluster_clusters (s : State) (d c : Nat) (x : Cluster) : (s.setCluster d c x).clusters = tset s.clusters (clIx d c) x := rfl
@[simp] theorem State.setCluster_dies (s : State) (d c : Nat) (x : Cluster) : (s.setCluster d c x).dies = s.dies := rfl
@[simp] theorem State.setCluster_hub (s : State) (d c : Nat) (x : Cluster) : (s.setCluster d c x).hub = s.hub := rfl

@[simp] theorem State.setHub_turn (s : State) (h : Hub) : (s.setHub h).turn = s.turn := rfl
@[simp] theorem State.setHub_tick (s : State) (h : Hub) : (s.setHub h).tick = s.tick := rfl
@[simp] theorem State.setHub_moved (s : State) (h : Hub) : (s.setHub h).moved = s.moved := rfl
@[simp] theorem State.setHub_locus (s : State) (h : Hub) : (s.setHub h).locus = s.locus := rfl
@[simp] theorem State.setHub_hbm (s : State) (h : Hub) : (s.setHub h).hbm = s.hbm := rfl
@[simp] theorem State.setHub_sram (s : State) (h : Hub) : (s.setHub h).sram = s.sram := rfl
@[simp] theorem State.setHub_regf (s : State) (h : Hub) : (s.setHub h).regf = s.regf := rfl
@[simp] theorem State.setHub_hsyn (s : State) (h : Hub) : (s.setHub h).hsyn = s.hsyn := rfl
@[simp] theorem State.setHub_ssyn (s : State) (h : Hub) : (s.setHub h).ssyn = s.ssyn := rfl
@[simp] theorem State.setHub_ecc (s : State) (h : Hub) : (s.setHub h).ecc = s.ecc := rfl
@[simp] theorem State.setHub_llc (s : State) (h : Hub) : (s.setHub h).llc = s.llc := rfl
@[simp] theorem State.setHub_rows (s : State) (h : Hub) : (s.setHub h).rows = s.rows := rfl
@[simp] theorem State.setHub_clusters (s : State) (h : Hub) : (s.setHub h).clusters = s.clusters := rfl
@[simp] theorem State.setHub_dies (s : State) (h : Hub) : (s.setHub h).dies = s.dies := rfl
@[simp] theorem State.setHub_hub (s : State) (h : Hub) : (s.setHub h).hub = h := rfl

/-! ## Tables -/

theorem tget_tset_same {α : Type} (t : Tbl α) (n : Nat) (a : α) : tget (tset t n a) n = some a := by
  induction t with
  | nil => simp [tset, tget]
  | cons e t ih =>
    obtain ⟨k, v⟩ := e
    simp only [tset]
    split
    · simp [tget]
    · split
      · simp [tget]
      · have : k ≠ n := fun h => ‹¬n = k› h.symm
        simp [tget, this, ih]

theorem tget_tset_other {α : Type} (t : Tbl α) (n m : Nat) (a : α) (h : m ≠ n) : tget (tset t n a) m = tget t m := by
  have h' : n ≠ m := fun x => h x.symm
  induction t with
  | nil => simp [tset, tget, h']
  | cons e t ih =>
    obtain ⟨k, v⟩ := e
    simp only [tset]
    split
    · simp [tget, h']
    · split
      · rename_i hk
        subst hk
        simp [tget, h']
      · simp [tget, ih]

@[simp] theorem tgetD_tset_same {α : Type} (t : Tbl α) (n : Nat) (a d : α) : tgetD (tset t n a) n d = a := by
  simp [tgetD, tget_tset_same]

theorem tgetD_tset_other {α : Type} (t : Tbl α) (n m : Nat) (a d : α) (h : m ≠ n) : tgetD (tset t n a) m d = tgetD t m d := by
  simp [tgetD, tget_tset_other t n m a h]

/-! ## Reads after updates -/

@[simp] theorem State.row_setRow (s : State) (r : RowId) (x : Row) : (s.setRow r x).row r = x := by
  simp [State.row, State.setRow]

@[simp] theorem State.node_setNode (s : State) (n : NodeId) (x : Node) : (s.setNode n x).node n = x := by
  simp [State.node, State.setNode]

@[simp] theorem State.port_setPort (s : State) (n : NodeId) (p : Port) : (s.setPort n p).port n = p := by
  simp [State.port, State.setPort]

@[simp] theorem State.die_setDie (s : State) (d : Nat) (x : Die) : (s.setDie d x).die d = x := by
  simp [State.die, State.setDie]

@[simp] theorem State.region_setRegion (s : State) (d k : Nat) (g : Region) : (s.setRegion d k g).region d k = g := by
  simp [State.region, State.setRegion]

@[simp] theorem State.cluster_setCluster (s : State) (d c : Nat) (x : Cluster) : (s.setCluster d c x).cluster d c = x := by
  simp [State.cluster, State.setCluster]

@[simp] theorem State.die_setNode (s : State) (n : NodeId) (x : Node) (d : Nat) : (s.setNode n x).die d = s.die d := rfl
@[simp] theorem State.die_setRow (s : State) (r : RowId) (x : Row) (d : Nat) : (s.setRow r x).die d = s.die d := rfl
@[simp] theorem State.die_setHub (s : State) (h : Hub) (d : Nat) : (s.setHub h).die d = s.die d := rfl
@[simp] theorem State.row_setDie (s : State) (d : Nat) (x : Die) (r : RowId) : (s.setDie d x).row r = s.row r := rfl
@[simp] theorem State.row_setHub (s : State) (h : Hub) (r : RowId) : (s.setHub h).row r = s.row r := rfl
@[simp] theorem State.node_setDie (s : State) (d : Nat) (x : Die) (n : NodeId) : (s.setDie d x).node n = s.node n := rfl
@[simp] theorem State.node_setHub (s : State) (h : Hub) (n : NodeId) : (s.setHub h).node n = s.node n := rfl
@[simp] theorem State.region_setNode (s : State) (n : NodeId) (x : Node) (d k : Nat) : (s.setNode n x).region d k = s.region d k := rfl

end Sys2Proof.Machine
end

