-- ==== Sys2Proof/Laws/Fire.lean ====
section
/-!
SUPPORT. What the shared operations can do, said once: the firing rule, the start of a firing, the writes of memory by
home, and the beginning of a freeze.
-/
namespace Sys2Proof.Machine

/-! ## Writes by home keep the memories' form -/

@[simp] theorem State.parityOut_hbm (s : State) (m : Memory) (pa n : Nat) : (s.parityOut m pa n).hbm = s.hbm := by
  unfold State.parityOut; split <;> rfl
@[simp] theorem State.parityOut_sram (s : State) (m : Memory) (pa n : Nat) : (s.parityOut m pa n).sram = s.sram := by
  unfold State.parityOut; split <;> rfl
@[simp] theorem State.parityOut_regf (s : State) (m : Memory) (pa n : Nat) : (s.parityOut m pa n).regf = s.regf := by
  unfold State.parityOut; split <;> rfl

theorem State.writeHome_memOk (s : State) (h : Home) (bs : List Byte) (w : s.memOk) : (s.writeHome h bs).memOk := by
  obtain ⟨w1, w2, w3⟩ := w
  cases h with
  | hbm pa =>
    refine ⟨?_, ?_, ?_⟩
    · simp only [State.writeHome, State.parityOut_hbm]; exact Memory.wf_writeN _ _ _ w1
    · simp only [State.writeHome, State.parityOut_sram]; exact w2
    · simp only [State.writeHome, State.parityOut_regf]; exact w3
  | sram d c b off => exact ⟨w1, Memory.wf_writeN _ _ _ w2, w3⟩

@[simp] theorem State.writeTile_hbm (s : State) (r : RowId) (t j : Nat) (b : Beat) : (s.writeTile r t j b).hbm = s.hbm := by
  simp only [State.writeTile]
@[simp] theorem State.writeTile_sram (s : State) (r : RowId) (t j : Nat) (b : Beat) : (s.writeTile r t j b).sram = s.sram := by
  simp only [State.writeTile]
theorem State.writeTile_regf (s : State) (r : RowId) (t j : Nat) (b : Beat) :
    (s.writeTile r t j b).regf = Memory.writeN s.regf (s.tileAt r t j) (natBytes' 128 b.toNat) := by
  simp only [State.writeTile]

theorem State.writeTile_memOk (s : State) (r : RowId) (t j : Nat) (b : Beat) (w : s.memOk) : (s.writeTile r t j b).memOk := by
  unfold State.memOk
  rw [State.writeTile_hbm, State.writeTile_sram, State.writeTile_regf]
  exact ⟨w.1, w.2.1, Memory.wf_writeN _ _ _ w.2.2⟩

theorem State.zeroBank_memOk (s : State) (d c l : Nat) (w : s.memOk) : (s.zeroBank d c l).memOk := by
  unfold State.zeroBank
  extract_lets e clear s1
  have h : ∀ (t : State) (p : Nat), t.memOk → (clear t p).memOk :=
    fun t p h => ⟨h.1, Memory.wf_clear _ _ _ h.2.1, h.2.2⟩
  split
  · exact h _ _ (h _ _ w)
  · exact h _ _ w

theorem State.zeroTiles_memOk (s : State) (r : RowId) (w : s.memOk) : (s.zeroTiles r).memOk :=
  ⟨w.1, w.2.1, Memory.wf_clear _ _ _ w.2.2⟩

/-! ## The beginning of a freeze -/

/-- A freeze begins in a running region that does not freeze yet, or one that began on this cycle takes a record of a lower
place (R335), and nothing else changes. -/
theorem State.startFreeze_cases (s : State) (d k row : Nat) (fr : Option FaultRec) (why : FrzWhy) :
    s.startFreeze d k row fr why = s ∨
    ((s.region d k).frz = none ∧ (s.region d k).st = .running ∧
      s.startFreeze d k row fr why = s.setRegion d k { s.region d k with frz := some ⟨s.cyc d, row, fr, why⟩ }) ∨
    (∃ f, (s.region d k).frz = some f ∧ (fr.any fun y => f.loses (s.cyc d) y.row y.node) = true ∧
      s.startFreeze d k row fr why = s.setRegion d k { s.region d k with frz := some { f with row := row, fr := fr } }) := by
  unfold State.startFreeze
  cases hf : (s.region d k).frz with
  | some x =>
    by_cases hl : (fr.any fun y => x.loses (s.cyc d) y.row y.node) = true
    · right; right; exact ⟨x, rfl, hl, by simp [hf, hl]⟩
    · left; simp [hf, hl]
  | none =>
    by_cases hs : (s.region d k).st = .running
    · right; left; simp [hf, hs]
    · left; simp [hf, hs]

/-- A fault raises in the row's region, or nothing happens where no region holds the row. -/
theorem State.raise_cases (s : State) (n : NodeId) (slot : Nat) (c : Cause) (x : FInfo) :
    s.raise n slot c x = s ∨
    ∃ k g f, s.regionOf n.row = some (k, g) ∧ f.row = n.row.row ∧ f.fr = some (s.mkRec n slot c x k g) ∧
      s.raise n slot c x = s.setRegion n.row.die k { s.region n.row.die k with frz := some f } := by
  unfold State.raise
  cases h : s.regionOf n.row with
  | none => left; rfl
  | some e =>
    obtain ⟨k, g⟩ := e
    rcases State.startFreeze_cases s n.row.die k n.row.row (some (s.mkRec n slot c x k g)) .record with
      h1 | ⟨_, _, h1⟩ | ⟨f, _, _, h1⟩
    · left; exact h1
    · right; exact ⟨k, g, _, rfl, rfl, rfl, h1⟩
    · right; exact ⟨k, g, _, rfl, rfl, rfl, h1⟩

/-! ## The firing rule -/

theorem Node.not_markAt_of_offers (n : Node) (q : Nat) (h : n.offers q = true) : n.markAt q = false := by
  unfold Node.offers at h
  unfold Node.markAt
  cases hh : n.head q with
  | none => rfl
  | some t => simpa [hh] using h

/-- A ready slot whose instruction answers a plan with room starts its firing (R166, R169). -/
theorem fire_go (s : State) (i : Instr) (r : FireReq) (k : Env → Res) (off : Env → Plan) (p : Plan) (h : s.Ready r)
    (hl : r.late = true ∨ s.room (s.slotTarget s.locus r.ops.d0) (s.slotTarget s.locus r.ops.d1)
      (need (s.slotTarget s.locus r.ops.d0) 1 []) (need (s.slotTarget s.locus r.ops.d1) 1 []) = true)
    (hk : k (r.env s s.locus (s.node s.locus.nd)) = .go p) (hc : r.ctlThere (s.node s.locus.nd) p.stay = true)
    (hr : p.late = true ∨ s.room (s.slotTarget s.locus r.ops.d0) (s.slotTarget s.locus r.ops.d1)
      (need (s.slotTarget s.locus r.ops.d0) p.n0 p.o0) (need (s.slotTarget s.locus r.ops.d1) p.n1 p.o1)
      (some (p.leaves (s.cyc s.locus.nd.row.die))) = true) :
    fire s s.locus i r k off =
      s.begin s.locus i r false p (s.slotTarget s.locus r.ops.d0) (s.slotTarget s.locus r.ops.d1) := by
  obtain ⟨h1, h2, h3, h4, h5, h6, h7, h8, h9⟩ := h
  have e3 : (!r.own && !(popQs r.sels ++ peekQs r.sels ++ r.more ++ r.first).all (s.node s.locus.nd).offers) = false := by
    rcases h3 with h | h
    · simp [h]
    · rw [h]; simp
  have e3' : (!r.own && (popQs r.sels ++ r.more).any (s.node s.locus.nd).markAt &&
      ((s.node s.locus.nd).prog s.locus.slot).midCause.isSome) = false := by
    rcases h3 with h | h
    · simp [h]
    · have hm : (popQs r.sels ++ r.more).any (s.node s.locus.nd).markAt = false := by
        rw [List.any_eq_false]
        intro q hq
        have hq' : q ∈ popQs r.sels ++ peekQs r.sels ++ r.more ++ r.first := by
          rcases List.mem_append.mp hq with h | h <;> simp [h]
        simpa using Node.not_markAt_of_offers _ q (List.all_eq_true.mp h q hq')
      simp [hm]
  have e7 : (r.serial && !(s.node s.locus.nd).fly.isEmpty) = false := by
    cases hs : r.serial with
    | false => rfl
    | true => simp [h7 hs]
  have el : (!r.late && !s.room (s.slotTarget s.locus r.ops.d0) (s.slotTarget s.locus r.ops.d1)
      (need (s.slotTarget s.locus r.ops.d0) 1 []) (need (s.slotTarget s.locus r.ops.d1) 1 [])) = false := by
    rcases hl with h | h <;> simp [h]
  have er : (p.late || s.room (s.slotTarget s.locus r.ops.d0) (s.slotTarget s.locus r.ops.d1)
      (need (s.slotTarget s.locus r.ops.d0) p.n0 p.o0) (need (s.slotTarget s.locus r.ops.d1) p.n1 p.o1)
      (some (p.leaves (s.cyc s.locus.nd.row.die)))) = true := by
    rcases hr with h | h <;> simp [h]
  unfold fire
  simp only [h1, Bool.not_true, Bool.false_eq_true, if_false, h2, e3, e3', h9, h4, h5, h6, e7, el, h8, hk, er, hc,
    Bool.and_self, if_true]

theorem mem_upFrom (a n x : Nat) : x ∈ upFrom a n ↔ a ≤ x ∧ x < a + n := by
  induction n generalizing a with
  | zero => simp [upFrom]
  | succ n ih => simp only [upFrom, List.mem_cons, ih]; omega

/-- Where no slot names a wrap buffer, room does not depend on the cycle on which deliveries leave. -/
theorem State.room_at (s : State) (t0 t1 : Target) (a b : Nat) (c d : Option Nat) (h0 : t0.dst.isWrap = false) (h1 : t1.dst.isWrap = false) :
    s.room t0 t1 a b c = s.room t0 t1 a b d := by
  obtain ⟨x, l0, g0⟩ := t0
  obtain ⟨y, l1, g1⟩ := t1
  cases x <;> cases y <;> simp_all [State.room, State.roomAt, Dest.isWrap]

/-- A plan that delivers at most `n` tokens to each slot can fire where any such plan can. -/
theorem State.CanFireN.canFire {s : State} {r : FireReq} {n : Nat} {q : Plan} (h : s.CanFireN r n) (hs : q.stay = false)
    (h0 : max q.n0 q.o0.length ≤ n) (h1 : max q.n1 q.o1.length ≤ n) (hq : q.lat < 512) : s.CanFire r q := by
  obtain ⟨a, b, c, d⟩ := h
  refine ⟨a, hs ▸ b, c, .inr ?_⟩
  by_cases hw : ((s.tgt0 r.ops).dst.isWrap || (s.tgt1 r.ops).dst.isWrap) = true
  · refine d _ ?_ _ ((mem_upFrom _ _ _).mpr (by omega)) _ ((mem_upFrom _ _ _).mpr (by omega))
    unfold State.leaveCycles Plan.leaves
    rw [if_pos hw]
    split
    · exact List.mem_cons_of_mem _ ((mem_upFrom _ _ _).mpr (by omega))
    · exact List.mem_cons_self
  · have hw' := hw
    rw [Bool.not_eq_true, Bool.or_eq_false_iff] at hw'
    have := d 0 (by unfold State.leaveCycles; rw [if_neg hw]; exact List.mem_cons_self) (max q.n0 q.o0.length)
      ((mem_upFrom _ _ _).mpr (by omega)) (max q.n1 q.o1.length) ((mem_upFrom _ _ _).mpr (by omega))
    unfold State.Room at this ⊢
    rw [State.room_at _ _ _ _ _ _ _ hw'.1 hw'.2]
    exact this

/-- An instruction that is `fire` of what answers a plan starts its firing where the plan can fire. -/
theorem Fires.of_fire {i : Instr} {s : State} {r : FireReq} {p : Plan} {k : Env → Res} {off : Env → Plan}
    (hx : exec i s = .next (fire s s.locus i r k off)) (h : s.CanFire r p) (hk : k (s.env r) = .go p) : Fires i s r p := by
  obtain ⟨h1, hc, h2, h3⟩ := h
  have hn : ∀ (t : Target) (n : Nat) (o : List Tok), need t n o = if t.dst = .none then 0 else max n o.length :=
    fun _ _ _ => rfl
  unfold Fires
  rw [hx, fire_go s i r k off p h1 ?_ hk hc ?_]
  · rfl
  · rcases h2 with h | h
    · exact .inl h
    · right
      rw [hn, hn]
      exact h
  · rcases h3 with h | h
    · exact .inl h
    · right
      rw [hn, hn]
      exact h

/-- All that `fire` can do: wait, begin a freeze, start a firing (guarded off or not), or make the change that its
instruction asks for before it can start. -/
inductive FireAns (s : State) (l : Loc) (i : Instr) (r : FireReq) (k : Env → Res) (off : Env → Plan) : State → Prop where
  | wait : FireAns s l i r k off s
  | raise (c : Cause) (x : FInfo) : FireAns s l i r k off (s.raise l.nd l.slot c x)
  | guarded : FireAns s l i r k off
      (s.begin l i r true (off (r.env s l (s.node l.nd))) (s.slotTarget l r.ops.d0) (s.slotTarget l r.ops.d1))
  | set (t : State) : k (r.env s l (s.node l.nd)) = .set t → FireAns s l i r k off t
  | go (p : Plan) : k (r.env s l (s.node l.nd)) = .go p →
      FireAns s l i r k off (s.begin l i r false p (s.slotTarget l r.ops.d0) (s.slotTarget l r.ops.d1))

theorem ite_ind {α : Type} (P : α → Prop) {c : Prop} [Decidable c] {a b : α} (ha : P a) (hb : P b) :
    P (if c then a else b) := by
  split
  · exact ha
  · exact hb

theorem fire_cases (s : State) (l : Loc) (i : Instr) (r : FireReq) (k : Env → Res) (off : Env → Plan) :
    FireAns s l i r k off (fire s l i r k off) := by
  unfold fire
  extract_lets nd e t0 t1 p
  refine ite_ind _ .wait (ite_ind _ .wait (ite_ind _ (.raise _ _) (ite_ind _ .wait (ite_ind _ .wait (ite_ind _ (.raise _ _)
    (ite_ind _ .wait (ite_ind _ (ite_ind _ .wait (ite_ind _ .guarded .wait))
      (ite_ind _ .wait (ite_ind _ .wait ?_)))))))))
  cases r.checkFault e with
  | some x => exact .raise _ _
  | none =>
    cases hk : k e with
    | wait => exact .wait
    | set t => exact .set t hk
    | fault c x => exact .raise c x
    | go p => exact ite_ind _ (.go p hk) .wait

end Sys2Proof.Machine
end

