-- ==== Sys2Proof/Tests/Slice0.lean ====
section
/-!
SUPPORT. Tests of single steps and of decoding, with values from the spec, and for each statement a concrete state that
meets its hypotheses.
-/
namespace Sys2Proof.Tests
open Sys2Proof Sys2Proof.Machine

set_option maxRecDepth 100000
set_option exponentiation.threshold 4096
set_option Elab.async false

/-! ## Small states -/

/-- Row 0 of cluster 0 of die 0, and its nodes. -/
def row0 : RowId := ⟨0, 0, 0⟩
def nodeAt (k : Nat) : NodeId := ⟨row0, k⟩

/-- A queue of tokens. -/
def queueOf (ts : List Tok) : Queue := { toks := ts.map fun t => { tok := t } }
def words (ws : List Word) : Queue := queueOf (ws.map fun w => wordTok w 0)
def beats (bs : List Beat) : Queue := queueOf (bs.map beatTok)

/-- The state right after reset with a running region of owner 7 over the rows of a cluster, and an instruction in slot 0
of a node of row 0 that holds queues and control tokens. -/
def ready (i : Instr) (k : Nat) (qs : Tbl Queue) (ctl : List Tok := []) (xs : Tbl Word := []) (p : Tbl Prog := []) : State :=
  let g : Region := { valid := true, st := .running, nrows := 28, owner := 7, gen := 3, launch := List.replicate 8 0 }
  let s := State.reset.setDie 0 { regions := [(0, g)] }
  let ws := encode i
  { s.setNode (nodeAt k) { store := [(0, (ws.getD 0 0, ws[1]?))], qs := qs, ctl := queueOf ctl, xs := xs, progs := p } with
    locus := ⟨nodeAt k, 0⟩ }

/-- Operands: sources at the heads of queues 0 and 1, results to queue 0 of node 9. -/
def ops2 : Ops := { a := .pop 0, b := .pop 1, d0 := .queue 9 0 false }
def ops1 : Ops := { a := .pop 0, d0 := .queue 9 0 false }

/-- The outcome's next state satisfies a test. -/
def leads (o : Host.Outcome State Fault Refusal) (f : State → Bool) : Bool :=
  match o with
  | .next u => f u
  | _ => false

/-- The firing that an instruction at the locus starts, its results and time. -/
def started (i : Instr) (s : State) (f : Firing → Bool) : Bool :=
  leads (exec i s) fun u => match (u.node s.locus.nd).fly with
    | [x] => x.ins = i && f x
    | _ => false

/-- The freeze that an instruction begins, by its cause. -/
def faulted (i : Instr) (s : State) : Option Cause :=
  match exec i s with
  | .next u => (u.region 0 0).frz.bind fun x => x.fr.map fun r => r.cause
  | _ => none

/-- The readiness that the statements assume, as a Bool. -/
def can (s : State) (r : FireReq) (p : Plan) : Bool := decide (s.CanFire r p)
def canN (s : State) (r : FireReq) (n : Nat) : Bool := can s r { n0 := n, n1 := n }
/-- The value or the error of a result. -/
def okOf {ε α : Type} (x : Except ε α) : Option α := match x with | .ok v => some v | .error _ => none
def errOf {ε α : Type} (x : Except ε α) : Option ε := match x with | .ok _ => none | .error e => some e
/-- Firing 1 of a node. -/
def firingOf (s : State) (n : NodeId) : Firing := ((s.node n).firing 1).getD { id := 0, slot := 0, ins := .reset, undo := ⟨0, none, {}, .idle, [], []⟩ }

/-! ## Words written out from the encoding (R56-R64, R105) -/

/-- The instruction of a word of 64 bits, or of 128 with its literal. -/
def reads (w l : Nat) (i : Instr) : Bool := decodeTableWord (if l = 0 then 64 else 128) (l * 2 ^ 64 + w) = some i

theorem test_word_add : reads 0x01000200C2000000 0 (.add { a := .x 0, b := .pop 0, d0 := .reg 2 0 } ⟨false, false, .w32⟩) = true := by
  decide +kernel
theorem test_word_ffma : reads 0x1F08000946000000 0xA (.ffma { a := .pop 0, b := .x 1, d0 := .queue 6 0 false } .rne (.x 2)) = true := by
  decide +kernel
theorem test_word_rep : reads 0x2518041200000000 4 (.rep { a := .litLo, lit := some 4 } 1) = true := by decide +kernel
theorem test_word_steer : reads 0x4040001245004600 0 (.steer { a := .pop 0, d0 := .queue 5 0 false, d1 := .queue 6 0 false } true 0) = true := by
  decide +kernel
theorem test_word_gate : reads 0x4408001249000000 3 (.gate { a := .pop 0, d0 := .queue 9 0 false } 3) = true := by decide +kernel
theorem test_word_vqmx : reads 0x6D080001A710A711 0xC2
    (.vqmx { a := .pop 0, b := .pop 1, d0 := .lane 0 false 16, d1 := .lane 0 false 17 } (.pop 2) 3) = true := by decide +kernel
theorem test_word_mma : reads 0x80000012C9100000 0 (.mma { a := .pop 0, d0 := .ctl 9 } .bf16 .bf16) = true := by decide +kernel
theorem test_word_ld : reads 0x920004924400E310 0 (.ld { d0 := .queue 4 0 false, d1 := .ctl 35 } 0 false) = true := by decide +kernel
theorem test_word_tsel : reads 0xB54004924A800000 0 (.tselAll { d0 := .queue 10 2 false }) = true := by decide +kernel
theorem test_word_pipe : reads 0xC1080412C2100000 0x8FC000000003
    (.pipe { a := .litLo, d0 := .ctl 2, lit := some 3 } false ⟨0, 1, 0, 63, 0⟩) = true := by decide +kernel
theorem test_word_waitn : (decodeTableWord 128 (5 * 2 ^ 64 + 0xA0090414C410A701)).isSome = true := by decide +kernel


/-! The five words that R400 encodes and the two of R419. -/
theorem test_words_worked :
    (reads 0x63880017A7100000 0x14 (.vfma { a := .pop 0, b := .konst .half, d0 := .lane 0 false 16 } .bf16 .rne (.konst .one)) &&
    decodeTableWord 128 0x7288011262406240 =
      some (.vlse { a := .peek 0, d0 := .queue 34 1 false, d1 := .queue 34 1 false } .bf16 (some ⟨0, 0⟩)) &&
    reads 0x62800017A7100000 0 (.vmul { a := .pop 0, b := .konst .half, d0 := .lane 0 false 16 } .bf16 .rne) &&
    reads 0x9300C48142000000 0 (.st { nxt := .mark, a := .zero, b := .pop 1, d0 := .queue 2 0 false } 0 false) &&
    reads 0x45000012A7010000 0 (.sink { a := .pop 0, d0 := .lane 0 false 1 }) &&
    reads 0x19000012A7000000 0 (.mov { a := .pop 0, d0 := .lane 0 false 0 })) = true := by decide +kernel
/-! ## WellFormed refuses one ill-formed term per check -/

/-- None of the terms is well formed. -/
def refused (l : List Instr) : Bool := l.all fun i => !i.WellFormed

theorem test_wellformed_word : (Instr.add ops2 ⟨false, false, .w32⟩).WellFormed = true := by decide +kernel
/-- A guard or an NXT where the form has none; the pair link off the matrix node, an X register on it. -/
theorem test_refuses_fields : refused [.gate { a := .pop 0, nxt := .stay, d0 := .queue 9 0 false } 3, .mpair { a := .pop 0, grd := .popT },
    .add { ops2 with a := .link } ⟨false, false, .w32⟩, .mma { a := .x 0 } .bf16 .bf16,
    .ffma ops2 .rne .link] = true := by decide +kernel
/-- A literal source without a literal, a literal without a source, a literal that the form does not take. -/
theorem test_refuses_literals : refused [.add { ops2 with b := .litLo } ⟨false, false, .w32⟩,
    .add { ops2 with lit := some 5 } ⟨false, false, .w32⟩, .ld { lit := some 5 } 0 false] = true := by decide +kernel
/-- A second consumer slot of a form that has one, a node's queue that does not exist, a control queue of a cell. -/
theorem test_refuses_slots : refused [.add { ops2 with d0 := .queue 41 0 false } ⟨false, false, .w32⟩,
    .add { ops2 with d1 := .ctl 50 } ⟨false, false, .w32⟩] = true := by decide +kernel
/-- Places that the device does not have. -/
theorem test_refuses_places : refused [.firingStep ⟨⟨4, 0, 0⟩, 0⟩ 1, .firingStep ⟨⟨0, 12, 0⟩, 0⟩ 1, .firingStep ⟨⟨0, 0, 28⟩, 0⟩ 1,
    .treeGrant ⟨⟨0, 0, 1⟩, 37⟩, .waveClose ⟨row0, 38⟩, .groupDelivery ⟨nodeAt 0, 4⟩, .retirement ⟨0, 12, none⟩,
    .retirementRequest ⟨⟨0, 0, none⟩, 26⟩, .retirementRequest ⟨⟨0, 0, some 0⟩, 9⟩, .pageWalkComplete 0 48 0,
    .controllerDecision 0 0 64, .ingressForward row0 19, .flitReceive 18 (List.replicate 256 0), .flitReceive 0 [],
    .windowFill 0 0 24 0, .translationFreeze 0 336, .triggerInject 0 168, .feedbackDelivery 0 0 4, .ringRefill 4096,
    .launchWordWrite 0 false 7 0 (.core 0), .parityDelta 16 0 (List.replicate 64 0), .notifyWindowWrite 16 0 0] = true := by
  decide +kernel

/-! ## Scalar instructions (R106-R124) -/

/-- An instruction over two words, or over one with the second in X1. -/
def two (i : Instr) (a b : Word) : State := ready i 0 [(0, words [a]), (1, words [b])]

/-- The instruction starts over two words and will deliver `v`. -/
def gives (i : Instr) (a b v : Word) : Bool := started i (two i a b) fun f => f.o0 = [wordTok v 0]

theorem test_add_wraps : gives (.add ops2 ⟨false, false, .w32⟩) 0xFFFFFFFF 2 1 = true := by decide +kernel
theorem test_add_saturates : gives (.add ops2 ⟨true, false, .w16⟩) 0x7FFF8000 0x0001FFFF 0x7FFF8000 = true := by decide +kernel
theorem test_sub : gives (.sub ops2 ⟨false, false, .w8⟩) 0x00000001 0x00000002 0x000000FF = true := by decide +kernel
theorem test_mul_unsigned : gives (.mul ops2 ⟨true, true, .w16⟩) 0x00020100 0x00030100 0x0006FFFF = true := by decide +kernel
theorem test_min : gives (.min ops2 ⟨false, false, .w32⟩) 0xFFFFFFFF 1 0xFFFFFFFF = true := by decide +kernel
theorem test_max : gives (.max ops2 ⟨false, true, .w32⟩) 0xFFFFFFFF 1 0xFFFFFFFF = true := by decide +kernel
theorem test_band : gives (.band ops2) 12 10 8 = true := by decide +kernel
theorem test_bandn : gives (.bandn ops2) 12 10 4 = true := by decide +kernel
theorem test_shl_masks : gives (.shl ops2) 1 33 2 = true := by decide +kernel
theorem test_sar : gives (.sar ops2) 0x80000000 4 0xF8000000 = true := by decide +kernel
theorem test_rol : gives (.rol ops2) 0x80000001 1 3 = true := by decide +kernel
theorem test_bfx : gives (.bfx ops2 false) 0x00000F00 0x00000068 0xFFFFFFFF = true := by decide +kernel
theorem test_cmp : gives (.cmp ops2 .ltI) 0xFFFFFFFF 0 1 = true := by decide +kernel
theorem test_cmp_unsigned : gives (.cmp ops2 .ltN) 0xFFFFFFFF 0 0 = true := by decide +kernel
theorem test_fadd : gives (.fadd ops2 .rne) 0x3F800000 0x40000000 0x40400000 = true := by decide +kernel
theorem test_fsub_zero : gives (.fsub ops2 .rne) 0x3F800000 0x3F800000 0 = true := by decide +kernel
theorem test_fmul : gives (.fmul ops2 .rne) 0x40000000 0x40400000 0x40C00000 = true := by decide +kernel
theorem test_fmin_zeros : gives (.fmin ops2) 0x80000000 0 0x80000000 = true := by decide +kernel
theorem test_fcmp : gives (.fcmp ops2 .lt) 0xBF800000 0x3F800000 1 = true := by decide +kernel

/-- A three-source instruction: its third source is X2. -/
def three (i : Instr) (a b c : Word) : State := ready i 0 [(0, words [a]), (1, words [b])] [] [(2, c)]

theorem test_ffma : let i := Instr.ffma ops2 .rne (.x 2)
    started i (three i 0x40000000 0x40400000 0x3F800000) (fun f => f.o0 = [wordTok 0x40E00000 0]) = true := by decide +kernel
theorem test_mad : let i := Instr.mad ops2 ⟨false, false, .w32⟩ (.x 2)
    started i (three i 3 5 7) (fun f => f.o0 = [wordTok 22 0] && f.doneAt = 3) = true := by decide +kernel

/-- Each form of the scalar statements can fire: two sources, three sources, a control token, no token. -/
theorem wit_scalar : (let i := Instr.add ops2 ⟨true, false, .w16⟩
    let t := wordTok 0 0
    can (two i 1 2) { ops := ops2 } (oneToken 1 t) && can (two i 1 2) { ops := ops2 } (oneToken 4 t) &&
    can (three i 1 2 3) { ops := ops2, c := some (.x 2) } (oneToken 3 t) &&
    can (ready (.sel ops2) 0 [(0, words [1]), (1, words [2])] [.ctl true]) { ops := ops2, ctl := true } (oneToken 1 t)) = true := by
  decide +kernel
/-- ACC over X0, REP with 0 and with another count, MCTL with and without a reserved bit. -/
theorem wit_acc_rep_mctl : (let o : Ops := { a := .pop 0, b := .x 0 }
    let m := ready (.mctl ops1 0x8000) 0 [(0, words [0])]
    can (ready (.acc o .wrap) 0 [(0, words [5])]) { ops := o } {} &&
    can (ready (.rep ops1 1) 0 [(0, words [0])]) { ops := ops1 } {} && can (ready (.rep ops1 1) 0 [(0, words [4])]) { ops := ops1 } {} &&
    can m { ops := ops1 } (oneToken 1 (wordTok 0 0)) && (m.env { ops := ops1 }).av = 0 &&
    can (ready (.mctl ops1 0x7FFF) 0 [(0, words [0])]) { ops := ops1 } (oneToken 1 (wordTok 0 0))) = true := by
  decide +kernel
theorem test_acc : let i := Instr.acc { a := .pop 0, b := .x 0 } .wrap
    started i (ready i 0 [(0, words [5])] [] [(0, 0xFFFFFFFF)]) (fun f => f.xw = some (0, 4) && f.o0 = []) = true := by decide +kernel
theorem test_mctl_reserved : faulted (.mctl { ops1 with lit := some 1 } 1) (ready (.mctl ops1 1) 0 [(0, words [0])]) = some 0x02A := by
  decide +kernel

/-- Online numbers: a token of three digits, the last one (R117); a word to convert. -/
theorem wit_online : (let t := sdToken [1, 0, -2] true
    let v := ready (.sdcvt ops1 .sd8 .c4) 0 [(0, words [7])]
    let rv : FireReq := { ops := ops1, multi := true }
    let pv : Plan := { o0 := [wordTok 0 0], o1 := [wordTok 0 0], lat := 2, prog := some .idle }
    can v rv pv && (v.env rv).prog = .idle &&
    let s := ready (.oadd ops2) 0 [(0, words [t]), (1, words [t])]
    let d := List.replicate 3 (wordTok 0 0)
    let p : Plan := { o0 := d, o1 := d, lat := 2, prog := some .idle }
    can s { ops := ops2 } p && (s.env { ops := ops2 }).prog = .idle && sdParse (s.env { ops := ops2 }).av = some ([1, 0, -2], true) &&
    sdParse (s.env { ops := ops2 }).bv = some ([1, 0, -2], true)) = true := by
  decide +kernel
/-- 1·16 + 0·4 − 2 = 14, twice is 28. -/
theorem test_sdval : let i := Instr.sdval ops1 false
    started i (ready i 0 [(0, words [sdToken [1, 0, -2] true])]) (fun f => f.o0 = [wordTok 14 0]) = true := by decide +kernel
theorem test_oadd : let t := sdToken [1, 0, -2] true
    sdValue 0 (oaddAll [2, 0, -4]) = 28 ∧ sdParse t = some ([1, 0, -2], true) := by decide +kernel
theorem test_online_sums : (∀ t, t ∈ [4, -4, 3] → -4 ≤ t ∧ t ≤ (4 : Int)) ∧ ((-10 : Int).natAbs ≤ 2 * (4 ^ 2 - 1) / 3) := by decide +kernel

/-- Steering: one record and a group of two, a merge, GATE with a control token and with credit. -/
theorem wit_steer : (let o : Ops := { ops1 with d1 := .queue 8 0 false }
    let ro : FireReq := { ops := o, ctl := true, verify := false }
    let s := ready (.gate ops1 3) 0 [(0, words [5])] [.ctl true]
    let u := ready (.gate ops1 3) 0 [(0, words [5])] [] [] [(0, .credit 2)]
    let rg : FireReq := { ops := ops1, verify := false, own := true }
    canN (ready (.steer o false 0) 0 [(0, words [5])] [.ctl true]) ro 1 &&
    canN (ready (.steer o true 1) 0 [(0, words [5, 6])] [.ctl false]) { ro with own := true } 2 &&
    canN (ready (.merge ops2 0) 0 [(0, words [5]), (1, words [6])] [.ctl true]) { ops := ops2, ctl := true, verify := false, own := true } 1 &&
    canN s rg 1 && (firstFree (s.env rg).nd.ctl.toks).isSome && canN u rg 1 && firstFree (u.env rg).nd.ctl.toks = none &&
    creditOf (u.env rg).prog ≠ 0) = true := by
  decide +kernel
/-- MERGE2: both heads run ends, either one, and neither, and with a control token; a marker at either head and at both. -/
theorem wit_merge2 : (let e := fun (a b : BitVec 24) => ready (.merge2 ops2 .n32 false none) 0 [(0, queueOf [wordTok 1 a]), (1, queueOf [wordTok 2 b])]
    let r : FireReq := { ops := ops2, verify := false, own := true }
    canN (e 0xFFFFFF 0xFFFFFF) r 1 && canN (e 0xFFFFFF 0) r 1 && canN (e 0 0xFFFFFF) r 1 && canN (e 0 0) r 1 &&
    let m := fun (a b : Tok) => ready (.merge2 ops2 .n32 false none) 1 [(0, queueOf [a]), (1, queueOf [b])]
    canN (ready (.merge2 ops2 .x false none) 0 [(0, words [1]), (1, words [2])] [.ctl true]) r 1 &&
    canN (m (.mark 0 false) (wordTok 1 0)) r 1 && canN (m (wordTok 1 0) (.mark 0 false)) r 1 &&
    (let b := { m (.mark 0 false) (.mark 0 false) with locus := ⟨nodeAt 1, 2⟩ }
     canN (b.setNode (nodeAt 1) { b.node (nodeAt 1) with seq := 2 }) r 1)) = true := by
  decide +kernel
theorem test_merge2 : let i := Instr.merge2 ops2 .n32 false none
    started i (two i 3 2) (fun f => f.o0 = [wordTok 2 0]) = true ∧ started i (two i 2 2) (fun f => f.o0 = [wordTok 2 0]) = true := by decide +kernel
theorem test_steer : let i := Instr.steer { ops1 with d1 := .queue 8 0 false } false 0
    started i (ready i 0 [(0, words [5])] [.ctl true]) (fun f => f.o0 = [] && f.o1 = [wordTok 5 0]) = true := by decide +kernel

/-- RMERGE with the expected record in its store, and with a record to take; SINK, ENDRUN, KCHK without and with a key
that kills, MARK; the loop; KILL with and without a KCHK slot to reach. -/
theorem wit_order : (let i := Instr.rmerge ops2 8 0
    let s := ready i 0 [] [] [] [(0, .rmerge 0 [(0, [{ tok := wordTok 5 0 }])])]
    let r : FireReq := { ops := ops2, verify := false, own := true }
    let u := ready i 0 [(0, queueOf [wordTok 5 1])]
    let x := (rmergeSt ((u.node (nodeAt 0)).prog 0)).1
    canN s r 1 && ((storeGet 0 (rmergeSt (s.env r).prog).2).map fun t => t.length) = some 1 &&
    u.instrAt ⟨nodeAt 0, 0⟩ = some i && u.rowRuns row0 && !(u.node (nodeAt 0)).closed && x = 0 &&
    (match (u.node (nodeAt 0)).group 0 1 with | .toks [t] => t.tag = 1 | _ => false)) = true := by
  decide +kernel
theorem wit_sink_mark : (let s := ready (.sink { a := .pop 0 }) 0 [(0, words [5])]
    let k := ready (.kchk ops1) 0 [(0, queueOf [wordTok 5 9])] [] [] [(0, .keys [(9, 0)])]
    let m := ready (.mark ops1) 0 [(0, words [5])]
    let r : FireReq := { ops := ops1, verify := false }
    let rk : FireReq := { r with serial := true, close := true }
    can s r (oneToken 1 (wordTok 0 0)) && can k r (oneToken 1 (wordTok 0 0)) &&
    ((keysOf (k.env r).prog).all fun x => killsTok x.1 x.2.toNat (k.env r).a) && ((keysOf (s.env r).prog).isEmpty) &&
    can m rk (oneToken 1 (wordTok 0 0)) && !(m.env rk).nd.hasCounts && !(m.env rk).nd.closed) = true := by
  decide +kernel
theorem wit_loops : (let l := ready (.loopin ops2 2) 0 [(1, words [5])]
    let n := ready (.loopin ops2 2) 0 [(0, words [5])]
    let k := ready (.kill ops1 0) 0 [(0, words [5])]
    let kc := k.setNode (nodeAt 1) { store := [(0, ((encode (.kchk ops1)).getD 0 0, none))] }
    let r : FireReq := { ops := ops2, verify := false, serial := true, own := true }
    can l r (oneToken 1 (wordTok 0 0)) && (l.env r).nd.record 1 = some (.word 5 0 0) && (loopinSt (l.env r).prog).2 = none &&
    can n r (oneToken 1 (wordTok 0 0)) && (n.env r).nd.record 1 = none && (n.env r).nd.record 0 = some (.word 5 0 0) &&
    can (ready (.loopout ops1 0) 0 [(0, words [5])] [.ctl true]) { ops := ops1, ctl := true, verify := false, serial := true }
      (oneToken 1 (wordTok 0 0)) &&
    can k { ops := ops1, verify := false, serial := true } (oneToken 1 (wordTok 0 0)) &&
    k.killTargets 0 7 = ([], []) && kc.killTargets 0 7 = ([⟨nodeAt 1, 0⟩], [])) = true := by
  decide +kernel

/-! ## Lane and matrix instructions (R125-R164) -/

/-- A beat of 32 equal words. -/
def splat (w : Nat) : Beat := packBeat 32 (List.replicate 32 w)
def lane2 (i : Instr) (a b : Nat) : State := ready i 32 [(0, beats [splat a]), (1, beats [splat b])]

theorem test_vadd : let i := Instr.vadd ops2 .f32 .rne
    started i (lane2 i 0x3F800000 0x40000000) (fun f => f.o0 = [beatTok (splat 0x40400000)] && f.doneAt = 3) = true := by decide +kernel
theorem test_vsub_i32 : let i := Instr.vsub ops2 .i32 .rne
    started i (lane2 i 1 2) (fun f => f.o0 = [beatTok (splat 0xFFFFFFFF)]) = true := by decide +kernel
theorem test_vmax_i32 : let i := Instr.vmax ops2 .i32
    started i (lane2 i 0xFFFFFFFF 1) (fun f => f.o0 = [beatTok (splat 1)]) = true := by decide +kernel
theorem test_vcmp : let i := Instr.vcmp ops2 .f32 .lt
    started i (lane2 i 0x3F800000 0x40000000) (fun f => f.o0 = [beatTok (splat 0xFFFFFFFF)]) = true := by decide +kernel
/-- A reduction over a group of one beat: 32 ones sum to 32. -/
theorem test_vredadd : let i := Instr.vredadd ops1 .i32 .rne none
    started i (lane2 i 1 0) (fun f => (f.o0.map Tok.word32) = [32] && f.doneAt = 8) = true := by decide +kernel

/-- Lane forms with two and with three sources, and a reduction's group of one beat and of two. -/
theorem wit_lane : (let r : FireReq := { ops := ops2 }
    let s := lane2 (.vadd ops2 .f32 .rne) 1 2
    let g : Group := ⟨0, 2⟩
    can s r (oneToken 3 (wordTok 0 0)) &&
    can (ready (.vsel { ops2 with b := .pop 1 } .f32 (.pop 2)) 32 [(0, beats [splat 1]), (1, beats [splat 2]), (2, beats [splat 3])])
      { ops := ops2, c := some (.pop 2) } (oneToken 3 (wordTok 0 0)) &&
    (groupOf (s.env r).prog).n + 1 = spanOf none && (groupOf (s.env r).prog).n + 1 ≠ spanOf (some g)) = true := by
  decide +kernel

/-- A tile slot that can be read, and a beat to write to one. -/
theorem wit_tiles : (let t : Tile := ⟨0, 0, 0⟩
    let s := ready (.vtld ops1 t) 32 [(0, beats [splat 1])]
    let u := ready (.vtst ops1 t) 32 [(0, beats [splat 1])]
    let r : FireReq := { ops := ops1 }
    can s { r with verify := false } (oneToken 2 (wordTok 0 0)) && !((s.env r).nd.fly.any (writesTile t.tile)) &&
    s.tileErr row0 0 0 = none && can u r (oneToken 2 (wordTok 0 0)) && Memory.wf u.regf) = true := by
  decide +kernel
theorem test_vtst : let i := Instr.vtst ops1 ⟨0, 0, 0⟩
    leads (exec i (ready i 32 [(0, beats [splat 7])])) (fun u => u.readTile row0 0 0 = splat 7) = true := by decide +kernel

/-! A matrix control token holds OPV, VAR, the shape and ACC (R148). -/

/-- A state with a control token word at the head of queue 3 of the matrix node. -/
def mx (i : Instr) (t : Word) : State := ready i 33 [(0, beats [splat 1]), (1, beats [splat 1]), (3, words [t])]

def mxCan (i : Instr) (o : Ops) (t : Word) (opv : Nat) : Bool :=
  let s := mx i t
  let r := mxReq o
  let e := s.env r
  can s r (mxSteps t) && linkReady e o && e.nd.engineFree .array && e.nd.engineFree .loader && e.nd.engineFree .drain &&
    (e.nd.head 3).map (fun q => q.tok.word32) = some t && tokOpv t = opv && t.toNat % 2 ^ 15 = 0

/-- MMA, MREC, MSTAT, MSCALE, MDRAIN with their tokens; MSWAP, MZERO and MPAIR with each value of VAR. -/
theorem wit_matrix : (let o : Ops := { a := .pop 0, d0 := .ctl 9 }
    let z : Ops := { a := .zero, d0 := .ctl 9 }
    let once := fun (i : Instr) (t : Word) => can (mx i t) { mxReq o with serial := true } (oneToken 1 (wordTok (t ||| 1) 0))
    mxCan (.mma o .bf16 .bf16) o 0x00030000 0 && tokK 0x00030000 ≤ MFmt.maxK .bf16 && mxCan (.mrec o .bf16 .bf16 0) o 0x51030000 5 &&
    tokVar 0x51030000 < tokM 0x51030000 && mxCan (.mstat o .bf16) o 0x10030000 1 && mxCan (.mscale o) z 0x70000000 7 &&
    can (mx (.mdrain o none) 0x30000000) (mxReq o) { mxSteps 0x30000000 with o0 := [], n0 := 0 } &&
    ({ reel := { block := some ⟨{ banks := 1 }, [], 0⟩ } } : Row).tileOk 1 &&
    [0x20000000, 0x21000000, 0x22000000].all (fun t => once (.mswap o) t) && [0x40000000, 0x41000000, 0x42000000].all (fun t => once (.mzero o) t) &&
    [0x60000000, 0x61000000].all (fun t => once (.mpair o) t) && ((mx (.mpair o) 0x60000000).node ((mx (.mpair o) 0).pairNode (nodeAt 33))).pairWait = none) = true := by
  decide +kernel
/-- Tokens that fail each check: another OPV, a reserved bit, VAR, k too large for BF16. -/
theorem wit_matrix_checks : (let o : Ops := { a := .pop 0, d0 := .ctl 9 }
    let i := Instr.mma o .bf16 .bf16
    [0x10030000, 0x00030001, 0x01030000, 0x00040000].all fun t => can (mx i t) (mxReq o) (mxSteps t)) = true := by
  decide +kernel
theorem test_matrix_checks : let i := Instr.mma { a := .pop 0, d0 := .ctl 9 } .bf16 .bf16
    [0x10030000, 0x00030001, 0x01030000, 0x00040000].map (fun t => faulted i (mx i t)) =
      [some 0x040, some 0x043, some 0x042, some 0x041] := by decide +kernel
theorem test_mma_starts : let i := Instr.mma { a := .pop 0, d0 := .ctl 9 } .bf16 .bf16
    started i (mx i 0x00030000) (fun f => f.await = .steps && f.o0 = [wordTok 0x00030001 0]) = true := by decide +kernel

/-- The state in which the first row step of MMA, MREC, MSTAT and MDRAIN takes effect. -/
def stepping (i : Instr) (t : Word) : State :=
  match exec i (mx i t) with
  | .next u => u
  | _ => State.reset

theorem wit_matrix_steps : (let o : Ops := { a := .pop 0, d0 := .ctl 9 }
    let ok := fun (i : Instr) (t : Word) =>
      let s := stepping i t
      let n := nodeAt 33
      let f := firingOf s n
      f.id = 1 && (s.node n).firing 1 = some f && f.await = .steps && f.step < mxCount f.ins f.a && f.ins = i &&
      (match stepTok (s.node n) 1 (mxSrcs i t).1, stepTok (s.node n) 1 (mxSrcs i t).2 with
        | some ta, some tb => !ta.isMark && !tb.isMark && ta.badCheck = none && tb.badCheck = none
        | _, _ => false)
    ok (.mma o .bf16 .bf16) 0x00030000 && ok (.mrec o .bf16 .bf16 0) 0x50030000 && ok (.mstat o .bf16) 0x10030000 &&
    ok (.mdrain o (some 0)) 0x32000000) = true := by
  decide +kernel

/-! ## Port instructions (R235-R256) -/

/-- A stream literal: element size 2^esz bytes, one dimension more than `dims`, no window, engine bank 2. -/
def slit (esz : BitVec 3) (dims : BitVec 2) : StreamLit := ⟨0, 31, 2, .cluster, 0, false, 0, esz, dims, 0⟩

/-- A state of the memory port with stream 0 of 16 elements from 2^20, stream 1 after it, a queue bank 2 with an engine's
two segments, a window bank 1, and every bank granted. -/
def port (i : Instr) (esz : BitVec 3) (qs : Tbl Queue) : State :=
  let s := ready i 34 qs
  let g := { s.region 0 0 with sbanks := 0xFFFFFF, own := [(3, ⟨0x200000, 0x2000FF, false, 0, 0, false⟩), (5, ⟨0x300000, 0x3000FF, false, 1, 0, true⟩)] }
  let st : Stream := { lit := slit esz 0, base := 0x100000, dims := [(16, 2 ^ esz.toNat)] }
  let s0 : Tbl Stream := [(0, st), (1, { st with base := 0x110000 }), (2, { st with lit := { slit esz 0 with wbank := 1 } }),
    (3, { st with base := 0x200000, own := some 3 })]
  let seg : List Seg := [{ esz := 64, depth := 16 }, { esz := 128, depth := 16, jobs := [{ n := nodeAt 34, fid := 0, cls := [], gen := 3, owner := 7, gath := true, op := .cpy, src := 0, sbank := false, len := 64, scope := .cluster }] }]
  let s1 := (s.setRegion 0 0 g).setRow row0 { s.row row0 with ports := [(0, { streams := s0 }), (34, { streams := s0 })] }
  s1.setCluster 0 0 { banks := [(2, { mode := .queue, segs := seg }), (1, { mode := .window, wins := [⟨0, 0, []⟩] })] }

def opsP : Ops := { a := .pop 0, b := .pop 1, d1 := .queue 9 0 false }
def opsV : Ops := { a := .pop 0, d0 := .queue 9 0 false, d1 := .queue 9 1 false }

def accOk (s : State) (st : Stream) (op : AccOp) (el : Nat) : Bool :=
  match s.mkAcc (nodeAt 34) 0 st op el 0 0 with | .ok a => (s.node s.locus.nd).entries < 16 && !(s.port s.locus.nd).stops a && !(a.op.writes && (s.port s.locus.nd).full) | .error _ => false

theorem wit_port_starts : (let s := port (.ld opsV 0 false) 2 [(0, words [3])]
    let u := port (.st opsP 0 false) 2 [(0, words [15]), (1, words [7])]
    let v := port (.scat opsP 0 false) 7 [(0, words [3]), (1, beats [7])]
    let w := port (.atom opsP 0 .add (.pop 2)) 2 [(0, words [3]), (1, words [7]), (2, words [1])]
    let st := fun (x : State) => ((tget (x.port (nodeAt 34)).streams 0).getD { lit := slit 2 0 })
    canN s { ops := opsV } 1 && accOk s (st s) .load 3 && canN u { ops := opsP } 1 && accOk u (st u) (.store [7, 0, 0, 0] none) 15 &&
    canN v { ops := opsP } 1 && (v.env { ops := opsP }).b.isBeat && accOk v (st v) (.store (natBytes' 128 7) none) 3 &&
    canN w { ops := opsP, c := some (.pop 2) } 1 && accOk w (st w) (.atom .add 7 1) 3 &&
    canN v { ops := { opsP with b := .zero } } 1 && (match v.engine row0 (slit 7 0) with | .ok (_, _, a, _) => a.jobs.length < a.depth | _ => false)) = true := by
  decide +kernel
/-- The first and last elements of a stream of two dimensions and the one beyond; an address below 0, and in a bank. -/
theorem wit_stream_address : (let st : Stream := { lit := slit 2 1, base := 0x100000, dims := [(4, 4), (2, 64)] }
    let neg : Stream := { lit := slit 2 0, base := 0, dims := [(4, -4)] }
    okOf (st.elemAt 0) = some 0x100000 && okOf (st.elemAt 7) = some 0x10004C && errOf (st.elemAt 8) = some 0x084 &&
    errOf (neg.elemAt 1) = some 0x080 && okOf (neg.elemAt 0) = some 0) = true := by
  decide +kernel
theorem test_ld : let i := Instr.ld opsV 0 false
    started i (port i 2 [(0, words [3])]) (fun f => (f.acc.map fun a => (a.addr, a.size)) = [(0x10000C, 4)]) = true := by decide +kernel

/-- A port firing whose one access stands at its home. -/
def atHome (i : Instr) (op : AccOp) (h : Home) (size : Nat) : State × Firing × Access :=
  let a : Access := { id := 0, op := op, addr := 0x100000, size := size, bank := false, psz := 16, phase := .home h, gen := 3 }
  let f : Firing := { id := 1, slot := 0, ins := i, undo := ⟨0, none, {}, .idle, [], []⟩, await := .access, acc := [a] }
  let s := port i 2 []
  (s.setNode (nodeAt 34) { s.node (nodeAt 34) with fly := [f], nid := 2 }, f, a)

def performs (x : State × Firing × Access) (h : Home) : Bool :=
  let s := x.1
  let n := nodeAt 34
  (s.node n).firing 1 = some x.2.1 && x.2.2.phase = .home h && x.2.2.win = none && x.2.2.gen = s.genOf row0 && s.rowRuns row0 && !(s.node n).storeBehind x.2.1 x.2.2 &&
    s.hub.parity = [] && s.homeErr h x.2.2.size = none && decide (s.correct h x.2.2.size = s) && decide s.memOk && (s.node n).portTurn x.2.1

/-- A load and an ATOM in HBM, a store there and one at the end of a line of SRAM bank 0. -/
theorem wit_memory_replies : (let h : Home := .hbm 0x1003C
    let b : Home := .sram 0 0 0 60
    performs (atHome (.ld opsV 0 false) .load h 4) h && performs (atHome (.st opsP 0 false) (.store [1, 2, 3, 4] none) h 4) h &&
    performs (atHome (.st opsP 0 false) (.store [1, 2, 3, 4] none) b 4) b && performs (atHome (.atom opsV 0 .add (.pop 2)) (.atom .add 7 1) h 4) h &&
    0x1003C % 64 + 4 ≤ 64 && 60 % 64 + 4 ≤ 64) = true := by
  decide +kernel
theorem test_store_reply : (let h : Home := .hbm 0x1003C
    let x := atHome (.st opsP 0 false) (.store [1, 2, 3, 4] none) h 4
    leads (exec (.memoryReply (nodeAt 34) 1) x.1) fun u => u.readHome h 4 = [1, 2, 3, 4]) = true := by
  decide +kernel
theorem test_atomic : [atomVal .minI 0xFFFFFFFF 1 0, atomVal .minN 0xFFFFFFFF 1 0, atomVal .cas 5 9 5, atomVal .cas 5 9 4] =
    [some 0xFFFFFFFF, some 1, some 9, none] := by decide +kernel

theorem wit_port_control : (let bm : BankModeLit := ⟨0, .cluster, 0, 0, 0, 0, 0⟩
    let s := port (.fence opsV 1 .cluster) 7 [(0, words [64]), (1, words [0])]
    let ra : FireReq := { ops := { opsV with b := .pop 1 } }
    let a := port (.ownAcq opsV) 2 [(0, words [0x80070005])]
    let c := port (.bmode opsV bm) 2 [(0, words [3]), (1, words [0])]
    let n := nodeAt 34
    let sw := fun (k : Nat) => (tget (s.port n).streams k).getD { lit := slit 7 0 }
    canN s ra 1 && s.ownEntry n 3 = some 3 && s.ownEntry n 0 = none && canN a { ops := opsV } 1 &&
    (match a.regionOf row0 with | some (_, g) => g.handed 0x80070005 = some 5 | none => false) &&
    StreamLit.window (sw 2).lit = some (1, 0) && s.holdsBank row0 1 &&
    canN c ra 1 && c.holdsBank row0 3 && (c.bankOf 0 0 3).pend = none && (c.bankOf 0 0 3).segs.all (fun g => !g.placed) &&
    (match s.engine row0 (sw 0).lit, cpyPicks 0 1 (sw 0) (sw 1) with
      | .ok (_, _, a, z), .ok (x, y, _) => a.jobs.length < a.depth && !z.jobs.isEmpty &&
        (okOf (s.mkAcc n 0 (sw 0) .other x 0 0)).isSome && (okOf (s.mkAcc n 1 (sw 1) .other y 1 0)).isSome
      | _, _ => false) &&
    s.ownedBad n 0x100000 64 false 0 = none && s.ownedBad n 0x110000 64 false 0 = none &&
    canN s { ops := { opsV with b := .pop 1, a := .zero } } 1) = true := by
  decide +kernel

theorem wit_stream_definitions : (let sl := slit 2 0
    let o : Ops := { a := .pop 0 }
    let s := port (.sdef o 0 sl) 2 [(0, words [4])]
    let p := fun (w : List Word) (v : Word) => ready (.sdef o 0 sl) 34 [(0, words [v])] [] [] [(0, .words w)]
    let last := p [0x100000, 0, 16] 4
    let run := p [0x100000, 0, 2] 256
    let st : Stream := { affine (slit 4 0) [0x100000, 0] with stride := 256 }
    let f : Firing := { id := 1, slot := 0, ins := .sdef o 0 sl, undo := ⟨0, none, {}, .idle, [], []⟩, a := 4 }
    let done := last.setNode (nodeAt 34) { last.node (nodeAt 34) with fly := [f], nid := 2 }
    can s { ops := o } (oneToken 1 (wordTok 0 0)) && can last { ops := o } (oneToken 1 (wordTok 0 0)) &&
    can run { ops := o } (oneToken 1 (wordTok 0 0)) && sdefCount sl = 4 && sdefBad last row0 (affine sl [0x100000, 0, 16, 4]) = none &&
    baseBad run row0 st = none && st.base % 16 = 0 && st.stride % (st.esize : Int) = 0 && (okOf (runAccs run (nodeAt 34) 0 st 0 2)).isSome &&
    (done.node (nodeAt 34)).firing 1 = some f && done.mayComplete (nodeAt 34) f && done.completes (nodeAt 34) f && done.lateRoom f &&
    !(done.node (nodeAt 34)).usesStream f 0) = true := by
  decide +kernel

/-! ## Hub, tree, cell and system instructions -/

/-- Owner 7 with a mapped space: virtual addresses below 2^26 lie at 2^26 of HBM, writable. -/
def mapped (s : State) : State :=
  let o : Owner := { valid := true, maint := true, root := 0x100000, fqbase := 0x10000, hostnode := 9 }
  let pte := fun (a : Nat) (e : Nat) (m : Memory) => Memory.writeN m a (natBytes' 8 e)
  { s with hbm := pte 0x200000 (2 ^ 63 + 2 ^ 61 + 0x80 + 2 ^ 26) (pte 0x100000 (2 ^ 63 + 0x200000) s.hbm),
           hub := { s.hub with owners := (7, o) :: s.hub.owners, ready := true } }

/-- A mapped state of a port with sequence slot 2 and notify register 5 of its owner. -/
def hubS (i : Instr) (qs : Tbl Queue) (pins : List Word := []) : State :=
  let s := mapped (ready i 34 qs)
  let x : SeqSlot := { bound := true, owner := 7, e1 := 7, rbase := 0x4000, pins := pins, ring := [0x11, 0x22] }
  { s with hub := { s.hub with slots := [(2, x)], grants := [(5, 7)], notify := [(5, 9)] } }

theorem test_walk : ((mapped State.reset).xlate 7 0x4008 true |> okOf) = some 0x4004008 := by decide +kernel

/-- NOTIFY and WAITN on a register that is reached and one that is not, RANDT and RNGSET, RING.PUT with room. -/
theorem wit_hub_starts : (let o : Ops := { a := .pop 0, b := .pop 1, d0 := .queue 9 0 false, d1 := .queue 9 1 false }
    let s := hubS (.waitn o) [(0, words [5]), (1, words [9])]
    let w := hubS (.waitn o) [(0, words [5]), (1, words [10])]
    let r := hubS (.randt o false) [(0, words [2]), (1, words [3])]
    let p := hubS (.ringPut o (.pop 2)) [(0, words [2]), (1, words [3]), (2, words [4])]
    let e := fun (x : State) => x.env { ops := o }
    canN s { ops := o } 1 && s.granted 5 7 && (s.notifyVal 5 - (e s).bv).toNat < 2 ^ 31 && 2 ^ 31 ≤ (w.notifyVal 5 - (e w).bv).toNat &&
    canN w { ops := o } 1 && (tgetD w.hub.waits 5 []).length < 16 && canN r { ops := o } 1 && r.slotOwned 2 7 &&
    canN p { ops := o, c := some (.pop 2) } 1 && okOf (p.readVa1 7 0x4008) = some 0) = true := by
  decide +kernel

/-- A firing that has its results and completes. -/
def completing (i : Instr) (a b : Word) (pins : List Word) : State × Firing :=
  let f : Firing := { id := 1, slot := 0, ins := i, undo := ⟨0, none, {}, .idle, [], []⟩, a := a, b := b, data := [7], o0 := [wordTok 1 0] }
  let s := hubS i [] pins
  (s.setNode (nodeAt 34) { s.node (nodeAt 34) with fly := [f], nid := 2 }, f)

theorem wit_hub_effects : (let o : Ops := { a := .pop 0, b := .pop 1 }
    let ok := fun (x : State × Firing) => (x.1.node (nodeAt 34)).firing 1 = some x.2 && x.1.mayComplete (nodeAt 34) x.2 &&
      x.1.completes (nodeAt 34) x.2 && decide x.1.memOk
    let put := completing (.ringPut o (.pop 2)) 2 3 []
    ok (completing (.notifyAdd o) 5 3 []) && ok (completing (.notifySet o) 5 3 []) && ok (completing (.rngset o) 2 3 [1]) &&
    ok (completing (.rngsetClr o) 2 0 [1]) && ok put && ok (completing (.ringPub o) 2 0 []) &&
    (match tget put.1.hub.slots 2 with | some x => ringRoom x 0 | none => false) && okOf (put.1.xlate 7 0x4040 true) = some 0x4004040 &&
    !((completing (.ringPub o) 2 0 []).1.putsBefore (nodeAt 34) (completing (.ringPub o) 2 0 []).2)) = true := by
  decide +kernel
theorem test_notify_add : (let x := completing (.notifyAdd { a := .pop 0, b := .pop 1 }) 5 3 []
    leads (exec (.firingCompletion (nodeAt 34) 1) x.1) fun u => u.notifyVal 5 = 12) = true := by decide +kernel
theorem test_ring_put : (let x := completing (.ringPut { a := .pop 0, b := .pop 1 } (.pop 2)) 2 3 []
    leads (exec (.firingCompletion (nodeAt 34) 1) x.1) fun u => Memory.readN u.hbm 0x4004040 8 = [3, 0, 0, 0, 7, 0, 0, 0]) = true := by decide +kernel

/-- A mapped state of the descent node: a pool of 8 records of 4096 bytes on stream 0 of the port, whose record 1 is the
descriptor of an empty tree of 64 dimensions, leaves of 2 tokens and fan-out 2, and record 2 heads the free list. -/
def treeS (i : Instr) (qs : Tbl Queue) (d : Desc) (w5 : Nat := 0) : State :=
  let s := mapped (ready i 37 qs)
  let st : Stream := { lit := { slit 7 0 with pgsz := 2 }, run := true, base := 0x300000, runs := [(0x300000, 0, 8)], stride := 4096 }
  let at_ := fun (j : Nat) (ws : List Nat) (m : Memory) => Memory.writeN m (0x4300000 + 4096 * j) (w32Bytes ws)
  let m := at_ 0 [word0 kPool 0 0 0, 8, 2, 1] (at_ 1 [word0 kDesc 0 0 1, 0, 0, 0, 3, w5, 2 ^ 24 + 2 * 2 ^ 19 + 2 * 2 ^ 15 + 2 * 2 ^ 11] (at_ 2 [word0 kFree 0 0 0]
    (at_ 3 [word0 kTail 0 0 0, 0, 0, 0, 0, 1] s.hbm)))
  { s.setRow row0 { s.row row0 with ports := [(0, { streams := [(0, st)] }), (34, { streams := [(0, st)] })], desc := d } with hbm := m }

def opsT : Ops := { a := .pop 0, b := .pop 1, d0 := .queue 9 0 false, d1 := .queue 9 1 false }

/-- Operations on a tree start; those of a descent while one is in progress; TMASK while none is. -/
theorem wit_tree_starts : (let live : Desc := { live := true, desc := 1, q := List.replicate 64 0 }
    let s := treeS (.tseal opsT 0) [(0, words [1]), (1, words [0])] {}
    let l := treeS (.tacc opsT) [(0, words [1]), (1, words [0])] live
    let rb := descReq { opsT with b := .zero } (popQs [opsT.b])
    canN s rb 1 && canN s (descReq opsT) 1 && !((s.env (descReq opsT)).ownTree 0 1) && canN l (descReq opsT) 1 &&
    (l.env (descReq opsT)).ownTree 0 1 && canN l rb 1 && canN l (descReq { opsT with a := .zero, b := .zero } (popQs [opsT.a])) 1 &&
    can l (descReq opsT) { n0 := 3, n1 := 0 } && (l.row row0).desc.live && !(s.row row0).desc.live) = true := by
  decide +kernel

/-- A firing of the descent node in steps. -/
def stepT (i : Instr) (a b : Word) (d : Desc) : State × Firing :=
  let g : Firing := { id := 1, slot := 0, ins := i, undo := ⟨0, none, {}, .idle, [], []⟩, a := a, b := b, await := .steps }
  let f := { g with data := List.replicate 2 0, held := true }
  let s := treeS i [] d (2 ^ 31)
  (s.setNode (nodeAt 37) { s.node (nodeAt 37) with fly := [f], nid := 2 }, f)

def treeReady (x : State × Firing) : Bool :=
  (nodeAt 37).ok && (x.1.node (nodeAt 37)).firing 1 = some x.2 && x.1.rowRuns row0 && (x.1.node (nodeAt 34)).entries < 16 &&
    (match x.1.beatPlan (nodeAt 37) x.2 with | .ok (k, _) => k ≤ x.2.data.length | .error _ => false)

/-- TAPP, TSEAL and TPRUNE of an empty tree find no fault and do all their writes. -/
theorem wit_tree_mutations : ([Instr.tapp opsT 0, .tseal opsT 0, .tprune opsT 0].all fun i =>
    let x := stepT i 1 0 {}
    let c := x.2.ctx row0 0
    treeReady x && Instr.takesTree i = some (0, true) &&
    (match x.1.descRec c 1, x.1.treeCheck c x.2 with
      | .ok _, .ok (_, ops) => (match State.writePhase c ops x.1 with | (_, [], none) => true | _ => false)
      | _, _ => false)) = true := by
  decide +kernel

/-- A descent whose frontier holds one open node of the tree: TACC, TSEL, TSEL.ALL and TSCORE take their steps. -/
theorem wit_descent_steps : (let d : Desc := { live := true, desc := 1, q := List.replicate 64 0, o := List.replicate 64 0, bud := 4 }
    let ok := fun (i : Instr) (a : Word) => treeReady (stepT i a 0 d)
    let x := stepT (.tselOne opsT) 0 0 d
    let c := x.2.ctx row0 0
    ok (.tacc opsT) 0 && ok (.tselOne opsT) 0 && ok (.tselAll opsT) 0 && ok (.tscore opsT) 0 &&
    (match x.1.descRec c 1 with
      | .ok (s0, t) => (match dselect c t d { s := s0 } with | .ok ((_, b), _) => !b | .error _ => false)
      | .error _ => false)) = true := by
  decide +kernel
theorem test_running_sums : (let x : Desc := { q := [0x3F800000], m := 0, z := 0x3F800000, o := [0x3F800000] }
    let y := x.token [0] [0x40000000]
    (y.m, y.z, y.o) = (0, 0x40000000, [0x40400000])) := by decide +kernel

/-- A band of two stages over rows 0 and 1: lane 0 of each stage enters queue 0 of node 3. -/
def stage0 : StageEnt := ⟨0x8000, List.replicate 19 (12), 0, [], []⟩
def band0 : Band :=
  let pd : PlDesc := { d := 2, b := 2, choice := false, wrapN := 16, nfb := 0, fbN := 4, homeb := 0, stages := [stage0, stage0] }
  { b := 2, be := 2, region := 0, base := 0, live := [0, 1], desc := pd, waves := 2, launch := List.replicate 8 0,
    vtab := [0, 0, 0, 0, 0, 0, 0, 0] }

/-- Region 0 of die 0 holds a band. -/
def banded (s : State) (b : Band) : State :=
  s.setDie 0 { s.die 0 with bands := [(0, b)] }

def cell (i : Instr) (qs : Tbl Queue) : State := banded (mapped (ready i 36 qs)) band0
def cell2 (i : Instr) (a b : Word) : State := cell i [(0, words [a]), (1, words [b])]

/-- Counters, the LUT and the reads can fire; counter + 1 equal to the operand and not; the row's band. -/
theorem wit_cell_counters : (let s := cell2 (.cntStep ops2 0) 1 0
    let t := cell2 (.cntStep ops2 0) 2 0
    let r := cellReq ops2
    let c := fun (x : State) => tgetD ((x.row row0).cell.c) 0 0
    let u := banded s { band0 with mode := true }
    can s r (oneToken 1 (wordTok 0 0)) && c s + 1 = (s.env r).av && can t r (oneToken 1 (wordTok 0 0)) && c t + 1 ≠ (t.env r).av &&
    (s.env r).av.toNat ≤ 7 && (s.bandOf row0).isSome && can u r (oneToken 1 (wordTok 0 0)) &&
    (match u.bandOf row0 with | some (_, b) => b.mode && (u.env r).av.toNat < b.desc.d | none => false)) = true := by
  decide +kernel
theorem test_cnt_step : started (.cntStep ops2 0) (cell2 (.cntStep ops2 0) 1 0) (fun f => f.o0 = [wordTok 1 0]) = true ∧
    started (.cntStep ops2 0) (cell2 (.cntStep ops2 0) 2 0) (fun f => f.o0 = [wordTok 0 0]) = true := by decide +kernel

/-- LUT.SET writes the entry that the operand's low bits name, and LUT.GET reads it. -/
theorem test_lut : leads (exec (.lutSet ops2) (cell2 (.lutSet ops2) 0x13 5)) (fun u => tgetD (u.row row0).cell.lut 3 0 = 5) = true ∧
    started (.lutGet ops2) ((cell2 (.lutGet ops2) 3 0).setRow row0 { (cell2 (.lutGet ops2) 3 0).row row0 with cell := { lut := [(3, 7)] } })
      (fun f => f.o0 = [wordTok 7 0] && f.o1 = [wordTok 7 0]) = true := by
  decide +kernel

/-- A controller 0 without a parent, not armed; armed with an enable latched at position 0 and one done to come; open;
a slot held, permits held. -/
theorem wit_controllers : (let cfg : CtlCfg := ⟨0, 1, 0, 63, 0⟩
    let o : Ops := { a := .pop 0, b := .pop 1, d0 := .queue 9 0 false }
    let r := cellReq o
    let s := cell2 (.seq o cfg) 1 2
    let x : Ctl := { armed .pipe 3 cfg 63 ⟨nodeAt 36, 0⟩ { dst := .queue (nodeAt 9) 0 } 0 with e := [1, 0], latch := [(0, 0)] }
    let v := s.setCluster 0 0 { s.cluster 0 0 with ctls := [(0, x)] }
    let h := { v.hub with slots := [(1, { bound := true, owner := 7 })] }
    let w := { v.setDie 0 { v.die 0 with held := [(1, 2)], heldsum := 2 } with hub := h }
    let g := fun (y : State) => match y.regionOf row0 with | some (_, g) => ctlEntry g 0 = some 0 | none => false
    let leaf := fun (p : BitVec 3) => match leafRef (v.env r) 0 p with | .ok c y => c = 0 && y = x | _ => false
    can s r (oneToken 1 (wordTok 0 0)) && g s && (s.cluster 0 0).ctls = [] && leaf 0 && leaf 1 &&
    nth x.d 0 + donesUnderway (v.cluster 0 0).transit 0 0 + v.donesFiring 0 (v.region 0 0) 0 0 < nth x.e 0 &&
    can v r (oneToken 1 (wordTok 0 0)) && w.slotOwned 1 7 && (w.env r).bv.toNat ≤ tgetD (w.die 0).held 1 0 &&
    (match ctlRef (v.env r) 0 with | .ok c y => c = 0 && y = x && y.mode = .pipe && 1 < y.nch | _ => false)) = true := by
  decide +kernel
/-- A barrier of two arrivals, none there and one; an arrival that waits; a root's arming and a DONE that complete. -/
theorem wit_barriers : (let i := Instr.bar ops1 0 1
    let b : FireReq := { cellReq ops1 with late := true, serial := false }
    let s := cell i [(0, words [1])]
    let one := s.setRegion 0 0 { s.region 0 0 with bars := [(0, ⟨2, [(⟨⟨0, 0, 1⟩, 36⟩, 0)]⟩)] }
    let held := s.setNode (nodeAt 36) { s.node (nodeAt 36) with progs := [(0, .arrived 5)] }
    let cfg : CtlCfg := ⟨0, 1, 0, 63, 0⟩
    let x := armed .seq 3 cfg 63 ⟨nodeAt 36, 0⟩ {} 0
    let f := fun (i : Instr) => ({ id := 1, slot := 0, ins := i, undo := ⟨0, none, {}, .idle, [], []⟩ } : Firing)
    let fin := fun (i : Instr) => (s.setNode (nodeAt 36) { s.node (nodeAt 36) with fly := [f i], nid := 2 }).setCluster 0 0 { s.cluster 0 0 with ctls := [(0, x)] }
    let ok := fun (i : Instr) => ((fin i).node (nodeAt 36)).firing 1 = some (f i) && (fin i).mayComplete (nodeAt 36) (f i) && (fin i).completes (nodeAt 36) (f i)
    can s b { late := true } && can one b { late := true } && (tgetD (s.region 0 0).bars 0 ⟨2, []⟩).arr = [] &&
    (tgetD (one.region 0 0).bars 0 ⟨2, []⟩).arr.length = 1 && (s.env b).prog = .idle && held.instrAt ⟨nodeAt 36, 0⟩ = some i &&
    (held.node (nodeAt 36)).prog 0 = .arrived 5 && ok (.seq ops1 cfg) && ok (.done ops1 true 0 0) && (fin (.seq ops1 cfg)).ctlAt 0 0 0 = some x) = true := by
  decide +kernel
theorem test_permg : (let o : Ops := { a := .pop 0, b := .pop 1, d0 := .queue 9 0 false }
    let s := cell2 (.permg o) 1 2
    let h := { s.hub with slots := [(1, { bound := true, owner := 7 })] }
    let w := { s.setDie 0 { s.die 0 with held := [(1, 3)], heldsum := 3 } with hub := h }
    leads (exec (.permg o) w) fun u => tgetD (u.die 0).held 1 0 = 1 && (u.die 0).heldsum = 1) = true := by
  decide +kernel

/-- A mapped, banded state of node 0 whose record of faults holds record 4 of the region, with another frozen region 9. -/
def sys (i : Instr) (a b : Word) : State :=
  let s := banded (mapped (ready i 0 [(0, words [a]), (1, words [b])])) band0
  let s1 := s.setRegion 0 9 { valid := true, st := .frozen, owner := 7, cl := 1, nrows := 2 }
  { s1 with hub := { s1.hub with faults := [(7, { seq := 5, outs := [(4, { cause := 0x150, res := false, img := false })] })] } }

theorem wit_system : (let ok := fun (i : Instr) (a b : Word) => can (sys i a b) (sysReq ops2) (oneToken 1 (wordTok 0 0))
    let s := sys (.srd ops2) 0x1000 5
    let g := s.region 0 0
    let w : DWord := BitVec.ofNat 64 1
    let sub := Memory.writeN s.hbm 0x4000000 (natBytes' 8 w.toNat)
    ok (.srd ops2) 0x1000 5 && ok (.swr ops2) 0x8007 5 && ok (.capq ops2) 0 0 && ok (.gatecfgSet ops2) 2 0xFF00 && ok (.yield_ ops2) 0 0 &&
    (match s.sysReg row0 0x1000 with | .ro _ => true | _ => false) && (match s.sysReg row0 0x8007 with | .scr k => k = 7 | _ => false) &&
    (match s.sysReg row0 0x12000 with | .hidden => true | _ => false) &&
    (match ({ s with hbm := sub }).readVa1 7 0 with | .ok v => v = 1 | .error _ => false) && (s.die 0).queued < 256 &&
    (okOf (({ s with hbm := sub }).readVa 7 8 64)).isSome && (s.owner 7).maint && bankWord 0 0x0001 = some ⟨⟨0, 0, none⟩, 1⟩ &&
    bankWord 0 0x8000001B = none && s.varOk row0 0 0 && regionWord 0x009 = some (0, 9) && (s.region 0 9).st = .frozen &&
    (match s.resume 7 0 9 0 9 with | .ok _ => true | .error _ => false) && (match s.faultack 7 4 false, s.faultack 7 4 true with | .ok _, .ok _ => true | _, _ => false) &&
    errOf (s.faultack 7 3 false) = some 0x147 && s.regionOf row0 = some (0, g)) = true := by
  decide +kernel
theorem test_srd : started (.srd ops2) (sys (.srd ops2) 0x1000 0) (fun f => f.o0 = [wordTok 0x9410B040 0]) = true := by decide +kernel
theorem test_swr_read_only : faulted (.swr ops2) (sys (.swr ops2) 0x1000 5) = some 0x142 := by decide +kernel
/-- Selectors of DEVINFO and CTXOWN, one that no register has and one hidden. -/
theorem wit_system_registers : ([0x1000, 0x3000, 0x8008, 0x12000].all fun a =>
    let s := sys (.srd ops2) a 5
    can s (sysReq ops2) (oneToken 1 (wordTok 0 0)) && (s.env (sysReq ops2)).av = a && (s.regionOf row0).isSome &&
    (match s.sysReg row0 a with | .bad => a = 0x8008 | .hidden => a = 0x12000 | _ => true)) = true := by
  decide +kernel
theorem test_ctxown : started (.srd ops2) (sys (.srd ops2) 0x3000 0) (fun f => f.o0 = [wordTok 7 0]) = true := by decide +kernel
theorem test_srd_hidden : faulted (.srd ops2) (sys (.srd ops2) 0x12000 5) = some 0x141 := by decide +kernel

/-- TRAP and FRZ of the own region in a running region without a freeze; a fault there. -/
theorem wit_trap : (let s := sys (.trap ops1 0xF) 1 2
    let f := sys (.frz { ops1 with a := .zero }) 1 2
    let g := s.region 0 0
    can s (sysReq ops1) (oneToken 1 (wordTok 0 0)) && can f (sysReq { ops1 with a := .zero }) (oneToken 1 (wordTok 0 0)) &&
    s.regionOf row0 = some (0, g) && g.frz = none && g.st = .running && g.valid) = true := by
  decide +kernel
theorem test_trap : (match exec (.trap ops1 0xF) (sys (.trap ops1 0xF) 1 2) with
    | .next u => (u.freezeRec 0 0).map fun r => (r.cause, r.a) | _ => none) = some (0x15F, 1) := by decide +kernel

/-! ## Firings, frames, steps, encodings -/

/-- A firing with its results completes: to a queue of another node, and to an X register. -/
def finished (t : Target) (n : Nat) (o : List Tok) : State × Firing :=
  let f : Firing := { id := 1, slot := 0, ins := .add ops2 ⟨false, false, .w32⟩, undo := ⟨0, none, {}, .idle, [], []⟩ }
  let reg := t.dst = .reg (nodeAt 3) 2
  let g := { f with t0 := if reg then {} else t, t1 := if reg then t else {}, n0 := n, n1 := n, o0 := o, o1 := o }
  let s := ready f.ins 0 []
  (s.setNode (nodeAt 0) { s.node (nodeAt 0) with fly := [g], nid := 2 }, g)

theorem wit_completes : (let n := nodeAt 0
    let ok := fun (x : State × Firing) => (x.1.node n).firing 1 = some x.2 && x.1.mayComplete n x.2 &&
      x.1.completes n x.2 && (partsOf x.2.ins).isSome && (max 1 x.2.o0.length ≤ x.2.n0)
    ok (finished { dst := .queue (nodeAt 9) 0 } 1 [wordTok 5 0]) && ok (finished { dst := .reg (nodeAt 3) 2 } 1 [wordTok 5 0])) = true := by
  decide +kernel
theorem test_completes : (let x := finished { dst := .queue (nodeAt 9) 0 } 1 [wordTok 5 0]
    leads (exec (.firingCompletion (nodeAt 0) 1) x.1) fun u => ((u.node (nodeAt 9)).queue 0).toks.map (fun t => t.tok) = [wordTok 5 0]) = true := by
  decide +kernel

/-- A scalar instruction in the ranges of the frames, one whose guard fails, and words of each part of the round trip. -/
theorem wit_frames : (let i := Instr.add { ops2 with grd := .popT } ⟨false, false, .w32⟩
    let s := ready i 0 [(0, words [1]), (1, words [2])] [.ctl false]
    let r : FireReq := { ops := { ops2 with grd := .popT } }
    let nd := s.node (nodeAt 0)
    (partsOf i).isSome && s.offered s.locus nd false && r.ctlThere nd r.multi &&
    (popQs r.sels ++ peekQs r.sels).all nd.offers && r.fits nd.rep.offset && r.guardOff nd &&
    i.WellFormed && (Instr.ld opsV 0 false).WellFormed && (fwParts .readReport).isSome) = true := by
  decide +kernel
theorem test_guarded_off : (let i := Instr.add { ops2 with grd := .popT } ⟨false, false, .w32⟩
    started i (ready i 0 [(0, words [1]), (1, words [2])] [.ctl false]) fun f => f.off && f.o0 = []) = true := by decide +kernel

/-- A node's turn with an instruction, an event's turn, and a turn with nothing to offer. -/
theorem wit_steps : (let s := ready (.add ops2 ⟨false, false, .w32⟩) 0 [(0, words [1]), (1, words [2])]
    (s.node (nodeAt 0)).offer = some 0 && ({ s.node (nodeAt 0) with wait := some 1 }).offer = none &&
    (match tget (s.node (nodeAt 0)).store 0 with | some (w, _) => okOf (decodeWord {} w 0) = some (.add ops2 ⟨false, false, .w32⟩) | none => false)) = true := by
  decide +kernel
/-- ADD X0, X1: the first step after reset starts the word that withFetchWord stores; a firmware command is carried out. -/
theorem test_fetch_word : (match step (State.reset.withFetchWord 64 0x0100020949000000) with
    | .next u => (u.node (nodeAt 0)).fly.map fun f => f.ins | _ => []) =
      [.add { a := .x 0, b := .x 1, d0 := .queue 9 0 false } ⟨false, false, .w32⟩] := by decide +kernel
theorem test_fetch_command : (match step (State.reset.withFetchWord 512 (2 ^ 64 * 8 + 0x020C)) with
    | .next u => u.hub.outbox.length | _ => 0) = 1 := by decide +kernel

theorem wit_memory_form : State.reset.memOk := by decide +kernel

/-! ## Launches, replays and cores -/

/-- A ready device with the mapped space of owner 7, core 3 bound to it. -/
def dev : State :=
  let s := mapped State.reset
  { s with hub := { s.hub with cores := [(3, { owner := 7 })], grants := [(5, 7)], notify := [(5, 9)] } }

/-- A record of owner 7 with BAND 2 and one wave, and a graph record of one node and one replay, with their CRCs. -/
def withCrc (ws : List DWord) : List DWord := ws ++ [(crc32c (wordsBytes ws)).setWidth 64]
def recW : List DWord := withCrc [0x0070200000000001, 0x8000, 0, 0, 0, 0, 0]
def graphW : List DWord := withCrc [0x0070000100000001, 0x8000, 0x9000, 0xA000, 8, 0, 0]
def winW (ws : List DWord) : Tbl DWord := (upFrom 0 7).map fun i => (i, ws.getD i 0)

/-- Submissions that nothing stops, and one stopped by each check in its order. -/
theorem wit_launch_windows : (let w := fun (ws : List DWord) => ({ words := winW ws, gwords := winW ws } : LWin)
    let s := dev.setDie 0 { win := w recW }
    let g := dev.setDie 0 { win := w graphW }
    let cause := fun (x : State) (who : Agent) (ws : List DWord) => x.submitCause 0 who ws (recBad ws)
    let full := s.setDie 0 { s.die 0 with pq := List.replicate 256 { kind := .launch, words := recW, entered := 0 } }
    cause s (.node 9) recW = none && windowWords (tset (s.die 0).win.words 7 (recW.getD 7 0)) = recW &&
    g.submitCause 0 (.core 3) graphW (graphBad graphW) = none && cause State.reset (.node 9) recW = some 0x14A &&
    cause s (.node 8) recW = some 0x149 && cause s (.node 9) (withCrc [0x0070100000000001, 0, 0, 0, 0, 0, 0]) = some 0x01D &&
    cause s (.node 9) (recW.take 7 ++ [0]) = some 0x16A && cause full (.node 9) recW = some 0x066 && !State.reset.hub.ready) = true := by
  decide +kernel
theorem test_launch_submit : (let s := dev.setDie 0 { win := { words := winW recW } }
    leads (exec (.launchSubmit 0 (recW.getD 7 0) (.node 9)) s) fun u => (u.die 0).pq.length = 1 && (u.die 0).win.acc) = true := by
  decide +kernel

/-- A graph that can replay, notify offsets 0, 8 and 4, a register not granted, a sandbox core, a core's write. -/
theorem wit_replays_cores : (let g : Graph := { words := graphW, replays := 1 }
    let s := dev.setDie 0 { graphs := [(1, g)] }
    let o : Owner := { dev.owner 7 with sandbox := true }
    let sb := { s with hub := { s.hub with owners := [(7, o)], sbase := 0x10000000, ssize := 0x1000 } }
    !(s.die 0).graphBefore 1 g && !(s.die 0).graphWaits 1 && (match s.readVa 7 1 0x9000, s.readVa 7 8 0x8000, s.writeVa 7 [0] 0xA000 with
      | .ok _, .ok _, .ok _ => true | _, _, _ => false) &&
    s.coreOwner 3 = 7 && s.granted 5 7 && !s.granted 6 7 && (sb.owner 7).sandbox && 0xFFFFF0 < sb.hub.sbase &&
    edgeErr s (0x123, 4) = none && decide s.memOk && sb.sandboxOk true 0x10000FF0 16 && !sb.sandboxOk true 0x10000FF1 16) = true := by
  decide +kernel

/-! ## Waves, ingress, translation, engines, grants -/

/-- A node whose queue 0 holds the final marker of wave 3. -/
def marked (f : Node → Node) : State :=
  let s := ready (.add ops1 ⟨false, false, .w32⟩) 0 [(0, queueOf [.mark 3 true])]
  s.setNode (nodeAt 0) (f (s.node (nodeAt 0)))

theorem wit_waves : (let n := nodeAt 0
    let s := marked id
    let i := marked fun x => { x with progs := [(0, .oadd [1] 0)] }
    let c := marked fun x => { x with closed := true }
    let g := marked fun x => { x with closed := true, outs := [{ slot := 0, o0 := [wordTok 5 0] }] }
    let d := marked fun x => { x with closed := true, store := [(0, ((encode (.sink { a := .pop 0 })).getD 0 0, none))] }
    let p := ready (.add { ops1 with b := .peek 1 } ⟨false, false, .w32⟩) 0 [(1, queueOf [.mark 3 true])]
    let pk := p.setNode n { p.node n with fwd := some 3 }
    let kc := ready (.kchk ops1) 0 [(0, queueOf [wordTok 5 9])]
    let km := kc.setDie 0 { kc.die 0 with kills := [(4, ⟨9, 0, nodeAt 1, 1, [⟨n, 0⟩], []⟩)] }
    let bs := banded (ready (.sink { a := .pop 0 }) 3 []) band0
    let row := bs.row row0
    let ing := bs.setRow row0 { row with reel := { row.reel with hosts := true }, lanes := [(0, words [5])] }
    s.rowRuns row0 && !(s.node n).closed && !(s.node n).dry && (s.node n).fly = [] && (s.node n).allMarked && !(s.node n).holdsMarker &&
    (s.node n).interrupted = none && (i.node n).interrupted.isSome && (i.node n).allMarked &&
    g.instrAt ⟨n, 0⟩ = some (.add ops1 ⟨false, false, .w32⟩) && 1 ≤ g.destFree (.queue (nodeAt 9) 0) &&
    (pk.node n).deadMarks = [1] && (c.node n).deadMarks = [] && c.arcTargets n = [⟨.queue (nodeAt 9) 0, false, 0⟩] &&
    (c.node n).markHead = some (3, true) && c.canForward n && d.arcTargets n = [] && d.canForward n && 1 ≤ d.destFree (.queue (nodeAt 36) 3) &&
    (match ing.bandOf row0 with | some (_, b) => b.imap 0 0 = some (3, 0) | none => false) && (ing.row row0).reel.mapLoaded 0 && ing.rowRuns row0 &&
    (match tget (km.die 0).kills 4 with | some m => m.dst.contains ⟨n, 0⟩ | none => false) && (keysOf ((km.node n).prog 0)).length < 8) = true := by
  decide +kernel
theorem test_marker_forward : (let c := marked fun x => { x with closed := true }
    leads (exec (.markerForward (nodeAt 0)) c) fun u => ((u.node (nodeAt 9)).queue 0).toks.map (fun t => t.tok) = [.mark 3 true]) = true := by
  decide +kernel
theorem test_kill_arrival : (let kc := ready (.kchk ops1) 0 [(0, queueOf [wordTok 5 9, wordTok 5 8])]
    let km := kc.setDie 0 { kc.die 0 with kills := [(4, ⟨9, 0, nodeAt 1, 1, [⟨nodeAt 0, 0⟩], []⟩)] }
    leads (exec (.killArrival ⟨nodeAt 0, 0⟩ 4) km) fun u => ((u.node (nodeAt 0)).queue 0).toks.map (fun t => t.tok) = [wordTok 5 8]) = true := by
  decide +kernel

/-- A mapped port state in which a firing waits on one access of 4 bytes at 0x100000 through its TLB. -/
def waiting (p : AccPhase) (f : Die → Die) : State :=
  let x := atHome (.ld opsV 0 false) .load (.hbm 0) 4
  let a := { x.2.2 with phase := p, psz := 26 }
  let s := mapped (x.1.setNode (nodeAt 34) { x.1.node (nodeAt 34) with fly := [{ x.2.1 with acc := [a] }] })
  s.setDie 0 (f (s.die 0))

/-- A hit, a miss with a free walk and with none, a walk that ends, a starved region, a line to fill, a bank to switch. -/
theorem wit_translations : (let sl := sliceOf 7 0x100000 26
    let e : TlbEnt := ⟨7, 26, 0, 2 ^ 26, true⟩
    let w : Walk := ⟨7, 0x100000, 26, false⟩
    let n := nodeAt 34
    let hit := waiting .translate fun d => { d with tlb := [(sl, [e])] }
    let miss := waiting .translate id
    let full := waiting .translate fun d => { d with walks := [(sl, List.replicate 8 ⟨9, 0, 16, false⟩)] }
    let walk := waiting .walking fun d => { d with walks := [(sl, [w])] }
    let here := fun (s : State) => ((s.die 0).slice sl).find? fun y => y.is 7 26 0 && y.wr
    let dead := mapped (port (.ld opsV 0 false) 2 [])
    let bad : Access := { id := 0, op := .load, addr := 5, size := 4, bank := false, psz := 16, phase := .faulted 0x0A0 1 0 }
    let f : Firing := { id := 1, slot := 0, ins := .ld opsV 0 false, undo := ⟨0, none, {}, .idle, [], []⟩, await := .access, acc := [bad] }
    let starve := (dead.setNode n { dead.node n with fly := [f], store := [], seq := 0 }).setRegion 0 0 { dead.region 0 0 with wdog := 5 }
    here hit = some e && here miss = none && ((miss.die 0).walksOf sl).length < 8 && 8 ≤ ((full.die 0).walksOf sl).length &&
    ((walk.die 0).walksOf sl)[0]? = some w && (match walk.walk 7 0x100000 26 false with | .ok l => l.log = 26 && l.pa = 2 ^ 26 | _ => false) &&
    walk.joined 0 w = [(n, 1, 0)] && (errOf (walk.walk 8 0x100000 26 false)).any (fun x => !x.waits) && starve.starved 0 0 && (starve.faultedAccess 0 (starve.region 0 0)).isSome) = true := by
  decide +kernel
theorem test_tlb_hit : (let s := waiting .translate fun d => { d with tlb := [(sliceOf 7 0x100000 26, [⟨7, 26, 0, 2 ^ 26, true⟩])] }
    leads (exec (.tlbLookup (nodeAt 34) 1) s) fun u => (firingOf u (nodeAt 34)).acc.map (fun a => a.phase) = [.home (.hbm 0x4100000)]) = true := by
  decide +kernel

theorem wit_banks : (let n := nodeAt 34
    let x := atHome (.ld opsV 0 false) .load (.hbm 0) 4
    let a := { x.2.2 with win := some (1, 0), psz := 26, addr := 0x200 }
    let s := mapped (x.1.setNode n { x.1.node n with fly := [{ x.2.1 with acc := [a] }] })
    let m : ModeReq := ⟨n, 1, ⟨0, .cluster, 0, 0, 0, 0, 0⟩, 0⟩
    let p := s.setCluster 0 0 { s.cluster 0 0 with banks := tset (s.cluster 0 0).banks 3 { pend := some m } }
    let job := fun (gath : Bool) (src len : Nat) => ({ n := n, fid := 1, cls := [], gen := 3, owner := 7, gath := gath, op := .cpy, src := src, sbank := false, dst := 0x9000, len := len, scope := .cluster } : EngineJob)
    let q := fun (j : EngineJob) => s.setCluster 0 0 { s.cluster 0 0 with banks := [(2, { mode := .queue, segs := [{ esz := 64, depth := 16, jobs := [j] }, { esz := 128, depth := 16 }] })], jobs := [(32, [j])] }
    let g := q (job true 0x8000 100)
    let c := q (job false 0x8040 64)
    let old := q { job false 0x8040 64 with gen := 2 }
    (s.bankOf 0 0 1).mode = .window && (match s.demand 0 0 1 0 0 with | some (.access n1 _ b) => n1 = n && b.psz = 26 | _ => false) &&
    (match s.lookNow n.row 0 26 false with | .ok (s1, pa, _) => s1.copyErr (.hbm pa) = none | _ => false) &&
    (p.bankOf 0 0 3).pend = some m && !p.bankBusy 0 0 3 0 && (match p.writeBackAll n.row 3 (p.bankOf 0 0 3) (p.bankOf 0 0 3).dirtyLines with | .ok _ => true | _ => false) &&
    okOf (g.xlate 7 0x8000 false) = some 0x4008000 && g.homeErr (.hbm 0x4008000) 100 = none && c.homeErr (.hbm 0x4008040) 64 = none &&
    okOf (c.xlate 7 0x9000 true) = some 0x4009000 && g.genOf row0 = 3 && g.hub.parity = [] && old.genOf row0 ≠ 2 &&
    (match g.regionOf row0 with | some (k, rg) => k = 0 && (tgetD rg.gw 2 {}).drops < 0xFFFF | none => false)) = true := by
  decide +kernel

theorem wit_grants : (let n := nodeAt 0
    let f : Firing := { id := 1, slot := 0, ins := .add ops1 ⟨false, false, .w32⟩, undo := ⟨0, none, {}, .idle, [], []⟩, await := .hub 0 }
    let t : Ticket := ⟨n, 1, 2, 3, [9]⟩
    let b := ready f.ins 0 []
    let s0 := b.setDie 0 { b.die 0 with cyc := 100, preqs := [⟨n, 1, 6, 3, 20⟩, ⟨n, 1, 5, 3, 21⟩] }
    let x : SeqSlot := { bound := true, owner := 7, tickets := [t], ring := [1, 2] }
    let hub := { s0.hub with slots := [(2, x), (5, { slack := 1 }), (6, { slack := 2 })] }
    let s := { s0.setNode n { s0.node n with fly := [f], nid := 2 } with hub := hub }
    let tree := stepT (.tseal opsT 0) 1 0 {}
    let g := { tree.2 with await := .tree, held := false }
    let free := treeS (.tseal opsT 0) [] {} 0
    let ts := free.setNode (nodeAt 37) { free.node (nodeAt 37) with fly := [g], nid := 2 }
    let word5 := fun (u : State) => match u.rawRec (g.ctx row0 0) 1 with | .ok (_, r) => some (r.kind, heldOf (r.word 5), waitOf (r.word 5), readersOf (r.word 5)) | .error _ => none
    x.tickets = [t] && (s.node n).firing 1 = some f && t.cnt - t.pins.length ≤ x.ring.length &&
    s.mayComplete n f && x.ring.length ≤ 64 && (s.slack 5) < (s.slack 6) && 20 / 16 = 21 / 16 && 21 / 16 < s.cyc 0 / 16 &&
    (ts.node (nodeAt 37)).fly.find? (fun z => z.await = .tree && !z.xstopped) = some g && word5 ts = some (kDesc, false, false, 0) &&
    word5 tree.1 = some (kDesc, true, false, 0) && ((ts.descHome 7 row0 (ts.row row0) g).elim [] fun h => (ts.mutationsAt h).erase g.at_) = []) = true := by
  decide +kernel

/-- A running controller that may enable, one that has ended and one that waits; transits of each kind that have arrived. -/
theorem wit_controller_events : (let cfg : CtlCfg := ⟨0, 1, 0, 63, 0⟩
    let l : Loc := ⟨nodeAt 36, 0⟩
    let b0 := ready (.seq { a := .pop 0, d0 := .queue 9 0 false } cfg) 36 []
    let b := b0.setDie 0 { b0.die 0 with cyc := 100 }
    let x : Ctl := { armed .pipe 3 cfg 63 l { dst := .queue (nodeAt 9) 0 } 0 with run := true }
    let at_ := fun (y : Ctl) (ts : List Transit) => b.setCluster 0 0 { ctls := [(0, y), (1, { x with parent := 0, pos := 1, run := false })], transit := ts }
    let fin := { x with e := [3, 3], d := [3, 3] }
    let wait := { x with e := [1, 0], d := [0, 0] }
    let s := at_ x [.enable 0 0 0 9, .enable 0 1 0 9, .done 0 0 false 9, .done 0 1 true 9, .final 0 { dst := .queue (nodeAt 9) 0 } 0 false 9]
    let op := { x with mode := .openPipe }
    (s.ctlAt 0 0 0) = some x && s.decides 0 0 0 && x.allowed ≠ [] && fin.allowed = [] && fin.ended && wait.allowed = [] && !wait.ended &&
    childOf (s.cluster 0 0).ctls 0 0 = none && childOf (s.cluster 0 0).ctls 0 1 = some 1 && x.stop = none && !x.isOpen && op.isOpen && 9 ≤ s.cyc 0 &&
    !(at_ x []).unheard 0 0 0 && 1 ≤ s.destFree (.queue (nodeAt 9) 0)) = true := by
  decide +kernel

/-! ## Banks, power, freezes, records -/

/-- Cluster 0 of die 0 with a retirement of physical bank 3 asked for and one in the FIFO. -/
def cl (f : Cluster → Cluster) : State := (dev.setDie 0 { cyc := 4000000 }).setCluster 0 0 (f {})

theorem wit_retirement : (let p : BankPlace := ⟨0, 0, none⟩
    let b : BankId := ⟨p, 3⟩
    let q : RetReq := ⟨b, .device, false, none⟩
    let few := cl fun c => { c with errs := [(3, (15, 0))], waitq := [q] }
    let many := cl fun c => { c with errs := [(3, (16, 0))] }
    let fifo := cl fun c => { c with fifo := [q] }
    let full := cl fun c => { c with waitq := [q], fifo := List.replicate 32 ⟨⟨p, 5⟩, .device, false, none⟩ }
    let gone := cl fun c => { c with waitq := [q], status := [(3, .retired)] }
    let noSpare := cl fun c => { c with fifo := [q], spares := [(0, (false, 24)), (1, (false, 25))] }
    let owned := noSpare.setDie 0 { noSpare.die 0 with regions := [(4, { valid := true, sbanks := 8 })] }
    let ev := cl fun c => { c with map := [(3, { pres := true, evac := true, wmark := 8191, tgt := 24, phys := 3 })] }
    let done := cl fun c => { c with map := [(3, { pres := true, evac := true, wmark := 8192, tgt := 24, phys := 3 })] }
    b.ok && few.hub.thresh = 16 && !many.retiring b && !few.retiring b && fifo.retiring b && !full.retiring b && gone.retiring b &&
    (fifo.cluster 0 0).fifo.find? (fun y => y.bank.place = p) = some q && fifo.logicalOf b = some 3 &&
    (upFrom 0 2).find? (fun j => ((fifo.cluster 0 0).spare j).1) = some 0 && (upFrom 0 2).find? (fun j => ((noSpare.cluster 0 0).spare j).1) = none &&
    (upFrom 0 2).find? (fun j => (noSpare.cluster 0 0).spare j = (true, 3)) = none && noSpare.grantee 0 0 3 = none && owned.grantee 0 0 3 = some 4 &&
    ev.evacuated p = some 3 && done.evacuated p = some 3 && ev.hub.pwr.chg = none && decide ev.memOk) = true := by
  decide +kernel
theorem test_retirement : (let q : RetReq := ⟨⟨⟨0, 0, none⟩, 3⟩, .device, false, none⟩
    leads (exec (.retirement ⟨0, 0, none⟩) (cl fun c => { c with fifo := [q] })) fun u =>
      ((u.cluster 0 0).ent 3).evac && ((u.cluster 0 0).ent 3).tgt = 24 && (u.cluster 0 0).stat 24 = .service) = true := by
  decide +kernel

/-- Mode changes down and up, a withdrawal that has ended and one that has not, and a window that has ended. What the power
of a window is, Config alone says: the clauses on it have no numeral as a witness. -/
theorem wit_power : (let s := dev.setDie 0 { cyc := 3000000 }
    let pw := fun (p : Power) => s.setPwr p
    let down := pw { want := [(.economy, 9, 1)] }
    let up := pw { mode := .economy, want := [(.full, 9, 1)] }
    let done := pw { chg := some .balanced, step := 1 }
    let held := (pw { chg := some .balanced, step := 1 }).setDie 0 { cyc := 5, heldsum := 1025 }
    down.hub.pwr.mode.rank < PMode.rank .economy && PMode.rank .full < up.hub.pwr.mode.rank && done.withdrawn && !done.darkening &&
    !held.withdrawn && s.hub.pwr.wnd + 3000000 ≤ s.cyc 0 && held.cyc 0 < held.hub.pwr.wnd + 3000000) = true := by
  decide +kernel

/-- A freeze that all rows have reached, one that has not reached row 27, a record with room and one without, a watchdog. -/
theorem wit_freezes : (let fr : FaultRec := { cause := 0x150, owner := 7 }
    let s := (dev.setDie 0 { cyc := 1000 }).setRegion 0 0 { valid := true, st := .running, nrows := 28, owner := 7, imgptr := 0x40000 }
    let g := s.region 0 0
    let frz := fun (t : Nat) => s.setRegion 0 0 { g with frz := some ⟨t, 0, some fr, .record⟩ }
    let rec_ := fun (outs : List (BitVec 16 × FaultRec)) => { s with hub := { s.hub with faults := [(7, { pend := [fr], outs := outs })] } }
    let dog := s.setRegion 0 0 { g with wdog := 0x10000000 }
    let all := fun (x : State) (f : Frz) => (g.rowIds 0).all (fun r => f.reached r.row (x.cyc 0)) && !(g.rowIds 0).any x.rowBusy
    let y := banded s { band0 with ended := 1, wave := 1 }
    all (frz 900) ⟨900, 0, some fr, .record⟩ && !all (frz 990) ⟨990, 0, some fr, .record⟩ && !(frz 900).freezeWaits 0 0 .record &&
    ((rec_ []).owner 7).valid && (tgetD (rec_ []).hub.faults 7 {}).outs.length < ((rec_ []).owner 7).fqSize &&
    ((rec_ []).owner 7).fqSize ≤ (tgetD (rec_ (List.replicate 16 (0, fr))).hub.faults 7 {}).outs.length && decide s.memOk &&
    (dog.region 0 0).wdlim.toNat ≤ (dog.region 0 0).wdog.toNat && g.wdog.toNat < g.wdlim.toNat && y.atPoint 0 0 && !s.atPoint 0 0) = true := by
  decide +kernel
theorem test_record_delivery : (let fr : FaultRec := { cause := 0x150, owner := 7 }
    let s := { dev with hub := { dev.hub with faults := [(7, { pend := [fr] })] } }
    leads (exec (.faultRecordDelivery 7) s) fun u => (tgetD u.hub.faults 7 {}).outs = [(0, fr)] && (tgetD u.hub.faults 7 {}).seq = 1) = true := by
  decide +kernel

/-! ## The Reel, placement and boot -/

/-- A block of a stage with SINK (A = queue 0) in slot 0 of node 3, or another instruction there, as R52-R54 lay it out:
it may be refused by a version that R54 does not have. -/
def blkW (stage : Nat) (endb : Bool) (version : Nat := 1) : List DWord :=
  let body : List DWord := encode (.sink { a := .pop 0 }) ++ [12]
  [BitVec.ofNat 64 (0x4C4E * 2 ^ 48 + version * 2 ^ 40 + stage),
   (crc32c (wordsBytes body)).setWidth 64 <<< 32 ||| (if endb then 0x10000000 else 0)] ++ body

/-- Stage entries whose lane 0 leads to queue 0 of node 3, and the descriptor of two stages in force. -/
def stageAt (va : Nat) : StageEnt := ⟨va, 12 :: List.replicate 18 0xFF, 0, [], []⟩
def pd2 (b : Nat) (choice : Bool) : PlDesc :=
  { d := 2, b := b, choice := choice, wrapN := 16, nfb := 0, fbN := 4, homeb := 0, stages := [stageAt 0x8000, stageAt 0x8100] }
def band2 : Band := { band0 with desc := pd2 2 false }
def bandC : Band := { band0 with mode := true, desc := pd2 2 true }

/-- The space of owner 7 holds the blocks of stage 0 (at 0x8000) and of stage 1 (at 0x8100). -/
def blocks (s : State) (version : Nat := 1) : State :=
  { s with hbm := Memory.writeN (Memory.writeN s.hbm 0x4008000 (wordsBytes (blkW 0 false version))) 0x4008100 (wordsBytes (blkW 1 true)) }
def ctx2 (b : Nat) (st row : Nat) : LoadCtx := { owner := 7, desc := pd2 b false, b := b, stage := st, row := row }

theorem wit_blocks : ((okOf ((blocks dev).loadBlock (ctx2 2 0 0) 0x8000)).isSome && (okOf ((blocks dev).loadBlock (ctx2 2 1 1) 0x8100)).isSome &&
    (errOf ((blocks dev 2).loadBlock (ctx2 2 0 0) 0x8000)).map (fun e => (e.cause, e.fetch)) = some (0x011, false) &&
    (errOf (dev.loadBlock { ctx2 2 0 0 with owner := 8 } 0x8000)).map (fun e => e.fetch) = some true) = true := by
  decide +kernel

def blkOf (st : Nat) : Block := { hdr := { stage := st }, code := [(3, 0, (encode (.sink { a := .pop 0 })).getD 0 0, none)], va := 0x8000 }
/-- A row of a band under SCROLL whose node 3 holds what `f` gives and whose reel holds what `g` gives. -/
def reelS (b : Band) (f : Node → Node) (g : Reel → Reel) : State :=
  let s := banded (blocks (mapped (ready (.sink { a := .pop 0 }) 3 []))) b
  let t := s.setNode (nodeAt 3) (f (s.node (nodeAt 3)))
  (t.setDie 0 { t.die 0 with cyc := 5000 }).setReel row0 fun _ => g { hosts := true, hosted := 0, nxt := 1, sh := .ready, block := some (blkOf 0) }

theorem wit_switches : (let n := nodeAt 3
    let dry := fun (x : Node) => { x with dry := true }
    let big := { blkOf 1 with hdr := { banks := 1, stage := 1 } }
    let s := reelS band2 dry fun x => { x with shadow := some (blkOf 1) }
    let u0 := reelS band2 dry fun x => { x with shadow := some big }
    let u := u0.setRow row0 { u0.row row0 with regmap := [(0, { pres := false, phys := 0 })] }
    let w := reelS band2 (fun x => { x with qs := [(0, queueOf [.mark 3 false])] }) fun x => { x with shadow := some (blkOf 1) }
    let d := reelS band2 (fun x => { x with stage := 1 }) fun x => { x with shadow := some (blkOf 1) }
    let ok := fun (x : State) => n.ok && (x.regionOf row0).isSome && (x.row row0).reel.block.isSome && x.rowRuns row0 && x.scrolls row0 && (x.row row0).reel.sh = .ready
    ok s && s.maySwitch n && s.switchFits row0 && ok u && u.maySwitch n && !u.switchFits row0 && ok w && !w.maySwitch n &&
    ok d && !d.maySwitch n && (match d.bandOf row0 with | some (k, b) => k = 0 && d.rowSwitched row0 b | none => false)) = true := by
  decide +kernel

/-- A running region of a band for triggers, the wrap and feedback channels. -/
theorem wit_reel_queues : (let tok : QTok := { tok := wordTok 5 0, at_ := 100 }
    let s := reelS { band2 with waves := 2, wave := 1, gone := 1 } id fun x => { x with sh := .empty }
    let wr := fun (t : Nat) => reelS { band2 with wrap := [⟨0, { tok with at_ := t }, 0⟩] } id id
    let fst := { stageAt 0x8000 with imap := 12 :: (List.replicate 14 0xFF ++ [12, 12, 12, 12]) }
    let fb := reelS { band2 with desc := { pd2 2 false with stages := [fst, fst] }, fbq := [(1, [tok])] } id id
    let none_ := s.setDie 0 { s.die 0 with bands := [(0, { band2 with waves := 0 })] }
    (s.region 0 0).st = .running && (s.region 0 0).frz = none && !(s.region 0 0).yld && !(s.region 0 0).ovc && !s.anyLeaving 0 band2 &&
    (match tget (s.die 0).bands 0 with | some b => b.waves ≠ 0 && s.triggerAt 0 0 b 0 = some ⟨.lane row0 0 1, false, 0⟩ | none => false) &&
    2 ≤ s.destFree (.lane row0 0 1) && (match tget (none_.die 0).bands 0 with | some b => b.waves = 0 | none => false) &&
    wrapHead 0 [⟨0, tok, 0⟩] = some (⟨0, tok, 0⟩, []) && ((wr 100).row row0).reel.hosts && ((wr 100).row row0).reel.hosted = 0 &&
    (wr 100).rowRuns row0 && tok.at_ + 4 ≤ (wr 100).cyc 0 && (wr 100).cyc 0 < 4998 + 4 && 1 ≤ (wr 4998).destFree (.lane row0 0 1) &&
    (match tget (fb.die 0).bands 0 with | some b => tgetD b.fbq 1 [] = [tok] && fb.rowOfStage 0 0 b 0 = some row0 && b.imap 0 16 = some (3, 0) | none => false) &&
    1 ≤ fb.destFree (.queue (nodeAt 3) 0)) = true := by
  decide +kernel
theorem test_trigger : (let s := reelS { band2 with waves := 2, wave := 1, gone := 1 } id fun x => { x with sh := .empty }
    leads (exec (.triggerInject 0 0) s) fun u => ((u.row row0).lane 0).toks.map (fun t => t.tok) = [wordTok 1 0, .mark 1 false]) = true := by
  decide +kernel

/-- A band of two rows that one leaves, so that it cannot go on, and a band of three that two stay in. -/
theorem wit_reforms : (let leave := fun (b : Band) => (reelS { b with ended := 1, wave := 1 } id id).setReel ⟨0, 0, 1⟩ fun x => { x with leaving := true }
    let s := leave band2
    let b3 : Band := { band2 with b := 3, be := 3, live := [0, 1, 2], desc := pd2 3 false }
    let t := leave b3
    let stay := fun (x : State) (b : Band) => (x.ownRows 0 b).filter fun j => !(x.row ⟨0, 0, b.base + j⟩).reel.leaving
    let b1 := { b3 with be := 2, live := [0, 2], ended := 1, wave := 1 }
    (stay s band2).length = 1 && s.anyLeaving 0 band2 && stay t b3 = [0, 2] && (t.region 0 0).st = .running && !(t.region 0 0).ovc &&
    !t.tracksBad 7 (pd2 3 false) 2 && (okOf (t.checkAll 7 b1 (fun z => 0 + ([0, 2][z % max 1 2]?).getD 0) (upFrom 0 2))).any fun bs =>
      !bs.isEmpty && bs.all fun x => t.restoreErr ⟨0, 0, 0⟩ x.hdr.stage x.hdr = none) = true := by
  decide +kernel

/-- CHOICE: a row that forwarded its marker; a freed row with a record of stage 1 that has waited, and one that has not; a
row that takes a record of the stage it hosts; a launch that has ended in its band. -/
theorem wit_choice : (let tok : QTok := { tok := wordTok 5 0, at_ := 100 }
    let fwd := reelS bandC (fun x => { x with fwd := some 0 }) id
    let q := fun (t : Nat) => { bandC with stageq := [(1, [⟨0, { tok with at_ := t }, 0⟩])] }
    let free := fun (t : Nat) => reelS (q t) id fun _ => { freed := true }
    let c : LoadCtx := loadCtx 7 (q 0) 0 1 false
    let take := reelS { bandC with stageq := [(0, [⟨0, tok, 0⟩])] } id fun x => { x with sh := .empty }
    let fin := reelS { band2 with fin := true, waves := 0 } id id
    let two := fin.setDie 0 { fin.die 0 with bands := (fin.die 0).bands ++ [(1, { band2 with base := 4 })] }
    let wb := fun (x : State) => okOf (((x.release row0 .system).spillBand 0 { band2 with fin := true, waves := 0 }).writeBackHomes 0 0 { band2 with fin := true, waves := 0 })
    (fwd.row row0).reel.hosts && fwd.rowRuns row0 && !(fwd.row row0).nodes.any (fun z => !z.2.fly.isEmpty) && fwd.forwardedMark row0 &&
    (q 0).mode && ((q 0).slotOf 0).isSome && (free 100).chooseStage row0 (q 100) = some 1 && (free 4000).chooseStage row0 (q 4000) = some 1 &&
    ((q 0).desc.stages[1]?).isSome && (okOf ((free 100).loadBlock c 0x8100)).any (fun x => (free 100).restoreErr row0 1 x.hdr = none) && !take.forwardedMark row0 &&
    nextRecord [] [⟨0, tok, 0⟩] = some (⟨0, tok, 0⟩, []) && 1 ≤ take.destFree (.lane row0 0 1) &&
    (wb fin).any (fun x => (x.bandsOf 0 0).length ≤ 1) && (wb two).any (fun x => 2 ≤ (x.bandsOf 0 0).length)) = true := by
  decide +kernel
theorem test_stage_choice : (let tok : QTok := { tok := wordTok 5 0, at_ := 100 }
    let s := reelS { bandC with stageq := [(1, [⟨0, tok, 0⟩])] } id fun _ => { freed := true }
    leads (exec (.stageChoice row0) s) fun u => (u.row row0).reel.hosted = 1 && (u.node (nodeAt 3)).store.length = 1) = true := by
  decide +kernel
/-- The block of stage 1 that R419 lays out loads in row 1 of a band of six (R52-R54). -/
theorem test_block_worked : (let body : List DWord := [0x19000012A7000000, 0x63880017A7100000, 0x14, 0x8000]
    let blk := [BitVec.ofNat 64 0x4C4E010204000001, (crc32c (wordsBytes body)).setWidth 64 <<< 32] ++ body
    let s := { dev with hbm := Memory.writeN dev.hbm 0x4008000 (wordsBytes blk) }
    let e : StageEnt := ⟨0x8000, [0] ++ List.replicate 7 0xFF ++ [0x80] ++ List.replicate 10 0xFF, 0, [], []⟩
    let d : PlDesc := { d := 12, b := 6, choice := false, wrapN := 64, nfb := 0, fbN := 4, homeb := 1, stages := List.replicate 12 e }
    (okOf (s.loadBlock { owner := 7, desc := d, b := 6, stage := 1, row := 1 } 0x8000)).any fun b =>
      b.code.map (fun x => (x.1, x.2.1)) = [(0, 0), (32, 0)]) = true := by
  decide +kernel
/-! ## Fabric, boot, placement, firmware -/

/-- A flit of kind 7 with sequence number `n` and a right CRC, and one with a wrong CRC. -/
def flitB (n : Nat) : List Byte :=
  let h : List Byte := [0, 0, 9, 0, 7, 0, BitVec.ofNat 8 n, 0] ++ List.replicate 232 0
  h ++ natBytes' 4 (crc32c h).toNat ++ List.replicate 12 0

/-- Flits on a link that is up, with the sequence number awaited and another, or a wrong CRC; a link that is down; requests
of the HOSTNODE and of another node. The node's own number and the layouts of merge and parity entries are Config's: the
clauses that rest on them have no numeral as a witness. -/
theorem wit_fabric : (let s := dev
    let crc := fun (bs : List Byte) => flitNat bs 240 4 = (crc32c (bs.take 240)).toNat
    let down := s.setLink 2 { up := false }
    let failing := s.setLink 2 { tries := 8 }
    let rq : HostReq := ⟨9, 7, 2 ^ 63 + 0x8FF8, 8⟩
    let va := rq.addr.toNat % 2 ^ 55
    (flitB 0).length = 256 && (s.link 0).up && crc (flitB 0) && flitNat (flitB 0) 6 2 = (s.link 0).seq.toNat && flitNat (flitB 3) 6 2 ≠ (s.link 0).seq.toNat &&
    crc (flitB 3) && !crc ((flitB 0).take 240 ++ List.replicate 16 0) && !(down.link 2).up && (failing.link 2).up && 8 ≤ (failing.link 2).tries &&
    s.hub.deltas = [] && s.hub.mbox = [] && (s.link 0).tries < 8 && !s.hostOf 7 8 && s.hostOf 7 9 && rq.addr.getLsbD 63 && rq.addr.extractLsb' 55 8 = 0 && s.hub.parity = [] &&
    va % 2 ^ 16 + rq.len ≤ 2 ^ 16 && okOf (s.xlate 7 va false) = some 0x4008FF8 && okOf (s.xlate 7 va true) = some 0x4008FF8 &&
    s.homeErr (.hbm 0x4008FF8) 8 = none && edgeErr s (0x4008FF8, 8) = none && decide s.memOk && (s.merge 3).valid = false) = true := by
  decide +kernel
theorem test_flit_replay : (leads (exec (.flitReceive 0 (List.replicate 256 0)) dev) fun u =>
    (u.link 0).retry = 1 && u.hub.outbox = [.replay 0 0]) = true := by decide +kernel
theorem test_host_write : (leads (exec (.hostMemoryWrite ⟨9, 7, 2 ^ 63 + 0x8000, 2⟩ [0x12, 0x34]) dev) fun u =>
    Memory.readN u.hbm 0x4008000 2 = [0x12, 0x34] && u.hub.outbox = [.data 9 0 []]) = true := by decide +kernel

/-- A descriptor of two stages at 0x9000 as R368 lays it out, of owner 7's space; a launch of it with BAND 2, BANKS 1 and
one wave, and an idle region of owner 7. Whether an image verifies, Config alone says. -/
def descW : List DWord :=
  let stg := fun (va : DWord) => [va] ++ bytesWords 3 (12 :: List.replicate 19 0xFF) ++ [0, 0, 0, 0]
  [0x0002100000000000, 0x10000000] ++ List.replicate 6 0 ++ stg 0x8000 ++ stg 0x8100
def recP : List DWord := withCrc [0x0070200000000001, 0x9000, 0, 0, 0, 0, 0]
def reqP : PReq := { kind := .launch, words := recP, entered := 0 }
def empty7 (s : State) : State := s.setDie 0 { s.die 0 with regions := [(0, { valid := true, owner := 7, nrows := 28 })], pq := [reqP] }
def placeS : State :=
  let s := blocks dev
  empty7 { s with hbm := Memory.writeN s.hbm 0x4009000 (wordsBytes descW) }
def after (o : Host.Outcome State Fault Refusal) : State := match o with | .next s => s | _ => State.reset

theorem wit_placement : (let d := placeS.die 0
    let aged := { d with cyc := 2 ^ 23, pq := [reqP, { reqP with words := withCrc [0x007E200000000001, 0x9000, 0, 0, 0, 0, 0] }] }
    let unknown := empty7 State.reset
    d.graphs = [] && d.placing = [] && d.candidates = [reqP] && (placeS.tryReq 0 reqP).isSome && reqP.image = none && (placeS.entryErr reqP none).isNone &&
    (match placeS.variants reqP with
     | .ok (vs, _) => (match placeS.pick 0 (recOwner recP) (reqVars reqP vs) with
       | .ok (some (n, k, base)) => (placeS.entryErr reqP (some n)).isNone && n.desc.b = 2 && k = 0 && base = 0
       | _ => false)
     | .error _ => false) &&
    (aged.pq.any fun y => y.eff aged.cyc.toNat = 7 && 2 ^ 22 ≤ y.waited aged.cyc.toNat) && aged.candidates.length = 1 &&
    ({ d with regions := [] }).candidates = [reqP] && ((dev.setDie 0 { d with regions := [] }).tryReq 0 reqP).isNone &&
    (unknown.die 0).candidates = [reqP] && State.reset.hub.boot = 0 && !State.reset.hub.recovery && !State.reset.hub.ready) = true := by
  decide +kernel
/-- The first fetch of a placement with the second still to come, the second, a block that cannot be read, one refused. -/
theorem wit_fetches : (let s := after (exec (.placement 0) placeS)
    let u := after (exec (.blockFetch 0 0) s)
    let first := fun (x : State) (f st : Nat) => match tget (x.die 0).fetches f, tget (x.die 0).placing 0 with
      | some y, some p => y.what = .place 0 && y.stage = st && y.blk.isNone && !p.held && p.req.kind = .launch && p.region = 0 && p.base = 0 | _, _ => false
    let ctx := fun (st : Nat) => ({ owner := 7, desc := (match tget (s.die 0).placing 0 with | some p => p.desc | none => pd2 2 false), b := 2, stage := st, row := st } : LoadCtx)
    let bad := blocks s 2
    let lost := { s with hub := { s.hub with owners := [] } }
    let fits := fun (x : State) (st : Nat) => match x.loadBlock (ctx st) (if st = 0 then 0x8000 else 0x8100) with | .ok b => b.hdr.fits (x.row ⟨0, 0, st⟩) | .error _ => false
    first s 0 0 && first s 1 1 && fits s 0 && first u 1 1 && fits u 1 && u.takes 0 0 7 && (tget (u.die 0).placing 0).any (fun p => !u.homesWait p) && (tget (u.die 0).fetches 0).any (fun y => y.blk.isSome) &&
    (match tget (u.die 0).placing 0 with | some p => (banksOf p.banks).all (fun l => ((u.cluster 0 0).ent l).pres && !((u.cluster 0 0).ent l).pend) &&
      (okOf (u.readHomes 7 0 p.desc ((upFrom 0 p.hsz.length).zip p.hsz))).isSome | none => false) &&
    (errOf (bad.loadBlock (ctx 0) 0x8000)).map (fun e => (e.fetch, e.waits)) = some (false, false) && first bad 0 0 &&
    (errOf (lost.loadBlock (ctx 0) 0x8000)).map (fun e => (e.fetch, e.waits)) = some (true, false) && first lost 0 0) = true := by
  decide +kernel
theorem test_installed : (let s := after (exec (.blockFetch 0 0) (after (exec (.placement 0) placeS)))
    leads (exec (.blockFetch 0 1) s) fun u => (u.region 0 0).st = .running && (u.node ⟨⟨0, 0, 1⟩, 3⟩).store.length = 1 &&
      (u.row ⟨0, 0, 1⟩).reel.hosted = 1 && (u.row row0).reel.hosts && (u.die 0).bands.length = 1) = true := by
  decide +kernel
theorem wit_shadow_load : (let s := reelS band2 id fun x => { x with sh := .loading, buf := some (blkOf 1) }
    row0.ok && (s.row row0).reel.hosts && (s.row row0).reel.sh = .loading && (blkOf 1).hdr.stage = (s.row row0).reel.nxt && s.rowRuns row0 &&
    s.restoreErr row0 (s.row row0).reel.nxt (blkOf 1).hdr = none) = true := by
  decide +kernel

/-! ## The firmware's commands -/

/-- A command of node 9 with TAG 1 in the mailbox. -/
def asked (s : State) (code sub : BitVec 8) (ops : List DWord) : State :=
  { s with hub := { s.hub with mbox := [{ node := 9, w := fwHead code sub 0 1 :: (ops ++ List.replicate 7 0).take 7 }] } }
/-- The STATUS and the results of the answer to a command. -/
def answer (i : Instr) (s : State) (code sub : BitVec 8) (ops : List DWord) : Option (Cause × List DWord) :=
  match exec i (asked s code sub ops) with
  | .next u => match u.hub.outbox with | [.fwResp 9 (h :: t)] => some ((h.extractLsb' 16 9).setWidth 12, t) | _ => none
  | _ => none
/-- Word 5 of a sequence stands at 0x8014 of owner 7's space: HELD, and two readers. -/
def held2 : State := { dev with hbm := Memory.writeN dev.hbm 0x4008014 (natBytes' 4 (word5 true false 2)) }

/-- The table's commands on operands that meet the conditions of the clauses, and on operands that break each. -/
theorem wit_fw_tables : (let s := (asked dev 2 0 []).setDie 0 { dev.die 0 with regions := [(0, { valid := true, owner := 7, nrows := 4, st := .running }), (2, { valid := true, owner := 7, first := 8, nrows := 4 })], bands := [(1, band2)] }
    let b : DWord := 0x0070_0000_0000_0000
    let reg := fun (o first nr : Nat) => regionOfWords (BitVec.ofNat 64 (o * 2 ^ 48 + first * 2 ^ 8 + nr)) 0 0
    !s.hub.recovery && (dev.hub.mbox = []) && mapPlace 0 = some (0, 0, .logical 0) && (mapPlace 0xFFFFF).isNone && (tget (s.die 0).bands 1).isSome && (tget (s.die 0).bands 2).isNone &&
    (s.owner 7).valid && !(s.owner 8).valid && regionWord 0x002 = some (0, 2) && (s.region 0 2).st = .idle && (s.region 0 0).st ≠ .idle && (s.region 0 3).valid = false &&
    (tget (s.die 0).placing 2).isNone && okOf (s.xlate 7 0x8014 true) = some 0x4008014 && s.homeErr (.hbm 0x4008014) 4 = none &&
    readersOf (bytesNat (held2.readHome (.hbm 0x4008014) 4)) = 2 && b ≠ 0 && (reg 7 0 0).isNone) = true := by
  decide +kernel
/-- What each command answers on operands within its clause, and on some outside it. Merge and parity entries are written
word by word; their layout is Config's. -/
theorem test_fw_tables : (let s := held2.setDie 0 { dev.die 0 with regions := [(0, { valid := true, owner := 7, nrows := 4, st := .running }), (2, { valid := true, owner := 7, first := 8, nrows := 4 })], bands := [(1, band2)] }
    let st := fun (i : Instr) (code sub : BitVec 8) (ops : List DWord) => (answer i s code sub ops).map fun x => x.1
    let reg := fun (o first : Nat) => BitVec.ofNat 64 (o * 2 ^ 48 + 1 * 2 ^ 28 + first * 2 ^ 23 + 4 * 2 ^ 18)
    answer .readBankmapEntry s 2 0 [0] = some (0, BitVec.ofNat 64 (s.mapRead 0 0 (.logical 0)) :: List.replicate 6 0) &&
    st .readBankmapEntry 2 0 [0xFFFFF] = some 0x14F && st .readBandEntry 2 1 [0x100] = some 0 && (answer .readBandEntry s 2 1 [0x200]).map (fun x => x.2) = some (List.replicate 7 0) &&
    st .readBandEntry 2 1 [0xA800] = some 0x14F && st .writeBankmapEntry 3 0 [0xFFFFF, 0] = some 0x14F &&
    st .writeOwnerEntry 4 0 [8, 2 ^ 63] = some 0 && st .writeOwnerEntry 4 0 [8, 0] = some 0 && st .writeOwnerEntry 4 0 [8, 1] = some 0x14F &&
    st .writeOwnerEntry 4 0 [0x1000] = some 0x14F && st .writeSequenceSlot 4 1 [2, 0x1007, 0, 0, 0, 0, 0x4000] = some 0 && st .writeNotifyGrant 4 2 [5, 0x1008] = some 0x14D &&
    st .writeNotifyGrant 4 2 [5, 0x1007] = some 0 && st .createRegion 5 0 [3, 0, 0, 0] = some 0x14F && st .createRegion 5 0 [3, reg 8 0, 0, 0] = some 0x14D &&
    st .createRegion 5 0 [0, reg 7 0, 0, 0] = some 0x147 && st .removeRegion 6 0 [0] = some 0x147 && st .removeRegion 6 0 [2] = some 0 &&
    st .decrementReaders 7 0 [7, 0x8000, 0] = some 0x14F && st .decrementReaders 7 0 [7, 0x8000, 3] = some 0x147 &&
    (answer .decrementReaders s 7 0 [7, 0x8000, 1]) = some (0, BitVec.ofNat 64 (word5 true false 1) :: List.replicate 6 0) &&
    (answer .clearHeld s 7 1 [7, 0x8000]) = some (0, BitVec.ofNat 64 (word5 false false 2) :: List.replicate 6 0) &&
    st .clearGatewayCounts 9 0 [0, 3] = some 0x14F && st .clearGatewayCounts 9 0 [0, 2] = some 0 && st .writeMergeEntry 10 0 [0x20000, 1, 2] = some 0 &&
    st .memberRejoin 10 1 [0] = some 0x14F && st .writeParityGroup 11 0 [0x20000, 1, 2] = some 0) = true := by
  decide +kernel
theorem test_create_region : (leads (exec .createRegion (asked dev 5 0 [3, BitVec.ofNat 64 (7 * 2 ^ 48 + 1 * 2 ^ 28 + 2 * 2 ^ 23 + 2 * 2 ^ 18), 0, 0])) fun u =>
    (u.region 0 3).valid && (u.region 0 3).first = 2 && (u.region 0 3).cl = 1 && (u.region 0 3).gen = 1) = true := by decide +kernel

/-- The services' commands: a free mode, a bank, a frozen region, an outstanding record, images. Whether an image verifies is
Config's. -/
theorem test_fw_services : (let s0 := dev.setDie 0 { dev.die 0 with regions := [(9, { valid := true, st := .frozen, owner := 7, nrows := 4 })] }
    let s : State := { s0 with hub := { s0.hub with faults := [(7, { seq := 5, outs := [(4, { cause := 0x150, res := false, img := false })] })] } }
    let busy : State := { s with hub := { s.hub with fwLen := 64, fwBusy := true } }
    let st := fun (i : Instr) (code sub : BitVec 8) (ops : List DWord) => (answer i s code sub ops).map fun x => x.1
    st .setPowerMode 1 0 [3] = some 0x14F && leads (exec .setPowerMode (asked s 1 0 [2])) (fun u => u.hub.pwr.want = [(.economy, 9, 1)]) &&
    leads (exec .retireBank (asked s 3 1 [0, 1])) (fun u => (u.cluster 0 0).waitq.length = 1) && st .retireBank 3 1 [0, 0x8000001B] = some 0x14F &&
    st .fwResume 8 0 [9, 0xFFFFFFFF] = some 0 && st .fwResume 8 0 [8, 0xFFFFFFFF] = some 0x147 && st .fwFaultackAck 8 1 [7, 4] = some 0 &&
    st .fwFaultackAck 8 1 [7, 3] = some 0x147 && st .fwFaultackKill 8 2 [7, 4] = some 0 && st .loadNonce 12 0 [0, 1, 2, 3, 4, 5, 6] = some 0 &&
    st .loadNonce 12 0 [1, 7, 8] = some 0 && st .readReport 12 2 [8] = some 0 && st .readReport 12 2 [4] = some 0x14F && st .submitCoreLaunch 13 0 [0, 0x4008000] = some 0 &&
    st .submitCoreLaunch 13 0 [0, 4] = some 0x14F && st .beginFirmwareImage 14 0 [64, 1] = some 0 &&
    (answer .writeFirmwareImage busy 14 1 [8, 1, 2, 3, 4, 5, 6]).map (fun x => x.1) = some 0 && st .writeFirmwareImage 14 1 [8] = some 0x14F &&
    (answer .writeFirmwareImage { busy with hub := { busy.hub with fwBusy := false } } 14 1 [8]).map (fun x => x.1) = some 0x147 &&
    st .commitFirmwareImage 14 2 [] = some 0x147) = true := by
  decide +kernel

/-! ## Further hypotheses of the statements -/

/-- MPAIR whose partner in the row above already waits; MREC's and MSTAT's tokens that fail. -/
theorem wit_matrix_pairs : (let o : Ops := { a := .pop 0, d0 := .ctl 9 }
    let above : NodeId := ⟨⟨0, 0, 1⟩, 33⟩
    let f : Firing := { id := 1, slot := 0, ins := .mpair o, undo := ⟨0, none, {}, .idle, [], []⟩, await := .hub 0 }
    let s0 := mx (.mpair o) 0x60000000
    let s := s0.setNode above { s0.node above with fly := [f], nid := 2 }
    let bad := fun (i : Instr) (t : Word) => can (mx i t) (mxReq o) (mxSteps t)
    s.pairNode (nodeAt 33) = above && (s.node above).pairWait = some f && can s { mxReq o with serial := true } (oneToken 1 (wordTok 0x60000001 0)) &&
    bad (.mrec o .bf16 .bf16 0) 0x50040000 && MFmt.maxK .bf16 < tokK 0x50040000 && tokOpv 0x50040000 = 5 && bad (.mstat o .bf16) 0x00030000 && bad (.mstat o .bf16) 0x10040000 &&
    tokOpv 0x10040000 = 1 && MFmt.maxK .bf16 < tokK 0x10040000) = true := by
  decide +kernel

/-- Headers that a tree operation read and that still stand, and headers that changed. -/
theorem wit_tree_heads : (let x := stepT (.tprune opsT 0) 1 0 {}
    let c := x.2.ctx row0 0
    let hs : List (Nat × Nat) := [(1, kDesc * 2 ^ 16 + 1)]
    okOf (x.1.headOf c 1) = some (kDesc * 2 ^ 16 + 1) && (x.1.changed c hs).isNone && (match x.1.changed c [(1, 0)] with | some (.record 0x0E1 _ j _) => j = 1 | _ => false) &&
    (match x.1.treeCheck c x.2 with | .ok _ => true | .error _ => false)) = true := by
  decide +kernel
/-- A firing in steps that has read nothing reads the headers first. -/
theorem test_tree_heads : (let x := stepT (.tseal opsT 0) 1 0 {}
    leads (exec (.firingStep (nodeAt 37) 1) x.1) fun u => (firingOf u (nodeAt 37)).heads = some [(3, 3 * 2 ^ 16)]) = true := by
  decide +kernel

/-- A descent's last beats, its end, and a search that starts. -/
theorem wit_descent_ends : (let d : Desc := { live := true, desc := 1, q := List.replicate 64 0, o := List.replicate 64 0, bud := 4 }
    let x := stepT (.tend opsT) 0 0 d
    let c := x.2.ctx row0 0
    let y := stepT (.troot opsT 0 0 3) 1 0 {}
    treeReady x && treeReady y && 2 ≤ x.2.data.length && x.1.destFree (.queue (nodeAt 9) 1) ≠ 0 &&
    (match x.1.treeOp c true (.leave 1) with | .ok _ => true | .error _ => false) && y.1.changed (y.2.ctx row0 0) [] = none) = true := by
  decide +kernel

/-- A group that is next at its node and finds room; a node without dead markers; a barrier of eight keys. -/
theorem wit_groups_kills : (let g := marked fun x => { x with closed := true, outs := [{ slot := 0, o0 := [wordTok 5 0] }, { slot := 1, readyAt := 3 }] }
    let n := nodeAt 0
    let t := g.target n (.queue 9 0 false)
    let kc := ready (.kchk ops1) 0 [] [] [] [(0, .keys (List.replicate 8 (9, 0)))]
    let km := kc.setDie 0 { kc.die 0 with kills := [(4, ⟨9, 0, nodeAt 1, 1, [⟨n, 0⟩], []⟩)] }
    ((g.node n).groupNext 0).map (fun x => x.o0) = some [wordTok 5 0] && g.room t {} (need t 1 []) (need {} 1 []) && (g.node n).deadMarks = [] &&
    g.arcRoom (g.arcTargets n) && (keysOf ((km.node n).prog 0)).length = 8 && (km.regionOf row0).any fun z => z.2.st = .running) = true := by
  decide +kernel

/-- A walk that another access shares, a walk that faults; a PREF that a window serves; a bank in QUEUE mode without requests
to switch; a request of a region that a freeze holds; a region with a done under way, and one with a copy to perform. -/
theorem wit_shared_walks : (let sl := sliceOf 7 0x100000 26
    let n := nodeAt 34
    let s := waiting .translate fun d => { d with walks := [(sl, [⟨7, 0x100000, 26, false⟩])] }
    let lost := waiting .walking fun d => { d with walks := [(sl, [⟨7, 2 ^ 50, 26, false⟩])] }
    let p := mapped (port (.pref opsV 2) 2 [])
    let f : Firing := { id := 1, slot := 0, ins := .pref opsV 2, undo := ⟨0, none, {}, .idle, [], []⟩, await := .steps, a := 4 }
    let pf := p.setNode n { p.node n with fly := [f], nid := 2 }
    let job : EngineJob := { n := n, fid := 1, cls := [], gen := 3, owner := 7, gath := false, op := .cpy, src := 0x8000, sbank := false, dst := 0x9000, len := 64, scope := .cluster }
    let q := fun (js : List EngineJob) => p.setCluster 0 0 { banks := [(2, { mode := .queue, segs := [{ esz := 64, depth := 16, jobs := js }], pend := some ⟨n, 1, ⟨0, .cluster, 0, 0, 0, 0, 0⟩, 0⟩ })] }
    let frz := fun (x : State) => x.setRegion 0 0 { x.region 0 0 with frz := some ⟨0, 0, none, .yield⟩ }
    let sends := p.setCluster 0 0 { transit := [.done 0 0 false 5] }
    ((s.die 0).walksOf sl).length = 1 && (errOf (lost.walk 7 (2 ^ 50) 26 false)).isSome &&
    (match pf.demand 0 0 1 0 0 with | some (.pref m g _) => m = n && g.id = 1 | _ => false) &&
    (((q []).bankOf 0 0 2).segs.all fun z => z.jobs.isEmpty) && !f.xstopped && !(q []).bankBusy 0 0 2 0 && (q [job]).askerStops job = false &&
    (frz (q [job])).askerStops job && (q [job]).copying 0 (p.region 0 0) && !p.copying 0 (p.region 0 0) && sends.sending 0 (p.region 0 0) &&
    !p.sending 0 (p.region 0 0)) = true := by
  decide +kernel

/-- A register bank of a row that no launch holds, of one whose block leaves a bank unused, and of one whose block uses all. -/
theorem wit_register_banks : (let p : BankPlace := ⟨0, 0, some 0⟩
    let q : RetReq := ⟨⟨p, 3⟩, .device, false, none⟩
    let s := (banded (mapped (ready (.sink { a := .pop 0 }) 3 [])) band0).setCluster 0 0 { fifo := [q] }
    let with_ := fun (k : Nat) => s.setRow row0 { s.row row0 with reel := { block := some ⟨{ banks := k, detect := k = 9 }, [], 0⟩ } }
    let idle := s.setRegion 0 0 { s.region 0 0 with st := .idle }
    s.evacIn p = false && s.logicalOf ⟨p, 3⟩ = some 3 && idle.idleAt row0 && !(with_ 9).idleAt row0 && ((with_ 9).row row0).unused { banks := 9, detect := true } = none &&
    (((with_ 2).row row0).unused { banks := 2 }).any fun h => h ≠ 3) = true := by
  decide +kernel

/-- A launch in a CHOICE band starts its next wave at its entry queue. -/
theorem wit_choice_trigger : (let s := reelS { bandC with waves := 2, wave := 1, gone := 1 } id fun x => { x with sh := .empty }
    (match tget (s.die 0).bands 0 with | some b => s.triggerAt 0 0 b 0 = some ⟨.stageQ 0 0 0 0, false, 2⟩ && b.desc.d = 2 && b.waves ≠ 0 | none => false) &&
    2 ≤ s.destFree (.stageQ 0 0 0 0) && !s.anyLeaving 0 bandC) = true := by
  decide +kernel

/-- Owner 0 is given no slot, no notify register and no region. -/
theorem test_fw_nobody : (let st := fun (i : Instr) (code sub : BitVec 8) (ops : List DWord) => (answer i dev code sub ops).map fun x => x.1
    st .writeSequenceSlot 4 1 [2, 0x1000, 0, 0, 0, 0, 0x4000] = some 0x14F && st .writeNotifyGrant 4 2 [5, 0x1000] = some 0x14F &&
    st .createRegion 5 0 [3, BitVec.ofNat 64 (1 * 2 ^ 28 + 2 * 2 ^ 23 + 2 * 2 ^ 18), 0, 0] = some 0x14F) = true := by
  decide +kernel

/-! ## Hypotheses of the clauses on windows, groups, halves and the like -/

/-- No firing defines the streams that an access names; the blocks at both homes are whole and no buffer stands before them. -/
theorem wit_port_ready : (let s := port (.ld opsV 0 false) 2 [(0, words [3])]
    let h : Home := .hbm 0x1003C
    let x := (atHome (.st opsP 0 false) (.store [1, 2, 3, 4] none) h 4).1
    let whole := fun (h : Home) => x.homeErr (blockOf h).1 64 = none && decide (x.correct (blockOf h).1 64 = x)
    !(s.node (nodeAt 34)).defining 0 false && !(s.node (nodeAt 34)).defining 3 false && whole h && whole (.sram 0 0 0 60) &&
    !x.owes (nodeAt 34) 1 && (x.rows.all fun r => r.2.ports.all fun p => p.2.buf.isEmpty) && (x.bankOf 0 0 0).mode = .scratch) = true := by
  decide +kernel

/-- SRUN's last firing has read two entries and installs the stream (R241). -/
theorem test_srun_installs : (let sl := slit 2 0
    let n := nodeAt 34
    let rd := fun (k base first : Nat) => ({ id := k, op := .load, addr := 0x100000 + 256 * k, size := 16, bank := false, psz := 16, phase := .finished, gen := 3, data := natBytes' 16 (2 ^ 64 * base + 2 ^ 32 * 8 + first) } : Access)
    let f : Firing := { id := 1, slot := 0, ins := .srun { a := .pop 0 } 0 sl, undo := ⟨0, none, {}, .idle, [], []⟩, a := 256, acc := [rd 0 0x200000 0, rd 1 0x300000 8] }
    let s0 := ready f.ins 34 [] [] [] [(0, .words [0x100000, 0, 2])]
    let s := s0.setNode n { s0.node n with fly := [f], nid := 2 }
    s.mayComplete n f && s.completes n f && !(s.node n).usesStream f 0 && runsOk (runsOf f.acc) &&
    leads (exec (.firingCompletion n 1) s) fun u => (tget (u.port n).streams 0).any fun z =>
      z.run && z.runs = [(0x200000, 0, 8), (0x300000, 8, 8)] && z.stride = 256) = true := by
  decide +kernel

/-- Ring words that no other port owns; room by the consumer's word. -/
theorem wit_rings_owned : (let o : Ops := { a := .pop 0, b := .pop 1, d0 := .queue 9 0 false, d1 := .queue 9 1 false }
    let n := nodeAt 34
    let p := hubS (.ringPut o (.pop 2)) [(0, words [2]), (1, words [3]), (2, words [4])]
    let put := (completing (.ringPut o (.pop 2)) 2 3 []).1
    let pub := (completing (.ringPub o) 2 0 []).1
    p.ringOwned n (p.env { ops := o, c := some (.pop 2) }).id 0x4008 8 = none && put.ringOwned n 1 0x4040 8 = none &&
    put.homeErr (.hbm 0x4004040) 8 = none && put.ecc = [] && pub.ringOwned n 1 0x4000 8 = none &&
    okOf ((pub.release row0 .system).xlate 7 0x4000 true) = some 0x4004000) = true := by
  decide +kernel

/-- TEND's start; headers that can be read and one that cannot; writes still to do. -/
theorem wit_tree_more : (let live : Desc := { live := true, desc := 1, q := List.replicate 64 0 }
    let l := treeS (.tend opsT) [(0, words [1]), (1, words [0])] live
    let x := stepT (.tseal opsT 0) 1 0 {}
    let c := x.2.ctx row0 0
    can l (descReq opsT) { n0 := 3, n1 := 0, await := .steps } && (okOf (x.1.headsOf c [1, 3])).isSome && (errOf (x.1.headOf c 9)).isSome &&
    (match State.writePhase c [.put 1 16 [0, 0, 0, 0], .unhold 1] x.1 with | (_, [], none) => true | _ => false)) = true := by
  decide +kernel

/-- LOOPOUT with k = 2: a value to hold; one and a control token to discard; a held value that a control token confirms
and one that it lets leave; the LOOPIN that it is paired with. -/
theorem wit_loopout : (let o : Ops := { a := .pop 0, d0 := .queue 3 1 false, d1 := .queue 9 0 false }
    let r : FireReq := { ops := o, verify := false, serial := true, own := true }
    let st := fun (z : LoopSt) (q : List Word) (c : List Tok) => ready (.loopout o 2) 0 [(0, words q)] c [] [(0, .loopout z)]
    let ok := fun (z : LoopSt) (q : List Word) (c : List Tok) => let s := st z q c
      can s r (oneToken 1 (wordTok 0 0)) && loopSt (s.env r).prog = z
    let h : LoopSt := { held := [⟨0, 5, 0⟩] }
    let li := Instr.loopin { a := .pop 0, b := .pop 1, d0 := .queue 9 0 false } 2
    let p := (st {} [5] []).setNode (nodeAt 3) { store := [(0, ((encode li).getD 0 0, none))] }
    ok {} [5] [] && ok { dv := 1 } [5] [] && ok { dc := 1 } [] [.ctl false] && ok h [] [.ctl false] && ok h [] [.ctl true] &&
    p.loopPartner ⟨nodeAt 0, 0⟩ o.d0 = some ⟨nodeAt 3, 0⟩) = true := by
  decide +kernel
/-- A held value leaves on a control token 1; the first value of a record goes into the body at once (R187). -/
theorem test_loopout : (let o : Ops := { a := .pop 0, d0 := .queue 3 1 false, d1 := .queue 9 0 false }
    let i := Instr.loopout o 2
    started i (ready i 0 [(0, words [5])] [] [] [(0, .loopout {})]) (fun f => f.o1 = []) &&
    started i (ready i 0 [] [.ctl true] [] [(0, .loopout { held := [⟨0, 5, 0⟩] })]) fun f => f.o0 = [] && f.o1 = [wordTok 5 0]) = true := by
  decide +kernel

/-- A step of a firing in a row with a block of header `h`, whose link holds one row step with the token's m and k. -/
def stepAt (i : Instr) (t : Word) (h : Hdr) : State × Firing :=
  let n := nodeAt 33
  let f : Firing := { id := 1, slot := 0, ins := i, undo := ⟨0, none, {}, .idle, [], []⟩, a := t, await := .steps, t0 := { dst := .queue (nodeAt 9) 0 } }
  let s0 := mx i t
  let s := s0.setNode n { s0.node n with fly := [f], nid := 2 }
  (s.setRow row0 { s.row row0 with reel := { block := some ⟨h, [], 0⟩ }, mat := { link := [(splat 2, some (splat 3), tokM t, tokK t)] } }, f)

/-- Steps of MSCALE, of MDRAIN with each VAR, of a trailing half that takes its beats from the link and of a leading half. -/
theorem wit_matrix_forms : (let o : Ops := { a := .pop 0, d0 := .ctl 9 }
    let q : Ops := { a := .pop 0, d0 := .queue 9 0 false }
    let n := nodeAt 33
    let ok := fun (i : Instr) (t : Word) (h : Hdr) =>
      let x := stepAt i t h
      let s := x.1
      (s.node n).firing 1 = some x.2 && s.rowRuns row0 && x.2.step < mxCount i t &&
      (match stepTok (s.node n) 1 (mxSrcs i t).1, stepTok (s.node n) 1 (mxSrcs i t).2 with
        | some a, some b => !a.isMark && !b.isMark && a.badCheck = none && b.badCheck = none
        | _, _ => false) &&
      (!mxForwards (s.row row0).hdr i || ((s.pairNode n).row ≠ row0 && (s.mat (s.pairNode n).row).link.length < 2))
    let link := Instr.mma { a := .link, b := .link, d0 := .ctl 9 } .bf16 .bf16
    ok (.mscale o) 0x70030000 {} && ok (.mscale o) 0x71030000 {} && ok (.mdrain q none) 0x30000000 {} && ok (.mdrain q none) 0x31000000 {} &&
    ok (.mdrain o (some 0)) 0x32000000 { banks := 2 } && ok (.mdrain o (some 3)) 0x33000000 { banks := 2 } &&
    1 ≤ (stepAt (.mdrain q none) 0x30000000 {}).1.destFree (.queue (nodeAt 9) 0) && (mxSrcs link 0x00030000).1 = .link &&
    (stepAt (.mdrain o (some 3)) 0x33000000 { banks := 2 }).1.tileAt row0 3 0 ≠ (stepAt (.mdrain o (some 3)) 0x33000000 { banks := 2 }).1.tileAt row0 4 0 &&
    ok link 0x00030000 { paired := true, trail := true } && ok (.mma o .bf16 .bf16) 0x00030000 { paired := true }) = true := by
  decide +kernel
/-- MDRAIN VAR 1 delivers the row of CL in BF16: 1.0 is 0x3F80. -/
theorem test_mdrain : (let i := Instr.mdrain { a := .pop 0, d0 := .queue 9 0 false } none
    let s := (stepAt i 0x31000000 {}).1
    let u := s.setRow row0 { s.row row0 with mat := { cl := [(0, 0x3F800000)] } }
    leads (exec (.firingStep (nodeAt 33) 1) u) fun v => ((v.node (nodeAt 9)).queue 0).toks.map (fun t => t.tok) = [beatTok 0x3F80]) = true := by
  decide +kernel

/-- Tokens that fail the check of each matrix instruction. -/
theorem wit_matrix_faults : (let o : Ops := { a := .pop 0, d0 := .ctl 9 }
    let canM := fun (i : Instr) (q : FireReq) (t : Word) => canN (mx i t) q 0
    let z := mxReq { o with a := .zero }
    let ro : FireReq := { mxReq o with serial := true }
    [0x10000000, 0x70000001, 0x72000000].all (canM (.mscale o) z) && [0x10000000, 0x20000001, 0x23000000].all (canM (.mswap o) ro) &&
    [0x10000000, 0x40000001, 0x43000000].all (canM (.mzero o) ro) && [0x10000000, 0x60000001, 0x62000000].all (canM (.mpair o) ro) &&
    [0x10000000, 0x30000001, 0x34000000, 0x32000000, 0x33000000].all (canM (.mdrain o none) (mxReq o)) && [0, 0x11000000].all (canM (.mstat o .bf16) (mxReq o)) &&
    [0x10000000, 0x50000001].all (canM (.mrec o .bf16 .bf16 0) (mxReq o)) && !((mx (.mdrain o (some 3)) 0x33000000).row row0).tileOk 4) = true := by
  decide +kernel
theorem test_matrix_faults : (let o : Ops := { a := .pop 0, d0 := .ctl 9 }
    [faulted (.mswap o) (mx (.mswap o) 0x23000000), faulted (.mzero o) (mx (.mzero o) 0x40000001), faulted (.mpair o) (mx (.mpair o) 0x10000000),
      faulted (.mdrain o (some 3)) (mx (.mdrain o (some 3)) 0x33000000)] = [some 0x042, some 0x043, some 0x040, some 0x044]) = true := by
  decide +kernel

/-- A row without a band, and one whose launch has completed. -/
theorem wit_bandless : (let s := mapped (ready (.bandRead ops2) 36 [(0, words [1]), (1, words [0])])
    let past := s.setDie 0 { s.die 0 with past := [(0, band0)] }
    canN s (cellReq ops2) 1 && s.bandEntry row0 = none && past.bandOf row0 = none && past.bandEntry row0 = some band0 &&
    (past.regionOf row0).any fun g => g.1 = 0 && bandAmong 0 0 (past.die 0).past = some (0, band0)) = true := by
  decide +kernel
theorem test_past_band : (let s := mapped (ready (.scrollRead ops2) 36 [(0, words [1]), (1, words [0])])
    started (.scrollRead ops2) (s.setDie 0 { s.die 0 with past := [(0, { band0 with smax := 3, wmax := 4 })] })
      fun f => f.o0 = [wordTok 3 0] && f.o1 = [wordTok 4 0]) = true := by
  decide +kernel

/-- A controller that arms as position 1 of an armed parent whose latch there is empty, and one whose latch holds an enable; a
barrier's firing that was released. -/
theorem wit_children : (let cfg : CtlCfg := ⟨0, 1, 1, 0, 1⟩
    let o : Ops := { a := .pop 0, b := .pop 1, d0 := .queue 9 0 false }
    let s := cell2 (.seq o cfg) 1 2
    let par : Ctl := { armed .seq 3 ⟨0, 1, 0, 63, 0⟩ 63 ⟨nodeAt 36, 1⟩ {} 0 with run := true }
    let at_ := fun (l : Tbl Nat) => s.setCluster 0 0 { s.cluster 0 0 with ctls := [(0, { par with latch := l })] }
    let g := s.region 0 0
    let b := cell (.bar ops1 0 1) []
    let rel := b.setNode (nodeAt 36) { b.node (nodeAt 36) with progs := [(0, .released 5)] }
    cfg.parent = 0 && cfg.pos = 1 && cfg.id = 1 && [at_ [], at_ [(1, 0)]].all (fun x => canN x (cellReq o) 1 && (x.regionOf row0).isSome) &&
    ctlEntry g 1 = some 1 && ctlEntry g 0 = some 0 && 1 < par.nch && can rel (barReq ops1) (barPlan 5) &&
    (rel.env (barReq ops1)).prog = .released 5) = true := by
  decide +kernel
/-- The parent's latched enable starts the child at once and leaves the latch (R348). -/
theorem test_child_starts : (let cfg : CtlCfg := ⟨0, 1, 1, 0, 1⟩
    let i := Instr.seq { a := .pop 0, b := .pop 1, d0 := .queue 9 0 false } cfg
    let s := cell2 i 1 2
    let par : Ctl := { armed .seq 3 ⟨0, 1, 0, 63, 0⟩ 63 ⟨nodeAt 36, 1⟩ {} 0 with run := true, latch := [(1, 0)] }
    leads (exec i (s.setCluster 0 0 { s.cluster 0 0 with ctls := [(0, par)] })) fun u =>
      (u.ctlAt 0 0 1).any (fun x => x.run) && (u.ctlAt 0 0 0).any (fun x => x.latch = [])) = true := by
  decide +kernel

/-- Both consumer slots of a completing firing: a queue and a control queue, a lane and an X register, two deliveries each. -/
theorem wit_both_slots : (let n := nodeAt 0
    let s0 := ready (.add ops2 ⟨false, false, .w32⟩) 0 []
    let f := fun (a b : Dest) (o : List Tok) => ({ id := 1, slot := 0, ins := .add ops2 ⟨false, false, .w32⟩, undo := ⟨0, none, {}, .idle, [], []⟩, t0 := { dst := a }, t1 := { dst := b }, n0 := 2, n1 := 2, o0 := o, o1 := o } : Firing)
    let ok := fun (g : Firing) =>
      let s := s0.setNode n { s0.node n with fly := [g], nid := 2 }
      s.mayComplete n g && s.completes n g && (g.t0.dst = .none || max 1 g.o0.length ≤ g.n0)
    ok (f (.queue (nodeAt 9) 0) (.ctl (nodeAt 8)) [wordTok 5 0, wordTok 6 0]) && ok (f (.lane row0 2 0) (.reg (nodeAt 3) 2) [wordTok 5 0]) &&
    ok (f (.queue (nodeAt 9) 0) (.queue (nodeAt 9) 0) [wordTok 5 0]) && ok (f .none .none [])) = true := by
  decide +kernel
theorem test_both_slots : (let n := nodeAt 0
    let s0 := ready (.add ops2 ⟨false, false, .w32⟩) 0 []
    let f : Firing := { id := 1, slot := 0, ins := .add ops2 ⟨false, false, .w32⟩, undo := ⟨0, none, {}, .idle, [], []⟩, t0 := { dst := .queue (nodeAt 9) 0 }, t1 := { dst := .queue (nodeAt 9) 0 }, n0 := 1, n1 := 1, o0 := [wordTok 5 0], o1 := [wordTok 6 0] }
    leads (exec (.firingCompletion n 1) (s0.setNode n { s0.node n with fly := [f], nid := 2 })) fun u =>
      ((u.node (nodeAt 9)).queue 0).toks.map (fun t => t.tok) = [wordTok 5 0, wordTok 6 0]) = true := by
  decide +kernel

/-- A guard that fails: of a floating-point instruction with three sources and of ADD; no register is about to be written. -/
theorem wit_guards : (let o : Ops := { ops2 with grd := .popT }
    let off := fun (i : Instr) (r : FireReq) (qs : Tbl Queue) =>
      let s := ready i 0 qs [.ctl false]
      let nd := s.node (nodeAt 0)
      s.offered s.locus nd false && r.ctlThere nd false && !nd.hazard s.locus.nd (r.sels.map (bumpSel nd.rep.offset)) &&
        (popQs r.sels ++ peekQs r.sels).all nd.offers && r.fits nd.rep.offset && r.guardOff nd
    let q : Tbl Queue := [(0, words [1]), (1, words [2])]
    off (.ffma o .rne (.pop 2)) { ops := o, c := some (.pop 2) } (q ++ [(2, words [3])]) && off (.fadd o .rne) { ops := o } q &&
    off (.acc { o with b := .x 0 } .wrap) { ops := { o with b := .x 0 } } q) = true := by
  decide +kernel
theorem test_guarded_fadd : (let i := Instr.fadd { ops2 with grd := .popT } .rne
    started i (ready i 0 [(0, words [1]), (1, words [2])] [.ctl false]) fun f => f.off && f.o0 = [] && f.n0 = 0) = true := by decide +kernel

/-- A node none of whose later slots has still to fire; a place that holds a KCHK; a lane's token that has arrived. -/
theorem wit_waves_more : (let s := marked id
    let kc := ready (.kchk ops1) 0 [(0, queueOf [wordTok 5 9])]
    let lane := banded (ready (.sink { a := .pop 0 }) 3 []) band0
    !s.endsWave (nodeAt 0) (s.node (nodeAt 0)) && (s.node (nodeAt 0)).deadMarks = [] && kc.isKchk ⟨nodeAt 0, 0⟩ && (({ tok := wordTok 5 0 } : QTok).at_ ≤ lane.cyc 0) &&
    (lane.bandOf row0).isSome) = true := by
  decide +kernel

/-- A stream that has the page's translation; a page that a slice holds and one that it walks for. -/
theorem wit_lookups : (let s0 := waiting .translate id
    let n := nodeAt 34
    let st : Stream := { lit := slit 2 0, look := [(0, 2 ^ 26, true)] }
    let s := s0.setRow row0 { s0.row row0 with ports := [(34, { streams := [(0, st)] })] }
    let f := firingOf s n
    let sl := sliceOf 7 0x100000 26
    let e : TlbEnt := ⟨7, 26, 0, 2 ^ 26, true⟩
    let hit := waiting .translate fun d => { d with tlb := [(sl, [e])] }
    f.acc.any (fun a => a.phase = .translate && (s.looked n a).isSome) && (firingOf s0 n).acc.all (fun a => s0.looked n a = none) &&
    (match hit.lookNow row0 0x100000 26 true with | .ok (_, pa, _) => pa = 0x4100000 | _ => false) &&
    (match s0.lookNow row0 0x100000 26 false with | .ok (u, pa, _) => pa = 0x4100000 && ((u.die 0).slice sl).length = 1 | _ => false) &&
    ((s0.die 0).walksOf sl).length < 8 && (s0.xlate 7 0x100000 false |> okOf) = some 0x4100000) = true := by
  decide +kernel

/-- An engine's oldest request without an error, and a response that waits for nothing. -/
theorem wit_engine_entries : (let n := nodeAt 34
    let p := mapped (port (.pref opsV 2) 2 [])
    let job : EngineJob := { n := n, fid := 1, cls := [], gen := 3, owner := 7, gath := false, op := .cpy, src := 0x8000, sbank := false, dst := 0x9000, len := 64, scope := .cluster }
    let g : Seg := { esz := 64, depth := 16, jobs := [job], pushed := 1 }
    let s := p.setCluster 0 0 { banks := [(2, { mode := .queue, segs := [g, { esz := 128, depth := 16 }] })], jobs := [(32, [job])] }
    s.homeErr (s.headEntry 0 0 2 0 g) 64 = none && !job.waits && !job.again && !s.owes n 1 && s.askerStops job = false && decide s.memOk &&
    (((s.bankOf 0 0 2).segs[1]?).any fun z => z.jobs.length < min 4096 z.depth)) = true := by
  decide +kernel

/-- A watchdog one cycle before its limit, and one whose record is due. -/
theorem test_watchdog : (let g : Region := { valid := true, st := .running, wdlim := 10, wdog := 9 }
    let s := (dev.setDie 0 { cyc := 1000 }).setRegion 0 0 { g with owner := 7, wdog := 10, wdue := true }
    (g.tick true 1).wdog = 10 && (g.tick true 1).wdue && !({ g with wdog := 5 }.tick true 1).wdue &&
    leads (exec (.watchdogExpiry 0 0) s) fun u => !(u.region 0 0).wdue && (tgetD u.hub.faults 7 {}).pend.map (fun r => r.cause) = [0x125]) = true := by
  decide +kernel

/-- A wrapped token that its row takes at once, and one whose row hosts another stage; a row that has not passed its marker. -/
theorem wit_wraps : (let tok : QTok := { tok := wordTok 5 0, at_ := 5000 }
    let s := reelS { band2 with wrap := [⟨0, tok, 0⟩] } id id
    let other := reelS { band2 with wrap := [⟨0, { tok with stage := 1 }, 0⟩] } id id
    let take := reelS bandC id fun x => { x with sh := .empty }
    (s.row row0).reel.hosted = tok.stage && 1 ≤ s.destFree (.lane row0 0 1) && (other.row row0).reel.hosted ≠ 1 && !(take.row row0).reel.marked &&
    leads (exec (.wrapDeparture 0 0 0) s) fun u => ((u.row row0).lane 0).toks = [{ tok with at_ := 5004 }]) = true := by
  decide +kernel

/-- A link after nine mismatches, with a host's read that waits for a rebuild; recovery; a rebuild that no link cuts off. -/
theorem wit_links : (let rq : HostReq := ⟨9, 7, 2 ^ 63 + 0x8FF8, 8⟩
    let s := { dev.setLink 2 { tries := 9 } with hub := { (dev.setLink 2 { tries := 9 }).hub with parked := [.hostMemoryRead rq] } }
    let rec_ := { dev with hub := { dev.hub with recovery := true } }
    8 < (s.link 2).tries && (s.link 2).up && s.hub.deltas = [] && (askedBy (.hostMemoryRead rq)) = some 9 && rec_.hub.recovery && rq.len ≤ 224 &&
    (match exec (.hostMemoryRead rq) rec_ with | .next u => decide (u = rec_) | _ => false)) = true := by
  decide +kernel
theorem test_link_down : (leads (exec (.linkDown 2) (dev.setLink 2 { tries := 9 })) fun u => !(u.link 2).up && u.hub.outbox = [.linkDown 2]) = true ∧
    (leads (exec (.linkDown 2) (dev.setLink 2 { tries := 8 })) fun u => (u.link 2).up) = true := by decide +kernel

/-- Band entries are free; a block in a row's buffer without an error. -/
theorem wit_buffers : (let s := reelS band2 id fun x => { x with sh := .loading, buf := some (blkOf 1) }
    (placeS.die 0).freeBands.length = 168 && (s.die 0).freeBands.headD 0 = 1 && s.bufferErr row0 (blkOf 1) = none) = true := by
  decide +kernel
end Sys2Proof.Tests
end

section
/-!
What an own-region freeze leaves alone on its way: the firings of every node, and of every region all but its gateway's
counts and its watchdog. From it: TRAP and FRZ stop their region where each die lists its regions by rising index.
-/
namespace Sys2Proof.Machine

/-! ## Regions up to what a start or a delivery may change -/

/-- A region table entry without what a start or a delivery changes in it: the gateways' counts and the watchdog (R41, R364). -/
def Region.frame (g : Region) : Region := { g with gw := [], fired := false, wdog := 0 }

/-- The regions of a table, each without what a start or a delivery changes in it. -/
def regionFrames (t : Tbl Region) : Tbl Region := t.map fun e => (e.1, e.2.frame)

/-- Each die lists its regions by rising index, the form in which `tset` keeps a table. -/
def State.RegionsRise (s : State) : Prop := ∀ d, ((s.die d).regions.map Prod.fst).Pairwise (· < ·)

theorem map_fst_regionFrames (t : Tbl Region) : (regionFrames t).map Prod.fst = t.map Prod.fst := by
  simp [regionFrames, Function.comp_def]

theorem tget_regionFrames (t : Tbl Region) (k : Nat) : tget (regionFrames t) k = (tget t k).map Region.frame := by
  induction t with
  | nil => rfl
  | cons e t ih =>
    obtain ⟨j, g⟩ := e
    simp only [regionFrames, List.map_cons, tget] at ih ⊢
    split
    · rfl
    · exact ih

theorem regionAmong_regionFrames (cl row : Nat) (t : Tbl Region) :
    regionAmong cl row (regionFrames t) = (regionAmong cl row t).map fun e => (e.1, e.2.frame) := by
  induction t with
  | nil => rfl
  | cons e t ih =>
    obtain ⟨j, g⟩ := e
    simp only [regionFrames, List.map_cons, regionAmong, Region.frame] at ih ⊢
    split
    · rfl
    · exact ih

theorem mem_keys_of_tget {α : Type} {t : Tbl α} {k : Nat} {a : α} (h : tget t k = some a) : k ∈ t.map Prod.fst := by
  induction t with
  | nil => cases h
  | cons e t ih =>
    obtain ⟨j, b⟩ := e
    simp only [tget] at h
    split at h
    · simp [‹j = k›]
    · exact List.mem_cons_of_mem _ (ih h)

/-- In a table of rising keys the entry that holds a row is the one at its key. -/
theorem tget_of_regionAmong {cl row k : Nat} {g : Region} {t : Tbl Region} (w : (t.map Prod.fst).Pairwise (· < ·))
    (h : regionAmong cl row t = some (k, g)) : tget t k = some g := by
  induction t with
  | nil => cases h
  | cons e t ih =>
    obtain ⟨j, x⟩ := e
    obtain ⟨hj, ht⟩ := List.pairwise_cons.mp w
    simp only [regionAmong] at h
    split at h
    · cases h
      simp [tget]
    · have hk := ih ht h
      have hne : j ≠ k := Nat.ne_of_lt (hj k (mem_keys_of_tget hk))
      simpa [tget, hne] using hk

/-- In a table of rising keys a write that keeps the frame of its entry keeps every frame in its place. -/
theorem regionFrames_tset {k : Nat} {g x : Region} {t : Tbl Region} (w : (t.map Prod.fst).Pairwise (· < ·))
    (h : tget t k = some g) (hx : x.frame = g.frame) : regionFrames (tset t k x) = regionFrames t := by
  induction t with
  | nil => cases h
  | cons e t ih =>
    obtain ⟨j, y⟩ := e
    obtain ⟨hj, ht⟩ := List.pairwise_cons.mp w
    by_cases hjk : j = k
    · subst hjk
      have hy : y = g := by simpa [tget] using h
      simp [tset, regionFrames, hx, hy]
    · have htl : tget t k = some g := by simpa [tget, hjk] using h
      have hlt : j < k := hj k (mem_keys_of_tget htl)
      simpa [tset, regionFrames, Nat.lt_asymm hlt, Ne.symm hjk] using ih ht htl

/-! ## What keeps every firing and every region's frame -/

/-- A state has the firings of another at every node, and its regions but for the gateways' counts and the watchdogs. -/
structure State.Keeps (s u : State) : Prop where
  fly : ∀ m, (u.node m).fly = (s.node m).fly
  regions : ∀ d, regionFrames (u.die d).regions = regionFrames (s.die d).regions

theorem State.Keeps.refl (s : State) : s.Keeps s := ⟨fun _ => rfl, fun _ => rfl⟩

theorem State.Keeps.trans {s t u : State} (h : s.Keeps t) (h' : t.Keeps u) : s.Keeps u :=
  ⟨fun m => (h'.fly m).trans (h.fly m), fun d => (h'.regions d).trans (h.regions d)⟩

theorem State.Keeps.of_eq {s u : State} (hr : u.rows = s.rows) (hd : u.dies = s.dies) : s.Keeps u := by
  constructor
  · intro m; simp only [State.node, State.row, hr]
  · intro d; simp only [State.die, hd]

theorem State.Keeps.rise {s u : State} (h : s.Keeps u) (w : s.RegionsRise) : u.RegionsRise := by
  intro d
  rw [← map_fst_regionFrames, h.regions d, map_fst_regionFrames]
  exact w d

theorem State.node_setRow (s : State) (r : RowId) (x : Row) (m : NodeId) :
    (s.setRow r x).node m = if rowIx m.row = rowIx r then tgetD x.nodes m.node {} else s.node m := by
  split
  · simp [State.node, State.row, State.setRow, *]
  · simp [State.node, State.row, State.setRow, tgetD_tset_other, *]

theorem State.keeps_setRow {s : State} {r : RowId} {x : Row} (h : x.nodes = (s.row r).nodes) : s.Keeps (s.setRow r x) := by
  refine ⟨fun m => ?_, fun _ => rfl⟩
  rw [State.node_setRow]
  split
  · simp only [State.node, State.row, *]
  · rfl

/-- A write of a node leaves the firings of every node at another place alone. -/
theorem State.fly_setNode (s : State) (n : NodeId) (x : Node) (m : NodeId) :
    ((s.setNode n x).node m).fly = if rowIx m.row = rowIx n.row ∧ m.node = n.node then x.fly else (s.node m).fly := by
  unfold State.setNode
  rw [State.node_setRow]
  by_cases hr : rowIx m.row = rowIx n.row
  · by_cases hn : m.node = n.node
    · simp [hr, hn]
    · simp [hr, hn, tgetD_tset_other, State.node, State.row]
  · simp [hr]

theorem State.keeps_setNode {s : State} {n : NodeId} {x : Node} (h : x.fly = (s.node n).fly) : s.Keeps (s.setNode n x) := by
  refine ⟨fun m => ?_, fun _ => rfl⟩
  rw [State.fly_setNode]
  split
  · rename_i hm
    rw [h]
    simp only [State.node, State.row, hm]
  · rfl

theorem State.keeps_setDie {s : State} {d : Nat} {x : Die} (h : regionFrames x.regions = regionFrames (s.die d).regions) :
    s.Keeps (s.setDie d x) := by
  refine ⟨fun _ => rfl, fun e => ?_⟩
  by_cases he : e = d
  · subst he; simpa using h
  · simp [State.die, State.setDie, tgetD_tset_other _ _ _ _ _ he]

theorem State.keeps_setBand (s : State) (d k : Nat) (b : Band) : s.Keeps (s.setBand d k b) := State.keeps_setDie rfl

theorem State.keeps_updBand (s : State) (d k : Nat) (f : Band → Band) : s.Keeps (s.updBand d k f) := by
  unfold State.updBand
  split
  · exact .refl s
  · exact s.keeps_setBand d k _

/-- A write of the region that holds a row keeps the rest where it keeps the region's frame. -/
theorem State.keeps_setRegion {s : State} {r : RowId} {k : Nat} {g x : Region} (w : s.RegionsRise)
    (h : s.regionOf r = some (k, g)) (hx : x.frame = g.frame) : s.Keeps (s.setRegion r.die k x) :=
  State.keeps_setDie (regionFrames_tset (w r.die) (tget_of_regionAmong (w r.die) h) hx)

/-! ## Reservations, counts and deliveries -/

theorem State.keeps_reserve (s : State) (d : Dest) (k a : Nat) : s.Keeps (s.reserve d k a) := by
  cases d with
  | queue n q => exact State.keeps_setNode rfl
  | ctl n => exact State.keeps_setNode rfl
  | lane r l _ => exact State.keeps_setRow rfl
  | wrap d b l => exact s.keeps_updBand d b _
  | fb d b c => exact s.keeps_updBand d b _
  | stageQ d b t l => exact s.keeps_updBand d b _
  | none | reg | foreign | exit => exact .refl s

theorem State.keeps_unreserve (s : State) (d : Dest) (k : Nat) : s.Keeps (s.unreserve d k) := by
  cases d with
  | queue n q => exact State.keeps_setNode rfl
  | ctl n => exact State.keeps_setNode rfl
  | lane r l _ => exact State.keeps_setRow rfl
  | wrap d b l => exact s.keeps_updBand d b _
  | fb d b c => exact s.keeps_updBand d b _
  | stageQ d b t l => exact s.keeps_updBand d b _
  | none | reg | foreign | exit => exact .refl s

theorem State.keeps_count (s : State) (r : RowId) (k n : Nat) : s.Keeps (s.count r k n) := State.keeps_setRow rfl

theorem State.keeps_noteStart {s : State} (w : s.RegionsRise) (r : RowId) : s.Keeps (s.noteStart r) := by
  unfold State.noteStart
  split
  · exact .refl s
  · rename_i k g hg
    split
    · exact State.keeps_setRegion (g := g) w hg rfl
    · exact .refl s

theorem State.keeps_fillEntry (s : State) (d c b q : Nat) (bs : List Byte) : s.Keeps (s.fillEntry d c b q bs) := by
  unfold State.fillEntry
  extract_lets k
  split
  · exact .refl s
  · exact .of_eq rfl rfl

theorem State.keeps_pushMade (s : State) (d : Nat) (b : Band) (q : MadeQueue) : s.Keeps (s.pushMade d b q) := by
  unfold State.pushMade
  extract_lets c
  split
  · exact .refl s
  · exact s.keeps_fillEntry _ _ _ _ _

theorem State.keeps_intoLane (s : State) (r : RowId) (l : Nat) (e : QTok) : s.Keeps (s.intoLane r l e) := State.keeps_setRow rfl

theorem State.keeps_wrapLeave (s : State) (d k l : Nat) : s.Keeps (s.wrapLeave d k l) := by
  unfold State.wrapLeave
  split
  · exact .refl s
  · split
    · extract_lets r x
      split
      · exact .refl s
      · exact (s.keeps_setBand d k _).trans (State.keeps_intoLane _ _ _ _)
    · exact .refl s

theorem State.keeps_intoWrap (s : State) (d k l : Nat) (e : QTok) : s.Keeps (s.intoWrap d k l e) := by
  unfold State.intoWrap
  split
  · exact .refl s
  · extract_lets wrap ahead fresh s0 s1
    have h0 : s.Keeps s0 := ite_ind _ (s.keeps_pushMade d _ _) (.refl s)
    have h1 : s.Keeps s1 := h0.trans (s0.keeps_setBand d k _)
    exact ite_ind _ (h1.trans (s1.keeps_wrapLeave d k l)) h1

theorem State.keeps_intoMade (s : State) (d k : Nat) (q : MadeQueue) (f : Band → Band) : s.Keeps (s.intoMade d k q f) := by
  unfold State.intoMade
  split
  · exact .refl s
  · exact (s.keeps_pushMade d _ q).trans (State.keeps_setBand _ d k _)

theorem State.keeps_dropForeign {s : State} (w : s.RegionsRise) (r : RowId) : s.Keeps (s.dropForeign r) := by
  unfold State.dropForeign
  split
  · exact .refl s
  · rename_i k g hg
    exact State.keeps_setRegion (g := g) w hg rfl

theorem State.keeps_push {s : State} (w : s.RegionsRise) (t : Target) (k : Tok) : s.Keeps (s.push t k) := by
  obtain ⟨d, last, stage⟩ := t
  cases d with
  | none => exact .refl s
  | queue n q => exact State.keeps_setNode rfl
  | ctl n => exact State.keeps_setNode rfl
  | reg n x =>
    cases k with
    | word v t c => exact State.keeps_setNode rfl
    | beat | ctl | mark => exact .refl s
  | lane r l _ => exact s.keeps_intoLane r l _
  | foreign r => exact State.keeps_dropForeign w r
  | wrap d b l => exact s.keeps_intoWrap d b l _
  | exit d b => exact s.keeps_updBand d b _
  | fb d b c => exact s.keeps_intoMade d b _ _
  | stageQ d b t l => exact s.keeps_intoMade d b _ _

theorem State.keeps_pushAll {s : State} (w : s.RegionsRise) (t : Target) (ks : List Tok) : s.Keeps (s.pushAll t ks) := by
  induction ks generalizing s with
  | nil => exact .refl s
  | cons k ks ih => exact (State.keeps_push w t k).trans (ih ((State.keeps_push w t k).rise w))

/-! ## The start and the completion of a firing -/

theorem Node.fly_claimAll (n : Node) (id : Nat) (ps : List (Nat × Nat)) : (n.claimAll id ps).fly = n.fly := by
  induction ps generalizing n with
  | nil => rfl
  | cons p ps ih => exact ih _

theorem Node.fly_markPeeks (n : Node) (id : Nat) (qs : List Nat) : (n.markPeeks id qs).fly = n.fly := by
  induction qs generalizing n with
  | nil => rfl
  | cons q qs ih => exact ih _

/-- A start applies its plan's effect to a state in which the firing is the youngest of its node (R166); the regions are as they
were but for the watchdog. -/
theorem State.begin_eq_eff {s : State} (w : s.RegionsRise) (l : Loc) (i : Instr) (r : FireReq) (off : Bool) {p : Plan}
    (hc : p.curs = []) (t0 t1 : Target) :
    ∃ u f, s.begin l i r off p t0 t1 = p.eff u ∧ f.id = (s.node l.nd).nid ∧
      (u.node l.nd).fly = (s.node l.nd).fly ++ [f] ∧
      ∀ d, regionFrames (u.die d).regions = regionFrames (s.die d).regions := by
  unfold State.begin
  extract_lets nd id k0 k1 gv last late0 again sq late old f pops n1 ctl n2 at_
  have hn1 : n1.fly = nd.fly := by
    simp only [n1, Node.fly_claimAll]
    split
    · rfl
    · exact Node.fly_markPeeks _ _ _
  have hcurs : (s.setNode l.nd n2).setCurs l.nd p.curs = s.setNode l.nd n2 := by simp [State.setCurs, hc]
  have hk : (s.setNode l.nd n2).Keeps (((((s.setNode l.nd n2).reserve t0.dst k0 at_).reserve t1.dst k1 at_).count l.nd.row 0 1)) :=
    ((State.keeps_reserve _ _ _ _).trans (State.keeps_reserve _ _ _ _)).trans (State.keeps_count _ _ _ _)
  have hk' := hk.trans (State.keeps_noteStart (hk.rise w) l.nd.row)
  refine ⟨_, f, by rw [hcurs], rfl, ?_, hk'.regions⟩
  rw [hk'.fly, State.node_setNode]
  exact congrArg (· ++ [f]) hn1

theorem Node.fly_decide (n : Node) (f : Firing) (x : Nxt) (t : Option Bool) : (n.decide f x t).fly = n.fly := by
  unfold Node.decide
  split
  · rfl
  · split
    · rfl
    · split <;> rfl
    · rfl

/-- At a completion the node's firings lose those of its number, and the regions keep their frames (R166). -/
theorem State.complete_keeps {s : State} (w : s.RegionsRise) (n : NodeId) (f : Firing) :
    ((s.complete n f).node n).fly = (s.node n).fly.filter (fun g => g.id ≠ f.id) ∧
      ∀ d, regionFrames ((s.complete n f).die d).regions = regionFrames (s.die d).regions := by
  unfold State.complete
  extract_lets nd tok n1 n2 n3
  have hn3 : n3.fly = nd.fly.filter fun g => g.id ≠ f.id := by
    have hn2 : n2.fly = nd.fly.filter fun g => g.id ≠ f.id := by
      simp only [n2, n1, Node.fly_decide]
      rfl
    simp only [n3]
    split <;> exact hn2
  have hu : (s.setNode n n3).Keeps (((s.setNode n n3).unreserve f.t0.dst f.n0).unreserve f.t1.dst f.n1) :=
    (State.keeps_unreserve _ _ _).trans (State.keeps_unreserve _ _ _)
  have h0 := hu.trans (State.keeps_pushAll (hu.rise w) f.t0 f.o0)
  have h1 := h0.trans (State.keeps_pushAll (h0.rise w) f.t1 f.o1)
  refine ⟨?_, h1.regions⟩
  rw [h1.fly, State.node_setNode, hn3]

/-! ## The stop of the own region -/

theorem State.regionOf_of_frames {s u : State} {r : RowId} {k : Nat} {g : Region}
    (h : regionFrames (u.die r.die).regions = regionFrames (s.die r.die).regions) (hs : s.regionOf r = some (k, g)) :
    ∃ g', u.regionOf r = some (k, g') := by
  have e : (u.regionOf r).map (fun e => (e.1, e.2.frame)) = some (k, g.frame) := by
    rw [State.regionOf, ← regionAmong_regionFrames, h, regionAmong_regionFrames, ← State.regionOf, hs]
    rfl
  obtain ⟨⟨j, g'⟩, hu, hj⟩ := Option.map_eq_some_iff.mp e
  obtain ⟨rfl, -⟩ := Prod.mk.inj hj
  exact ⟨g', hu⟩

theorem State.region_frame (s : State) (d k : Nat) :
    (s.region d k).frame = (tget (regionFrames (s.die d).regions) k).getD {} := by
  rw [tget_regionFrames, State.region, tgetD]
  cases tget (s.die d).regions k <;> rfl

/-- A fault begins the freeze of a running region that does not freeze yet, with its record (R334, R340). -/
theorem State.raise_begins {s : State} {n : NodeId} {k : Nat} {g : Region} (slot : Nat) (c : Cause) (x : FInfo)
    (hr : s.regionOf n.row = some (k, g)) (hf : (s.region n.row.die k).frz = none) (hs : (s.region n.row.die k).st = .running) :
    s.raise n slot c x = s.setRegion n.row.die k { s.region n.row.die k with
      frz := some ⟨s.cyc n.row.die, n.row.row, some (s.mkRec n slot c x k g), .record⟩ } := by
  simp only [State.raise, hr, State.startFreeze, hf, hs, if_true]

theorem State.freezeRec_setRegion (s : State) (d k : Nat) (g : Region) :
    (s.setRegion d k g).freezeRec d k = g.frz.bind fun x => x.fr := by
  rw [State.freezeRec, State.region_setRegion]

/-- The plan of TRAP and of FRZ of the own region: a done token to each consumer slot, and the stop (R338, R342). -/
def stopPlan (e : Env) (c : Cause) (x : FInfo) : Plan :=
  { o0 := [wordTok 1 e.tag], o1 := [wordTok 1 e.tag], lat := 1, eff := fun s => s.stopAt e.l e.id c x }

/-- The instruction's firing is gone after its step, and the region `k` freezes with a record of the cause. -/
def StopsRegion (i : Instr) (s : State) (o : Ops) (k : Nat) (c : Cause) : Prop :=
  ∃ u fr, exec i s = .next u ∧ (u.node s.locus.nd).firing (s.env (sysReq o)).id = none ∧
    u.freezeRec s.locus.nd.row.die k = some fr ∧ fr.cause = c

/-- A firing that is alone in its node and starts with the stop is gone at once, and its region freezes with the cause. -/
theorem Fires.stops {i : Instr} {s : State} {o : Ops} {c : Cause} {x : FInfo} {k : Nat} {g : Region}
    (h : Fires i s (sysReq o) (stopPlan (s.env (sysReq o)) c x)) (w : s.RegionsRise) (alone : (s.node s.locus.nd).fly = [])
    (hr : s.regionOf s.locus.nd.row = some (k, g)) (hf : (s.region s.locus.nd.row.die k).frz = none)
    (hs : (s.region s.locus.nd.row.die k).st = .running) : StopsRegion i s o k c := by
  obtain ⟨t, f, hb, hid, hfly, hreg⟩ := State.begin_eq_eff w s.locus i (sysReq o) false (p := stopPlan (s.env (sysReq o)) c x) rfl
    (s.tgt0 o) (s.tgt1 o)
  have hid' : (s.env (sysReq o)).id = f.id := hid.symm
  have hw : t.RegionsRise := fun d => by
    rw [← map_fst_regionFrames, hreg, map_fst_regionFrames]
    exact w d
  obtain ⟨hgone, hreg'⟩ := State.complete_keeps hw s.locus.nd f
  have hfind : (t.node s.locus.nd).firing f.id = some f := by simp [Node.firing, hfly, alone]
  have hframe : ((t.complete s.locus.nd f).region s.locus.nd.row.die k).frame = (s.region s.locus.nd.row.die k).frame := by
    rw [State.region_frame, State.region_frame, hreg', hreg]
  obtain ⟨g', hr'⟩ := State.regionOf_of_frames ((hreg' _).trans (hreg _)) hr
  have hraise := State.raise_begins s.locus.slot c x hr' ((congrArg Region.frz hframe).trans hf) ((congrArg Region.st hframe).trans hs)
  have hu : (stopPlan (s.env (sysReq o)) c x).eff t = (t.complete s.locus.nd f).raise s.locus.nd s.locus.slot c x := by
    show t.stopAt s.locus (s.env (sysReq o)).id c x = _
    rw [State.stopAt, hid', hfind]
  refine ⟨_, _, h.trans (congrArg _ (hb.trans (hu.trans hraise))), ?_, State.freezeRec_setRegion _ _ _ _, rfl⟩
  rw [hid', State.setRegion, State.node_setDie, Node.firing, hgone]
  simp

theorem Env.mayFreeze_of_running {e : Env} {g : Region} (hf : g.frz = none) (hs : g.st = .running) : e.mayFreeze g = true := by
  simp [Env.mayFreeze, hf, hs]

/-- TRAP in a running region that does not freeze yet starts with the stop (R342). -/
theorem fires_trap {s : State} {o : Ops} {code : BitVec 4} {d : Tok} {k : Nat} {g : Region}
    (h : s.CanFire (sysReq o) (oneToken 1 d)) (hr : s.regionOf s.locus.nd.row = some (k, g)) (hf : g.frz = none) (hs : g.st = .running) :
    Fires (.trap o code) s (sysReq o) (stopPlan (s.env (sysReq o)) (BitVec.ofNat _ (0x150 + code.toNat))
      ((s.env (sysReq o)).info (code.setWidth 32))) := by
  have hr' : (s.env (sysReq o)).s.regionOf (s.env (sysReq o)).l.nd.row = some (k, g) := hr
  refine Fires.of_fire rfl h ?_
  simp only [hr', Env.mayFreeze_of_running hf hs, Bool.not_true, Bool.false_eq_true, if_false]
  rfl

/-- FRZ without an operand in a running region that does not freeze yet starts with the stop (R338). -/
theorem fires_frz_own {s : State} {o : Ops} {d : Tok} {k : Nat} {g : Region}
    (h : s.CanFire (sysReq o) (oneToken 1 d)) (hr : s.regionOf s.locus.nd.row = some (k, g)) (hg : s.region s.locus.nd.row.die k = g)
    (hf : g.frz = none) (hs : g.st = .running) (hv : g.valid = true) (ha : o.a = .zero) :
    Fires (.frz o) s (sysReq o) (stopPlan (s.env (sysReq o)) 0x148
      { tag := (s.env (sysReq o)).tag, aux := BitVec.ofNat 32 s.locus.nd.node }) := by
  have hr' : (s.env (sysReq o)).s.regionOf (s.env (sysReq o)).l.nd.row = some (k, g) := hr
  have hg' : (s.env (sysReq o)).s.region (s.env (sysReq o)).l.nd.row.die k = g := hg
  refine Fires.of_fire rfl h ?_
  simp only [hr', ha, if_true, hg', hv, Bool.not_true, ne_eq, not_true, decide_false, Bool.or_self, Bool.false_eq_true, if_false,
    decide_true, Bool.and_self, Env.mayFreeze_of_running hf hs]
  rfl

/-- What the first half of O34 says holds where the region tables have the form that `tset` gives them. -/
theorem trap_and_frz_stop_of_regionsRise {s : State} {o : Ops} (code : BitVec 4) {d : Tok} {k : Nat} {g : Region} (w : s.RegionsRise)
    (h : s.CanFire (sysReq o) (oneToken 1 d)) (hr : s.regionOf s.locus.nd.row = some (k, g)) (hg : s.region s.locus.nd.row.die k = g)
    (hf : g.frz = none) (hs : g.st = .running) (hv : g.valid = true) :
    StopsRegion (.trap o code) s o k (BitVec.ofNat _ (0x150 + code.toNat)) ∧ (o.a = .zero → StopsRegion (.frz o) s o k 0x148) := by
  obtain ⟨⟨_, _, _, _, _, _, serial, _⟩, _⟩ := id h
  have hf' := (congrArg Region.frz hg).trans hf
  have hs' := (congrArg Region.st hg).trans hs
  exact ⟨(fires_trap h hr hf hs).stops w (serial rfl) hr hf' hs',
    fun ha => (fires_frz_own h hr hg hf hs hv ha).stops w (serial rfl) hr hf' hs'⟩

/-! ## The counterexample -/

/-- Rows 0 and 1 of a cluster run for owners 7 and 8 in two regions that the table lists under the one key 0. -/
def twiceListed : State :=
  State.reset.setDie 0 { regions := [(0, { valid := true, st := .running, nrows := 1, owner := 7 }),
    (0, { valid := true, st := .running, first := 1, nrows := 1, owner := 8 })] }

/-- Operands whose one consumer slot is a lane to the next row. -/
def toNextRow : Ops := { d0 := .lane 0 false 0 }

/-- The record of the freeze of region 0 in an outcome's next state. -/
def freezeAfter (x : Out) : Option FaultRec :=
  match x with
  | .next u => u.freezeRec 0 0
  | _ => none

theorem twiceListed_canFire : twiceListed.CanFire (sysReq toNextRow) (oneToken 1 (wordTok 1 0)) := by decide +kernel

/-- The gateway of row 1 counts TRAP's token of a foreign owner in the entry at key 0, which from then on is row 1's region: no
region holds row 0 any more, and none freezes. -/
theorem freezeAfter_trap_twiceListed : freezeAfter (exec (.trap toNextRow 0) twiceListed) = none := by decide +kernel

/-- Refutes O34: the statement admits states whose region table lists a key twice. Where TRAP's token goes to a row of a foreign
owner whose region stands under the same key, the count of the dropped token (R41) overwrites the region that was to freeze. In
tables of rising keys the statement holds (`trap_and_frz_stop_of_regionsRise`, `State.raise_begins`). -/
theorem not_trapAndFreeze : ¬ Obligations.TrapAndFreeze := by
  unfold Obligations.TrapAndFreeze
  rintro ⟨stops, -⟩
  obtain ⟨⟨u, fr, hx, -, hfr, -⟩, -⟩ := stops twiceListed toNextRow 0 (wordTok 1 0) 0 _ twiceListed_canFire (by decide) rfl rfl rfl rfl rfl
  have hnone := freezeAfter_trap_twiceListed
  rw [hx] at hnone
  exact absurd (hnone.symm.trans hfr) (by simp)

end Sys2Proof.Machine
end

section
/-!
What the start of a scalar, online or lane firing leaves alone: the memories, the hub and the clusters, every token and
X register, the rows but for claims, reservations and counts, and of each die its cycle counter, placement queue and TLB.
-/
namespace Sys2Proof.Machine

/-! ## States that hold the same data -/

/-- A node holds the X registers and the tokens of another; claims, reservations and the sequencer may differ. -/
structure Node.HoldsAs (a b : Node) : Prop where
  xs : b.xs = a.xs
  queue : ∀ q, (b.queue q).toks.map QTok.tok = (a.queue q).toks.map QTok.tok
  ctl : b.ctl.toks.map QTok.tok = a.ctl.toks.map QTok.tok

/-- A row holds the data of another: of its nodes, lanes, matrix node, ports, control cell, descent node and bank maps. -/
structure Row.HoldsAs (a b : Row) : Prop where
  node : ∀ k, (tgetD a.nodes k {}).HoldsAs (tgetD b.nodes k {})
  lane : ∀ l, (b.lane l).toks = (a.lane l).toks
  mat : b.mat = a.mat
  ports : b.ports = a.ports
  cell : b.cell = a.cell
  desc : b.desc = a.desc
  regmap : b.regmap = a.regmap
  rstat : b.rstat = a.rstat

/-- A state holds the data of another: a firing's start may claim tokens, reserve room, count and begin a freeze. -/
structure State.HoldsAs (s u : State) : Prop where
  hbm : u.hbm = s.hbm
  sram : u.sram = s.sram
  regf : u.regf = s.regf
  hub : u.hub = s.hub
  clusters : u.clusters = s.clusters
  hsyn : u.hsyn = s.hsyn
  ssyn : u.ssyn = s.ssyn
  ecc : u.ecc = s.ecc
  row : ∀ r, (s.row r).HoldsAs (u.row r)
  cyc : ∀ d, (u.die d).cyc = (s.die d).cyc
  pq : ∀ d, (u.die d).pq = (s.die d).pq
  tlb : ∀ d, (u.die d).tlb = (s.die d).tlb

theorem Node.HoldsAs.refl (a : Node) : a.HoldsAs a := ⟨rfl, fun _ => rfl, rfl⟩

theorem Node.HoldsAs.trans {a b c : Node} (h : a.HoldsAs b) (h' : b.HoldsAs c) : a.HoldsAs c :=
  ⟨h'.xs.trans h.xs, fun q => (h'.queue q).trans (h.queue q), h'.ctl.trans h.ctl⟩

theorem Row.HoldsAs.refl (a : Row) : a.HoldsAs a := ⟨fun _ => .refl _, fun _ => rfl, rfl, rfl, rfl, rfl, rfl, rfl⟩

theorem Row.HoldsAs.trans {a b c : Row} (h : a.HoldsAs b) (h' : b.HoldsAs c) : a.HoldsAs c where
  node k := (h.node k).trans (h'.node k)
  lane l := (h'.lane l).trans (h.lane l)
  mat := h'.mat.trans h.mat
  ports := h'.ports.trans h.ports
  cell := h'.cell.trans h.cell
  desc := h'.desc.trans h.desc
  regmap := h'.regmap.trans h.regmap
  rstat := h'.rstat.trans h.rstat

theorem State.HoldsAs.refl (s : State) : s.HoldsAs s :=
  ⟨rfl, rfl, rfl, rfl, rfl, rfl, rfl, rfl, fun _ => .refl _, fun _ => rfl, fun _ => rfl, fun _ => rfl⟩

theorem State.HoldsAs.trans {s t u : State} (h : s.HoldsAs t) (h' : t.HoldsAs u) : s.HoldsAs u where
  hbm := h'.hbm.trans h.hbm
  sram := h'.sram.trans h.sram
  regf := h'.regf.trans h.regf
  hub := h'.hub.trans h.hub
  clusters := h'.clusters.trans h.clusters
  hsyn := h'.hsyn.trans h.hsyn
  ssyn := h'.ssyn.trans h.ssyn
  ecc := h'.ecc.trans h.ecc
  row r := (h.row r).trans (h'.row r)
  cyc d := (h'.cyc d).trans (h.cyc d)
  pq d := (h'.pq d).trans (h.pq d)
  tlb d := (h'.tlb d).trans (h.tlb d)

theorem State.HoldsAs.node {s u : State} (h : s.HoldsAs u) (n : NodeId) : (s.node n).HoldsAs (u.node n) := (h.row n.row).node n.node

/-! ## Updates that keep the data -/

theorem State.holdsAs_setRow {s : State} {r : RowId} {x : Row} (h : (s.row r).HoldsAs x) : s.HoldsAs (s.setRow r x) := by
  refine ⟨rfl, rfl, rfl, rfl, rfl, rfl, rfl, rfl, fun r' => ?_, fun _ => rfl, fun _ => rfl, fun _ => rfl⟩
  by_cases hr : rowIx r' = rowIx r
  · simpa only [State.row, State.setRow, hr, tgetD_tset_same] using h
  · simpa only [State.row, State.setRow, tgetD_tset_other _ _ _ _ _ hr] using Row.HoldsAs.refl _

theorem State.holdsAs_setNode {s : State} {n : NodeId} {x : Node} (h : (s.node n).HoldsAs x) : s.HoldsAs (s.setNode n x) := by
  refine State.holdsAs_setRow ⟨fun k => ?_, fun _ => rfl, rfl, rfl, rfl, rfl, rfl, rfl⟩
  by_cases hk : k = n.node
  · subst hk
    rw [tgetD_tset_same]
    exact h
  · simpa only [tgetD_tset_other _ _ _ _ _ hk] using Node.HoldsAs.refl _

theorem State.holdsAs_setDie {s : State} {d : Nat} {x : Die} (hc : x.cyc = (s.die d).cyc) (hq : x.pq = (s.die d).pq)
    (ht : x.tlb = (s.die d).tlb) : s.HoldsAs (s.setDie d x) := by
  have hd : ∀ {α : Type} (f : Die → α) (e : Nat), f x = f (s.die d) → f ((s.setDie d x).die e) = f (s.die e) := by
    intro α f e h
    by_cases he : e = d
    · subst he
      rw [State.die_setDie, h]
    · simp only [State.die, State.setDie, tgetD_tset_other _ _ _ _ _ he]
  exact ⟨rfl, rfl, rfl, rfl, rfl, rfl, rfl, rfl, fun _ => .refl _, fun e => hd Die.cyc e hc, fun e => hd Die.pq e hq, fun e => hd Die.tlb e ht⟩

theorem State.holdsAs_setRegion (s : State) (d k : Nat) (g : Region) : s.HoldsAs (s.setRegion d k g) :=
  State.holdsAs_setDie rfl rfl rfl

theorem State.holdsAs_updBand (s : State) (d k : Nat) (f : Band → Band) : s.HoldsAs (s.updBand d k f) := by
  unfold State.updBand
  split
  · exact .refl s
  · exact State.holdsAs_setDie rfl rfl rfl

theorem Node.holdsAs_setQueue {n : Node} {q : Nat} {x : Queue} (h : x.toks.map QTok.tok = (n.queue q).toks.map QTok.tok) :
    n.HoldsAs (n.setQueue q x) := by
  refine ⟨rfl, fun q' => ?_, rfl⟩
  by_cases hq : q' = q
  · subst hq
    simpa only [Node.queue, Node.setQueue, tgetD_tset_same] using h
  · simp only [Node.queue, Node.setQueue, tgetD_tset_other _ _ _ _ _ hq]

theorem Row.holdsAs_setLane {r : Row} {l : Nat} {x : Queue} (h : x.toks = (r.lane l).toks) : r.HoldsAs (r.setLane l x) := by
  refine ⟨fun _ => .refl _, fun l' => ?_, rfl, rfl, rfl, rfl, rfl, rfl⟩
  by_cases hl : l' = l
  · subst hl
    simpa only [Row.lane, Row.setLane, tgetD_tset_same] using h
  · simp only [Row.lane, Row.setLane, tgetD_tset_other _ _ _ _ _ hl]

/-! ## Claims, reservations, counts and freezes -/

theorem map_tok_claimToks (id k : Nat) (ts : List QTok) : (claimToks id k ts).map QTok.tok = ts.map QTok.tok := by
  induction ts generalizing k with
  | nil => cases k <;> rfl
  | cons t ts ih =>
    cases k with
    | zero => rfl
    | succ k =>
      simp only [claimToks]
      split <;> simp [ih]

theorem map_tok_peekToks (id : Nat) (ts : List QTok) : (peekToks id ts).map QTok.tok = ts.map QTok.tok := by
  induction ts with
  | nil => rfl
  | cons t ts ih =>
    simp only [peekToks]
    split
    · simp [ih]
    · split <;> simp

theorem Node.holdsAs_claimAll (n : Node) (id : Nat) (ps : List (Nat × Nat)) : n.HoldsAs (n.claimAll id ps) := by
  induction ps generalizing n with
  | nil => exact .refl n
  | cons p ps ih => exact (Node.holdsAs_setQueue (map_tok_claimToks id p.2 _)).trans (ih _)

theorem Node.holdsAs_markPeeks (n : Node) (id : Nat) (qs : List Nat) : n.HoldsAs (n.markPeeks id qs) := by
  induction qs generalizing n with
  | nil => exact .refl n
  | cons q qs ih => exact (Node.holdsAs_setQueue (map_tok_peekToks id _)).trans (ih _)

theorem State.holdsAs_reserve (s : State) (d : Dest) (k a : Nat) : s.HoldsAs (s.reserve d k a) := by
  cases d with
  | queue n q => exact State.holdsAs_setNode (Node.holdsAs_setQueue rfl)
  | ctl n => exact State.holdsAs_setNode ⟨rfl, fun _ => rfl, rfl⟩
  | lane r l _ => exact State.holdsAs_setRow (Row.holdsAs_setLane rfl)
  | wrap d b l => exact s.holdsAs_updBand d b _
  | fb d b c => exact s.holdsAs_updBand d b _
  | stageQ d b t l => exact s.holdsAs_updBand d b _
  | none | reg | foreign | exit => exact .refl s

theorem State.holdsAs_count (s : State) (r : RowId) (k n : Nat) : s.HoldsAs (s.count r k n) :=
  State.holdsAs_setRow ⟨fun _ => .refl _, fun _ => rfl, rfl, rfl, rfl, rfl, rfl, rfl⟩

theorem State.holdsAs_noteStart (s : State) (r : RowId) : s.HoldsAs (s.noteStart r) := by
  unfold State.noteStart
  split
  · exact .refl s
  · exact ite_ind _ (s.holdsAs_setRegion _ _ _) (.refl s)

theorem State.holdsAs_raise (s : State) (n : NodeId) (slot : Nat) (c : Cause) (x : FInfo) : s.HoldsAs (s.raise n slot c x) := by
  rcases State.raise_cases s n slot c x with h | ⟨k, g, f, _, _, _, h⟩
  · rw [h]
    exact .refl s
  · rw [h]
    exact s.holdsAs_setRegion _ _ _

/-! ## Starts without an effect of their own -/

/-- A plan that makes no change of its own to the state, and moves no stream cursor. -/
def Plan.Plain (p : Plan) : Prop := p.eff = id ∧ p.curs = []

/-- An answer that changes nothing before its firing starts, and whose firing starts with a plain plan. -/
def Res.Plain : Res → Prop
  | .wait => True
  | .set _ => False
  | .fault _ _ => True
  | .go p => p.Plain

/-- The start of a firing with a plain plan claims, reserves and counts, and changes no data (R166). -/
theorem State.holdsAs_begin (s : State) (l : Loc) (i : Instr) (r : FireReq) (off : Bool) {p : Plan} (hp : p.Plain) (t0 t1 : Target) :
    s.HoldsAs (s.begin l i r off p t0 t1) := by
  obtain ⟨he, hc⟩ := hp
  unfold State.begin
  extract_lets nd id k0 k1 gv last late0 again sq late old f pops n1 ctl n2 at_
  have hn1 : nd.HoldsAs n1 := (ite_ind _ (.refl nd) (nd.holdsAs_markPeeks _ _)).trans (Node.holdsAs_claimAll _ _ _)
  have hn2 : nd.HoldsAs n2 := hn1.trans ⟨rfl, fun _ => rfl, map_tok_claimToks _ _ _⟩
  have hcurs : (s.setNode l.nd n2).setCurs l.nd p.curs = s.setNode l.nd n2 := by simp [State.setCurs, hc]
  rw [he, hcurs]
  exact ((((State.holdsAs_setNode hn2).trans (State.holdsAs_reserve _ _ _ _)).trans (State.holdsAs_reserve _ _ _ _)).trans
    (State.holdsAs_count _ _ _ _)).trans (State.holdsAs_noteStart _ _)

/-- Where every answer is plain, guarded off or not, `fire` changes no data (R169). -/
theorem holdsAs_fire (s : State) (l : Loc) (i : Instr) (r : FireReq) {k : Env → Res} {off : Env → Plan}
    (hk : ∀ e, (k e).Plain) (ho : ∀ e, (off e).Plain) : s.HoldsAs (fire s l i r k off) := by
  have h := fire_cases s l i r k off
  generalize fire s l i r k off = u at h ⊢
  cases h with
  | wait => exact .refl s
  | raise c x => exact s.holdsAs_raise _ _ c x
  | guarded => exact s.holdsAs_begin l i r true (ho _) _ _
  | set t h => exact (show (Res.set u).Plain from h ▸ hk _).elim
  | go p h => exact s.holdsAs_begin l i r false (show (Res.go p).Plain from h ▸ hk _) _ _

/-- An instruction that is `fire` of plain answers, from any state. -/
def StartsPlain (i : Instr) : Prop :=
  ∀ s, ∃ r k off, exec i s = .next (fire s s.locus i r k off) ∧ (∀ e, Res.Plain (k e)) ∧ ∀ e, Plan.Plain (off e)

theorem StartsPlain.holdsAs {i : Instr} (h : StartsPlain i) (s : State) : ∃ u, exec i s = .next u ∧ s.HoldsAs u := by
  obtain ⟨r, k, off, hx, hk, ho⟩ := h s
  exact ⟨_, hx, holdsAs_fire s s.locus i r hk ho⟩

end Sys2Proof.Machine
end

section
/-!
Which instructions are `fire` of plain answers: every scalar, online and lane instruction but the two that read and write
tiles (R144). From it, the frame of their starts.
-/
namespace Sys2Proof.Machine

/-! ## Plain answers -/

theorem Plan.plain_default : Plan.Plain {} := ⟨rfl, rfl⟩

theorem Res.plain_word (lat : Nat) (v : Word) (t : RTag) : (Res.word lat v t).Plain := ⟨rfl, rfl⟩

theorem Res.plain_beat (lat : Nat) (v : Beat) : (Res.beat lat v).Plain := ⟨rfl, rfl⟩

theorem Res.plain_sd (o : List Tok) (p : Prog) : (Res.sd o p).Plain := ⟨rfl, rfl⟩

theorem Res.plain_reduce (e : Env) (span lat : Nat) (fold : GroupSt → GroupSt) (out : GroupSt → Word × Word) :
    (reduce e span lat fold out).Plain := ite_ind _ ⟨rfl, rfl⟩ ⟨rfl, rfl⟩

theorem Res.plain_sdOne (e : Env) (n : Nat) {k : List Int → Bool → Res} (hk : ∀ ds last, (k ds last).Plain) : (sdOne e n k).Plain := by
  unfold sdOne
  split
  · trivial
  · exact ite_ind _ trivial (hk _ _)

theorem Res.plain_sdTwo (e : Env) (n : Nat) {k : List Int → List Int → Bool → Res} (hk : ∀ da db last, (k da db last).Plain) :
    (sdTwo e n k).Plain := by
  unfold sdTwo
  split
  · exact ite_ind _ trivial (hk _ _ _)
  · trivial

/-- An instruction that is `fire` of plain answers and does nothing when it is guarded off. -/
theorem StartsPlain.of_fire {i : Instr} {r : FireReq} {k : Env → Res} (hx : ∀ s, exec i s = .next (fire s s.locus i r k))
    (hk : ∀ e, (k e).Plain) : StartsPlain i := fun s => ⟨r, k, _, hx s, hk, fun _ => Plan.plain_default⟩

theorem StartsPlain.of_word {i : Instr} {r : FireReq} {lat : Nat} {v : Env → Word} {t : Env → RTag}
    (hx : ∀ s, exec i s = .next (fire s s.locus i r fun e => .word lat (v e) (t e))) : StartsPlain i :=
  .of_fire hx fun _ => Res.plain_word _ _ _

theorem StartsPlain.of_beat {i : Instr} {r : FireReq} {lat : Nat} {v : Env → Beat}
    (hx : ∀ s, exec i s = .next (fire s s.locus i r fun e => .beat lat (v e))) : StartsPlain i :=
  .of_fire hx fun _ => Res.plain_beat _ _

theorem StartsPlain.of_plan {i : Instr} {r : FireReq} {p : Env → Plan} (hx : ∀ s, exec i s = .next (fire s s.locus i r fun e => .go (p e)))
    (hp : ∀ e, (p e).Plain) : StartsPlain i := .of_fire hx hp

theorem StartsPlain.of_reduce {i : Instr} {r : FireReq} {span lat : Nat} {fold : Env → GroupSt → GroupSt} {out : GroupSt → Word × Word}
    (hx : ∀ s, exec i s = .next (fire s s.locus i r fun e => reduce e span lat (fold e) out)) : StartsPlain i :=
  .of_fire hx fun _ => Res.plain_reduce _ _ _ _ _

/-- The online instructions on one operand (R119, R122). -/
theorem StartsPlain.of_sdOne {i : Instr} {r : FireReq} {n : Env → Nat} {k : Env → List Int → Bool → Res}
    (hx : ∀ s, exec i s = .next (fire s s.locus i r fun e => sdOne e (n e) (k e))) (hk : ∀ e ds last, (k e ds last).Plain) : StartsPlain i :=
  .of_fire hx fun e => Res.plain_sdOne e _ (hk e)

/-- The online instructions on two operands (R120, R121, R123). -/
theorem StartsPlain.of_sdTwo {i : Instr} {r : FireReq} {n : Env → Nat} {k : Env → List Int → List Int → Bool → Res}
    (hx : ∀ s, exec i s = .next (fire s s.locus i r fun e => sdTwo e (n e) (k e))) (hk : ∀ e da db last, (k e da db last).Plain) :
    StartsPlain i := .of_fire hx fun e => Res.plain_sdTwo e _ (hk e)

/-! ## Scalar, online and lane instructions -/

/-- The opcodes of the scalar, online and lane instructions but VTLD and VTST. -/
def plainOpcode (k : Nat) : Prop := k ≤ 0x25 ∨ 0x50 ≤ k ∧ k ≤ 0x55 ∨ 0x60 ≤ k ∧ k ≤ 0x78

theorem startsPlain_of_plainOpcode {i : Instr} {p : Parts} (hp : partsOf i = some p) (ho : plainOpcode p.opc.toNat) : StartsPlain i := by
  cases i with
  | add | sub | mul | mulh | mad | neg | abs | min | max | band | bor | bxor | bandn | bnot | shl | shr | sar | rol | clz | popc
  | bfx | bfi | cmp | mov | fadd | fsub | fmul | ffma | fmin | fmax | fcmp | cvt => exact .of_word fun _ => rfl
  | ldi | acc => exact .of_plan (fun _ => rfl) fun _ => ⟨rfl, rfl⟩
  | sel => exact .of_fire (fun _ => rfl) fun _ => ite_ind _ (Res.plain_word _ _ _) (Res.plain_word _ _ _)
  | mctl => exact .of_fire (fun _ => rfl) fun _ => ite_ind _ trivial (Res.plain_word _ _ _)
  | rep => exact .of_fire (fun _ => rfl) fun _ => ite_ind _ ⟨rfl, rfl⟩ ⟨rfl, rfl⟩
  | sdcvt => exact fun s => ⟨_, _, _, rfl, fun _ => ⟨rfl, rfl⟩, fun _ => ⟨rfl, rfl⟩⟩
  | sdval => exact .of_sdOne (fun _ => rfl) fun _ _ _ => ite_ind _ (Res.plain_sd _ _) (Res.plain_sd _ _)
  | ocut => exact .of_sdOne (fun _ => rfl) fun _ _ _ => Res.plain_sd _ _
  | oadd | ocmp => exact .of_sdTwo (fun _ => rfl) fun _ _ _ _ => Res.plain_sd _ _
  | omax =>
    refine .of_sdTwo (fun _ => rfl) fun e da db last => ?_
    dsimp only
    split
    · exact Res.plain_sd _ _
    · split <;> exact Res.plain_sd _ _
  | vadd | vsub | vmul | vfma | vmax | vmin | vexp2 | vlog2 | vrcp | vrsq | vcmp | vsel | vcvt | vdqmx | vshuf | vgumbel =>
    exact .of_beat fun _ => rfl
  | vbcast o ty ix => cases ix <;> exact .of_beat fun _ => rfl
  | vqmx | vscan => exact .of_plan (fun _ => rfl) fun _ => ⟨rfl, rfl⟩
  | vredadd | vredmax | vargmax | vlse | vdot | vnorm2 => exact .of_reduce fun _ => rfl
  | _ =>
    -- an event, which no opcode names, or an instruction of another opcode
    cases hp <;> simp [plainOpcode] at ho

/-- Settles O36: at most a start with a plain plan, which claims, reserves and counts. -/
theorem startFrame : Obligations.StartFrame := by
  intro s i p hp ho
  obtain ⟨u, hx, h⟩ := (startsPlain_of_plainOpcode hp ho).holdsAs s
  refine ⟨u, hx, fun a => ⟨by rw [h.hbm], by rw [h.sram], by rw [h.regf]⟩, h.hub, h.clusters, h.hsyn, h.ssyn, h.ecc, fun n => ?_, fun r => ?_,
    fun d => ⟨h.cyc d, h.pq d, h.tlb d⟩⟩
  · exact ⟨fun k => by rw [Node.x, (h.node n).xs, Node.x], (h.node n).queue, (h.node n).ctl⟩
  · obtain ⟨-, lane, mat, ports, cell, desc, regmap, rstat⟩ := h.row r
    exact ⟨lane, mat, ports, cell, desc, regmap, rstat⟩

end Sys2Proof.Machine
end

section
/-!
Integer results lane by lane (R106, R107): what the packed word of `IntTy.map2` holds, and the products of MULH and MAD.
-/
namespace Sys2Proof.Machine

/-! ## Packed elements -/

theorem length_elems (w k x : Nat) : (elems w k x).length = k := by
  induction k generalizing x with
  | zero => rfl
  | succ k ih => simp [elems, ih]

theorem getElem_elems (w k x i : Nat) (h : i < (elems w k x).length) : (elems w k x)[i] = x / 2 ^ (w * i) % 2 ^ w := by
  induction k generalizing x i with
  | zero => simp [elems] at h
  | succ k ih =>
    cases i with
    | zero => simp [elems]
    | succ i =>
      simp only [elems, List.getElem_cons_succ, ih, Nat.div_div_eq_div_mul]
      rw [← Nat.pow_add, Nat.mul_succ, Nat.add_comm w]

theorem packNat_lt (w : Nat) (xs : List Nat) : packNat w xs < 2 ^ (w * xs.length) := by
  induction xs with
  | nil => simp [packNat]
  | cons x xs ih =>
    have hx : x % 2 ^ w < 2 ^ w := Nat.mod_lt _ (Nat.two_pow_pos w)
    rw [List.length_cons, Nat.mul_succ, Nat.add_comm, Nat.pow_add, packNat]
    calc x % 2 ^ w + 2 ^ w * packNat w xs < 2 ^ w * (packNat w xs + 1) := by rw [Nat.mul_succ]; omega
      _ ≤ 2 ^ w * 2 ^ (w * xs.length) := Nat.mul_le_mul_left _ ih

/-- Element `i` of packed elements. -/
theorem packNat_div_mod (w : Nat) (xs : List Nat) (i : Nat) (h : i < xs.length) : packNat w xs / 2 ^ (w * i) % 2 ^ w = xs[i] % 2 ^ w := by
  induction xs generalizing i with
  | nil => simp at h
  | cons x xs ih =>
    cases i with
    | zero => simp [packNat]
    | succ i =>
      have hd : packNat w (x :: xs) / 2 ^ w = packNat w xs := by
        rw [packNat, Nat.add_mul_div_left _ _ (Nat.two_pow_pos w), Nat.div_eq_of_lt (Nat.mod_lt _ (Nat.two_pow_pos w)), Nat.zero_add]
      rw [Nat.mul_succ, Nat.add_comm, Nat.pow_add, ← Nat.div_div_eq_div_mul, hd, ih i (by simpa using h), List.getElem_cons_succ]

/-- Element `i` of a word in which `32 / w` elements are packed. -/
theorem elem_ofNat_packNat {w i : Nat} {xs : List Nat} (hw : w * xs.length = 32) (h : i < xs.length) :
    elem (BitVec.ofNat 32 (packNat w xs)) w i = xs[i] % 2 ^ w := by
  have hlt : packNat w xs < 2 ^ 32 := Nat.lt_of_lt_of_eq (packNat_lt w xs) (congrArg _ hw)
  rw [elem, BitVec.toNat_ofNat, Nat.mod_eq_of_lt hlt, packNat_div_mod w xs i h]

/-! ## Lanes -/

theorem Wid.w_mul_lanes (t : Wid) : Wid.w t * (32 / Wid.w t) = 32 := by cases t <;> rfl

theorem wrapInt_lt (w : Nat) (x : Int) : wrapInt w x < 2 ^ w := by
  have hp : (0 : Int) < (2 ^ w : Nat) := by exact_mod_cast Nat.two_pow_pos w
  have h0 := Int.emod_nonneg x (Int.ne_of_gt hp)
  have h1 := Int.emod_lt_of_pos x hp
  unfold wrapInt
  omega

theorem clampInt_eq_max_min {lo hi : Int} (h : lo ≤ hi) (x : Int) : clampInt lo hi x = max lo (min x hi) := by
  unfold clampInt
  split
  · omega
  · split <;> omega

theorem intLo_le_intHi (sg : Bool) (w : Nat) : intLo sg w ≤ intHi sg w := by
  have h : ∀ k : Nat, (0 : Int) < (2 ^ k : Nat) := fun k => by exact_mod_cast Nat.two_pow_pos k
  have h1 := h (w - 1)
  have h2 := h w
  cases sg <;> simp only [intLo, intHi, Bool.false_eq_true, if_false, if_true] <;> omega

/-- The range of a type, as R106 gives it. -/
theorem clampInt_range (uns : Bool) (w : Nat) (x : Int) : clampInt (intLo (!uns) w) (intHi (!uns) w) x =
    max (if uns then 0 else -2 ^ (w - 1)) (min x (2 ^ (if uns then w else w - 1) - 1)) := by
  rw [clampInt_eq_max_min (intLo_le_intHi _ _)]
  cases uns <;> simp [intLo, intHi]

theorem clampInt_w32 (uns : Bool) (x : Int) : clampInt (intLo (!uns) 32) (intHi (!uns) 32) x =
    max (if uns then 0 else -2 ^ 31) (min x (if uns then 2 ^ 32 - 1 else 2 ^ 31 - 1)) := by
  rw [clampInt_range]
  cases uns <;> rfl

theorem IntTy.fit_lt (t : IntTy) (w : Nat) (x : Int) : IntTy.fit t w x < 2 ^ w := ite_ind (· < 2 ^ w) (wrapInt_lt _ _) (wrapInt_lt _ _)

theorem IntTy.fit_eq (t : IntTy) (w : Nat) (x : Int) : IntTy.fit t w x =
    ((if t.sat then max (if t.uns then 0 else -2 ^ (w - 1)) (min x (2 ^ (if t.uns then w else w - 1) - 1)) else x) % 2 ^ w).toNat := by
  rw [IntTy.fit, clampInt_range]
  split <;> simp [wrapInt]

/-- Each lane of `IntTy.map2` is the function's exact value, fitted to the type. -/
theorem lanesAre_map2 (t : IntTy) (f : Int → Int → Int) (a b : Word) :
    LanesAre t (IntTy.map2 t f a b) fun i => f (lane t a i) (lane t b i) := by
  intro i hi
  have hl : ∀ g : Nat → Nat → Nat, ((elems (Wid.w t.w) (32 / Wid.w t.w) a.toNat).zipWith g
      (elems (Wid.w t.w) (32 / Wid.w t.w) b.toNat)).length = 32 / Wid.w t.w := by simp [length_elems]
  have he : elem (IntTy.map2 t f a b) (Wid.w t.w) i = IntTy.fit t (Wid.w t.w) (f (lane t a i) (lane t b i)) := by
    unfold IntTy.map2
    rw [elem_ofNat_packNat (by rw [hl]; exact Wid.w_mul_lanes t.w) (by rwa [hl]), List.getElem_zipWith, getElem_elems, getElem_elems,
      Nat.mod_eq_of_lt (IntTy.fit_lt _ _ _)]
    rfl
  rw [lane, he, IntTy.fit_eq]

theorem lanesAre_min (t : IntTy) (a b : Word) : LanesAre t (intMin t a b) fun i => min (lane t a i) (lane t b i) := by
  have hf : ∀ x y : Int, min x y = if y < x then y else x := fun x y => by omega
  simp only [hf]
  exact lanesAre_map2 t (fun x y => if y < x then y else x) a b

theorem lanesAre_max (t : IntTy) (a b : Word) : LanesAre t (intMax t a b) fun i => max (lane t a i) (lane t b i) := by
  have hf : ∀ x y : Int, max x y = if x < y then y else x := fun x y => by omega
  simp only [hf]
  exact lanesAre_map2 t (fun x y => if x < y then y else x) a b

/-! ## Whole words -/

theorem sgn_eq_toInt_ofNat {w : Nat} (hw : 0 < w) (x : Nat) : sgn w x = (BitVec.ofNat w x).toInt := by
  have hp : 2 ^ w = 2 * 2 ^ (w - 1) := by rw [← Nat.pow_succ', Nat.succ_eq_add_one, Nat.sub_add_cancel hw]
  rw [sgn, BitVec.toInt_eq_toNat_cond, BitVec.toNat_ofNat]
  have hc : 2 * (x % 2 ^ w) < 2 ^ w ↔ x % 2 ^ w < 2 ^ (w - 1) := by omega
  simp only [hc]

/-- A word's value as a type reads it. -/
theorem laneVal_toNat (uns : Bool) (x : Word) : laneVal uns 32 x.toNat = if uns then (x.toNat : Int) else x.toInt := by
  rw [laneVal, sgn_eq_toInt_ofNat (by decide), BitVec.ofNat_toNat, BitVec.setWidth_eq]

theorem ofInt_laneVal (uns : Bool) (x : Word) : BitVec.ofInt 32 (laneVal uns 32 x.toNat) = x := by
  rw [laneVal_toNat]
  cases uns
  · exact BitVec.ofInt_toInt
  · simp

theorem ofNat_wrapInt (x : Int) : BitVec.ofNat 32 (wrapInt 32 x) = BitVec.ofInt 32 x := by
  apply BitVec.eq_of_toNat_eq
  rw [BitVec.toNat_ofNat, BitVec.toNat_ofInt, Nat.mod_eq_of_lt (wrapInt_lt 32 x)]
  rfl

/-- A value inside a type's range is what its word reads as. -/
theorem laneVal_ofInt (uns : Bool) {x : Int} (h0 : intLo (!uns) 32 ≤ x) (h1 : x ≤ intHi (!uns) 32) :
    laneVal uns 32 (BitVec.ofInt 32 x).toNat = x := by
  rw [laneVal_toNat]
  cases uns
  · simp only [intLo, intHi, Bool.not_false, if_true] at h0 h1
    rw [if_neg Bool.false_ne_true]
    exact BitVec.toInt_ofInt_eq_self (by decide) h0 (Int.lt_of_le_sub_one h1)
  · simp only [intLo, intHi, Bool.not_true, Bool.false_eq_true, if_false] at h0 h1
    rw [if_pos rfl, BitVec.toNat_ofInt, Int.emod_eq_of_lt h0 (Int.lt_of_le_sub_one h1), Int.toNat_of_nonneg h0]

/-- A saturated value reads as the value clamped to the type's range. -/
theorem laneVal_ofInt_clampInt (uns : Bool) (x : Int) :
    laneVal uns 32 (BitVec.ofInt 32 (clampInt (intLo (!uns) 32) (intHi (!uns) 32) x)).toNat =
      max (if uns then 0 else -2 ^ 31) (min x (if uns then 2 ^ 32 - 1 else 2 ^ 31 - 1)) := by
  have hr := intLo_le_intHi (!uns) 32
  have hc := clampInt_eq_max_min hr x
  rw [laneVal_ofInt uns (by omega) (by omega), clampInt_w32]

/-- MULH delivers bits [63:32] of the exact product (R106). -/
theorem intMulh_eq (t : IntTy) (a b : Word) : intMulh t a b = BitVec.ofInt 32
    ((if t.uns then (a.toNat : Int) else a.toInt) * (if t.uns then (b.toNat : Int) else b.toInt) / 2 ^ 32) := by
  rw [intMulh, laneVal_toNat, laneVal_toNat]
  rfl

/-- Without SAT, MAD is a·b + c modulo 2^32. -/
theorem intMad_wrap {t : IntTy} (h : t.sat = false) (a b c : Word) : intMad t a b c = a * b + c := by
  rw [intMad, IntTy.fit, h, if_neg Bool.false_ne_true, ofNat_wrapInt, BitVec.ofInt_add, BitVec.ofInt_mul, ofInt_laneVal, ofInt_laneVal, ofInt_laneVal]

/-- With SAT, MAD clamps the exact a·b + c once. -/
theorem laneVal_intMad_sat {t : IntTy} (h : t.sat = true) (a b c : Word) : laneVal t.uns 32 (intMad t a b c).toNat =
    max (if t.uns then 0 else -2 ^ 31) (min (laneVal t.uns 32 a.toNat * laneVal t.uns 32 b.toNat + laneVal t.uns 32 c.toNat)
      (if t.uns then 2 ^ 32 - 1 else 2 ^ 31 - 1)) := by
  rw [intMad, IntTy.fit, if_pos h, ofNat_wrapInt, laneVal_ofInt_clampInt]

end Sys2Proof.Machine
end

section
/-!
The starts of the scalar instructions that deliver words, and the statements about their results.
-/
namespace Sys2Proof.Machine

/-- An instruction that answers one word starts its firing where any one word could be delivered. -/
theorem Fires.of_word {i : Instr} {s : State} {r : FireReq} {k : Env → Res} {off : Env → Plan} {lat : Nat} {d : Tok} {v : Word} {t : RTag}
    (hx : exec i s = .next (fire s s.locus i r k off)) (h : s.CanFire r (oneToken lat d)) (hk : k (s.env r) = .word lat v t) :
    Fires i s r (oneToken lat (wordTok v t)) := Fires.of_fire hx h hk

/-- Settles O1: each lane by `lanesAre_map2`, the whole products of MULH and MAD by their words' values. -/
theorem integerLanes : Obligations.IntegerLanes := by
  intro s o ty c d r r3 e e3 val can gives
  have hval : ∀ x, laneVal ty.uns 32 x.toNat = val x := laneVal_toNat ty.uns
  refine ⟨⟨fun h => ⟨_, .of_word rfl h rfl, lanesAre_map2 ty (· + ·) e.av e.bv⟩,
    fun h => ⟨_, .of_word rfl h rfl, lanesAre_map2 ty (· - ·) e.av e.bv⟩,
    fun h => ⟨_, .of_word rfl h rfl, lanesAre_map2 ty (· * ·) e.av e.bv⟩,
    fun h => ⟨_, .of_word rfl h rfl, lanesAre_min ty e.av e.bv⟩,
    fun h => ⟨_, .of_word rfl h rfl, lanesAre_max ty e.av e.bv⟩,
    fun h => ⟨_, .of_word rfl h rfl, lanesAre_map2 ty (fun x _ => -x) e.av e.av⟩,
    fun h => ⟨_, .of_word rfl h rfl, lanesAre_map2 ty (fun x _ => if ty.uns then x else (x.natAbs : Int)) e.av e.av⟩,
    fun h => ⟨_, .of_word rfl h rfl, intMulh_eq ty e.av e.bv⟩⟩,
    fun h => ⟨_, .of_word rfl h rfl, fun hs => intMad_wrap hs _ _ _, fun hs => ?_⟩⟩
  simpa only [hval] using laneVal_intMad_sat hs e3.av e3.bv e3.cv

/-! ## Comparisons, selection and moves -/

theorem CmpCond.holds_iff (a b : Word) :
    (CmpCond.holds .eq a b = true ↔ a = b) ∧ (CmpCond.holds .ne a b = true ↔ a ≠ b) ∧
    (CmpCond.holds .ltI a b = true ↔ a.toInt < b.toInt) ∧ (CmpCond.holds .leI a b = true ↔ a.toInt ≤ b.toInt) ∧
    (CmpCond.holds .gtI a b = true ↔ b.toInt < a.toInt) ∧ (CmpCond.holds .geI a b = true ↔ b.toInt ≤ a.toInt) ∧
    (CmpCond.holds .ltN a b = true ↔ a.toNat < b.toNat) ∧ (CmpCond.holds .leN a b = true ↔ a.toNat ≤ b.toNat) ∧
    (CmpCond.holds .gtN a b = true ↔ b.toNat < a.toNat) ∧ (CmpCond.holds .geN a b = true ↔ b.toNat ≤ a.toNat) := by
  simp [CmpCond.holds, BitVec.slt, BitVec.sle, BitVec.ult, BitVec.ule]

/-- CMP delivers 1 where its condition holds, else 0 (R109). -/
theorem fires_cmp {s : State} {o : Ops} {cc : CmpCond} {d : Tok} {P : Prop} (h : s.CanFire { ops := o } (oneToken 1 d))
    (hp : cc.holds (s.env { ops := o }).av (s.env { ops := o }).bv = true ↔ P) :
    ∃ x : Word, Fires (.cmp o cc) s { ops := o } (oneToken 1 (wordTok x (s.env { ops := o }).tag)) ∧ (P → x = 1) ∧ (¬P → x = 0) :=
  ⟨_, .of_word rfl h rfl, fun hP => if_pos (hp.mpr hP), fun hP => if_neg (mt hp.mp hP)⟩

/-- Settles O3: CMP by the meaning of each condition; the others deliver their operands. -/
theorem compareSelectMove : Obligations.CompareSelectMove := by
  intro s o v d r rc e ec cmp
  refine ⟨fun h => ?_, fun h => ?_⟩
  · obtain ⟨eq, ne, ltI, leI, gtI, geI, ltN, leN, gtN, geN⟩ := CmpCond.holds_iff e.av e.bv
    exact ⟨fires_cmp h eq, fires_cmp h ne, fires_cmp h ltI, fires_cmp h leI, fires_cmp h gtI, fires_cmp h geI, fires_cmp h ltN,
      fires_cmp h leN, fires_cmp h gtN, fires_cmp h geN, .of_word rfl h rfl, .of_fire rfl h rfl⟩
  · refine .of_fire rfl h ?_
    change (if ec.ctl then Res.word 1 ec.av ec.a.tag else Res.word 1 ec.bv ec.b.tag) = _
    cases ec.ctl <;> rfl

/-- Settles O5: each FP32 instruction answers the word of its function (R113, R114). -/
theorem floatResults : Obligations.FloatResults := by
  intro s o rnd c cc v d r2 r3 e e3
  exact ⟨fun h => ⟨.of_word rfl h rfl, .of_word rfl h rfl, .of_word rfl h rfl, .of_word rfl h rfl⟩,
    fun h => ⟨.of_word rfl h rfl, .of_word rfl h rfl, .of_word rfl h rfl⟩, fun h => .of_word rfl h rfl⟩

end Sys2Proof.Machine
end

section
/-!
Shifts, bit counts and bit fields, bit by bit (R107, R108).
-/
namespace Sys2Proof.Machine

theorem toNat_extractLsb'_zero_five (x : Word) : (x.extractLsb' 0 5).toNat = x.toNat % 32 := by
  simp [BitVec.extractLsb'_toNat]

/-! ## Bit counts -/

/-- No bit of a number stands at its bit length or above. -/
theorem testBit_of_bitLen_le {m j : Nat} (h : bitLen m ≤ j) : m.testBit j = false := by
  unfold bitLen at h
  split at h
  · simp [*]
  · exact Nat.testBit_lt_two_pow (Nat.lt_of_lt_of_le Nat.lt_log2_self (Nat.pow_le_pow_right (by decide) h))

/-- The highest bit of a number stands just below its bit length. -/
theorem testBit_bitLen_pred {m : Nat} (h : 0 < bitLen m) : m.testBit (bitLen m - 1) = true := by
  have hm : m ≠ 0 := by
    rintro rfl
    exact absurd h (by decide)
  simp [bitLen, hm, Nat.testBit_log2]

theorem bitLen_toNat_le {w : Nat} (x : BitVec w) : bitLen x.toNat ≤ w := by
  unfold bitLen
  split
  · exact Nat.zero_le _
  · exact (Nat.log2_lt ‹_›).mpr x.isLt

/-- CLZ is the number of leading zero bits (R107). -/
theorem clz_spec (a : Word) {v : Word} (hv : v = BitVec.ofNat 32 (32 - bitLen a.toNat)) : v.toNat ≤ 32 ∧
    (∀ j, j < v.toNat → a.getLsbD (31 - j) = false) ∧ (v.toNat < 32 → a.getLsbD (31 - v.toNat) = true) := by
  have hb := bitLen_toNat_le a
  have hn : v.toNat = 32 - bitLen a.toNat := by rw [hv, BitVec.toNat_ofNat]; omega
  rw [hn]
  refine ⟨Nat.sub_le _ _, fun j hj => testBit_of_bitLen_le (by omega), fun h => ?_⟩
  have hi : 31 - (32 - bitLen a.toNat) = bitLen a.toNat - 1 := by omega
  rw [hi]
  exact testBit_bitLen_pred (by omega)

theorem popcount_eq_length (n x : Nat) : popcount n x = ((List.range n).filter fun j => x.testBit j).length := by
  induction n generalizing x with
  | zero => rfl
  | succ n ih =>
    have hr : (List.range n).filter ((fun j => x.testBit j) ∘ Nat.succ) = (List.range n).filter fun j => (x / 2).testBit j := by
      simp only [Function.comp_def, Nat.succ_eq_add_one, Nat.testBit_succ]
    rw [popcount, ih, List.range_succ_eq_map, List.filter_cons, List.filter_map, hr, Nat.testBit_zero]
    rcases Nat.mod_two_eq_zero_or_one x with h | h <;> simp [h, Nat.add_comm]

/-- POPC is the number of one bits (R107). -/
theorem toNat_popcount (a : Word) :
    (BitVec.ofNat 32 (popcount 32 a.toNat)).toNat = ((List.range 32).filter fun j => a.getLsbD j).length := by
  have hl : ((List.range 32).filter fun j => a.toNat.testBit j).length ≤ 32 := by
    simpa using List.length_filter_le (fun j => a.toNat.testBit j) (List.range 32)
  rw [BitVec.toNat_ofNat, popcount_eq_length]
  exact Nat.mod_eq_of_lt (by omega)

/-! ## Bit fields -/

theorem bfPos_eq (c : Word) : bfPos c = (c.extractLsb' 0 5).toNat := (toNat_extractLsb'_zero_five c).symm

theorem bfLen_eq (c : Word) : bfLen c = min ((c.extractLsb' 5 5).toNat + 1) (32 - (c.extractLsb' 0 5).toNat) := by
  rw [bfLen, bfPos_eq]
  simp [BitVec.extractLsb'_toNat, Nat.shiftRight_eq_div_pow]

theorem bfPos_add_bfLen_le (c : Word) : bfPos c + bfLen c ≤ 32 := by
  unfold bfLen bfPos
  omega

theorem bfLen_pos (c : Word) : 0 < bfLen c := by
  unfold bfLen bfPos
  omega

/-- A bit of a field of `l` bits from `p` on. -/
theorem testBit_field (x p l j : Nat) : (x / 2 ^ p % 2 ^ l).testBit j = (decide (j < l) && x.testBit (j + p)) := by
  rw [Nat.testBit_mod_two_pow, Nat.testBit_div_two_pow]

/-- BFX delivers the field that b names, zero- or sign-extended from its effective length (R108). -/
theorem getLsbD_bitExtract (uns : Bool) (a c : Word) {j : Nat} (hj : j < 32) : (bitExtract uns a c).getLsbD j =
    if j < bfLen c then a.getLsbD (bfPos c + j) else if uns then false else a.getLsbD (bfPos c + bfLen c - 1) := by
  have hl := bfLen_pos c
  have hp := bfPos_add_bfLen_le c
  cases uns with
  | true =>
    simp only [bitExtract, if_true, BitVec.getLsbD_ofNat, hj, decide_true, Bool.true_and, testBit_field, BitVec.testBit_toNat, Nat.add_comm j]
    split <;> simp [*]
  | false =>
    have hs : bitExtract false a c = (BitVec.ofNat (bfLen c) (a.toNat / 2 ^ bfPos c % 2 ^ bfLen c)).signExtend 32 := by
      rw [bitExtract, if_neg Bool.false_ne_true, sgn_eq_toInt_ofNat hl, BitVec.signExtend]
    have hm : bfLen c - 1 + bfPos c = bfPos c + bfLen c - 1 := by omega
    rw [hs, BitVec.getLsbD_signExtend, BitVec.msb_eq_getLsbD_last]
    simp only [hj, decide_true, Bool.true_and, BitVec.getLsbD_ofNat, testBit_field, BitVec.testBit_toNat, Nat.sub_lt hl Nat.one_pos, hm,
      Bool.false_eq_true, if_false, Nat.add_comm j]
    split <;> simp [*]

/-- A bit of the mask of the field that a control word names. -/
theorem getLsbD_fieldMask (c : Word) {j : Nat} (hj : j < 32) :
    (BitVec.ofNat 32 ((2 ^ bfLen c - 1) * 2 ^ bfPos c)).getLsbD j = decide (bfPos c ≤ j ∧ j < bfPos c + bfLen c) := by
  rw [BitVec.getLsbD_ofNat, Nat.testBit_mul_two_pow, Nat.testBit_two_pow_sub_one, Bool.eq_iff_iff]
  simp only [Bool.and_eq_true, decide_eq_true_eq]
  omega

/-- BFI delivers a with the field that c names replaced by the low bits of b (R108). -/
theorem getLsbD_bitInsert (a b c : Word) {j : Nat} (hj : j < 32) : (bitInsert a b c).getLsbD j =
    if bfPos c ≤ j ∧ j < bfPos c + bfLen c then b.getLsbD (j - bfPos c) else a.getLsbD j := by
  unfold bitInsert
  extract_lets m
  have hm : m.getLsbD j = decide (bfPos c ≤ j ∧ j < bfPos c + bfLen c) := getLsbD_fieldMask c hj
  rw [BitVec.getLsbD_or, BitVec.getLsbD_and, BitVec.getLsbD_and, BitVec.getLsbD_not, BitVec.getLsbD_shiftLeft, hm]
  split
  · simp [*]
  · simp [*]

/-- Settles O2: shifts by bits [4:0] of b; counts and fields bit by bit. -/
theorem logicShiftsAndFields : Obligations.LogicShiftsAndFields := by
  intro s o c uns d r r3 e e3 n gives ps len
  have hn : e.bv.toNat % 32 = n := (toNat_extractLsb'_zero_five e.bv).symm
  have hp : ∀ x, bfPos x = ps x := bfPos_eq
  have hl : ∀ x, bfLen x = len x := bfLen_eq
  refine ⟨fun h => ⟨.of_word rfl h rfl, .of_word rfl h rfl, .of_word rfl h rfl, .of_word rfl h rfl, .of_word rfl h rfl,
    .of_word rfl h (hn ▸ rfl), .of_word rfl h (hn ▸ rfl), .of_word rfl h (hn ▸ rfl), .of_word rfl h (hn ▸ rfl),
    ⟨_, .of_word rfl h rfl, clz_spec e.av rfl⟩, ⟨_, .of_word rfl h rfl, toNat_popcount e.av⟩, ⟨_, .of_word rfl h rfl, fun j hj => ?_⟩⟩,
    fun h => ⟨_, .of_word rfl h rfl, fun j hj => ?_⟩⟩
  · simpa only [hp, hl] using getLsbD_bitExtract uns e.av e.bv hj
  · simpa only [hp, hl] using getLsbD_bitInsert e3.av e3.bv e3.cv hj

end Sys2Proof.Machine
end

section
/-!
ACC, REP and MCTL (R112, R115, R116, R124): a start that writes its register at the completion, one that moves the sequencer, and
one that may fault.
-/
namespace Sys2Proof.Machine

/-- A ready slot whose instruction answers a fault raises it, and starts nothing (R169). -/
theorem fire_fault {s : State} {i : Instr} {o : Ops} {k : Env → Res} {off : Env → Plan} {c : Cause} {x : FInfo} (h : s.Ready { ops := o })
    (hl : s.Room o 1 1) (hk : k (s.env { ops := o }) = .fault c x) :
    fire s s.locus i { ops := o } k off = s.raise s.locus.nd s.locus.slot c x := by
  obtain ⟨offered, ctl, own | sources, fits, guard, hazard, -, check, steps⟩ := h
  · exact absurd own Bool.false_ne_true
  have sources' : (popQs (FireReq.sels { ops := o }) ++ peekQs (FireReq.sels { ops := o })).all (s.node s.locus.nd).offers = true := by
    simpa only [List.append_nil] using sources
  have hm : (popQs (FireReq.sels { ops := o })).any (s.node s.locus.nd).markAt = false := by
    rw [List.any_eq_false]
    intro q hq
    have hq' := List.all_eq_true.mp sources' q (by simp [hq])
    simp [Node.not_markAt_of_offers _ q hq']
  have hr : s.room (s.slotTarget s.locus o.d0) (s.slotTarget s.locus o.d1) (need (s.slotTarget s.locus o.d0) 1 [])
    (need (s.slotTarget s.locus o.d1) 1 []) = true := hl
  have hk' : k (FireReq.env { ops := o } s s.locus (s.node s.locus.nd)) = .fault c x := hk
  unfold fire
  simp only [offered, ctl, sources', fits, guard, hazard, check, steps, hm, hr, hk', List.append_nil, Bool.not_true, Bool.not_false,
    Bool.true_and, Bool.false_and, Bool.false_eq_true, if_false]

/-- A function of one 32-bit lane. -/
theorem IntTy.map2_w32 (sat uns : Bool) (f : Int → Int → Int) (a b : Word) : IntTy.map2 ⟨sat, uns, .w32⟩ f a b =
    BitVec.ofNat 32 (IntTy.fit ⟨sat, uns, .w32⟩ 32 (f (laneVal uns 32 a.toNat) (laneVal uns 32 b.toNat))) := by
  have he : ∀ x : Word, elems 32 (32 / 32) x.toNat = [x.toNat] := fun x => by simp [elems, Nat.mod_eq_of_lt x.isLt]
  have hlt : ∀ x, IntTy.fit ⟨sat, uns, .w32⟩ 32 x < 4294967296 := IntTy.fit_lt _ 32
  simp [IntTy.map2, Wid.w, he, packNat, Nat.mod_eq_of_lt (hlt _)]

/-- Saturating ACC clamps the exact sum (R112). -/
theorem toInt_accAdd_sat (x a : Word) : (accAdd .sat x a).toInt = max (-2 ^ 31) (min (x.toInt + a.toInt) (2 ^ 31 - 1)) := by
  have hs : accAdd .sat x a = BitVec.ofInt 32 (clampInt (intLo true 32) (intHi true 32) (x.toInt + a.toInt)) := by
    rw [accAdd, intAdd, IntTy.map2_w32, laneVal_toNat, laneVal_toNat, IntTy.fit, if_pos rfl, ofNat_wrapInt]
    rfl
  have hv := laneVal_ofInt_clampInt false (x.toInt + a.toInt)
  rw [laneVal_toNat] at hv
  rw [hs]
  exact hv

/-- Settles O4: ACC and REP by their plans, MCTL by its two answers. -/
theorem accumulateRepMctl : Obligations.AccumulateRepMctl := by
  intro s o j stride v d r e k
  refine ⟨fun hb h => ?_, fun h ha => .of_fire rfl h (if_pos ha), fun h ha => .of_fire rfl h (if_neg ha), fun h => ⟨fun hw => ?_, fun hw => ?_⟩⟩
  · have hreg : accReg o.b k = j.toNat + k := by rw [hb, accReg]
    refine ⟨.of_fire rfl h ?_, ⟨_, .of_fire rfl h ?_, toInt_accAdd_sat e.bv e.av⟩, fun h4 rnd => .of_fire rfl h4 ?_⟩
    all_goals rw [← hreg]; rfl
  · exact .of_word rfl h (if_neg (not_not_intro hw))
  · obtain ⟨ready, -, late | room, -⟩ := h
    · exact absurd late Bool.false_ne_true
    · exact congrArg Host.Outcome.next (fire_fault ready room (if_pos hw))

end Sys2Proof.Machine
end

section
/-!
Signed digits (R77, R118, R120): the values that strings of them have, and the tokens they are packed in.
-/
namespace Sys2Proof.Machine

/-! ## Values of digit strings -/

@[simp] theorem sdValue_nil (v : Int) : sdValue v [] = v := rfl

@[simp] theorem sdValue_cons (v d : Int) (ds : List Int) : sdValue v (d :: ds) = sdValue (4 * v + d) ds := rfl

theorem sdValue_append (v : Int) (xs ys : List Int) : sdValue v (xs ++ ys) = sdValue (sdValue v xs) ys := List.foldl_append

theorem sdValue_map_neg (v : Int) (ds : List Int) : sdValue (-v) (ds.map fun d => -d) = -sdValue v ds := by
  induction ds generalizing v with
  | nil => rfl
  | cons d ds ih =>
    have hv : 4 * -v + -d = -(4 * v + d) := by omega
    rw [List.map_cons, sdValue_cons, sdValue_cons, hv, ih]

/-! ## The digits of a sum (R120) -/

/-- A transfer and the interim digit under it have the value of the digit-wise sum. -/
theorem oaddHL_value (t nx : Int) : 4 * (oaddHL t nx).1 + (oaddHL t nx).2 = t := by
  unfold oaddHL
  repeat' split
  all_goals
    dsimp only
    omega

/-- A transfer is a digit, with the sign of its sum. -/
theorem oaddHL_transfer (t nx : Int) : -1 ≤ (oaddHL t nx).1 ∧ (oaddHL t nx).1 ≤ 1 ∧
    (0 ≤ t → 0 ≤ (oaddHL t nx).1) ∧ (t ≤ 0 → (oaddHL t nx).1 ≤ 0) := by
  unfold oaddHL
  repeat' split
  all_goals
    dsimp only
    omega

/-- An interim digit of ±2 is chosen so that the next transfer does not add to it. -/
theorem oaddHL_interim {t : Int} (h0 : -4 ≤ t) (h1 : t ≤ 4) (nx : Int) : -2 ≤ (oaddHL t nx).2 ∧ (oaddHL t nx).2 ≤ 2 ∧
    (-1 ≤ (oaddHL t nx).2 ∨ 0 ≤ nx) ∧ ((oaddHL t nx).2 ≤ 1 ∨ nx ≤ 0) := by
  unfold oaddHL
  repeat' split
  all_goals
    dsimp only
    omega

/-- From any digit on, with the transfer into the digits before it, the sum's digits have the value of the digit-wise sums. -/
theorem sdValue_oaddTail (ts : List Int) (v : Int) :
    sdValue (v + (oaddHL (ts.headD 0) ((ts.drop 1).headD 0)).1) (oaddTail ts) = sdValue v ts := by
  induction ts generalizing v with
  | nil => simp [oaddTail, oaddHL]
  | cons t r ih =>
    have hd : 4 * (v + (oaddHL t (r.headD 0)).1) + ((oaddHL t (r.headD 0)).2 + (oaddHL (r.headD 0) ((r.drop 1).headD 0)).1) =
        4 * v + t + (oaddHL (r.headD 0) ((r.drop 1).headD 0)).1 := by
      have := oaddHL_value t (r.headD 0)
      omega
    simp only [oaddTail, List.headD_cons, List.drop_succ_cons, List.drop_zero, sdValue_cons, hd, ih]

theorem sdValue_oaddAll (ts : List Int) : sdValue 0 (oaddAll ts) = sdValue 0 ts := by
  rw [← sdValue_oaddTail ts 0]
  rfl

theorem oaddTail_range {ts : List Int} (h : ∀ t ∈ ts, -4 ≤ t ∧ t ≤ 4) : ∀ x ∈ oaddTail ts, -2 ≤ x ∧ x ≤ 2 := by
  induction ts with
  | nil => simp [oaddTail]
  | cons t r ih =>
    obtain ⟨ht, hr⟩ := List.forall_mem_cons.mp h
    refine List.forall_mem_cons.mpr ⟨?_, ih hr⟩
    have hi := oaddHL_interim ht.1 ht.2 (r.headD 0)
    have hx := oaddHL_transfer (r.headD 0) ((r.drop 1).headD 0)
    omega

theorem oaddAll_range {ts : List Int} (h : ∀ t ∈ ts, -4 ≤ t ∧ t ≤ 4) : ∀ x ∈ oaddAll ts, -2 ≤ x ∧ x ≤ 2 := by
  have hx := oaddHL_transfer (ts.headD 0) ((ts.drop 1).headD 0)
  exact List.forall_mem_cons.mpr ⟨by omega, oaddTail_range h⟩

theorem length_oaddTail (ts : List Int) : (oaddTail ts).length = ts.length := by
  induction ts with
  | nil => rfl
  | cons t r ih => simp [oaddTail, ih]

theorem length_oaddAll (ts : List Int) : (oaddAll ts).length = ts.length + 1 := by simp [oaddAll, length_oaddTail]

/-! ## The digits of a value (R118) -/

/-- The largest value of n digits, one digit more. -/
theorem sdMax_succ (n : Nat) : 2 * (4 ^ (n + 1) - 1) / 3 = 4 * (2 * (4 ^ n - 1) / 3) + 2 := by
  have hm : ∃ q, 4 ^ n = 3 * q + 1 := by
    induction n with
    | zero => exact ⟨0, rfl⟩
    | succ n ih =>
      obtain ⟨q, hq⟩ := ih
      exact ⟨4 * q + 1, by rw [Nat.pow_succ, hq]; omega⟩
  obtain ⟨q, hq⟩ := hm
  rw [Nat.pow_succ, hq]
  omega

/-- The digit string of a value that n digits can have. -/
theorem sdString_spec (n v : Nat) (h : v ≤ 2 * (4 ^ n - 1) / 3) :
    (sdString n v).length = n ∧ sdValue 0 (sdString n v) = v ∧ ∀ x ∈ sdString n v, -2 ≤ x ∧ x ≤ 2 := by
  induction n generalizing v with
  | zero =>
    have hv : v = 0 := by simpa using h
    simp [sdString, hv]
  | succ n ih =>
    rw [sdMax_succ] at h
    unfold sdString
    split
    · obtain ⟨hl, hv, hr⟩ := ih ((v + 1) / 4) (by omega)
      refine ⟨by simp [hl], ?_, ?_⟩
      · rw [sdValue_append, hv, sdValue_cons, sdValue_nil]
        omega
      · exact List.forall_mem_append.mpr ⟨hr, by simp⟩
    · obtain ⟨hl, hv, hr⟩ := ih (v / 4) (by omega)
      refine ⟨by simp [hl], ?_, ?_⟩
      · rw [sdValue_append, hv, sdValue_cons, sdValue_nil]
        omega
      · refine List.forall_mem_append.mpr ⟨hr, ?_⟩
        simp only [List.mem_singleton, forall_eq]
        omega

/-- The digits that SDCVT gives a value in range. -/
theorem sdOf_spec (n : Nat) (v : Int) (h : v.natAbs ≤ 2 * (4 ^ n - 1) / 3) :
    (sdOf n v).length = n ∧ sdValue 0 (sdOf n v) = v ∧ ∀ x ∈ sdOf n v, -2 ≤ x ∧ x ≤ 2 := by
  obtain ⟨hl, hv, hr⟩ := sdString_spec n v.natAbs h
  unfold sdOf
  rw [if_neg (Nat.not_lt.mpr h)]
  split
  · refine ⟨by simp [hl], ?_, ?_⟩
    · have hn := sdValue_map_neg 0 (sdString n v.natAbs)
      rw [Int.neg_zero] at hn
      rw [hn, hv]
      omega
    · simp only [List.mem_map, forall_exists_index, and_imp, forall_apply_eq_imp_iff₂]
      intro x hx
      have := hr x hx
      omega
  · exact ⟨hl, by rw [hv]; omega, hr⟩

/-! ## Tokens -/

theorem length_sdPack_le (last : Bool) (n : Nat) (ds : List Int) : (sdPack last n ds).length ≤ ds.length / 8 + 1 := by
  induction n generalizing ds with
  | zero => simp [sdPack]
  | succ n ih =>
    unfold sdPack
    split
    · split <;> simp
    · have h := ih (ds.drop 8)
      rw [List.length_drop] at h
      rw [List.length_cons]
      omega

theorem length_sdToks_le (last : Bool) (ds : List Int) (t : RTag) : (sdToks last ds t).length ≤ ds.length / 8 + 1 := by
  simpa [sdToks] using length_sdPack_le last 4 ds

end Sys2Proof.Machine
end

section
/-!
The online instructions on a number that no firing has begun (R117-R123).
-/
namespace Sys2Proof.Machine

/-- A well-formed token whose digits the number can still take (R117, R119). -/
theorem sdOne_of_parse {e : Env} {n : Nat} {k : List Int → Bool → Res} {ds : List Int} {last : Bool} (hp : sdParse e.av = some (ds, last))
    (hn : n + ds.length ≤ 16) : sdOne e n k = k ds last := by
  simp only [sdOne, hp, if_neg (Nat.not_lt.mpr hn)]

/-- Two well-formed tokens that agree in CNT and LASTD (R117). -/
theorem sdTwo_of_parse {e : Env} {n : Nat} {k : List Int → List Int → Bool → Res} {da db : List Int} {last : Bool}
    (ha : sdParse e.av = some (da, last)) (hb : sdParse e.bv = some (db, last)) (hl : da.length = db.length) (hn : n + da.length ≤ 16) :
    sdTwo e n k = k da db last := by
  have hn' : ¬16 < n + db.length := by omega
  simp [sdTwo, ha, hb, hl, hn']

/-- The plan of a firing that ends its number and delivers `ts` to both consumer slots (R103, R117). -/
abbrev numberEnd (ts : List Tok) : Plan := { o0 := ts, o1 := ts, lat := 2, prog := some .idle }

/-- An online instruction that ends its number with at most three tokens starts its firing where there is room for three. -/
theorem Fires.of_sd {i : Instr} {s : State} {r : FireReq} {k : Env → Res} {off : Env → Plan} {ts : List Tok}
    (hx : exec i s = .next (fire s s.locus i r k off)) (h : s.CanFireN r 3) (hl : ts.length ≤ 3) (hk : k (s.env r) = .sd ts .idle) :
    Fires i s r (numberEnd ts) :=
  .of_fire hx (h.canFire rfl (Nat.max_le.mpr ⟨(by decide : 1 ≤ 3), hl⟩) (Nat.max_le.mpr ⟨(by decide : 1 ≤ 3), hl⟩) (by omega : 2 < 512)) hk

section
-- a slot that holds no number in progress, and whose first operand is a whole number of one token
variable {s : State} {o : Ops} {da db : List Int} (hi : (s.env { ops := o }).prog = .idle) (h : s.CanFireN { ops := o } 3)
  (ha : sdParse (s.env { ops := o }).av = some (da, true)) (hl : da.length ≤ 8)
include hi h ha hl

theorem fires_sdval (uns : Bool) : Fires (.sdval o uns) s { ops := o } (numberEnd [wordTok (BitVec.ofInt 32
    (max (if uns then 0 else -2 ^ 31) (min (sdValue 0 da) (if uns then 2 ^ 32 - 1 else 2 ^ 31 - 1)))) (s.env { ops := o }).tag]) := by
  refine .of_sd rfl h (by simp) ?_
  simp only [hi, sdOne_of_parse ha (show 0 + da.length ≤ 16 by omega), clampInt_w32, if_true]

theorem fires_ocut (k : BitVec 4) : Fires (.ocut o k) s { ops := o } (numberEnd [wordTok
    (if k.toNat + 1 ≤ da.length then sdToken (da.take (k.toNat + 1)) true else (s.env { ops := o }).av) (s.env { ops := o }).tag]) := by
  refine .of_sd rfl h (by simp) ?_
  simp only [hi, sdOne_of_parse ha (show 0 + da.length ≤ 16 by omega), Nat.zero_add, Nat.sub_zero, Bool.false_eq_true, if_false, if_true]
  split <;> rfl

-- and whose second is one of as many digits
variable (hb : sdParse (s.env { ops := o }).bv = some (db, true)) (hd : da.length = db.length)
include hb hd

theorem fires_oadd : Fires (.oadd o) s { ops := o }
    (numberEnd (sdToks true (oaddAll (List.zipWith (· + ·) da db)) (s.env { ops := o }).tag)) := by
  have hz : (List.zipWith (· + ·) da db).length = da.length := by simp [hd]
  have ht := length_sdToks_le true (oaddAll (List.zipWith (· + ·) da db)) (s.env { ops := o }).tag
  rw [length_oaddAll, hz] at ht
  refine .of_sd rfl h (by omega) ?_
  simp only [hi, sdTwo_of_parse ha hb hd (show [].length + da.length ≤ 16 by simp; omega), List.nil_append, if_true, List.drop_zero,
    ← length_oaddAll, List.take_length]

theorem fires_ocmp (cc : OCond) : Fires (.ocmp o cc) s { ops := o } (numberEnd [wordTok
    (if cc.holds (((ocmpRun 0 da db).2).getD (ocmpRun 0 da db).1) then 1 else 0) (s.env { ops := o }).tag]) := by
  refine .of_sd rfl h (by simp) ?_
  simp only [hi, sdTwo_of_parse ha hb hd (show 0 + da.length ≤ 16 by omega), if_true]
  cases (ocmpRun 0 da db).2 <;> rfl

theorem fires_omax : Fires (.omax o) s { ops := o } (numberEnd (sdToks true
    (if 0 ≤ ((ocmpRun 0 da db).2).getD (ocmpRun 0 da db).1 then da else db) (s.env { ops := o }).tag)) := by
  have hw : (if 0 ≤ ((ocmpRun 0 da db).2).getD (ocmpRun 0 da db).1 then da else db).length ≤ 8 := by split <;> omega
  have ht := length_sdToks_le true (if 0 ≤ ((ocmpRun 0 da db).2).getD (ocmpRun 0 da db).1 then da else db) (s.env { ops := o }).tag
  refine .of_sd rfl h (by omega) ?_
  simp only [hi, sdTwo_of_parse ha hb hd (show 0 + da.length ≤ 16 by omega), if_true, List.nil_append]
  cases (ocmpRun 0 da db).2 <;> simp

end

section
-- an SDCVT whose slot holds no number in progress
variable {s : State} {o : Ops} {n : SdLen} {ch : SdChunk} {d : Tok} (hi : (s.env { ops := o, multi := true }).prog = .idle)
  (h : s.CanFire { ops := o, multi := true } (numberEnd [d]))
include hi h

/-- SDCVT with a chunk for the whole number ends it with its first firing (R118). -/
theorem fires_sdcvt_whole (hn : SdLen.digits n ≤ SdChunk.digits ch) :
    let e := s.env { ops := o, multi := true }
    Fires (.sdcvt o n ch) s { ops := o, multi := true } (numberEnd
      [wordTok (sdToken ((sdOf (SdLen.digits n) e.av.toInt).take (min (SdChunk.digits ch) (SdLen.digits n))) true) e.tag]) := by
  have hlast : SdLen.digits n ≤ min (SdChunk.digits ch) (SdLen.digits n) := by omega
  refine .of_fire rfl h ?_
  simp only [hi, Nat.sub_zero, Nat.zero_add, List.drop_zero, if_pos hlast, decide_eq_true hlast, Bool.not_true]

/-- SDCVT with a smaller chunk keeps its operand and its slot for the next firing (R118). -/
theorem fires_sdcvt_first (hn : SdChunk.digits ch < SdLen.digits n) :
    let e := s.env { ops := o, multi := true }
    let m := min (SdChunk.digits ch) (SdLen.digits n)
    Fires (.sdcvt o n ch) s { ops := o, multi := true }
      { numberEnd [wordTok (sdToken ((sdOf (SdLen.digits n) e.av.toInt).take m) false) e.tag] with
        prog := some (.conv m), pops := some [], stay := true } := by
  have hlast : ¬SdLen.digits n ≤ min (SdChunk.digits ch) (SdLen.digits n) := by omega
  obtain ⟨ready, -, room⟩ := h
  -- a firing at which the sequencer stays takes no token for NXT, which is what a ready SDCVT has been asked for
  refine .of_fire rfl ⟨ready, ready.2.1, room⟩ ?_
  simp only [hi, Nat.sub_zero, Nat.zero_add, List.drop_zero, if_neg hlast, decide_eq_false hlast, Bool.not_false]

end

/-- Settles O6: each instruction's answer to its whole number, and the laws of signed digits. -/
theorem onlineStarts : Obligations.OnlineStarts := by
  refine ⟨?_, fun ts _ => sdValue_oaddAll ts, fun ts => oaddAll_range, sdOf_spec⟩
  intro s o uns cc k da db d n ch r rs e es out m head
  refine ⟨fun hi h => ⟨fires_sdcvt_whole hi h, fires_sdcvt_first hi h⟩, fun hi h ha hl => ⟨fires_sdval hi h ha hl uns, fun hk => ?_, fun hk => ?_,
    fun hb hd => ⟨fires_oadd hi h ha hl hb hd, fires_ocmp hi h ha hl hb hd cc, fires_omax hi h ha hl hb hd⟩⟩⟩
  · simpa only [if_pos hk] using fires_ocut hi h ha hl k
  · simpa only [if_neg (Nat.not_le.mpr (Nat.lt_succ_of_le hk))] using fires_ocut hi h ha hl k

end Sys2Proof.Machine
end

section
/-!
Beats element by element (R5, R76, R126): what the elements of a packed beat are, and the starts of the lane instructions that answer
one beat.
-/
namespace Sys2Proof.Machine

/-! ## Elements -/

theorem LaneTy.w_mul_e (t : LaneTy) : t.w * t.e = 1024 := by cases t <;> rfl

theorem elem_lt {n : Nat} (x : BitVec n) (w i : Nat) : elem x w i < 2 ^ w := Nat.mod_lt _ (Nat.two_pow_pos w)

theorem opdEl_lt (t : LaneTy) (lit : Option DWord) (s : Sel) (k : Tok) (i : Nat) : opdEl t lit s k i < 2 ^ t.w := elem_lt _ _ _

/-- A beat is the list of its elements. -/
theorem beatElems_eq_map (t : LaneTy) (x : Beat) : beatElems t.w x = (List.range t.e).map (elem x t.w) := by
  refine List.ext_getElem (by simp [beatElems, length_elems, LaneTy.e]) fun i h _ => ?_
  unfold beatElems at h ⊢
  rw [getElem_elems _ _ _ _ h, List.getElem_map, List.getElem_range, elem]

/-- Element `i` of a value that packed elements fill. -/
theorem elem_ofNat_packNat_of_fills {n w i : Nat} {xs : List Nat} (hw : w * xs.length = n) (h : i < xs.length) :
    elem (BitVec.ofNat n (packNat w xs)) w i = xs[i] % 2 ^ w := by
  have hlt : packNat w xs < 2 ^ n := hw ▸ packNat_lt w xs
  rw [elem, BitVec.toNat_ofNat, Nat.mod_eq_of_lt hlt, packNat_div_mod w xs i h]

/-- The elements of a beat that is packed from a function of the index. -/
theorem elem_packBeat (t : LaneTy) (f : Nat → Nat) {j : Nat} (hj : j < t.e) :
    elem (packBeat t.w ((List.range t.e).map f)) t.w j = f j % 2 ^ t.w := by
  have hl : ((List.range t.e).map f).length = t.e := by simp
  have hw : t.w * ((List.range t.e).map f).length = 1024 := by rw [hl, LaneTy.w_mul_e]
  rw [packBeat, elem_ofNat_packNat_of_fills hw (by rwa [hl]), List.getElem_map, List.getElem_range]

/-- An element by its index, 0 beyond the last (R133). -/
theorem getD_beatElems (t : LaneTy) (x : Beat) (i : Nat) : ((beatElems t.w x)[i]?).getD 0 = if i < t.e then elem x t.w i else 0 := by
  rw [beatElems_eq_map, List.getElem?_map]
  split
  · rw [List.getElem?_range ‹_›]
    rfl
  · rw [List.getElem?_eq_none (by rw [List.length_range]; omega)]
    rfl

theorem div_mod_two_eq_one_iff (x i : Nat) : x / 2 ^ i % 2 = 1 ↔ x.testBit i = true := by
  rw [Nat.testBit_eq_decide_div_mod_eq, decide_eq_true_eq]

/-! ## Functions element by element -/

theorem lane2_eq (t : LaneTy) (f : Nat → Nat → Nat) (x y : Beat) : lane2 t f (beatElems t.w x) (beatElems t.w y) =
    packBeat t.w ((List.range t.e).map fun i => f (elem x t.w i) (elem y t.w i)) := by
  rw [lane2, beatElems_eq_map, beatElems_eq_map, List.zipWith_map, List.zipWith_self]

theorem map_zip_beatElems (t : LaneTy) (f : Nat × Nat × Nat → Nat) (x y z : Beat) :
    ((beatElems t.w x).zip ((beatElems t.w y).zip (beatElems t.w z))).map f =
      (List.range t.e).map fun i => f (elem x t.w i, elem y t.w i, elem z t.w i) := by
  rw [beatElems_eq_map, beatElems_eq_map, beatElems_eq_map, List.zip_map', List.zip_map', List.map_map]
  rfl

theorem splat_eq (t : LaneTy) (x : Nat) : splat t.w x = packBeat t.w ((List.range t.e).map fun _ => x) := by
  rw [splat, LaneTy.e, List.map_const', List.length_range]

/-! ## Arithmetic on I32 elements (R130) -/

theorem slt_ofNat_iff (x y : Nat) : (BitVec.ofNat 32 x).slt (BitVec.ofNat 32 y) = true ↔ sgn 32 x < sgn 32 y := by
  rw [BitVec.slt_iff_toInt_lt, sgn_eq_toInt_ofNat (by decide), sgn_eq_toInt_ofNat (by decide)]

theorem toNat_sMax_ofNat (x y : Nat) :
    (sMax (BitVec.ofNat 32 x) (BitVec.ofNat 32 y)).toNat = (if sgn 32 x < sgn 32 y then y else x) % 2 ^ 32 := by
  simp only [sMax, slt_ofNat_iff]
  split <;> rfl

theorem toNat_sMin_ofNat (x y : Nat) :
    (sMin (BitVec.ofNat 32 x) (BitVec.ofNat 32 y)).toNat = (if sgn 32 y < sgn 32 x then y else x) % 2 ^ 32 := by
  simp only [sMin, slt_ofNat_iff]
  split <;> rfl

theorem toNat_sub_ofNat {x y : Nat} (hx : x < 2 ^ 32) (hy : y < 2 ^ 32) :
    (BitVec.ofNat 32 x - BitVec.ofNat 32 y).toNat = (2 ^ 32 + x - y) % 2 ^ 32 := by
  rw [BitVec.toNat_sub, BitVec.toNat_ofNat, BitVec.toNat_ofNat]
  omega

/-! ## Starts -/

/-- An instruction that answers a plan of at most `n` tokens a slot starts its firing where any such plan can fire. -/
theorem Fires.of_plan {i : Instr} {s : State} {r : FireReq} {k : Env → Res} {off : Env → Plan} {n : Nat} {p : Plan}
    (hx : exec i s = .next (fire s s.locus i r k off)) (h : s.CanFireN r n) (hk : k (s.env r) = .go p) (hs : p.stay = false)
    (h0 : max p.n0 p.o0.length ≤ n) (h1 : max p.n1 p.o1.length ≤ n) (hl : p.lat < 512) : Fires i s r p :=
  .of_fire hx (h.canFire hs h0 h1 hl) hk

section
-- an instruction that is `fire` of an answer, at a slot that can deliver one token
variable {i : Instr} {s : State} {r : FireReq} {k : Env → Res} {off : Env → Plan} {lat : Nat} {d : Tok}
  (hx : exec i s = .next (fire s s.locus i r k off)) (h : s.CanFire r (oneToken lat d))
include hx h

theorem Fires.of_beat {v : Beat} (hk : k (s.env r) = .beat lat v) : Fires i s r (oneToken lat (beatTok v)) := Fires.of_fire hx h hk

/-- A beat that is packed from a function of the index. -/
theorem GivesBeat.of_packBeat {t : LaneTy} {f : Nat → Nat} (hk : k (s.env r) = .beat lat (packBeat t.w ((List.range t.e).map f))) :
    GivesBeat i s r lat t f := ⟨_, .of_beat hx h hk, fun _ hj => elem_packBeat t f hj⟩

/-- A function of two operands' elements. -/
theorem GivesBeat.of_lane2 {t : LaneTy} {f : Nat → Nat → Nat} {x y : Beat}
    (hk : k (s.env r) = .beat lat (lane2 t f (beatElems t.w x) (beatElems t.w y))) :
    GivesBeat i s r lat t fun j => f (elem x t.w j) (elem y t.w j) := .of_packBeat hx h (lane2_eq t f x y ▸ hk)

/-- A function of three operands' elements. -/
theorem GivesBeat.of_lane3 {t : LaneTy} {f : Nat × Nat × Nat → Nat} {x y z : Beat}
    (hk : k (s.env r) = .beat lat (packBeat t.w (((beatElems t.w x).zip ((beatElems t.w y).zip (beatElems t.w z))).map f))) :
    GivesBeat i s r lat t fun j => f (elem x t.w j, elem y t.w j, elem z t.w j) :=
  .of_packBeat hx h (map_zip_beatElems t f x y z ▸ hk)

/-- A function of FP32 elements (R134). -/
theorem GivesBeat.of_lane1 {f : Word → Word} {x : Beat} (hk : k (s.env r) = .beat lat (lane1 f (beatElems 32 x))) :
    GivesBeat i s r lat .f32 fun j => (f (BitVec.ofNat 32 (elem x 32 j))).toNat := by
  refine .of_packBeat hx h (hk.trans (congrArg (fun l => Res.beat lat (packBeat 32 l)) ?_))
  exact (congrArg _ (beatElems_eq_map .f32 x)).trans List.map_map

/-- Arithmetic in the element's format, or on 32-bit integers as `g` says (R130). -/
theorem GivesBeat.of_laneOp {t : LaneTy} {ff : FpFmt → Nat → Nat → Nat} {fi : Word → Word → Word} {g : Nat → Nat → Nat} {x y : Beat}
    (hk : k (s.env r) = .beat lat (lane2 t (laneOp t ff fi) (beatElems t.w x) (beatElems t.w y)))
    (hg : ∀ u v, u < 2 ^ 32 → v < 2 ^ 32 → (fi (BitVec.ofNat 32 u) (BitVec.ofNat 32 v)).toNat = g u v % 2 ^ 32) :
    GivesBeat i s r lat t fun j => match t.fmt with
      | some f => ff f (elem x t.w j) (elem y t.w j)
      | none => g (elem x t.w j) (elem y t.w j) := by
  obtain ⟨v, hv, he⟩ := GivesBeat.of_lane2 hx h hk
  refine ⟨v, hv, fun j hj => (he j hj).trans ?_⟩
  cases t with
  | i32 => exact (congrArg (· % 2 ^ 32) (hg _ _ (elem_lt x 32 j) (elem_lt y 32 j))).trans (Nat.mod_mod _ _)
  | f32 | f16 | bf16 => rfl

end

/-- Settles O12: each instruction's answer, element by element. -/
theorem laneElements : Obligations.LaneElements := by
  intro s o t rd c cc n d r rc e ec a b a3 b3 c3 op
  refine ⟨fun h => ⟨?add, ?sub, ?mul, ?max, ?min, ?cmp, fun hn => ?element, ?copy, ?shuffle⟩, fun h => ⟨?select, ?fma⟩⟩
  case add => exact .of_laneOp (i := .vadd o t rd) rfl h rfl fun u v _ _ => by simp
  case sub => exact .of_laneOp (i := .vsub o t rd) rfl h rfl fun u v hu hv => toNat_sub_ofNat hu hv
  case mul => exact .of_laneOp (i := .vmul o t rd) rfl h rfl fun u v _ _ => by simp
  case max => exact .of_laneOp (i := .vmax o t) rfl h rfl fun u v _ _ => toNat_sMax_ofNat u v
  case min => exact .of_laneOp (i := .vmin o t) rfl h rfl fun u v _ _ => toNat_sMin_ofNat u v
  case cmp => exact .of_lane2 (i := .vcmp o t cc) rfl h rfl
  case element =>
    refine .of_packBeat rfl h (.trans ?_ (congrArg (Res.beat 3) (splat_eq t _)))
    exact congrArg (fun x => Res.beat 3 (splat t.w x)) ((getD_beatElems t _ _).trans (if_pos hn))
  case copy => exact ⟨_, .of_beat rfl h rfl, fun j _ => (Nat.mod_eq_of_lt (opdEl_lt ..)).symm⟩
  case shuffle =>
    refine .of_packBeat rfl h (congrArg (fun l => Res.beat 3 (packBeat t.w l)) ?_)
    simp only [Env.lb, Env.la, getD_beatElems]
    rw [beatElems_eq_map, List.map_map]
    rfl
  case select =>
    obtain ⟨v, hv, he⟩ := GivesBeat.of_lane3 (i := .vsel o t c) rfl h rfl
    exact ⟨v, hv, fun j hj => (he j hj).trans (congrArg (· % 2 ^ t.w) (ite_congr (propext (div_mod_two_eq_one_iff _ _)) (fun _ => rfl) fun _ => rfl))⟩
  case fma => exact .of_lane3 (i := .vfma o t rd c) rfl h rfl

end Sys2Proof.Machine
end

section
/-!
The functions and conversions of beats (R134-R137, R143).
-/
namespace Sys2Proof.Machine

/-- Bit `i` of a beat in which a field is replaced. -/
theorem getLsbD_putBits (b : Beat) (lo w x : Nat) {i : Nat} (hi : i < 1024) :
    (putBits b lo w x).getLsbD i = if lo ≤ i ∧ i < lo + w then x.testBit (i - lo) else b.getLsbD i := by
  have hf : ∀ y, (BitVec.ofNat 1024 y <<< lo).getLsbD i = (decide (lo ≤ i) && y.testBit (i - lo)) := by
    intro y
    rw [BitVec.getLsbD_shiftLeft, BitVec.getLsbD_ofNat, decide_eq_true hi, decide_eq_true (by omega : i - lo < 1024),
      Bool.true_and, Bool.true_and, ← decide_not, decide_eq_decide.mpr Nat.not_lt]
  have hm : (decide (lo ≤ i) && decide (i - lo < w)) = decide (lo ≤ i ∧ i < lo + w) := by
    rw [← Bool.decide_and]
    exact decide_eq_decide.mpr (by omega)
  rw [putBits, BitVec.getLsbD_or, BitVec.getLsbD_and, BitVec.getLsbD_not, hf, hf, Nat.testBit_mod_two_pow, Nat.testBit_two_pow_sub_one,
    ← Bool.and_assoc (decide (lo ≤ i)), hm]
  split <;> simp [*]

/-- Settles O13: the functions by their starts; VQMX bit by bit of the replaced fields. -/
theorem laneFunctions : Obligations.LaneFunctions := by
  intro s o t rd c v p2 p3 r rc e ec a b
  refine ⟨fun h => ?_, fun h => ?_⟩
  · have can : ∀ lat, lat < 512 → s.CanFire r (oneToken lat (beatTok 0)) := fun lat hl =>
      h.canFire rfl (Nat.le_refl 1) (Nat.le_refl 1) hl
    exact ⟨.of_lane1 (i := .vexp2 o rd) rfl (can 8 (by decide)) rfl, .of_lane1 (i := .vlog2 o rd) rfl (can 8 (by decide)) rfl,
      .of_lane1 (i := .vrcp o rd) rfl (can 8 (by decide)) rfl, .of_lane1 (i := .vrsq o rd) rfl (can 8 (by decide)) rfl,
      .of_lane2 (i := .vgumbel o) rfl (can 12 (by decide)) rfl, .of_beat rfl (can 3 (by decide)) rfl, .of_beat rfl (can 4 (by decide)) rfl⟩
  · intro q
    exact ⟨_, _, .of_plan rfl h rfl rfl (Nat.le_refl 1) (Nat.le_refl 1) (by decide : 4 < 512),
      fun i hi => getLsbD_putBits _ _ _ _ hi, fun i hi => getLsbD_putBits _ _ _ _ hi⟩

end Sys2Proof.Machine
end

section
/-!
The reductions of a group's beats (R138-R142).
-/
namespace Sys2Proof.Machine

/-! ## A fold keeps the count of its group's beats -/

theorem n_argFold (t : LaneTy) (g : GroupSt) (i : Word) (xs : List Nat) : (argFold t g i xs).n = g.n := by
  induction xs generalizing g i with
  | nil => rfl
  | cons x xs ih =>
    rw [argFold, ih]
    split <;> rfl

theorem n_lseFold (t : LaneTy) (xs : List Nat) (g : GroupSt) : (lseFold t xs g).n = g.n := by
  unfold lseFold
  extract_lets m z ws mb m1 sb za zb
  exact ite_ind (fun y : GroupSt => y.n = g.n) rfl (ite_ind (fun y : GroupSt => y.n = g.n) rfl (ite_ind (fun y : GroupSt => y.n = g.n) rfl rfl))

/-- An instruction that answers a reduction folds its beat, and delivers where the beat is its group's last. -/
theorem Reduces.of_reduce {i : Instr} {s : State} {r : FireReq} {k : Env → Res} {off : Env → Plan} {span lat : Nat}
    {fold : GroupSt → GroupSt} {out : GroupSt → Word × Word} (hx : exec i s = .next (fire s s.locus i r k off)) (h : s.CanFireN r 1)
    (hl : lat < 512) (hk : k (s.env r) = reduce (s.env r) span lat fold out)
    (hn : (fold (groupOf (s.env r).prog)).n = (groupOf (s.env r).prog).n) :
    Reduces i s r span lat (fold (groupOf (s.env r).prog)) out := by
  unfold reduce at hk
  extract_lets g g1 at hk
  have hg : g1.n = (groupOf (s.env r).prog).n + 1 := congrArg (· + 1) hn
  refine ⟨fun hs => ?last, fun hs => ?earlier⟩
  case last =>
    rw [if_pos (hg.trans hs)] at hk
    exact ⟨_, .of_plan hx h hk rfl (Nat.le_refl 1) (Nat.le_refl 1) hl, rfl, rfl, g1, rfl, rfl, rfl, rfl, rfl, rfl⟩
  case earlier =>
    rw [if_neg (hg ▸ hs)] at hk
    exact ⟨_, .of_plan hx h hk rfl (Nat.le_refl 1) (Nat.le_refl 1) (by decide : 3 < 512), rfl, rfl, rfl, g1, rfl, rfl, rfl, rfl,
      hg, rfl⟩

/-- Settles O14: each reduction by its fold, VSCAN by its plan. -/
theorem laneReductions : Obligations.LaneReductions := by
  intro s o t rd g r e x a b add maxw z scanned scanNext mx h
  exact ⟨.of_reduce (i := .vredadd o t rd g) rfl h (by decide) rfl rfl, .of_reduce (i := .vredmax o t g) rfl h (by decide) rfl rfl,
    .of_reduce (i := .vargmax o t g) rfl h (by decide) rfl (n_argFold ..), .of_reduce (i := .vdot o t rd g) rfl h (by decide) rfl rfl,
    .of_reduce (i := .vnorm2 o t rd g) rfl h (by decide) rfl rfl, .of_reduce (i := .vlse o t g) rfl h (by decide) rfl (n_lseFold ..),
    .of_plan rfl h rfl rfl (Nat.le_refl 1) (Nat.le_refl 1) (by decide : 10 < 512)⟩

end Sys2Proof.Machine
end

section
/-!
Bytes written and read back, and beats of tile slots (R144, R145).
-/
namespace Sys2Proof.Machine

/-! ## Bytes of a memory after a write of several -/

theorem Memory.read_writeN_other {m : Memory} {a c : Nat} {bs : List Byte} (h : c < a ∨ a + bs.length ≤ c) (w : Memory.wf m = true) :
    Memory.read (Memory.writeN m a bs) c = Memory.read m c := by
  induction bs generalizing m a with
  | nil => rfl
  | cons b bs ih =>
    rw [List.length_cons] at h
    rw [Memory.writeN, ih (by omega) (Memory.wf_write m a b w), Memory.read_write_other m 0 a c b (by omega) w]

theorem Memory.readN_writeN_same {m : Memory} {a : Nat} {bs : List Byte} (w : Memory.wf m = true) :
    Memory.readN (Memory.writeN m a bs) a bs.length = bs := by
  induction bs generalizing m a with
  | nil => rfl
  | cons b bs ih =>
    have hw := Memory.wf_write m a b w
    rw [Memory.writeN, List.length_cons, Memory.readN, ih hw, Memory.read_writeN_other (by omega) hw,
      Memory.read_write_same m 0 a b w (Nat.zero_le a)]

/-! ## Little-endian bytes (R5) -/

theorem length_natBytes' (n x : Nat) : (natBytes' n x).length = n := by
  induction n generalizing x with
  | zero => rfl
  | succ n ih => rw [natBytes', List.length_cons, ih]

theorem bytesNat_natBytes' (n x : Nat) : bytesNat (natBytes' n x) = x % 256 ^ n := by
  induction n generalizing x with
  | zero => rw [Nat.pow_zero, Nat.mod_one, natBytes', bytesNat]
  | succ n ih =>
    rw [natBytes', bytesNat, ih, BitVec.toNat_ofNat]
    exact ((congrArg (x % ·) Nat.pow_succ').trans Nat.mod_mul).symm

theorem bytesBits_natBytes' {w n : Nat} (x : BitVec w) (h : w = 8 * n) : bytesBits w (natBytes' n x.toNat) = x := by
  have hp : 256 ^ n = 2 ^ w := by rw [h, Nat.pow_mul]
  rw [bytesBits, bytesNat_natBytes', hp, Nat.mod_eq_of_lt x.isLt, BitVec.ofNat_toNat, BitVec.setWidth_eq]

/-! ## Beats of a tile slot -/

/-- What a write of a tile beat makes of the register file: the beat at its place, and every other byte as it was (R145). -/
theorem State.writeTile_bytes {s : State} {r : RowId} {t j : Nat} {b : Beat} (w : Memory.wf s.regf = true) :
    bytesBits 1024 (Memory.readN (s.writeTile r t j b).regf (s.tileAt r t j) 128) = b ∧
    ∀ a, a < s.tileAt r t j ∨ s.tileAt r t j + 128 ≤ a → Memory.read (s.writeTile r t j b).regf a = Memory.read s.regf a := by
  have hl := length_natBytes' 128 b.toNat
  rw [State.writeTile_regf]
  refine ⟨?_, fun a ha => Memory.read_writeN_other (by rwa [hl]) w⟩
  have hr := Memory.readN_writeN_same (a := s.tileAt r t j) (bs := natBytes' 128 b.toNat) w
  rw [hl] at hr
  rw [hr, bytesBits_natBytes' b rfl]

/-- The correction of a tile beat's check bits writes no byte of the register file (R25). -/
theorem State.correctTile_regf (s : State) (r : RowId) (t j : Nat) : (s.correctTile r t j).regf = s.regf := by
  unfold State.correctTile
  extract_lets a hit s1 c k
  exact ite_ind (fun u : State => u.regf = s.regf) rfl rfl

theorem State.HoldsAs.tileAt {s u : State} (h : s.HoldsAs u) (r : RowId) (t j : Nat) : u.tileAt r t j = s.tileAt r t j := by
  rw [State.tileAt, State.tileAt, Row.ent, Row.ent, (h.row r).regmap]

/-! ## The starts of VTLD and VTST -/

/-- The plan of a firing on a beat of a tile range: one token to each slot after 2 cycles, and the cursor moves (R144). -/
abbrev tilePlan (t : Tile) (k : BitVec 6) (x y : Tok) (eff : State → State) : Plan :=
  { o0 := [x], o1 := [y], lat := 2, prog := some (.cursor (nextCursor t k)), eff := eff }

/-- A start applies its plan's effect to a state that holds the same data (R166). -/
theorem State.begin_eq_eff_holdsAs (s : State) (l : Loc) (i : Instr) (r : FireReq) (off : Bool) {p : Plan} (hc : p.curs = []) (t0 t1 : Target) :
    ∃ u, s.HoldsAs u ∧ s.begin l i r off p t0 t1 = p.eff u :=
  ⟨s.begin l i r off { p with eff := id } t0 t1, s.holdsAs_begin l i r off (p := { p with eff := id }) ⟨rfl, hc⟩ t0 t1, rfl⟩

/-- VTLD delivers the next beat of the range, and its own beat as it is (R144, R145). -/
theorem fires_vtld {s : State} {o : Ops} {t : Tile} {d : Tok} (h : s.CanFire { ops := o, verify := false } (oneToken 2 d)) :
    let e := s.env { ops := o, verify := false }
    let row := s.locus.nd.row
    let j := (t.start + cursorOf e.prog).toNat
    e.nd.fly.any (writesTile t.tile) = false → s.tileErr row t.tile.toNat j = none →
    Fires (.vtld o t) s { ops := o, verify := false } (tilePlan t (cursorOf e.prog) (beatTok (s.readTile row t.tile.toNat j)) e.a
      fun x => x.correctTile row t.tile.toNat j) := by
  intro e row j hw he
  refine .of_fire rfl h ((if_neg (Bool.eq_false_iff.mp hw)).trans ?_)
  change (match s.tileErr row t.tile.toNat j with | some c => Res.fault c (e.info t.tile.toNat) | none => _) = _
  rw [he]
  rfl

/-- VTST passes its beat on to both slots, and writes it at its start (R144). -/
theorem fires_vtst {s : State} {o : Ops} {t : Tile} {d : Tok} (h : s.CanFire { ops := o } (oneToken 2 d)) :
    let e := s.env { ops := o }
    let b := e.a.beatOf
    Fires (.vtst o t) s { ops := o } (tilePlan t (cursorOf e.prog) (beatTok b) (beatTok b)
      fun x => x.writeTile s.locus.nd.row t.tile.toNat (t.start + cursorOf e.prog).toNat b) := Fires.of_fire rfl h rfl

/-- Settles O15: VTLD by its plan, VTST by the write that its start applies. -/
theorem tileBeats : Obligations.TileBeats := by
  intro s o t d r rv e ev k j row next at_
  refine ⟨fun h hw he => ?load, fun h w => ?store⟩
  case load => exact ⟨_, fires_vtld h hw he, rfl, rfl, rfl, rfl, fun x => x.correctTile_regf row t.tile.toNat j⟩
  case store =>
    have hf := fires_vtst (t := t) h
    obtain ⟨u, hu, hb⟩ := s.begin_eq_eff_holdsAs s.locus (.vtst o t) r false (p := tilePlan t k (beatTok e.a.beatOf) (beatTok e.a.beatOf)
      fun x => x.writeTile row t.tile.toNat j e.a.beatOf) rfl (s.tgt0 o) (s.tgt1 o)
    refine ⟨_, hf, ⟨_, hf, rfl, rfl, rfl, rfl⟩, ?_⟩
    have hbytes := State.writeTile_bytes (s := u) (r := row) (t := t.tile.toNat) (j := j) (b := e.a.beatOf) (hu.regf ▸ w)
    rw [hu.tileAt, hu.regf] at hbytes
    exact hb ▸ hbytes

end Sys2Proof.Machine
end

section
/-!
What reaches a row from outside its nodes: the token that a lane hands on to a queue (R165, R369) and the key that a kill brings to
a KCHK slot (R188, R189). From it, what INGRESS_FORWARD and KILL_ARRIVAL do.
-/
namespace Sys2Proof.Machine

/-! ## Nodes and lanes after a write -/

theorem State.node_setNode_eq_ite (s : State) (n : NodeId) (x : Node) (m : NodeId) :
    (s.setNode n x).node m = if rowIx m.row = rowIx n.row ∧ m.node = n.node then x else s.node m := by
  unfold State.setNode
  rw [State.node_setRow]
  by_cases hr : rowIx m.row = rowIx n.row
  case neg => simp [hr]
  by_cases hn : m.node = n.node
  case neg => simp [hr, hn, tgetD_tset_other, State.node, State.row]
  simp [hr, hn]

@[simp] theorem State.lane_setNode (s : State) (n : NodeId) (x : Node) (l : Nat) :
    ((s.setNode n x).row n.row).lane l = (s.row n.row).lane l := by simp [State.setNode, Row.lane]

@[simp] theorem Row.lane_setLane (r : Row) (l : Nat) (q : Queue) : (r.setLane l q).lane l = q := tgetD_tset_same _ _ _ _

@[simp] theorem Node.queue_setQueue (n : Node) (q : Nat) (x : Queue) : (n.setQueue q x).queue q = x := tgetD_tset_same _ _ _ _

@[simp] theorem Node.queue_setProg (n : Node) (k : Nat) (p : Prog) (j : Nat) : (n.setProg k p).queue j = n.queue j := rfl

@[simp] theorem Node.prog_setProg (n : Node) (k : Nat) (p : Prog) : (n.setProg k p).prog k = p := tgetD_tset_same _ _ _ _

/-- A write of a row that leaves its table of nodes leaves every node. -/
theorem State.node_setRow_of_nodes (s : State) {r : RowId} {x : Row} (h : x.nodes = (s.row r).nodes) (m : NodeId) :
    (s.setRow r x).node m = s.node m := by
  rw [State.node_setRow, h]
  split
  · simp only [State.node, State.row, *]
  · rfl

@[simp] theorem State.node_count (s : State) (r : RowId) (k c : Nat) (m : NodeId) : (s.count r k c).node m = s.node m := by
  refine s.node_setRow_of_nodes ?_ m
  rfl

/-! ## A lane's token enters a queue -/

/-- A token that enters a node queue comes last in it, and keeps its kind (R166). -/
theorem State.queue_push_queue (s : State) (n : NodeId) (q : Nat) (last : Bool) (stage : Nat) (k : Tok) :
    (((s.push ⟨.queue n q, last, stage⟩ k).node n).queue q).toks =
      ((s.node n).queue q).toks ++ [{ tok := k, last := last, stage := stage, at_ := s.cyc n.row.die }] := by
  simp [State.push, Tok.atDest, Dest.die]

theorem State.lane_push_queue (s : State) (r : RowId) (k q : Nat) (last : Bool) (stage : Nat) (t : Tok) (l : Nat) :
    ((s.push ⟨.queue ⟨r, k⟩ q, last, stage⟩ t).row r).lane l = (s.row r).lane l :=
  State.lane_setNode s ⟨r, k⟩ _ l

/-- The state in which a lane has handed its oldest token on to a queue of its row. -/
def State.laneToQueue (s : State) (r : RowId) (lane k q : Nat) (x : QTok) (ts : List QTok) : State :=
  (s.setRow r ((s.row r).setLane lane { (s.row r).lane lane with toks := ts })).push ⟨.queue ⟨r, k⟩ q, x.last, x.stage⟩ x.tok

theorem State.lane_laneToQueue (s : State) (r : RowId) (lane k q : Nat) (x : QTok) (ts : List QTok) :
    (((s.laneToQueue r lane k q x ts).row r).lane lane).toks = ts := by
  simp [State.laneToQueue, State.lane_push_queue]

theorem State.queue_laneToQueue (s : State) (r : RowId) (lane k q : Nat) (x : QTok) (ts : List QTok) :
    (((s.laneToQueue r lane k q x ts).node ⟨r, k⟩).queue q).toks = ((s.node ⟨r, k⟩).queue q).toks ++
      [{ tok := x.tok, last := x.last, stage := x.stage, at_ := s.cyc r.die }] := by
  rw [State.laneToQueue, State.queue_push_queue, s.node_setRow_of_nodes (x := (s.row r).setLane lane _) rfl]
  rfl

/-- Where the token has come and is unclaimed, its map is loaded and its queue has a free slot, INGRESS_FORWARD hands it on, and the
row before may end its switch (R165, R369, R372). -/
theorem State.ingressForward_moves {s : State} {r : RowId} {lane kb k q : Nat} {b : Band} {x : QTok} {ts : List QTok}
    (hb : s.bandOf r = some (kb, b)) (ht : ((s.row r).lane lane).toks = x :: ts) (hc : x.claim = 0) (ha : x.at_ ≤ s.cyc r.die)
    (hm : b.imap x.stage lane = some (k, q)) (hr : s.rowRuns r = true) (hl : (s.row r).reel.mapLoaded x.stage = true)
    (hf : 1 ≤ s.destFree (.queue ⟨r, k⟩ q)) :
    s.ingressForward r lane = (b.before r).elim (s.laneToQueue r lane k q x ts) (s.laneToQueue r lane k q x ts).rowSwitch := by
  have hgo : (!s.rowRuns r || !(s.row r).reel.mapLoaded x.stage || decide (s.destFree (.queue ⟨r, k⟩ q) = 0) ||
      decide (x.claim ≠ 0) || decide (s.cyc r.die < x.at_)) = false := by
    simp [hr, hl, hc, Nat.ne_of_gt hf, ha]
  simp only [State.ingressForward, hb, ht, hm, hgo]
  cases b.before r <;> rfl

/-! ## A key purges a row -/

theorem tget_map_val {α β : Type} (f : α → β) (t : Tbl α) (k : Nat) : tget (t.map fun e => (e.1, f e.2)) k = (tget t k).map f := by
  induction t with
  | nil => rfl
  | cons e t ih =>
    obtain ⟨j, a⟩ := e
    simp only [List.map_cons, tget]
    split
    · rfl
    · exact ih

/-- A change of every listed value is one of every value, where it leaves the reset value as it is. -/
theorem tgetD_map_val {α : Type} {f : α → α} {d : α} (hd : f d = d) (t : Tbl α) (k : Nat) :
    tgetD (t.map fun e => (e.1, f e.2)) k d = f (tgetD t k d) := by
  rw [tgetD, tget_map_val, tgetD]
  cases tget t k
  · exact hd.symm
  · rfl

/-- A token stays in its queue when a key comes, unless it is unclaimed and killed (R189). -/
def staysAfter (key : BitVec 24) (sh : Nat) (x : QTok) : Bool := !(x.claim = 0 && killsTok key sh x.tok)

theorem Node.purge_qs (n : Node) (key : BitVec 24) (sh : Nat) : (n.purge key sh).1.qs = n.qs.map fun e => (e.1, (e.2.purge key sh).1) := by
  simp [Node.purge, Function.comp_def]

theorem Node.queue_purge (n : Node) (key : BitVec 24) (sh j : Nat) :
    ((n.purge key sh).1.queue j).toks = (n.queue j).toks.filter (staysAfter key sh) := by
  rw [Node.queue, Node.purge_qs, tgetD_map_val (f := fun q : Queue => (q.purge key sh).1) rfl]
  rfl

theorem State.node_purgeRow {s : State} {n : NodeId} {r : RowId} (hn : n.row = r) (key : BitVec 24) (sh : Nat) :
    (s.purgeRow r key sh).node n = ((s.node n).purge key sh).1 := by
  subst hn
  have hmap : ((s.row n.row).nodes.map fun e => (e.1, e.2.purge key sh)).map (fun e => (e.1, e.2.1)) =
      (s.row n.row).nodes.map fun e => (e.1, (e.2.purge key sh).1) := by simp [Function.comp_def]
  rw [State.purgeRow, State.node_count, State.node_setRow, if_pos rfl, hmap,
    tgetD_map_val (f := fun x : Node => (x.purge key sh).1) rfl]
  rfl

/-! ## A key comes to a KCHK slot -/

/-- A key that a KCHK slot has room for purges the row and joins the slot's list (R189). -/
theorem State.addKey_of_lt {s : State} {l : Loc} (key : BitVec 24) (sh : BitVec 5) (hk : s.isKchk l = true)
    (h : (keysOf ((s.node l.nd).prog l.slot)).length < 8) :
    s.addKey l key sh = (s.purgeRow l.nd.row key sh.toNat).setNode l.nd (((s.purgeRow l.nd.row key sh.toNat).node l.nd).setProg l.slot
      (.keys (keysOf ((s.node l.nd).prog l.slot) ++ [(key, sh)]))) := by
  simp [State.addKey, hk, Nat.not_le.mpr h]

/-- A ninth key faults (R189). -/
theorem State.addKey_of_ge {s : State} {l : Loc} (key : BitVec 24) (sh : BitVec 5) (hk : s.isKchk l = true)
    (h : 8 ≤ (keysOf ((s.node l.nd).prog l.slot)).length) :
    s.addKey l key sh = s.raise l.nd l.slot 0x063 { a := key.setWidth 32, tag := key } := by
  simp [State.addKey, hk, h]

theorem State.keysOf_addKey {s : State} {l : Loc} (key : BitVec 24) (sh : BitVec 5) (hk : s.isKchk l = true)
    (h : (keysOf ((s.node l.nd).prog l.slot)).length < 8) :
    keysOf (((s.addKey l key sh).node l.nd).prog l.slot) = keysOf ((s.node l.nd).prog l.slot) ++ [(key, sh)] := by
  rw [State.addKey_of_lt key sh hk h, State.node_setNode, Node.prog_setProg]
  rfl

theorem State.queue_addKey {s : State} {l : Loc} {n : NodeId} (key : BitVec 24) (sh : BitVec 5) (hk : s.isKchk l = true)
    (h : (keysOf ((s.node l.nd).prog l.slot)).length < 8) (hn : n.row = l.nd.row) (j : Nat) :
    (((s.addKey l key sh).node n).queue j).toks = ((s.node n).queue j).toks.filter (staysAfter key sh.toNat) := by
  rw [State.addKey_of_lt key sh hk h, State.node_setNode_eq_ite]
  split
  · rename_i hsame
    obtain rfl : n = l.nd := by
      obtain ⟨row, node⟩ := n
      exact (NodeId.mk.injEq ..).mpr ⟨hn, hsame.2⟩
    rw [Node.queue_setProg, State.node_purgeRow rfl, Node.queue_purge]
  · rw [State.node_purgeRow hn, Node.queue_purge]

@[simp] theorem State.node_raise (s : State) (n : NodeId) (slot : Nat) (c : Cause) (x : FInfo) (m : NodeId) :
    (s.raise n slot c x).node m = s.node m := by
  rcases State.raise_cases s n slot c x with h | ⟨k, g, f, -, -, -, h⟩
  · rw [h]
  · rw [h]; rfl

/-- After a fault in a running region the region freezes: it has begun now, or had before (R334, R335). -/
theorem State.frz_isSome_raise {s : State} {n : NodeId} {k : Nat} {g : Region} (slot : Nat) (c : Cause) (x : FInfo)
    (hr : s.regionOf n.row = some (k, g)) (hs : (s.region n.row.die k).st = .running) :
    ((s.raise n slot c x).region n.row.die k).frz.isSome = true := by
  cases hf : (s.region n.row.die k).frz with
  | none => rw [State.raise_begins slot c x hr hf hs, State.region_setRegion]; rfl
  | some f =>
    rcases State.raise_cases s n slot c x with h | ⟨k', g', f', hr', -, -, h⟩
    · rw [h, hf]; rfl
    · obtain rfl : k = k' := (Prod.mk.inj (Option.some.inj (hr.symm.trans hr'))).1
      rw [h, State.region_setRegion]; rfl

/-! ## A kill has reached a place -/

/-- To wake a firing changes at most the firings in the nodes. -/
theorem State.node_wake (s : State) (n : NodeId) (id : Nat) (f : Firing → Firing) (m : NodeId) :
    ∃ fs, (s.wake n id f).node m = { s.node m with fly := fs } := by
  unfold State.wake
  split
  · exact ⟨_, rfl⟩
  · rename_i y _
    rw [State.setFiring, State.node_setNode_eq_ite]
    split
    · rename_i hm
      obtain ⟨hrow, hnode⟩ := hm
      have : s.node n = s.node m := by simp only [State.node, State.row, hrow, hnode]
      exact ⟨_, by rw [this]; rfl⟩
    · exact ⟨_, rfl⟩

theorem State.region_wake (s : State) (n : NodeId) (id : Nat) (f : Firing → Firing) (d k : Nat) :
    (s.wake n id f).region d k = s.region d k := by
  unfold State.wake
  split <;> rfl

theorem State.node_killDone (s : State) (d k : Nat) (m : KillMsg) (n : NodeId) :
    ∃ fs, (s.killDone d k m).node n = { s.node n with fly := fs } := by
  unfold State.killDone
  split
  · exact State.node_wake _ _ _ _ n
  · exact ⟨_, rfl⟩

@[simp] theorem State.queue_killDone (s : State) (d k : Nat) (m : KillMsg) (n : NodeId) (j : Nat) :
    ((s.killDone d k m).node n).queue j = (s.node n).queue j := by
  obtain ⟨fs, h⟩ := s.node_killDone d k m n
  rw [h]; rfl

@[simp] theorem State.prog_killDone (s : State) (d k : Nat) (m : KillMsg) (n : NodeId) (j : Nat) :
    ((s.killDone d k m).node n).prog j = (s.node n).prog j := by
  obtain ⟨fs, h⟩ := s.node_killDone d k m n
  rw [h]; rfl

@[simp] theorem State.region_killDone (s : State) (d k : Nat) (m : KillMsg) (i : Nat) :
    (s.killDone d k m).region d i = s.region d i := by
  unfold State.killDone
  split
  · rw [State.region_wake]
    simp [State.region]
  · simp [State.region]

/-- At a slot of a running region that the kill still has to reach, KILL_ARRIVAL brings the key, and takes the slot off the kill's
list (R188, R189). -/
theorem State.killArrival_of_running {s : State} {l : Loc} {k kr : Nat} {m : KillMsg} {rg : Region}
    (hk : tget (s.die l.nd.row.die).kills k = some m) (hd : m.dst.contains l = true) (hr : s.regionOf l.nd.row = some (kr, rg))
    (hs : rg.st = .running) : ∃ m', s.killArrival l k = (s.addKey l m.key m.sh).killDone l.nd.row.die k m' := by
  have hz : rg.st ≠ .frozen := by rw [hs]; decide
  exact ⟨_, by simp only [State.killArrival, hk, hr, hd, if_neg hz, if_true]; rfl⟩

/-- Settles O49: the ingress by the token's move, the kill by what the key does at its slot. -/
theorem ingressAndKills : Obligations.IngressAndKills := by
  intro s r lane kb k q b x ts l m kr rg qOf ld ks
  refine ⟨fun hok hlane hb ht hc ha hm hr hl hf => ?ingress, fun hok hk hd hr hs hkchk => ?kill⟩
  case ingress =>
    refine ⟨s.laneToQueue r lane k q x ts, ?_, State.lane_laneToQueue .., State.queue_laneToQueue ..⟩
    have hx : exec (.ingressForward r lane) s = .next (s.ingressForward r lane) := if_pos (by simp [eventOk, hok, hlane])
    rw [hx, State.ingressForward_moves hb ht hc ha hm hr hl hf]
    cases b.before r <;> rfl
  case kill =>
    obtain ⟨m', hu⟩ := State.killArrival_of_running hk hd hr hs
    have hx : exec (.killArrival l k) s = .next ((s.addKey l m.key m.sh).killDone l.nd.row.die k m') := hu ▸ if_pos hok
    refine ⟨fun hlt => ⟨_, hx, ?_, fun n j hn => ?_⟩, fun hge => ⟨_, hx, ?_, fun j => ?_, fun hrg => ?_⟩⟩
    · rw [State.prog_killDone, State.keysOf_addKey _ _ hkchk hlt]
    · simp only [qOf, State.queue_killDone]
      exact State.queue_addKey _ _ hkchk hlt hn j
    · rw [State.prog_killDone, State.addKey_of_ge _ _ hkchk hge, State.node_raise]
    · simp only [qOf, State.queue_killDone, State.addKey_of_ge _ _ hkchk hge, State.node_raise]
    · rw [State.region_killDone, State.addKey_of_ge _ _ hkchk hge]
      exact State.frz_isSome_raise _ _ _ hr (hrg ▸ hs)

end Sys2Proof.Machine
end
